-- ==== Sys2Proof/Word.lean ====
section
/-! DEFINITION. The bit-vector types of the links: words of 16 bits, bytes of 8 bits (R183), and the part's 32-bit
counts (R1, R135, R178), which wrap. -/
namespace Sys2Proof

/-- A word of a command burst or of a reply (R151, R183). -/
abbrev Word := BitVec 16

/-- One byte of a burst (R183). -/
abbrev Byte := BitVec 8

/-- A count that wraps at 2^32: output counts, sample indices, event counter values. -/
abbrev Count := BitVec 32

end Sys2Proof
end

