-- ==== Sys2Proof/Config.lean ====
section
/-! DEFINITION. What is fixed for the part: the names of the commands of a burst (the catalogue of file 09), the six
commands that AT can defer (R96), and the capacities of the part's queues. The spec leaves no value undefined, so no
free value stands here. -/
namespace Sys2Proof

/-- The command names of the catalogue of spec/09 (R153). -/
inductive Op where
  | nop | bind | unbind | setMask | setRate | setServo | setGain | clearOutput | setFilter | readOutput
  | setMaster | setInvert | setOverride | atCue | cancelBatch | flushCues | jobRecode | jobScan | setArb
  | setActive | setDelay | setTable | setRow | setColumn | read | patchBegin | patchEnd | readFeed | resetPart
  | setRelay | counterSelect | counterLoad | counterRead
  deriving DecidableEq, Repr

/-- A deferred command with its argument words as received (R96). -/
inductive Deferred where
  | setGain (output slot code ramp : Word)
  | clearOutput (output ramp : Word)
  | setMaster (level : Word)
  | setInvert (output mode : Word)
  | setDelay (output delay : Word)
  | unbind (slot fadeCode : Word)
  deriving DecidableEq, Repr

/-- Places of the inbound command queue (R149). -/
def Config.inboundPlaces : Nat := 4

/-- Places of the reply queue (R171). -/
def Config.replyPlaces : Nat := 8

/-- Places of the relay queue (R176). -/
def Config.relayPlaces : Nat := 4

/-- Places of the through queue (R177). -/
def Config.throughPlaces : Nat := 4

/-- Places of the walker's job queue (R116). -/
def Config.jobPlaces : Nat := 8

/-- Places of the cue list (R96). -/
def Config.cuePlaces : Nat := 64

/-- Mix entries of the part (R57). -/
def Config.mixEntries : Nat := 1024

/-- Read words that a reply can hold (R157). -/
def Config.readWords : Nat := 64

end Sys2Proof
end

