-- ==== Sys2Proof/Syntax.lean ====
section
/-! DEFINITION. The commands of the block: one constructor for each row of spec/opcode_table.json, in the table's order.
A row that is a command of a burst carries its argument words; an event carries what it brings (bytes, straps) or the
channel, list and feed it is about. -/
namespace Sys2Proof

/-- One event of the part. `pending : List Instr` of the state is the order in which events are taken. -/
inductive Instr where
  /-- POWER_ON_RESET: NRST, with the straps ADDR3..ADDR0 as they stand when the part leaves reset (R22, R184). -/
  | powerOnReset (straps : BitVec 4)
  /-- FEED_LINK_RESET: the feed link goes from DOWN to UP (R187). -/
  | feedLinkReset
  /-- FEED_LINK_DOWN: the feed link loses lock (R184). -/
  | feedLinkDown
  /-- SPEAKER_LINK_UP: the speaker clock is recovered (R134). -/
  | speakerLinkUp
  /-- SPEAKER_LINK_DOWN: the speaker link is lost (R134). -/
  | speakerLinkDown
  /-- FEED_BURST_RECEIVED: the last byte of a burst on the feed link's forward lane (R184). -/
  | feedBurstReceived (bytes : List Byte)
  /-- AMPLIFIER_REPLY_RECEIVED: the last byte of a burst on the speaker link's return lane (R185). -/
  | amplifierReplyReceived (bytes : List Byte)
  /-- PERIOD_START: a sample time of the speaker clock (R135). -/
  | periodStart
  /-- CHANNEL_COMPUTE: the summing engine comes to one channel (R79). -/
  | channelCompute (channel : Nat)
  /-- FRAME_EVENT (R139). -/
  | frameEvent
  /-- FOREIGN_BURST_SEND: a foreign burst starts in the gap (R177). -/
  | foreignBurstSend
  /-- PERIOD_CLOSE (R47, R135). -/
  | periodClose
  /-- RAMP_END: the final ramp step of the entry of a feed in a list (R77). -/
  | rampEnd (output feed : Nat)
  /-- AUTO_RELEASE: the final ramp step of an entry falling to code 0 (R69). -/
  | autoRelease (output feed : Nat)
  /-- FADE_COMPLETION: the final fade step of a feed (R11). -/
  | fadeCompletion (feed : Nat)
  /-- DIP_DELAY_MOVE: the dip step that ends a fall (R144). -/
  | dipDelayMove (channel : Nat)
  /-- DIP_RISE_END: the dip step that ends a rise (R144). -/
  | dipRiseEnd (channel : Nat)
  /-- SERVO_EXPIRY (R47). -/
  | servoExpiry
  /-- BURST_TAKE (R150). -/
  | burstTake
  /-- TABLE_WRITE: a DATA word of the burst in execution (R161). -/
  | tableWrite (data : Word)
  /-- BIND (R9). -/
  | bind (streamId slot bank stepHigh stepLow : Word)
  /-- UNBIND (R10). -/
  | unbind (slot fadeCode : Word)
  /-- SET MASK (R7). -/
  | setMask (mask : Word)
  /-- SET RATE (R41). -/
  | setRate (slot stepHigh stepLow bank threshold : Word)
  /-- SET SERVO (R53). -/
  | setServo (mode slot target gain limit interval : Word)
  /-- SET GAIN at its edit step (R63). -/
  | setGain (output slot code ramp : Word)
  /-- CLEAR OUTPUT at its edit step (R67). -/
  | clearOutput (output ramp : Word)
  /-- SET FILTER (R68). -/
  | setFilter (mode : Word)
  /-- READ OUTPUT (R72). -/
  | readOutput (output firstFeed : Word)
  /-- SET MASTER (R85). -/
  | setMaster (level : Word)
  /-- SET INVERT (R86). -/
  | setInvert (output mode : Word)
  /-- SET OVERRIDE (R90). -/
  | setOverride (mode monitor mask1 mask2 mask3 mask4 : Word)
  /-- AT, with the command it defers (R102). -/
  | atCue (dueHigh dueLow batch : Word) (deferred : Deferred)
  /-- CANCEL BATCH (R111). -/
  | cancelBatch (batch : Word)
  /-- FLUSH CUES (R112). -/
  | flushCues
  /-- JOB RECODE (R125). -/
  | jobRecode (output firstFeed count table ramp notify : Word)
  /-- JOB SCAN (R125). -/
  | jobScan (output firstFeed count table : Word)
  /-- SET ARB (R132). -/
  | setArb (limiting cmdBurst walkBurst : Word)
  /-- SET ACTIVE (R137). -/
  | setActive (count : Word)
  /-- SET DELAY (R146). -/
  | setDelay (output delay : Word)
  /-- SET TABLE (R160). -/
  | setTable (table : Word)
  /-- SET ROW (R160). -/
  | setRow (row : Word)
  /-- SET COLUMN (R160). -/
  | setColumn (column : Word)
  /-- READ (R162). -/
  | read (steps : Word)
  /-- PATCH BEGIN (R163). -/
  | patchBegin
  /-- PATCH END (R163). -/
  | patchEnd
  /-- NOP (R166). -/
  | nop
  /-- READ FEED (R167). -/
  | readFeed (slot : Word)
  /-- RESET PART (R168). -/
  | resetPart
  /-- SET RELAY (R175). -/
  | setRelay (mode : Word)
  /-- COUNTER SELECT (R179). -/
  | counterSelect (counter event : Word)
  /-- COUNTER LOAD (R180). -/
  | counterLoad (counter valueHigh valueLow : Word)
  /-- COUNTER READ (R181). -/
  | counterRead (counter : Word)
  /-- JOB_START (R118). -/
  | jobStart
  /-- PURGE_STEP (R120). -/
  | purgeStep
  /-- RECODE_STEP (R121). -/
  | recodeStep
  /-- SCAN_STEP (R123). -/
  | scanStep
  /-- HELD_REPORT_POST (R124). -/
  | heldReportPost
  /-- RETURN_LANE_CHOICE (R174). -/
  | returnLaneChoice
  /-- RETURN_SEND_END (R174). -/
  | returnSendEnd
  deriving DecidableEq, Repr

end Sys2Proof
end

