-- ==== Sys2Proof/Decode.lean ====
section
/-! DEFINITION. Reading command names and markers from the words of a command burst (R153, R184), and the table-word
decoder, which answers none: no row of spec/opcode_table.json has bits. -/
namespace Sys2Proof

/-- No row of the table has bits, so no word spells a row (log entry 21). -/
def decodeTableWord (_nbits _w : Nat) : Option Instr := none

/-- The OP word of a command name (the table of R184). -/
def Op.word : Op → Word
  | .nop => 0x0100#16
  | .bind => 0x0110#16
  | .unbind => 0x0111#16
  | .setMask => 0x0112#16
  | .setRate => 0x0120#16
  | .setServo => 0x0130#16
  | .setGain => 0x0140#16
  | .clearOutput => 0x0141#16
  | .setFilter => 0x0142#16
  | .readOutput => 0x0143#16
  | .setMaster => 0x0150#16
  | .setInvert => 0x0151#16
  | .setOverride => 0x0152#16
  | .atCue => 0x0160#16
  | .cancelBatch => 0x0161#16
  | .flushCues => 0x0162#16
  | .jobRecode => 0x0170#16
  | .jobScan => 0x0171#16
  | .setArb => 0x0172#16
  | .setActive => 0x0180#16
  | .setDelay => 0x0181#16
  | .setTable => 0x0190#16
  | .setRow => 0x0191#16
  | .setColumn => 0x0192#16
  | .read => 0x0193#16
  | .patchBegin => 0x0194#16
  | .patchEnd => 0x0195#16
  | .readFeed => 0x01A0#16
  | .resetPart => 0x01AF#16
  | .setRelay => 0x01B0#16
  | .counterSelect => 0x01B1#16
  | .counterLoad => 0x01B2#16
  | .counterRead => 0x01B3#16

/-- The command names, in the order of the table of R184. -/
def opNames : List Op :=
  [.nop, .bind, .unbind, .setMask, .setRate, .setServo, .setGain, .clearOutput, .setFilter, .readOutput,
   .setMaster, .setInvert, .setOverride, .atCue, .cancelBatch, .flushCues, .jobRecode, .jobScan, .setArb,
   .setActive, .setDelay, .setTable, .setRow, .setColumn, .read, .patchBegin, .patchEnd, .readFeed, .resetPart,
   .setRelay, .counterSelect, .counterLoad, .counterRead]

/-- The command an OP word names; any other value names none (R153, R184). -/
def opOfWord (w : Word) : Option Op := opNames.find? (fun o => o.word == w)

/-- The number of argument words of a command; for AT its own three (R153 and the catalogue of spec/09). -/
def Op.arity : Op → Nat
  | .nop => 0
  | .bind => 5
  | .unbind => 2
  | .setMask => 1
  | .setRate => 5
  | .setServo => 6
  | .setGain => 4
  | .clearOutput => 2
  | .setFilter => 1
  | .readOutput => 2
  | .setMaster => 1
  | .setInvert => 2
  | .setOverride => 6
  | .atCue => 3
  | .cancelBatch => 1
  | .flushCues => 0
  | .jobRecode => 6
  | .jobScan => 4
  | .setArb => 3
  | .setActive => 1
  | .setDelay => 2
  | .setTable => 1
  | .setRow => 1
  | .setColumn => 1
  | .read => 1
  | .patchBegin => 0
  | .patchEnd => 0
  | .readFeed => 1
  | .resetPart => 0
  | .setRelay => 1
  | .counterSelect => 2
  | .counterLoad => 3
  | .counterRead => 1

/-- Whether AT can defer the command (R96, the catalogue of spec/09). -/
def Op.deferrable : Op → Bool
  | .setGain | .clearOutput | .setMaster | .setInvert | .setDelay | .unbind => true
  | _ => false

/-- Whether the immediate command takes an edit step through the edit port (R62, the catalogue of spec/09). -/
def Op.usesPort : Op → Bool
  | .setGain | .clearOutput => true
  | _ => false

/-- The deferred command that a name and its argument words make (R96, R99). -/
def deferredOf : Op → List Word → Option Deferred
  | .setGain, [a, b, c, d] => some (.setGain a b c d)
  | .clearOutput, [a, b] => some (.clearOutput a b)
  | .setMaster, [a] => some (.setMaster a)
  | .setInvert, [a, b] => some (.setInvert a b)
  | .setDelay, [a, b] => some (.setDelay a b)
  | .unbind, [a, b] => some (.unbind a b)
  | _, _ => none

/-- The name of a deferred command. -/
def Deferred.op : Deferred → Op
  | .setGain _ _ _ _ => .setGain
  | .clearOutput _ _ => .clearOutput
  | .setMaster _ => .setMaster
  | .setInvert _ _ => .setInvert
  | .setDelay _ _ => .setDelay
  | .unbind _ _ => .unbind

/-- The argument words of a deferred command, as received. -/
def Deferred.args : Deferred → List Word
  | .setGain a b c d => [a, b, c, d]
  | .clearOutput a b => [a, b]
  | .setMaster a => [a]
  | .setInvert a b => [a, b]
  | .setDelay a b => [a, b]
  | .unbind a b => [a, b]

/-- The name and argument words by which a burst spells a command, for the rows that are commands of a burst other
than AT and the DATA word (R153). -/
def Instr.spelled : Instr → Option (Op × List Word)
  | .bind a b c d e => some (.bind, [a, b, c, d, e])
  | .unbind a b => some (.unbind, [a, b])
  | .setMask a => some (.setMask, [a])
  | .setRate a b c d e => some (.setRate, [a, b, c, d, e])
  | .setServo a b c d e f => some (.setServo, [a, b, c, d, e, f])
  | .setGain a b c d => some (.setGain, [a, b, c, d])
  | .clearOutput a b => some (.clearOutput, [a, b])
  | .setFilter a => some (.setFilter, [a])
  | .readOutput a b => some (.readOutput, [a, b])
  | .setMaster a => some (.setMaster, [a])
  | .setInvert a b => some (.setInvert, [a, b])
  | .setOverride a b c d e f => some (.setOverride, [a, b, c, d, e, f])
  | .cancelBatch a => some (.cancelBatch, [a])
  | .flushCues => some (.flushCues, [])
  | .jobRecode a b c d e f => some (.jobRecode, [a, b, c, d, e, f])
  | .jobScan a b c d => some (.jobScan, [a, b, c, d])
  | .setArb a b c => some (.setArb, [a, b, c])
  | .setActive a => some (.setActive, [a])
  | .setDelay a b => some (.setDelay, [a, b])
  | .setTable a => some (.setTable, [a])
  | .setRow a => some (.setRow, [a])
  | .setColumn a => some (.setColumn, [a])
  | .read a => some (.read, [a])
  | .patchBegin => some (.patchBegin, [])
  | .patchEnd => some (.patchEnd, [])
  | .nop => some (.nop, [])
  | .readFeed a => some (.readFeed, [a])
  | .resetPart => some (.resetPart, [])
  | .setRelay a => some (.setRelay, [a])
  | .counterSelect a b => some (.counterSelect, [a, b])
  | .counterLoad a b c => some (.counterLoad, [a, b, c])
  | .counterRead a => some (.counterRead, [a])
  | .powerOnReset _ | .feedLinkReset | .feedLinkDown | .speakerLinkUp | .speakerLinkDown | .feedBurstReceived _
  | .amplifierReplyReceived _ | .periodStart | .channelCompute _ | .frameEvent | .foreignBurstSend | .periodClose
  | .rampEnd _ _ | .autoRelease _ _ | .fadeCompletion _ | .dipDelayMove _ | .dipRiseEnd _ | .servoExpiry
  | .burstTake | .tableWrite _ | .atCue _ _ _ _ | .jobStart | .purgeStep | .recodeStep | .scanStep
  | .heldReportPost | .returnLaneChoice | .returnSendEnd => none

/-- *more* of a marker word: its most significant bit (R184). -/
def markerMore (w : Word) : Bool := w.getLsbD 15

/-- *kind* of a marker word: the next bit, set for DATA (R184). -/
def markerIsData (w : Word) : Bool := w.getLsbD 14

end Sys2Proof
end

