-- ==== Sys2Proof/Machine/Table.lean ====
section
/-! DEFINITION. The one form in which the part's records, lists, rings, lines and loadable tables are held: pairs of
position and value with strictly rising positions, and no pair equal to what an unlisted position reads as. What an
unlisted position reads as is a function `d` given at each read and write (the power-on content; log entry 16). -/
namespace Sys2Proof.Machine

/-- A table by position; an unlisted position reads as the table's own default. -/
abbrev Tab (α : Type) := List (Nat × α)

/-- The value at position `k`. -/
def Tab.get {α : Type} (d : Nat → α) (m : Tab α) (k : Nat) : α :=
  match m with
  | [] => d k
  | (a, v) :: r => if a = k then v else Tab.get d r k

/-- The pair (k, v) set before the first pair of a higher position. -/
def Tab.insert {α : Type} (k : Nat) (v : α) : Tab α → Tab α
  | [] => [(k, v)]
  | (a, w) :: r => if k < a then (k, v) :: (a, w) :: r else (a, w) :: Tab.insert k v r

/-- The table with `v` at position `k`; a value equal to the default leaves the position unlisted. -/
def Tab.put {α : Type} [DecidableEq α] (d : Nat → α) (m : Tab α) (k : Nat) (v : α) : Tab α :=
  let rest := m.filter (fun p => p.1 != k)
  if v = d k then rest else Tab.insert k v rest

/-- Every position below `n` replaced by a function of its position and its value. -/
def Tab.update {α : Type} [DecidableEq α] (d : Nat → α) (n : Nat) (f : Nat → α → α) (m : Tab α) : Tab α :=
  (List.range n).foldl (fun t k => Tab.put d t k (f k (Tab.get d t k))) m

/-- The canonical form: positions strictly rise and no pair holds its default. -/
def Tab.wf {α : Type} [DecidableEq α] (d : Nat → α) (m : Tab α) : Bool :=
  decide (m.Pairwise (fun p q => p.1 < q.1)) && m.all (fun p => decide (p.2 ≠ d p.1))

end Sys2Proof.Machine
end

