-- ==== Sys2Proof/Machine/State.lean ====
section
/-! DEFINITION. The state of the part as plain data, block by block (the table "Blocks" of spec/00), why a step can
stop, and the state after power-on reset. INVENTORY.md lists every field with its rule. -/
namespace Sys2Proof.Machine

/-- State of a link (R134, R184). -/
inductive Link where
  | down | up
  deriving DecidableEq, Repr

/-- Lifecycle of a feed slot (R1, R2). -/
inductive Lifecycle where
  | free | live | fading | purging
  deriving DecidableEq, Repr

/-- Flow of a bound feed (R25). -/
inductive Flow where
  | priming | running | starved
  deriving DecidableEq, Repr

/-- The fade fields, present in FADING only (R1, R37). `current` is in extended form. -/
structure Fade where
  current : Int
  remaining : Nat
  increment : Int
  deriving DecidableEq, Repr

/-- The period step a feed has taken in the period in progress: the feed's sample for the period (R27), and whether
the feed was FADING when it took the step (R39). -/
structure StepTaken where
  sample : Int
  fading : Bool
  deriving DecidableEq, Repr

/-- A feed record (R1). An absent field is `none`. -/
structure Feed where
  lifecycle : Lifecycle
  flow : Option Flow
  streamId : Option Word
  /-- set × 4 + way of the directory entry naming the slot. -/
  dirPos : Option Nat
  ring : Tab Int
  /-- W, the index of the next sample to be written. -/
  written : Count
  /-- I, the integer part of the position. -/
  index : Count
  /-- f, the fraction of the position. -/
  frac : Nat
  nominal : Nat
  trim : Int
  servoOn : Bool
  target : Nat
  gain : Nat
  limit : Nat
  threshold : Nat
  bank : Nat
  lastSeq : Option Nat
  fade : Option Fade
  purgePending : Option Bool
  underruns : Nat
  overruns : Nat
  gaps : Nat
  stales : Nat
  clips : Nat
  /-- The period step of the period in progress (R27); none outside a period. -/
  step : Option StepTaken
  deriving DecidableEq, Repr

/-- The feed record of a FREE slot (R1, column "In FREE"). -/
def freeFeed : Feed :=
  { lifecycle := .free, flow := none, streamId := none, dirPos := none, ring := [], written := 0#32, index := 0#32,
    frac := 0, nominal := 2 ^ 24, trim := 0, servoOn := true, target := 16, gain := 32, limit := 16384,
    threshold := 16, bank := 0, lastSeq := none, fade := none, purgePending := none, underruns := 0, overruns := 0,
    gaps := 0, stales := 0, clips := 0, step := none }

/-- A valid directory entry (R3); an invalid one is `none`. -/
structure DirEntry where
  streamId : Word
  slot : Nat
  deriving DecidableEq, Repr

/-- A mix entry in an output list (R56). `readSince` says that the list has been read in the period in progress after
the entry's ramp started (R61). -/
structure MixEntry where
  feed : Nat
  code : Nat
  target : Nat
  current : Int
  remaining : Nat
  increment : Int
  readSince : Bool
  deriving DecidableEq, Repr

/-- One copy of the override state (R88). -/
structure Override where
  on : Bool
  monitor : Nat
  mask : BitVec 64
  deriving DecidableEq, Repr

/-- The override state OFF (R88). -/
def overrideOff : Override := { on := false, monitor := 0, mask := 0#64 }

/-- A cue entry (R96). -/
structure Cue where
  number : Word
  batch : Nat
  due : Count
  late : Bool
  command : Deferred
  deriving DecidableEq, Repr

/-- The recode tables (R126). -/
inductive RecodeTable where
  | a | b
  deriving DecidableEq, Repr

/-- The fields of a RECODE job (R117). -/
structure RecodeJob where
  output : Nat
  first : Nat
  count : Nat
  table : RecodeTable
  ramp : Nat
  notify : Bool
  tag : Word
  deriving DecidableEq, Repr

/-- The fields of a SCAN job (R117). -/
structure ScanJob where
  output : Nat
  first : Nat
  count : Nat
  table : RecodeTable
  tag : Word
  deriving DecidableEq, Repr

/-- A job as queued (R117). -/
inductive Job where
  | purge (slot : Nat)
  | recode (job : RecodeJob)
  | scan (job : ScanJob)
  deriving DecidableEq, Repr

/-- A running job with its cursor (R117). -/
inductive Running where
  | purge (slot next : Nat)
  | recode (job : RecodeJob) (f remaining changed filtered : Nat)
  | scan (job : ScanJob) (f remaining : Nat)
  deriving DecidableEq, Repr

/-- A job report (R122, R123). `found` of a SCAN holds the feed slot and the value. -/
inductive JobReport where
  | recode (tag : Word) (output first remaining : Nat) (exhausted : Bool) (changed filtered : Nat)
  | scan (tag : Word) (output first remaining : Nat) (exhausted : Bool) (found : Option (Nat × Nat))
  deriving DecidableEq, Repr

/-- The walker's three states (R116). -/
inductive Walker where
  | idle
  | running (job : Running)
  | holding (report : JobReport)
  deriving DecidableEq, Repr

/-- The two parties at the edit port (R129). -/
inductive Party where
  | command | walker
  deriving DecidableEq, Repr

/-- The edit port (R129). -/
inductive Port where
  | free | busy
  deriving DecidableEq, Repr

/-- The edit port arbiter (R129). -/
structure Arbiter where
  port : Port
  limiting : Bool
  cmdBurst : Nat
  walkBurst : Nat
  owner : Party
  run : Nat
  cmdRequest : Bool
  walkRequest : Bool
  deriving DecidableEq, Repr

/-- The arbiter after power-on reset and after soft reset (R129). -/
def arbiterReset : Arbiter :=
  { port := .free, limiting := true, cmdBurst := 8, walkBurst := 4, owner := .command, run := 0, cmdRequest := false,
    walkRequest := false }

/-- The dip of a channel (R141). -/
inductive Dip where
  | still
  | falling (level pending : Nat)
  | rising (level : Nat)
  deriving DecidableEq, Repr

/-- What the period in progress has done with a channel: not come to it, computed it (with its frame sample, R145), or
passed it over (R137). -/
inductive ChannelWork where
  | waiting
  | computed (sample : Int)
  | passed
  deriving DecidableEq, Repr

/-- Where the period stands (R135, R140): no period in progress, between its start and its frame event, or after its
frame event. -/
inductive Phase where
  | between | computing | framed
  deriving DecidableEq, Repr

/-- An end that the close in progress still owes: the final step of a ramp, fade, dip or servo interval. -/
inductive CloseWork where
  | rampEnd (output feed : Nat)
  | autoRelease (output feed : Nat)
  | fadeCompletion (feed : Nat)
  | dipDelayMove (channel : Nat)
  | dipRiseEnd (channel : Nat)
  | servoExpiry
  deriving DecidableEq, Repr

/-- What the speaker link's forward lane carries or last carried (R140, R177). -/
inductive ForwardLane where
  | idle
  | frame (bytes : List Byte)
  | foreign (bytes : List Byte)
  deriving DecidableEq, Repr

/-- A command burst of the part's own, waiting in the inbound queue (R149). -/
structure Burst where
  tag : Word
  words : List Word
  deriving DecidableEq, Repr

/-- The notes of a reply (R156). -/
structure Notes where
  clamped : Bool
  filtered : Bool
  rowEnd : Bool
  readOverflow : Bool
  late : Bool
  deriving DecidableEq, Repr

/-- The framing of the next word (R152). -/
inductive Framing where
  | marker | singleOp | singleData | bulkOp | bulkData
  deriving DecidableEq, Repr

/-- The parser state (R152). `argWait` holds the arguments taken, so the number still needed is what the command's
arity leaves; `cueWait` holds AT's three arguments and, once named, the deferred command with the arguments taken. -/
inductive Parser where
  | wordWait
  | argWait (op : Op) (args : List Word)
  | cueWait (dueHigh dueLow batch : Word) (named : Option (Op × List Word))
  | bulkOp
  | bulkData
  deriving DecidableEq, Repr

/-- The burst in execution (R150 to R157). -/
structure Exec where
  tag : Word
  rest : List Word
  parser : Parser
  framing : Framing
  executed : Nat
  notes : Notes
  reads : List Word
  deriving DecidableEq, Repr

/-- The load pointer (R158). -/
structure LoadPointer where
  table : Nat
  row : Nat
  column : Nat
  deriving DecidableEq, Repr

/-- The load pointer after power-on reset and after soft reset (R158). -/
def pointerReset : LoadPointer := { table := 0, row := 0, column := 0 }

/-- The refusal codes (the stop codes of R186, OK apart). -/
inductive Code where
  | range | slotBusy | duplicate | setFull | noFeed | poolFull | cueFull | order | jobFull | notEmpty | argMissing
  | unknownOp
  deriving DecidableEq, Repr

/-- A reply (R156). `stop` is none for OK. -/
structure Reply where
  tag : Word
  stop : Option Code
  index : Nat
  executed : Nat
  notes : Notes
  count : Count
  reads : List Word
  deriving DecidableEq, Repr

/-- What an OCCUPIED place of the reply queue holds (R171). -/
inductive ReturnItem where
  | reply (reply : Reply)
  | report (report : JobReport)
  deriving DecidableEq, Repr

/-- The events a counter can select, in the order of their indices (R178). -/
inductive Event where
  | none | feedUnderrun | feedOverrun | seqGap | staleBurst | feedClip | outputClip | cueLate | cueFault | filtered
  | lookupMiss | checkFail | cmdDropped | relayDropped | fwdDropped | outputPeriod
  deriving DecidableEq, Repr

/-- An urgent report (R109, R178). -/
inductive Urgent where
  | cueFault (number : Word) (batch : Nat) (kind : Code) (cancelled : Nat) (command : Op) (late : Bool)
  | alert (counter : Nat) (select : Event) (value : Count)
  deriving DecidableEq, Repr

/-- An event counter (R178). -/
structure Counter where
  select : Event
  value : Count
  deriving DecidableEq, Repr

/-- An event counter after power-on reset and after soft reset (R178). -/
def counterReset : Counter := { select := .none, value := 0#32 }

/-- The relay mode (R174). -/
inductive RelayMode where
  | roundRobin | ownFirst
  deriving DecidableEq, Repr

/-- The return-lane arbiter's turn (R174). -/
inductive Turn where
  | reply | relay
  deriving DecidableEq, Repr

/-- Why a step stops with a fault. -/
inductive Fault where
  /-- Raised by CHANNEL_COMPUTE for a channel the part does not have (above 63, R58). Safe: no such event exists. -/
  | noSuchChannel (channel : Nat)
  deriving DecidableEq, Repr

/-- Why a step is refused. -/
inductive Refusal where
  /-- An instruction whose arm of `exec` has no meaning yet, by its mnemonic. Safe. No arm raises it now. -/
  | notModelled (mnemonic : String)
  deriving DecidableEq, Repr

/-- The state of the part. -/
structure State where
  -- feed link port and speaker link port (R134, R184, R185)
  address : BitVec 4
  feedUp : Link
  feedPartial : List Byte
  speakerUp : Link
  speakerPartial : List Byte
  forwardLane : ForwardLane
  gapOpen : Bool
  -- feed directory (R3, R6): positions set × 4 + way
  dir : Tab (Option DirEntry)
  mask : Word
  -- feed store (R1)
  feeds : Tab Feed
  -- resampler (R42): positions (bank × 65 + row) × 16 + tap
  coef : Tab Word
  -- drift servo (R45)
  servoN : Nat
  servoCount : Nat
  -- mix map (R56 to R58, R60, R68)
  lists : Tab (List MixEntry)
  summed : Tab Bool
  pool : Nat
  filter : Bool
  -- gain law and summing engine (R74, R81, R82, R84, R88)
  gainLaw : Tab Nat
  master : Nat
  invert : Tab Bool
  outClips : Tab Nat
  ovPending : Override
  ovCurrent : Override
  -- cue list (R96, R98)
  cues : List Cue
  cueNumber : Word
  -- walker (R116, R126)
  jobs : List Job
  walker : Walker
  recodeA : Tab Nat
  recodeB : Tab Nat
  -- edit port arbiter (R129)
  arbiter : Arbiter
  -- output stage (R135, R136, R138, R141)
  count : Count
  active : Nat
  slotMap : Tab Nat
  delays : Tab Nat
  readDelays : Tab Nat
  dips : Tab Dip
  lines : Tab (Tab Int)
  phase : Phase
  work : Tab ChannelWork
  closeDue : List CloseWork
  -- command processor (R149, R150, R158)
  inbound : List Burst
  proc : Option Exec
  pointer : LoadPointer
  latch : Word
  patch : Option Nat
  -- return path (R171, R173, R174, R176 to R178)
  replies : List ReturnItem
  urgent : Option Urgent
  further : Nat
  lane : Option (List Byte)
  relayMode : RelayMode
  turn : Turn
  relay : List (List Byte)
  through : List (List Byte)
  counters : Tab Counter
  -- the commands that are waiting, first in first out
  pending : List Instr
  deriving DecidableEq, Repr

/-- The part right after power-on reset (R22, R45, R57, R95, R115, R133, R148, R158, R182, R184). Every table is at its
power-on content, so none lists a position. The straps are DESIGN CHOICE 0 (unsafe, log entry 9). -/
def State.reset : State :=
  { address := 0#4, feedUp := .down, feedPartial := [], speakerUp := .down, speakerPartial := [], forwardLane := .idle,
    gapOpen := false, dir := [], mask := 0xFFFF#16, feeds := [], coef := [], servoN := 256, servoCount := 0,
    lists := [], summed := [], pool := Config.mixEntries, filter := true, gainLaw := [], master := 128, invert := [],
    outClips := [], ovPending := overrideOff, ovCurrent := overrideOff, cues := [], cueNumber := 0#16, jobs := [],
    walker := .idle, recodeA := [], recodeB := [], arbiter := arbiterReset, count := 0#32, active := 64, slotMap := [],
    delays := [], readDelays := [], dips := [], lines := [], phase := .between, work := [], closeDue := [],
    inbound := [], proc := none, pointer := pointerReset, latch := 0#16, patch := none, replies := [], urgent := none,
    further := 0, lane := none, relayMode := .roundRobin, turn := .reply, relay := [], through := [], counters := [],
    pending := [] }

end Sys2Proof.Machine
end

