-- ==== Sys2Proof/Machine/Operands.lean ====
section
/-! DEFINITION. Argument words as numbers and numbers as words: clamps of arguments (spec/00 Conventions, Saturate and
clamp), 32-bit values in two words high half first, serial order of output counts, saturation of results, and the
positions of table entries (R159). -/
namespace Sys2Proof.Machine

/-- The value of two argument words, the high 16 bits first. -/
def wide (high low : Word) : Count := high ++ low

/-- The high 16 bits of a 32-bit value. -/
def highWord (v : Count) : Word := v.extractLsb' 16 16

/-- The low 16 bits of a 32-bit value. -/
def lowWord (v : Count) : Word := v.extractLsb' 0 16

/-- A number as a read word. -/
def natWord (n : Nat) : Word := BitVec.ofNat 16 n

/-- A signed number as a read word, in two's complement (R186). -/
def intWord (n : Int) : Word := BitVec.ofInt 16 n

/-- A flag as a read word: 1 when set. -/
def flagWord (b : Bool) : Word := if b then 1#16 else 0#16

/-- `n` replaced by the nearer end of low..high when it lies outside. -/
def clampNat (low high n : Nat) : Nat := max low (min high n)

/-- Whether the clamp to low..high changes `n`. -/
def clamps (low high n : Nat) : Bool := decide (n < low ∨ high < n)

/-- `x` replaced by the nearer end of low..high when it lies outside. -/
def satInt (low high x : Int) : Int := max low (min high x)

/-- The least sample, −2^23 (spec/00 Conventions). -/
def sampleMin : Int := -8388608

/-- The greatest sample, 2^23 − 1. -/
def sampleMax : Int := 8388607

/-- A result saturated to the sample range. -/
def satSample (x : Int) : Int := satInt sampleMin sampleMax x

/-- Whether the saturation to the sample range changes a result. -/
def saturates (x : Int) : Bool := decide (x < sampleMin ∨ sampleMax < x)

/-- One more on a counter of 0..65535, which stays at 65535 (R20, R84). -/
def bump16 (n : Nat) : Nat := min 65535 (n + 1)

/-- Count `a` is before count `b` in serial order: (b − a) mod 2^32 lies in 1..2^31 − 1. -/
def before (a b : Count) : Bool := decide (1 ≤ (b - a).toNat ∧ (b - a).toNat < 2 ^ 31)

/-- Count `a` is not after count `b`: before or equal. -/
def notAfter (a b : Count) : Bool := decide (a = b) || before a b

/-- A ramp code or fade code after its clamp to 0..12 (R10, R63). -/
def rampCode (w : Word) : Nat := clampNat 0 12 w.toNat

/-- Whether the clamp of a ramp code or fade code changes it. -/
def rampClamps (w : Word) : Bool := clamps 0 12 w.toNat

/-- The nominal step that two argument words give, clamped to 2^22..2^25 (R8, R40). -/
def nominalOf (high low : Word) : Nat := clampNat (2 ^ 22) (2 ^ 25) (wide high low).toNat

/-- Whether the clamp of a nominal step changes it. -/
def nominalClamps (high low : Word) : Bool := clamps (2 ^ 22) (2 ^ 25) (wide high low).toNat

/-- The recode table that an argument word names: 0 for RECODE_A, 1 for RECODE_B (R125). -/
def recodeTableOf (w : Word) : RecodeTable := if w.toNat = 0 then .a else .b

/-- The override mask of four mask words, word 1 for channels 0..15 (R88). -/
def maskOf (m1 m2 m3 m4 : Word) : BitVec 64 := m4 ++ (m3 ++ (m2 ++ m1))

/-- The number of rows of a table (R159). -/
def tableRows (table : Nat) : Nat := if table < 4 then 65 else if table < 7 then 16 else 4

/-- The position of a bank's entry h[row][tap] in the coefficient table. -/
def coefPos (bank row tap : Nat) : Nat := (bank * 65 + row) * 16 + tap

/-- The code or channel that a row and column of a 16-column table name (R159). -/
def cellPos (row column : Nat) : Nat := 16 * row + column

/-- The lifecycle word of READ FEED (R186). -/
def lifecycleWord : Lifecycle → Word
  | .free => 0#16
  | .live => 1#16
  | .fading => 2#16
  | .purging => 3#16

/-- The flow word of READ FEED (R186). -/
def flowWord : Option Flow → Word
  | none => 0#16
  | some .priming => 1#16
  | some .running => 2#16
  | some .starved => 3#16

end Sys2Proof.Machine
end

