-- ==== Sys2Proof/Machine/PowerOn.lean ====
section
/-! DEFINITION. What an unlisted position of each table of the state reads as: its power-on content (log entry 16). -/
namespace Sys2Proof.Machine

/-- The directory after power-on: every entry invalid (R3). -/
def dirInit (_ : Nat) : Option DirEntry := none

/-- The feed store after power-on: every slot FREE (R1). -/
def feedInit (_ : Nat) : Feed := freeFeed

/-- A ring place of a FREE feed, or a delay line place after power-on: 0 (R1, R141). -/
def silence (_ : Nat) : Int := 0

/-- The coefficient banks after power-on, all four the same (R42). -/
def coefInit (pos : Nat) : Word :=
  let p := pos / 16 % 65
  match pos % 16 with
  | 0 => if p = 64 then natWord 32767 else natWord (512 * p)
  | 1 => if p = 0 then natWord 32767 else natWord (32768 - 512 * p)
  | _ => 0#16

/-- The gain law after power-on (R74). -/
def gainLawInit (c : Nat) : Nat := c * 16384 / 255

/-- The identity, the power-on content of the recode tables and of the slot map (R126, R138). -/
def identityInit (c : Nat) : Nat := c

/-- An output list after power-on: empty (R57). -/
def listInit (_ : Nat) : List MixEntry := []

/-- A flag that is OFF or not set after power-on (R60, R82). -/
def offInit (_ : Nat) : Bool := false

/-- A number that is 0 after power-on: clip counters, delays (R84, R141). -/
def zeroInit (_ : Nat) : Nat := 0

/-- A dip after power-on: NONE (R141). -/
def dipInit (_ : Nat) : Dip := .still

/-- A delay line after power-on: all places 0 (R141). -/
def lineInit (_ : Nat) : Tab Int := []

/-- A channel that the period has not come to. -/
def workInit (_ : Nat) : ChannelWork := .waiting

/-- An event counter after power-on (R178). -/
def counterInit (_ : Nat) : Counter := counterReset

end Sys2Proof.Machine
end

