-- ==== Sys2Proof/Machine/Ops.lean ====
section
/-! DEFINITION. The named reads and writes of the part's records and tables, by slot, channel, code or position. All
other files go through them. -/
namespace Sys2Proof.Machine

/-- The feed record of a slot (R1). -/
def State.feed (s : State) (slot : Nat) : Feed := Tab.get feedInit s.feeds slot

/-- The state with the feed record of a slot replaced. -/
def State.setFeed (s : State) (slot : Nat) (f : Feed) : State := { s with feeds := Tab.put feedInit s.feeds slot f }

/-- The directory entry at set × 4 + way (R3). -/
def State.dirEntry (s : State) (pos : Nat) : Option DirEntry := Tab.get dirInit s.dir pos

/-- The state with a directory entry made valid or invalid. -/
def State.setDirEntry (s : State) (pos : Nat) (e : Option DirEntry) : State :=
  { s with dir := Tab.put dirInit s.dir pos e }

/-- Output list c (R58). -/
def State.list (s : State) (c : Nat) : List MixEntry := Tab.get listInit s.lists c

/-- The state with output list c replaced. -/
def State.setList (s : State) (c : Nat) (l : List MixEntry) : State := { s with lists := Tab.put listInit s.lists c l }

/-- The gain law's gain for a code (R74). -/
def State.law (s : State) (code : Nat) : Nat := Tab.get gainLawInit s.gainLaw code

/-- The code that a recode table holds for a code (R126). -/
def State.recode (s : State) (t : RecodeTable) (code : Nat) : Nat :=
  match t with
  | .a => Tab.get identityInit s.recodeA code
  | .b => Tab.get identityInit s.recodeB code

/-- A bank entry h[row][tap] as a word (R42). -/
def State.coefWord (s : State) (bank row tap : Nat) : Word := Tab.get coefInit s.coef (coefPos bank row tap)

/-- The invert flag of a channel (R82). -/
def State.inverted (s : State) (c : Nat) : Bool := Tab.get offInit s.invert c

/-- The clip counter of a channel (R84). -/
def State.clipCount (s : State) (c : Nat) : Nat := Tab.get zeroInit s.outClips c

/-- Whether a list has been summed in the period in progress (R60). -/
def State.isSummed (s : State) (c : Nat) : Bool := Tab.get offInit s.summed c

/-- The slot map's slot for a channel (R138). -/
def State.slotOf (s : State) (c : Nat) : Nat := Tab.get identityInit s.slotMap c

/-- The delay table entry of a channel (R141). -/
def State.delay (s : State) (c : Nat) : Nat := Tab.get zeroInit s.delays c

/-- The read delay of a channel (R141). -/
def State.readDelay (s : State) (c : Nat) : Nat := Tab.get zeroInit s.readDelays c

/-- The dip of a channel (R141). -/
def State.dip (s : State) (c : Nat) : Dip := Tab.get dipInit s.dips c

/-- The state with the dip of a channel replaced. -/
def State.setDip (s : State) (c : Nat) (d : Dip) : State := { s with dips := Tab.put dipInit s.dips c d }

/-- The delay line of a channel (R141). -/
def State.line (s : State) (c : Nat) : Tab Int := Tab.get lineInit s.lines c

/-- What the period in progress has done with a channel. -/
def State.workOf (s : State) (c : Nat) : ChannelWork := Tab.get workInit s.work c

/-- The state with what the period has done with a channel replaced. -/
def State.setWork (s : State) (c : Nat) (w : ChannelWork) : State := { s with work := Tab.put workInit s.work c w }

/-- Event counter k (R178). -/
def State.counter (s : State) (k : Nat) : Counter := Tab.get counterInit s.counters k

/-- The state with event counter k replaced. -/
def State.setCounter (s : State) (k : Nat) (c : Counter) : State :=
  { s with counters := Tab.put counterInit s.counters k c }

/-- The number of reply-queue places that are RESERVED: one while a burst is in execution (R150, R171). -/
def State.reserved (s : State) : Nat := if s.proc.isSome then 1 else 0

/-- A reply-queue place is neither occupied nor reserved (R124, R150). -/
def State.placeFree (s : State) : Bool := decide (s.replies.length + s.reserved < Config.replyPlaces)

end Sys2Proof.Machine
end

