-- ==== Sys2Proof/Machine/Flags.lean ====
section
/-! DEFINITION. What commands and events report: the notes of a reply (R156), the answer of a command's tests and
effect (R155), the urgent slot (R173) and the event counters (R178). -/
namespace Sys2Proof.Machine

/-- No note. -/
def noNotes : Notes := { clamped := false, filtered := false, rowEnd := false, readOverflow := false, late := false }

/-- The note CLAMPED when the condition holds (R156). -/
def clampedIf (b : Bool) : Notes := { noNotes with clamped := b }

/-- The notes of either (R156: a note is present when any command or DATA word set it). -/
def Notes.merge (a b : Notes) : Notes :=
  { clamped := a.clamped || b.clamped, filtered := a.filtered || b.filtered, rowEnd := a.rowEnd || b.rowEnd,
    readOverflow := a.readOverflow || b.readOverflow, late := a.late || b.late }

/-- The answer of a command: refused with a code and no effect, or carried out with its new state, the notes it sets
and the read words it places (R155). -/
inductive Answer where
  | refuse (code : Code)
  | done (state : State) (notes : Notes) (words : List Word)
  deriving DecidableEq, Repr

/-- The words of a unit when they fit in the room that is left (R157). -/
def placeUnit (room : Nat) (words : List Word) : List Word := if words.length ≤ room then words else []

/-- The note READ_OVERFLOW when a unit does not fit (R157). -/
def overflowIf (room : Nat) (words : List Word) : Notes := { noNotes with readOverflow := decide (room < words.length) }

/-- The index of an event (R178). -/
def Event.index : Event → Nat
  | .none => 0
  | .feedUnderrun => 1
  | .feedOverrun => 2
  | .seqGap => 3
  | .staleBurst => 4
  | .feedClip => 5
  | .outputClip => 6
  | .cueLate => 7
  | .cueFault => 8
  | .filtered => 9
  | .lookupMiss => 10
  | .checkFail => 11
  | .cmdDropped => 12
  | .relayDropped => 13
  | .fwdDropped => 14
  | .outputPeriod => 15

/-- The events in the order of their indices. -/
def eventNames : List Event :=
  [.none, .feedUnderrun, .feedOverrun, .seqGap, .staleBurst, .feedClip, .outputClip, .cueLate, .cueFault, .filtered,
   .lookupMiss, .checkFail, .cmdDropped, .relayDropped, .fwdDropped, .outputPeriod]

/-- The event of an index 0..15 (R179). -/
def eventOf (n : Nat) : Event := eventNames.getD n .none

/-- A report offered to the urgent slot: placed when the slot is empty, else one more on the further count (R173). -/
def offerUrgent (r : Urgent) (s : State) : State :=
  match s.urgent with
  | none => { s with urgent := some r, further := 0 }
  | some _ => { s with further := min 255 (s.further + 1) }

/-- One occurrence of an event at one counter: 1 is added when the counter selects it, and an ALERT is offered when the
addition takes the value from 2^31 − 1 to 2^31 (R178). -/
def bumpCounter (e : Event) (s : State) (k : Nat) : State :=
  let c := s.counter k
  if c.select = e then
    let v := c.value + 1#32
    let t := s.setCounter k { c with value := v }
    if v = 0x80000000#32 then offerUrgent (.alert k c.select v) t else t
  else s

/-- The four event counters, in the order in which one occurrence reaches them (R178, log entry 10). -/
def counterNumbers : List Nat := [0, 1, 2, 3]

/-- One occurrence of an event at the four counters, in the order of their numbers (R178, log entry 10). NONE is never
counted. -/
def countEvent (e : Event) (s : State) : State :=
  if e = .none then s else counterNumbers.foldl (bumpCounter e) s

/-- Occurrences of events, one after the other. -/
def countEvents (es : List Event) (s : State) : State := es.foldl (fun t e => countEvent e t) s

end Sys2Proof.Machine
end

