-- ==== Sys2Proof/Machine/Feeds.lean ====
section
/-! DEFINITION. The feed directory and the feed store (spec/01), and the drift servo's settings (spec/03): lookup, BIND,
UNBIND, SET MASK, SET RATE, SET SERVO, READ FEED, the arrival of audio, and the ends of a feed's life. -/
namespace Sys2Proof.Machine

/-- The fill F = W − I, a signed difference of the two 32-bit indices (R1). -/
def Feed.fill (f : Feed) : Int := (f.written - f.index).toInt

/-- A bound feed: LIVE or FADING (R2). -/
def Feed.bound (f : Feed) : Bool := f.lifecycle == .live || f.lifecycle == .fading

/-- The sample at a ring place (R1). -/
def Feed.ringAt (f : Feed) (place : Nat) : Int := Tab.get silence f.ring place

/-- The applied fade ⌊current / 256⌋ (R38). -/
def Fade.applied (d : Fade) : Int := d.current / 256

/-- The set index of a stream id under the hash mask (R4). -/
def setIndex (mask id : Word) : Nat :=
  let m := (id &&& mask).toNat
  (m % 32) ^^^ (m / 32 % 32) ^^^ (m / 1024 % 32) ^^^ (m / 32768)

/-- The directory position of a way of the stream id's set. -/
def wayPos (s : State) (id : Word) (way : Nat) : Nat := setIndex s.mask id * 4 + way

/-- A lookup: the feed slot of the valid way of the id's set that holds the id (R5). -/
def lookup (s : State) (id : Word) : Option Nat :=
  [0, 1, 2, 3].findSome? fun way =>
    match s.dirEntry (wayPos s id way) with
    | some e => if e.streamId = id then some e.slot else none
    | none => none

/-- The lowest-numbered invalid way of the id's set (R9). -/
def freeWay (s : State) (id : Word) : Option Nat :=
  [0, 1, 2, 3].find? fun way => (s.dirEntry (wayPos s id way)).isNone

/-- No directory entry is valid (R7). -/
def directoryEmpty (s : State) : Bool := (List.range 128).all fun pos => (s.dirEntry pos).isNone

/-- The record of a feed that BIND has just placed (R9). -/
def boundFeed (id : Word) (pos nominal bank : Nat) : Feed :=
  { freeFeed with
    lifecycle := .live, flow := some .priming, streamId := some id, dirPos := some pos, nominal := nominal, bank := bank }

/-- BIND (R8, R9). -/
def bindAnswer (id slot bank high low : Word) (s : State) : Answer :=
  if 127 < slot.toNat ∨ 3 < bank.toNat then .refuse .range
  else if (s.feed slot.toNat).lifecycle ≠ .free then .refuse .slotBusy
  else if (lookup s id).isSome then .refuse .duplicate
  else
    match freeWay s id with
    | none => .refuse .setFull
    | some way =>
      let pos := wayPos s id way
      .done ((s.setDirEntry pos (some { streamId := id, slot := slot.toNat })).setFeed slot.toNat
          (boundFeed id pos (nominalOf high low) bank.toNat))
        (clampedIf (nominalClamps high low)) []

/-- The fade that UNBIND starts with a clamped fade code (R37). -/
def fadeStart (code : Nat) : Fade :=
  { current := 4194304, remaining := 2 ^ code, increment := (0 - 4194304 : Int).tdiv (2 ^ code) }

/-- UNBIND (R10, R37). -/
def unbindAnswer (slot code : Word) (s : State) : Answer :=
  if 127 < slot.toNat then .refuse .range
  else if (s.feed slot.toNat).lifecycle ≠ .live then .refuse .noFeed
  else
    .done (s.setFeed slot.toNat
        { s.feed slot.toNat with
          lifecycle := .fading, purgePending := some false, fade := some (fadeStart (rampCode code)) })
      (clampedIf (rampClamps code)) []

/-- SET MASK (R7). -/
def setMaskAnswer (mask : Word) (s : State) : Answer :=
  if directoryEmpty s then .done { s with mask := mask } noNotes [] else .refuse .notEmpty

/-- A PRIMING or STARVED feed whose fill has reached its start threshold becomes RUNNING (R26). -/
def flowTest (f : Feed) : Feed :=
  if (f.flow = some .priming ∨ f.flow = some .starved) ∧ (f.threshold : Int) ≤ f.fill then
    { f with flow := some .running }
  else f

/-- SET RATE (R40, R41). -/
def setRateAnswer (slot high low bank threshold : Word) (s : State) : Answer :=
  if 127 < slot.toNat ∨ 3 < bank.toNat then .refuse .range
  else if !(s.feed slot.toNat).bound then .refuse .noFeed
  else
    .done (s.setFeed slot.toNat (flowTest
        { s.feed slot.toNat with
          nominal := nominalOf high low, bank := bank.toNat, threshold := clampNat 1 48 threshold.toNat }))
      (clampedIf (nominalClamps high low || clamps 1 48 threshold.toNat)) []

/-- The feed changes of SET SERVO in mode 0 or 1 (R53). -/
def servoSettings (on : Bool) (target gain limit : Word) (f : Feed) : Feed :=
  { f with
    servoOn := on, target := clampNat 2 44 target.toNat, gain := clampNat 0 255 gain.toNat, limit := limit.toNat,
    trim := satInt (-(limit.toNat : Int)) limit.toNat f.trim }

/-- The interval word of SET SERVO (R54). -/
def applyInterval (interval : Word) (s : State) : State :=
  if interval.toNat = 0 then s
  else
    let n := clampNat 16 4096 interval.toNat
    if n = s.servoN then s else { s with servoN := n, servoCount := 0 }

/-- Whether the interval word is clamped; 0 keeps the interval and is not (R52). -/
def intervalClamps (interval : Word) : Bool := decide (interval.toNat ≠ 0) && clamps 16 4096 interval.toNat

/-- The two read words of SET SERVO (R54). -/
def servoWords (s : State) : List Word := [natWord s.servoN, natWord s.servoCount]

/-- The effect of SET SERVO past its tests, with the room that the reply has left (R53, R54). -/
def servoDone (room : Nat) (clamped : Bool) (t : State) : Answer :=
  .done t ((clampedIf clamped).merge (overflowIf room (servoWords t))) (placeUnit room (servoWords t))

/-- SET SERVO (R52 to R54). -/
def setServoAnswer (room : Nat) (mode slot target gain limit interval : Word) (s : State) : Answer :=
  if 2 < mode.toNat then .refuse .range
  else if mode.toNat = 2 then servoDone room (intervalClamps interval) (applyInterval interval s)
  else if 127 < slot.toNat then .refuse .range
  else if !(s.feed slot.toNat).bound then .refuse .noFeed
  else
    servoDone room
      (clamps 2 44 target.toNat || clamps 0 255 gain.toNat || intervalClamps interval)
      (applyInterval interval
        (s.setFeed slot.toNat (servoSettings (decide (mode.toNat = 1)) target gain limit (s.feed slot.toNat))))

/-- The 28 words of READ FEED (R167). -/
def feedWords (f : Feed) : List Word :=
  let frac := BitVec.ofNat 32 f.frac
  let nominal := BitVec.ofNat 32 f.nominal
  let trim := BitVec.ofInt 32 f.trim
  [lifecycleWord f.lifecycle, flowWord f.flow, f.streamId.getD 0#16, natWord (f.dirPos.getD 0), intWord f.fill,
   highWord f.index, lowWord f.index, highWord frac, lowWord frac, highWord nominal, lowWord nominal, highWord trim,
   lowWord trim, flagWord f.servoOn, natWord f.target, natWord f.gain, natWord f.limit, natWord f.threshold,
   natWord f.bank,
   (f.lastSeq.map natWord).getD 0xFFFF#16, (f.fade.map fun d => intWord d.applied).getD 0#16,
   (f.fade.map fun d => natWord d.remaining).getD 0#16,
   flagWord (f.purgePending == some true), natWord f.underruns, natWord f.overruns, natWord f.gaps, natWord f.stales,
   natWord f.clips]

/-- READ FEED (R167). -/
def readFeedAnswer (room : Nat) (slot : Word) (s : State) : Answer :=
  if 127 < slot.toNat then .refuse .range
  else
    let words := feedWords (s.feed slot.toNat)
    .done s (overflowIf room words) (placeUnit room words)

/-- The samples of an accepted burst written in burst order while the fill is at most 47; true when the rest are
discarded (R19). -/
def writeSamples : List Int → Feed → Feed × Bool
  | [], f => (f, false)
  | x :: xs, f =>
    if f.fill ≤ 47 then
      writeSamples xs { f with ring := Tab.put silence f.ring (f.written.toNat % 64) x, written := f.written + 1#32 }
    else (f, true)

/-- How far a sequence number lies ahead of the one expected, modulo 256; 0 when none has been accepted (R17). -/
def seqDistance (f : Feed) (seq : Nat) : Nat :=
  match f.lastSeq with
  | none => 0
  | some last => (seq + 256 - (last + 1) % 256) % 256

/-- The record of a feed after an accepted burst: gap count, last sequence number, ring writes with their overrun, and
the flow test (R17 to R19, R26). -/
def acceptBurst (f : Feed) (seq : Nat) (samples : List Int) : Feed :=
  let counted := { f with gaps := if seqDistance f seq = 0 then f.gaps else bump16 f.gaps, lastSeq := some seq }
  let w := writeSamples samples counted
  flowTest { w.1 with overruns := if w.2 then bump16 w.1.overruns else w.1.overruns }

/-- The events of an accepted burst (R17, R19). -/
def acceptEvents (f : Feed) (seq : Nat) (samples : List Int) : List Event :=
  (if seqDistance f seq = 0 then [] else [.seqGap]) ++
    (if (writeSamples samples f).2 then [.feedOverrun] else [])

/-- The arrival of an audio burst (R16 to R19). -/
def audioArrival (id : Word) (seq : Nat) (samples : List Int) (s : State) : State :=
  match lookup s id with
  | none => countEvent .lookupMiss s
  | some slot =>
    let f := s.feed slot
    if !f.bound then s
    else if seqDistance f seq < 128 then
      countEvents (acceptEvents f seq samples) (s.setFeed slot (acceptBurst f seq samples))
    else countEvent .staleBurst (s.setFeed slot { f with stales := bump16 f.stales })

/-- A feed record as it enters PURGING: flow, fade and purge pending become absent (R11, R12). -/
def purgingFeed (f : Feed) : Feed := { f with lifecycle := .purging, flow := none, fade := none, purgePending := none }

/-- Purge completion: the directory entry becomes invalid and the record returns to the values of FREE (R15). -/
def freeSlot (slot : Nat) (s : State) : State :=
  match (s.feed slot).dirPos with
  | some pos => (s.setDirEntry pos none).setFeed slot freeFeed
  | none => s.setFeed slot freeFeed

/-- The trim of a feed that a servo expiry updates (R49). -/
def servoTrim (f : Feed) : Int :=
  satInt (-(f.limit : Int)) f.limit (f.trim + (f.fill - f.target) * f.gain)

/-- A feed record through a servo expiry (R48): updated when bound, RUNNING and its servo ON. -/
def servoFeed (_slot : Nat) (f : Feed) : Feed :=
  if f.bound ∧ f.flow = some .running ∧ f.servoOn then { f with trim := servoTrim f } else f

/-- A servo expiry: the interval counter is set to 0 and every feed record is examined (R47, R48). -/
def servoExpire (s : State) : State :=
  { s with servoCount := 0, feeds := Tab.update feedInit 128 servoFeed s.feeds }

end Sys2Proof.Machine
end

