-- ==== Sys2Proof/Machine/MixMap.lean ====
section
/-! DEFINITION. The mix map (spec/04) and the ramps of its entries (spec/05): SET GAIN, CLEAR OUTPUT, SET FILTER, list
reads, ramp steps and auto-release. -/
namespace Sys2Proof.Machine

/-- The applied gain ⌊current / 256⌋ (R56). -/
def MixEntry.applied (e : MixEntry) : Int := e.current / 256

/-- A ramp started toward a code: target code and gain, remaining count and increment; the current gain stays (R76). -/
def rampStart (s : State) (code ramp : Nat) (e : MixEntry) : MixEntry :=
  { e with
    code := code, target := s.law code, remaining := 2 ^ ramp,
    increment := ((s.law code : Int) * 256 - e.current).tdiv (2 ^ ramp), readSince := false }

/-- The entry for a feed in a list. -/
def entryFor (feed : Nat) (l : List MixEntry) : Option MixEntry := l.find? fun e => e.feed == feed

/-- An entry placed directly before the first entry with a higher feed slot (R58). -/
def insertEntry (e : MixEntry) : List MixEntry → List MixEntry
  | [] => [e]
  | x :: xs => if e.feed < x.feed then e :: x :: xs else x :: insertEntry e xs

/-- The list with the entry for a feed replaced. -/
def changeEntry (feed : Nat) (f : MixEntry → MixEntry) (l : List MixEntry) : List MixEntry :=
  l.map fun e => if e.feed = feed then f e else e

/-- The list with the entry for a feed removed (R58). -/
def removeEntry (feed : Nat) (l : List MixEntry) : List MixEntry := l.filter fun e => e.feed != feed

/-- A fresh entry at current gain 0 (R66). -/
def freshEntry (feed : Nat) : MixEntry :=
  { feed := feed, code := 0, target := 0, current := 0, remaining := 0, increment := 0, readSince := false }

/-- The entry for a feed in list c retargeted to a code with a ramp code (R65). -/
def retarget (c feed code ramp : Nat) (s : State) : State :=
  s.setList c (changeEntry feed (rampStart s code ramp) (s.list c))

/-- An entry for a feed taken from the pool and inserted in list c (R66). -/
def insertRoute (c feed code ramp : Nat) (s : State) : State :=
  { s.setList c (insertEntry (rampStart s code ramp (freshEntry feed)) (s.list c)) with pool := s.pool - 1 }

/-- The entry for a feed returned from list c to the pool, if the list holds one (R69, R120). -/
def releaseRoute (c feed : Nat) (s : State) : State :=
  if (entryFor feed (s.list c)).isSome then
    { s.setList c (removeEntry feed (s.list c)) with pool := s.pool + 1 }
  else s

/-- The notes of an edit with a ramp code (R63, R64). -/
def editNotes (ramp : Word) (filtered : Bool) : Notes := { clampedIf (rampClamps ramp) with filtered := filtered }

/-- SET GAIN (R63 to R66). -/
def setGainAnswer (output slot code ramp : Word) (s : State) : Answer :=
  let c := output.toNat
  let k := slot.toNat
  if 63 < c ∨ 127 < k ∨ 255 < code.toNat then .refuse .range
  else if (s.feed k).lifecycle ≠ .live then .refuse .noFeed
  else
    match entryFor k (s.list c) with
    | some e =>
      if e.code = code.toNat ∧ s.filter then .done (countEvent .filtered s) (editNotes ramp true) []
      else .done (retarget c k code.toNat (rampCode ramp) s) (editNotes ramp false) []
    | none =>
      if code.toNat = 0 then .done (countEvent .filtered s) (editNotes ramp true) []
      else if s.pool = 0 then .refuse .poolFull
      else .done (insertRoute c k code.toNat (rampCode ramp) s) (editNotes ramp false) []

/-- CLEAR OUTPUT leaves the entry as it stands: already falling to code 0, with the filter ON (R67). -/
def clearFilters (s : State) (e : MixEntry) : Bool := decide (e.code = 0) && s.filter

/-- CLEAR OUTPUT (R67). -/
def clearOutputAnswer (output ramp : Word) (s : State) : Answer :=
  let c := output.toNat
  if 63 < c then .refuse .range
  else
    let l := s.list c
    let kept := l.filter (clearFilters s)
    .done
      (countEvents (kept.map fun _ => Event.filtered)
        (s.setList c (l.map fun e => if clearFilters s e then e else rampStart s 0 (rampCode ramp) e)))
      (editNotes ramp (!kept.isEmpty)) []

/-- SET FILTER (R68). -/
def setFilterAnswer (mode : Word) (s : State) : Answer :=
  if 1 < mode.toNat then .refuse .range
  else .done { s with filter := decide (mode.toNat = 1) } noNotes []

/-- The entries of a list as a read leaves them: read since their ramps started (R60, R61). -/
def readEntries (l : List MixEntry) : List MixEntry := l.map fun e => { e with readSince := true }

/-- A ramp step is due at this close (R61). -/
def rampSteps (e : MixEntry) : Bool := e.readSince && decide (0 < e.remaining)

/-- A ramp step that is not the final one; the period is done with (R77). -/
def rampStep (e : MixEntry) : MixEntry :=
  if rampSteps e && decide (1 < e.remaining) then
    { e with remaining := e.remaining - 1, current := e.current + e.increment, readSince := false }
  else { e with readSince := false }

/-- The final ramp step: the current gain is exactly the target (R77). -/
def rampFinal (e : MixEntry) : MixEntry := { e with remaining := 0, current := (e.target : Int) * 256 }

/-- List c as it stands at the close before its ramp steps: a list that was not summed is read now (R60). -/
def listAtClose (s : State) (c : Nat) : List MixEntry :=
  if s.isSummed c then s.list c else readEntries (s.list c)

/-- What the close owes for list c: the final ramp steps, each ending in auto-release when its code is 0 (R69, R77). -/
def listEnds (s : State) (c : Nat) : List CloseWork :=
  ((listAtClose s c).filter fun e => rampSteps e && decide (e.remaining = 1)).map fun e =>
    if e.code = 0 then .autoRelease c e.feed else .rampEnd c e.feed

/-- The lists after the reads and the ramp steps of the close that are not final. -/
def closeLists (s : State) : Tab (List MixEntry) :=
  Tab.update listInit 64 (fun c _ => (listAtClose s c).map rampStep) s.lists

/-- RAMP_END of the entry for a feed in list c (R77). -/
def rampFinish (c feed : Nat) (s : State) : State := s.setList c (changeEntry feed rampFinal (s.list c))

end Sys2Proof.Machine
end

