-- ==== Sys2Proof/Machine/Formats.lean ====
section
/-! DEFINITION. The layouts of bursts and frames (spec/11): the check word, the envelope, what the two ports test, and
the bytes of everything the part sends. -/
namespace Sys2Proof.Machine

/-- One bit through the check register: generator x^16 + x^12 + x^5 + 1 (R183). -/
def crcBit (r : Word) (bit : Bool) : Word :=
  if (r.getLsbD 15) != bit then (r <<< 1) ^^^ 0x1021#16 else r <<< 1

/-- One byte through the check register, most significant bit first (R183). -/
def crcByte (r : Word) (b : Byte) : Word := [7, 6, 5, 4, 3, 2, 1, 0].foldl (fun r k => crcBit r (b.getLsbD k)) r

/-- The check word over a run of bytes: the register starts at FFFFh and is sent without inversion (R183). -/
def checkWord (bytes : List Byte) : Word := bytes.foldl crcByte 0xFFFF#16

/-- A word as two bytes, high byte first (R183). -/
def wordBytes (w : Word) : List Byte := [w.extractLsb' 8 8, w.extractLsb' 0 8]

/-- A 32-bit value as four bytes, high byte first (R183). -/
def countBytes (v : Count) : List Byte := wordBytes (highWord v) ++ wordBytes (lowWord v)

/-- A number below 256 as one byte. -/
def natByte (n : Nat) : Byte := BitVec.ofNat 8 n

/-- A sample as three bytes, two's complement, high byte first (R183). -/
def sampleBytes (x : Int) : List Byte :=
  let v := BitVec.ofInt 24 x
  [v.extractLsb' 16 8, v.extractLsb' 8 8, v.extractLsb' 0 8]

/-- A body in the envelope of R183, with its check word. -/
def envelope (type : Nat) (body : List Byte) : List Byte :=
  let head := natByte type :: (wordBytes (natWord body.length) ++ body)
  head ++ wordBytes (checkWord head)

/-- Byte `n` of a burst as a number; 0 beyond its end. -/
def byteAt (bytes : List Byte) (n : Nat) : Nat := (bytes.getD n 0#8).toNat

/-- Bytes `n` and `n + 1` of a burst as a word, high byte first. -/
def wordAt (bytes : List Byte) (n : Nat) : Word := (bytes.getD n 0#8) ++ (bytes.getD (n + 1) 0#8)

/-- The body length field L (R183). -/
def bodyLength (bytes : List Byte) : Nat := byteAt bytes 1 * 256 + byteAt bytes 2

/-- Test 1: the number of bytes is L + 5, and at least 5 (R184). -/
def lengthAgrees (bytes : List Byte) : Bool :=
  decide (5 ≤ bytes.length ∧ bytes.length = bodyLength bytes + 5)

/-- Test 2: the check word agrees with the bytes before it (R184). -/
def checkAgrees (bytes : List Byte) : Bool :=
  checkWord (bytes.take (bodyLength bytes + 3)) == wordAt bytes (bodyLength bytes + 3)

/-- Test 4: the body of an audio burst (R184). -/
def audioBodyAgrees (bytes : List Byte) : Bool :=
  let c := byteAt bytes 6
  decide (4 ≤ bodyLength bytes ∧ 1 ≤ c ∧ c ≤ 32 ∧ bodyLength bytes = 4 + 3 * c)

/-- Test 5: the body of a command burst (R184). -/
def commandBodyAgrees (bytes : List Byte) : Bool :=
  let l := bodyLength bytes
  decide (l % 2 = 1 ∧ 3 ≤ l ∧ (l - 3) / 2 ≤ 512 ∧ byteAt bytes 3 ≤ 15)

/-- The words of a run of bytes, high byte first. -/
def wordsOf : List Byte → List Word
  | a :: b :: r => (a ++ b) :: wordsOf r
  | _ => []

/-- The samples of a run of bytes, three bytes each (R184). -/
def samplesOf : List Byte → List Int
  | a :: b :: c :: r => ((a ++ b ++ c : BitVec 24)).toInt :: samplesOf r
  | _ => []

/-- The body of a burst. -/
def bodyOf (bytes : List Byte) : List Byte := (bytes.drop 3).take (bodyLength bytes)

/-- What the feed link port makes of a received burst (R184). -/
inductive Received where
  | failed
  | audio (streamId : Word) (seq : Nat) (samples : List Int)
  | command (address : Nat) (tag : Word) (words : List Word)
  deriving DecidableEq, Repr

/-- The tests of the feed link port, in order (R184). -/
def receive (bytes : List Byte) : Received :=
  if !lengthAgrees bytes then .failed
  else if !checkAgrees bytes then .failed
  else if byteAt bytes 0 = 1 then
    if audioBodyAgrees bytes then
      .audio (wordAt bytes 3) (byteAt bytes 5) (samplesOf ((bodyOf bytes).drop 4))
    else .failed
  else if byteAt bytes 0 = 2 then
    if commandBodyAgrees bytes then
      .command (byteAt bytes 3) (wordAt bytes 4) (wordsOf ((bodyOf bytes).drop 3))
    else .failed
  else .failed

/-- The tests of the speaker link port: tests 1 and 2, type 3, and a body of at least one byte (R185). -/
def amplifierAccepted (bytes : List Byte) : Bool :=
  lengthAgrees bytes && checkAgrees bytes && decide (byteAt bytes 0 = 3 ∧ 1 ≤ bodyLength bytes)

/-- The stop code byte (R186). -/
def codeNumber : Option Code → Nat
  | none => 0
  | some .range => 1
  | some .slotBusy => 2
  | some .duplicate => 3
  | some .setFull => 4
  | some .noFeed => 5
  | some .poolFull => 6
  | some .cueFull => 7
  | some .order => 8
  | some .jobFull => 9
  | some .notEmpty => 10
  | some .argMissing => 11
  | some .unknownOp => 12

/-- The notes byte (R186). -/
def notesNumber (n : Notes) : Nat :=
  n.clamped.toNat + 2 * n.filtered.toNat + 4 * n.rowEnd.toNat + 8 * n.readOverflow.toNat + 16 * n.late.toNat

/-- The body's first byte of the part's own replies and reports (R186). -/
def addressByte (address : BitVec 4) : Byte := natByte address.toNat

/-- The bytes of a reply (R186, type 3). -/
def replyBytes (address : BitVec 4) (r : Reply) : List Byte :=
  envelope 3 ([addressByte address] ++ wordBytes r.tag ++ [natByte (codeNumber r.stop), natByte (notesNumber r.notes)] ++
    wordBytes (natWord r.index) ++ wordBytes (natWord r.executed) ++ countBytes r.count ++ [natByte r.reads.length] ++
    r.reads.flatMap wordBytes)

/-- The bytes of an urgent report with its further count (R186, type 4). -/
def urgentBytes (address : BitVec 4) (further : Nat) : Urgent → List Byte
  | .cueFault number batch kind cancelled command late =>
    envelope 4 ([addressByte address, natByte 1, natByte further, natByte batch] ++ wordBytes number ++
      [natByte (codeNumber (some kind)), natByte cancelled, natByte late.toNat, command.word.extractLsb' 0 8])
  | .alert counter select value =>
    envelope 4 ([addressByte address, natByte 2, natByte further, natByte counter, natByte select.index] ++
      countBytes value)

/-- The bytes of a job report (R186, type 5). -/
def reportBytes (address : BitVec 4) : JobReport → List Byte
  | .recode tag output first remaining exhausted changed filtered =>
    envelope 5 ([addressByte address] ++ wordBytes tag ++ [natByte 1, natByte output, natByte first, natByte remaining,
      natByte exhausted.toNat, natByte changed, natByte filtered, 0#8, 0#8])
  | .scan tag output first remaining exhausted found =>
    let hit := found.getD (0, 0)
    envelope 5 ([addressByte address] ++ wordBytes tag ++ [natByte 2, natByte output, natByte first, natByte remaining,
      natByte (exhausted.toNat + 2 * found.isSome.toNat), natByte hit.1, natByte hit.2, 0#8, 0#8])

/-- The bytes of a reply-queue item. -/
def itemBytes (address : BitVec 4) : ReturnItem → List Byte
  | .reply r => replyBytes address r
  | .report r => reportBytes address r

/-- The bytes of a speaker frame with the period's count and its slot samples (R186, type 6). -/
def frameBytes (count : Count) (samples : List Int) : List Byte :=
  envelope 6 (countBytes count ++ [natByte samples.length] ++ samples.flatMap sampleBytes)

end Sys2Proof.Machine
end

