-- ==== Sys2Proof/Machine/Output.lean ====
section
/-! DEFINITION. The output stage (spec/08): delay changes and dips, delay lines, frame samples, the slot map's conflicts and
the speaker frame, SET ACTIVE and SET DELAY. -/
namespace Sys2Proof.Machine

/-- The dip after a delay change with value v, at a read delay (the table of R143). -/
def dipChange (readDelay v : Nat) : Dip → Dip
  | .still => if v = readDelay then .still else .falling 32 v
  | .falling level _ => .falling level v
  | .rising level => if v = readDelay then .rising level else .falling level v

/-- A delay change of channel c with value v (R143). -/
def delayChange (c v : Nat) (s : State) : State :=
  { s.setDip c (dipChange (s.readDelay c) v (s.dip c)) with delays := Tab.put zeroInit s.delays c v }

/-- SET DELAY (R146). -/
def setDelayAnswer (output delay : Word) (s : State) : Answer :=
  if 63 < output.toNat then .refuse .range
  else
    .done (delayChange output.toNat (clampNat 0 1023 delay.toNat) s) (clampedIf (clamps 0 1023 delay.toNat)) []

/-- SET ACTIVE (R137). -/
def setActiveAnswer (n : Word) (s : State) : Answer :=
  .done { s with active := clampNat 1 64 n.toNat } (clampedIf (clamps 1 64 n.toNat)) []

/-- The dip step of a close that does not end a fall or a rise (R144). -/
def dipStep : Dip → Dip
  | .still => .still
  | .falling level pending => if 1 < level then .falling (level - 1) pending else .falling level pending
  | .rising level => if level + 1 < 32 then .rising (level + 1) else .rising level

/-- What the close owes for the dip of channel c: the step that ends a fall or a rise (R144). -/
def dipEnds (s : State) (c : Nat) : List CloseWork :=
  match s.dip c with
  | .still => []
  | .falling level _ => if 1 < level then [] else [.dipDelayMove c]
  | .rising level => if level + 1 < 32 then [] else [.dipRiseEnd c]

/-- DIP_DELAY_MOVE: the fall has reached 0, the read delay takes the pending delay and the dip rises (R144). -/
def dipMove (c : Nat) (s : State) : State :=
  match s.dip c with
  | .falling _ pending => { s.setDip c (.rising 0) with readDelays := Tab.put zeroInit s.readDelays c pending }
  | .still => s
  | .rising _ => s

/-- DIP_RISE_END: the rise has reached 32 (R144). -/
def dipEnd (c : Nat) (s : State) : State :=
  match s.dip c with
  | .rising _ => s.setDip c .still
  | .still => s
  | .falling _ _ => s

/-- The place of a period in every delay line (R142). -/
def linePlace (count : Count) : Nat := count.toNat % 1024

/-- Channel c's line with a value written at the period's place (R142). -/
def writeLine (count : Count) (v : Int) (line : Tab Int) : Tab Int := Tab.put silence line (linePlace count) v

/-- The delayed sample: the place of the period d periods earlier (R142). -/
def delayedSample (count : Count) (d : Nat) (line : Tab Int) : Int :=
  Tab.get silence line (linePlace (count - BitVec.ofNat 32 d))

/-- A delayed sample scaled by the dip, truncated toward zero (R145). -/
def dipScale : Dip → Int → Int
  | .still, x => x
  | .falling level _, x => (x * level).tdiv 32
  | .rising level, x => (x * level).tdiv 32

/-- The line event of a computed channel: its value is written, and its frame sample is formed (R142, R145). -/
def lineEvent (c : Nat) (v : Int) (s : State) : State :=
  let line := writeLine s.count v (s.line c)
  { s.setWork c (.computed (dipScale (s.dip c) (delayedSample s.count (s.readDelay c) line))) with
    lines := Tab.put lineInit s.lines c line }

/-- The channel was computed in the period in progress. -/
def wasComputed (s : State) (c : Nat) : Bool :=
  match s.workOf c with
  | .computed _ => true
  | .waiting => false
  | .passed => false

/-- The delay lines after the close: silence at the period's place of each channel not computed (R142). -/
def closeLines (s : State) : Tab (Tab Int) :=
  Tab.update lineInit 64 (fun c line => if wasComputed s c then line else writeLine s.count 0 line) s.lines

/-- The owner of slot k: the lowest channel below the active count that the map sends there (R139). -/
def slotOwner (s : State) (k : Nat) : Option Nat := (List.range s.active).find? fun c => s.slotOf c == k

/-- The sample that slot k carries (R139). -/
def slotSample (s : State) (k : Nat) : Int :=
  match slotOwner s k with
  | none => 0
  | some c =>
    match s.workOf c with
    | .computed x => x
    | .waiting => 0
    | .passed => 0

/-- The samples of the period's frame, slot 0 first (R139). -/
def frameSamples (s : State) : List Int := (List.range s.active).map (slotSample s)

/-- Every channel below the active count has been computed or passed over (R140). -/
def channelsHandled (s : State) : Bool := (List.range s.active).all fun c => decide (s.workOf c ≠ .waiting)

/-- The frame event: the channels not come to lie at or above the count and are passed over, the frame goes out, and a
gap follows it (R139, R140, R177). -/
def frameSend (s : State) : State :=
  { s with
    phase := .framed, gapOpen := true, forwardLane := .frame (frameBytes s.count (frameSamples s)),
    work := Tab.update workInit 64 (fun _ w => if w = .waiting then .passed else w) s.work }

/-- A slot conflict of channel c stands (R139). -/
def slotConflict (s : State) (c : Nat) : Bool :=
  decide (c < s.active ∧ s.slotOf c < s.active) &&
    (List.range s.active).any fun d => decide (d ≠ c ∧ s.slotOf d = s.slotOf c)

end Sys2Proof.Machine
end

