-- ==== Sys2Proof/Machine/Resampler.lean ====
section
/-! DEFINITION. The resampler (spec/02): the arithmetic of one sample, the position advance, the period step at a sample
request and at the close, and the fade step. -/
namespace Sys2Proof.Machine

/-- The phase p of a fraction (R31). -/
def phaseOf (frac : Nat) : Nat := frac / 2 ^ 18

/-- The blend w of a fraction (R31). -/
def blendOf (frac : Nat) : Nat := frac / 2 ^ 8 % 1024

/-- The blended coefficient c_k (R32). -/
def tapCoef (s : State) (f : Feed) (k : Nat) : Int :=
  let a := (s.coefWord f.bank (phaseOf f.frac) k).toInt
  let b := (s.coefWord f.bank (phaseOf f.frac + 1) k).toInt
  a + (b - a) * (blendOf f.frac : Int) / 1024

/-- The input sample x[I − k] (R24). -/
def tapSample (f : Feed) (k : Nat) : Int := f.ringAt ((f.index - BitVec.ofNat 32 k).toNat % 64)

/-- The accumulated sum (R33). -/
def filterSum (s : State) (f : Feed) : Int :=
  (List.range 16).foldl (fun acc k => acc + tapCoef s f k * tapSample f k) 0

/-- The sum scaled to sample width, rounded half up (R34). -/
def filterScaled (s : State) (f : Feed) : Int := (filterSum s f + 16384) / 32768

/-- A filter result scaled by the applied fade, rounded half up (R38). -/
def fadedSample (f : Feed) (r : Int) : Int :=
  match f.fade with
  | some d => (r * d.applied + 8192) / 16384
  | none => r

/-- The position advance by the effective step (R36). -/
def advance (f : Feed) : Feed :=
  let g : Int := (f.frac : Int) + f.nominal + f.trim
  { f with index := f.index + BitVec.ofInt 32 (g / 2 ^ 24), frac := (g % 2 ^ 24).toNat }

/-- The record of a feed whose period step has been taken with a sample. -/
def stepped (f : Feed) (sample : Int) : Feed :=
  { f with step := some { sample := sample, fading := f.lifecycle == .fading } }

/-- A RUNNING feed with a fill of 0 or less at its period step (R28). -/
def starves (f : Feed) : Bool := decide (f.flow = some .running ∧ f.fill ≤ 0)

/-- A RUNNING feed with a fill of at least 1 at its period step (R28). -/
def plays (f : Feed) : Bool := decide (f.flow = some .running ∧ 1 ≤ f.fill)

/-- The record of a feed that starves: STARVED, one more underrun (R28). -/
def starvedFeed (f : Feed) : Feed := { f with flow := some .starved, underruns := bump16 f.underruns }

/-- The record of a feed after the period step of a sample request (R28). -/
def requestStep (s : State) (f : Feed) : Feed :=
  if plays f then
    let r := filterScaled s f
    stepped (advance { f with clips := if saturates r then bump16 f.clips else f.clips })
      (fadedSample f (satSample r))
  else if starves f then stepped (starvedFeed f) 0
  else stepped f 0

/-- The events of the period step of a sample request (R28, R35). -/
def requestEvents (s : State) (f : Feed) : List Event :=
  if plays f then (if saturates (filterScaled s f) then [.feedClip] else [])
  else if starves f then [.feedUnderrun]
  else []

/-- A sample request to a feed: its sample for the period. The first request takes the period step; a FREE or PURGING
feed gives 0 and takes none (R27, R79, R93). -/
def requestSample (slot : Nat) (s : State) : State × Int :=
  let f := s.feed slot
  if !f.bound then (s, 0)
  else
    match f.step with
    | some t => (s, t.sample)
    | none =>
      let g := requestStep s f
      (countEvents (requestEvents s f) (s.setFeed slot g), (g.step.map StepTaken.sample).getD 0)

/-- The feed takes its period step at the close: bound and not asked in the period (R29). -/
def stepsAtClose (f : Feed) : Bool := f.bound && f.step.isNone

/-- The record of a feed after the period step at the close, for a feed that received no request (R29). -/
def closeStep (f : Feed) : Feed :=
  if !stepsAtClose f then f
  else if plays f then stepped (advance f) 0
  else if starves f then stepped (starvedFeed f) 0
  else stepped f 0

/-- The fade of the feed takes a step at this close: it was FADING at its period step and periods remain (R39). -/
def fadeSteps (f : Feed) : Bool :=
  match f.fade, f.step with
  | some d, some t => t.fading && decide (f.lifecycle = .fading ∧ 0 < d.remaining)
  | _, _ => false

/-- The fade step of this close is the last (R39): fade completion is owed. -/
def fadeEnds (f : Feed) : Bool :=
  match f.fade with
  | some d => fadeSteps f && decide (d.remaining = 1)
  | none => false

/-- A fade step that is not the last (R39). -/
def fadeStep (f : Feed) : Feed :=
  match f.fade with
  | some d =>
    if fadeSteps f && decide (1 < d.remaining) then
      { f with fade := some { d with remaining := d.remaining - 1, current := d.current + d.increment } }
    else f
  | none => f

/-- A feed record through a close: its step if it was not asked, then its fade step, and the period's step is done
with (R29, R39). -/
def closeFeed (_slot : Nat) (f : Feed) : Feed := { fadeStep (closeStep f) with step := none }

/-- The slots whose feeds starve at the step of this close (R29). -/
def closeUnderruns (s : State) : List Nat :=
  (List.range 128).filter fun k => stepsAtClose (s.feed k) && starves (s.feed k)

/-- The slots whose fades end at this close (R39). -/
def closeFades (s : State) : List Nat := (List.range 128).filter fun k => fadeEnds (closeStep (s.feed k))

end Sys2Proof.Machine
end

