-- ==== Sys2Proof/Machine/Summing.lean ====
section
/-! DEFINITION. The summing engine (spec/05): the channel sum, master level, invert and override, SET MASTER, SET INVERT,
SET OVERRIDE, and READ OUTPUT. -/
namespace Sys2Proof.Machine

/-- SET MASTER (R85). -/
def setMasterAnswer (level : Word) (s : State) : Answer :=
  .done { s with master := clampNat 0 255 level.toNat } (clampedIf (clamps 0 255 level.toNat)) []

/-- SET INVERT (R86). -/
def setInvertAnswer (output mode : Word) (s : State) : Answer :=
  if 63 < output.toNat ∨ 1 < mode.toNat then .refuse .range
  else .done { s with invert := Tab.put offInit s.invert output.toNat (decide (mode.toNat = 1)) } noNotes []

/-- SET OVERRIDE (R89, R90). -/
def setOverrideAnswer (mode monitor m1 m2 m3 m4 : Word) (s : State) : Answer :=
  if 1 < mode.toNat ∨ (mode.toNat = 1 ∧ 127 < monitor.toNat) then .refuse .range
  else if mode.toNat = 1 then
    .done { s with ovPending := { on := true, monitor := monitor.toNat, mask := maskOf m1 m2 m3 m4 } } noNotes []
  else .done { s with ovPending := overrideOff } noNotes []

/-- The walk of a list in ascending feed-slot order: each entry's sample is asked for and weighted (R79, R80). -/
def sumEntries : List MixEntry → State → Int → State × Int
  | [], s, acc => (s, acc)
  | e :: es, s, acc =>
    let r := requestSample e.feed s
    sumEntries es r.1 (acc + r.2 * e.applied)

/-- The sum scaled to sample width, rounded half up, before saturation (R80). -/
def sumScaled (acc : Int) : Int := (acc + 8192) / 16384

/-- A value at the master level, rounded half up, before saturation (R81). -/
def leveled (x : Int) (level : Nat) : Int := (x * level + 64) / 128

/-- The polarity stage (R82). -/
def polarity (on : Bool) (z : Int) : Int :=
  if on then (if z = sampleMin then sampleMax else -z) else z

/-- A channel's value from its sum: saturated sum, level, saturation, polarity (R80 to R82). -/
def listValue (acc : Int) (level : Nat) (on : Bool) : Int :=
  polarity on (satSample (leveled (satSample (sumScaled acc)) level))

/-- Whether the value of a channel from its sum was saturated (R84). -/
def listClips (acc : Int) (level : Nat) : Bool :=
  saturates (sumScaled acc) || saturates (leveled (satSample (sumScaled acc)) level)

/-- A channel marked as clipped: its counter and the event OUTPUT_CLIP (R84). -/
def markClip (c : Nat) (clipped : Bool) (s : State) : State :=
  if clipped then
    countEvent .outputClip { s with outClips := Tab.put zeroInit s.outClips c (bump16 (s.clipCount c)) }
  else s

/-- List c read by its summation (R60). -/
def readList (c : Nat) (s : State) : State :=
  { s.setList c (readEntries (s.list c)) with summed := Tab.put offInit s.summed c true }

/-- Channel c computed from its list (R79 to R84) and handed to the output stage (R83, R142). -/
def sumChannel (c : Nat) (s : State) : State :=
  let r := sumEntries (s.list c) s 0
  lineEvent c (listValue r.2 s.master (s.inverted c)) (markClip c (listClips r.2 s.master) (readList c r.1))

/-- Channel c computed under the override (R93) and handed to the output stage. -/
def overrideChannel (c : Nat) (s : State) : State :=
  if s.ovCurrent.mask.getLsbD c then
    let r := requestSample s.ovCurrent.monitor s
    lineEvent c (satSample (leveled r.2 s.master)) (markClip c (saturates (leveled r.2 s.master)) r.1)
  else lineEvent c 0 s

/-- Channel c computed (R79, R93). -/
def computeChannel (c : Nat) (s : State) : State :=
  if s.ovCurrent.on then overrideChannel c s else sumChannel c s

/-- The flags word of READ OUTPUT (R72). -/
def channelFlags (s : State) (c : Nat) : Word :=
  natWord ((s.inverted c).toNat + 2 * (s.ovCurrent.mask.getLsbD c).toNat + 4 * (decide (c < s.active)).toNat +
    8 * (slotConflict s c).toNat)

/-- An entry group of READ OUTPUT (R72). -/
def entryGroup (e : MixEntry) : List Word := [natWord e.feed, natWord e.code, intWord e.applied, natWord e.remaining]

/-- The entries that READ OUTPUT would return: at or above the first feed, at most 14 (R72). -/
def wantedEntries (s : State) (c first : Nat) : List MixEntry :=
  ((s.list c).filter fun e => decide (first ≤ e.feed)).take 14

/-- The header of READ OUTPUT (R72). -/
def outputHeader (s : State) (c groups : Nat) : List Word :=
  [natWord (s.list c).length, natWord s.pool, natWord (s.clipCount c), channelFlags s c, natWord groups]

/-- READ OUTPUT: whole units as far as the room goes (R72, R73). -/
def readOutputAnswer (room : Nat) (output firstFeed : Word) (s : State) : Answer :=
  let c := output.toNat
  if 63 < c ∨ 127 < firstFeed.toNat then .refuse .range
  else if room < 5 then .done s { noNotes with readOverflow := true } []
  else
    let wanted := wantedEntries s c firstFeed.toNat
    let placed := wanted.take ((room - 5) / 4)
    .done s { noNotes with readOverflow := decide (placed.length < wanted.length) }
      (outputHeader s c placed.length ++ placed.flatMap entryGroup)

end Sys2Proof.Machine
end

