-- ==== Sys2Proof/Machine/Cues.lean ====
section
/-! DEFINITION. The cue list (spec/06): acceptance of a cued command, application, cue faults, the due pass, CANCEL BATCH and
FLUSH CUES. -/
namespace Sys2Proof.Machine

/-- The ORDER test (R101): the due time is before the tail's, or stands 2^31 or more after the head's. -/
def outOfOrder (cues : List Cue) (due : Count) : Bool :=
  match cues.head?, cues.getLast? with
  | some h, some t => before due t.due || decide (2 ^ 31 ≤ (due - h.due).toNat)
  | _, _ => false

/-- The entry that an accepted cued command makes (R102). -/
def cueEntry (due : Count) (batch : Word) (d : Deferred) (s : State) : Cue :=
  { number := s.cueNumber, batch := batch.toNat, due := due, late := notAfter due s.count, command := d }

/-- The cue list with an accepted entry at its tail, and the cue number counter risen by 1 (R98, R102). -/
def acceptCue (c : Cue) (s : State) : State :=
  let t := { s with cues := s.cues ++ [c], cueNumber := s.cueNumber + 1#16 }
  if c.late then countEvent .cueLate t else t

/-- AT with the command it defers (R101, R102). -/
def atAnswer (room : Nat) (dueHigh dueLow batch : Word) (d : Deferred) (s : State) : Answer :=
  let due := wide dueHigh dueLow
  if 255 < batch.toNat then .refuse .range
  else if Config.cuePlaces ≤ s.cues.length then .refuse .cueFull
  else if outOfOrder s.cues due then .refuse .order
  else
    let c := cueEntry due batch d s
    .done (acceptCue c s) { overflowIf room [c.number] with late := c.late } (placeUnit room [c.number])

/-- Applying an entry: its command's own tests and effect (R105). -/
def applyDeferred (d : Deferred) (s : State) : Answer :=
  match d with
  | .setGain output slot code ramp => setGainAnswer output slot code ramp s
  | .clearOutput output ramp => clearOutputAnswer output ramp s
  | .setMaster level => setMasterAnswer level s
  | .setInvert output mode => setInvertAnswer output mode s
  | .setDelay output delay => setDelayAnswer output delay s
  | .unbind slot code => unbindAnswer slot code s

/-- The waiting entries of a batch. -/
def inBatch (batch : Nat) (cues : List Cue) : List Cue := cues.filter fun c => decide (c.batch = batch)

/-- The entries of other batches, in their order. -/
def otherBatches (batch : Nat) (cues : List Cue) : List Cue := cues.filter fun c => decide (c.batch ≠ batch)

/-- A cue fault: the waiting entries of the batch are removed, a CUE_FAULT report is offered, and the event is counted
(R108, R109). -/
def cueFault (c : Cue) (code : Code) (s : State) : State :=
  countEvent .cueFault
    (offerUrgent (.cueFault c.number c.batch code (inBatch c.batch s.cues).length c.command.op c.late)
      { s with cues := otherBatches c.batch s.cues })

/-- The application of an entry already taken out of the list: no reply, no note; a refusal is a cue fault (R105). -/
def applyCue (c : Cue) (s : State) : State :=
  match applyDeferred c.command s with
  | .refuse code => cueFault c code s
  | .done t _ _ => t

/-- The due pass of the period's count, with at most n entries applied (R104). -/
def duePass : Nat → State → State
  | 0, s => s
  | n + 1, s =>
    match s.cues with
    | [] => s
    | c :: rest => if notAfter c.due s.count then duePass n (applyCue c { s with cues := rest }) else s

/-- CANCEL BATCH (R111). -/
def cancelBatchAnswer (room : Nat) (batch : Word) (s : State) : Answer :=
  if 255 < batch.toNat then .refuse .range
  else
    let word := natWord (inBatch batch.toNat s.cues).length
    .done { s with cues := otherBatches batch.toNat s.cues } (overflowIf room [word]) (placeUnit room [word])

/-- FLUSH CUES (R112). -/
def flushCuesAnswer (room : Nat) (s : State) : Answer :=
  let word := natWord s.cues.length
  .done { s with cues := [] } (overflowIf room [word]) (placeUnit room [word])

end Sys2Proof.Machine
end

