-- ==== Sys2Proof/Machine/Loader.lean ====
section
/-! DEFINITION. The load pointer, the read latch and patch mode, and the nine loadable tables (spec/09): writes with their
conversions and clamps, read steps, and the pointer commands. -/
namespace Sys2Proof.Machine

/-- The entry at a row and column of a table, as a read returns it (R159). -/
def tableEntry (s : State) (table row column : Nat) : Word :=
  if table < 4 then s.coefWord table row column
  else
    match table with
    | 4 => natWord (s.law (cellPos row column))
    | 5 => natWord (s.recode .a (cellPos row column))
    | 6 => natWord (s.recode .b (cellPos row column))
    | 7 => natWord (s.slotOf (cellPos row column))
    | _ => natWord (s.delay (cellPos row column))

/-- The greatest value a table stores, for the tables whose written words are unsigned (R159). -/
def tableMax (table : Nat) : Nat :=
  match table with
  | 4 => 32767
  | 5 => 255
  | 6 => 255
  | 7 => 63
  | _ => 1023

/-- A word written at a row and column of a table, with its conversion and clamp; GAINLAW stores nothing at code 0
(R42, R75, R126, R138, R143, R159). -/
def writeEntry (table row column : Nat) (w : Word) (s : State) : State :=
  let v := min w.toNat (tableMax table)
  let pos := cellPos row column
  if table < 4 then { s with coef := Tab.put coefInit s.coef (coefPos table row column) w }
  else
    match table with
    | 4 => if pos = 0 then s else { s with gainLaw := Tab.put gainLawInit s.gainLaw pos v }
    | 5 => { s with recodeA := Tab.put identityInit s.recodeA pos v }
    | 6 => { s with recodeB := Tab.put identityInit s.recodeB pos v }
    | 7 => { s with slotMap := Tab.put identityInit s.slotMap pos v }
    | _ => delayChange pos v s

/-- Whether a write sets CLAMPED: a value stored lower than the word written; never for a coefficient or for GAINLAW's
code 0 (R75, R159). -/
def writeClamps (table row column : Nat) (w : Word) : Bool :=
  if table < 4 then false
  else if table = 4 ∧ cellPos row column = 0 then false
  else decide (tableMax table < w.toNat)

/-- The entry under the load pointer; 0 at the row end (R162, R164). -/
def underPointer (s : State) : Word :=
  if s.pointer.column = 16 then 0#16 else tableEntry s s.pointer.table s.pointer.row s.pointer.column

/-- The state with the pointer's column set. -/
def setColumnTo (column : Nat) (s : State) : State := { s with pointer := { s.pointer with column := column } }

/-- The latch refilled from the load pointer. -/
def refillLatch (s : State) : State := { s with latch := underPointer s }

/-- A DATA word taken with no command under way (R161, R164): its effect. -/
def dataWrite (w : Word) (s : State) : State :=
  let written :=
    if s.pointer.column = 16 then s
    else setColumnTo (s.pointer.column + 1) (writeEntry s.pointer.table s.pointer.row s.pointer.column w s)
  if s.patch.isSome then refillLatch written else written

/-- The notes of a DATA word (R159, R161). -/
def dataNotes (w : Word) (s : State) : Notes :=
  if s.pointer.column = 16 then { noNotes with rowEnd := true }
  else clampedIf (writeClamps s.pointer.table s.pointer.row s.pointer.column w)

/-- One read step's effect: the latch is loaded from the pointer, and in normal mode the column rises unless it is at
the row end (R162, R164). -/
def readStep (s : State) : State :=
  let t := refillLatch s
  if s.patch.isSome ∨ s.pointer.column = 16 then t else setColumnTo (s.pointer.column + 1) t

/-- The words that n read steps offer, in order: the latch before each (R162, R164). -/
def readWordsOf : Nat → State → List Word
  | 0, _ => []
  | n + 1, s => s.latch :: readWordsOf n (readStep s)

/-- The state after n read steps. -/
def readSteps : Nat → State → State
  | 0, s => s
  | n + 1, s => readSteps n (readStep s)

/-- READ: each step places one word while the reply has room (R157, R162). -/
def readAnswer (room : Nat) (steps : Word) (s : State) : Answer :=
  if steps.toNat = 0 ∨ 64 < steps.toNat then .refuse .range
  else
    .done (readSteps steps.toNat s) { noNotes with readOverflow := decide (room < steps.toNat) }
      ((readWordsOf steps.toNat s).take room)

/-- SET TABLE (R160). -/
def setTableAnswer (table : Word) (s : State) : Answer :=
  if 8 < table.toNat then .refuse .range
  else .done { s with pointer := { table := table.toNat, row := 0, column := 0 }, patch := none } noNotes []

/-- SET ROW (R160). -/
def setRowAnswer (row : Word) (s : State) : Answer :=
  if tableRows s.pointer.table ≤ row.toNat then .refuse .range
  else .done { s with pointer := { s.pointer with row := row.toNat, column := 0 } } noNotes []

/-- SET COLUMN (R160). -/
def setColumnAnswer (column : Word) (s : State) : Answer :=
  if 15 < column.toNat then .refuse .range else .done (setColumnTo column.toNat s) noNotes []

/-- PATCH BEGIN (R163). -/
def patchBeginAnswer (s : State) : Answer := .done { s with patch := some s.pointer.column } noNotes []

/-- PATCH END (R163). -/
def patchEndAnswer (s : State) : Answer :=
  match s.patch with
  | some column => .done { setColumnTo column s with patch := none } noNotes []
  | none => .done s noNotes []

end Sys2Proof.Machine
end

