-- ==== Sys2Proof/Machine/Return.lean ====
section
/-! DEFINITION. The return path and the queues of the ports (spec/10): the return-lane arbiter, relay and through queues,
SET RELAY, and the event counters' commands. -/
namespace Sys2Proof.Machine

/-- SET RELAY (R175). -/
def setRelayAnswer (mode : Word) (s : State) : Answer :=
  if 1 < mode.toNat then .refuse .range
  else .done { s with relayMode := if mode.toNat = 1 then .ownFirst else .roundRobin } noNotes []

/-- COUNTER SELECT (R179). -/
def counterSelectAnswer (counter event : Word) (s : State) : Answer :=
  if 3 < counter.toNat ∨ 15 < event.toNat then .refuse .range
  else
    .done (s.setCounter counter.toNat { s.counter counter.toNat with select := eventOf event.toNat }) noNotes []

/-- COUNTER LOAD (R180). -/
def counterLoadAnswer (counter high low : Word) (s : State) : Answer :=
  if 3 < counter.toNat then .refuse .range
  else .done (s.setCounter counter.toNat { s.counter counter.toNat with value := wide high low }) noNotes []

/-- The unit of COUNTER READ (R181). -/
def counterWords (c : Counter) : List Word := [natWord c.select.index, highWord c.value, lowWord c.value]

/-- COUNTER READ (R181). -/
def counterReadAnswer (room : Nat) (counter : Word) (s : State) : Answer :=
  if 3 < counter.toNat then .refuse .range
  else
    let words := counterWords (s.counter counter.toNat)
    .done s (overflowIf room words) (placeUnit room words)

/-- The oldest item of the reply queue is sent (R172, R174). -/
def sendReply (item : ReturnItem) (rest : List ReturnItem) (s : State) : State :=
  { s with lane := some (itemBytes s.address item), replies := rest, turn := .relay }

/-- The oldest item of the relay queue is sent unaltered (R174, R176). -/
def sendRelay (item : List Byte) (rest : List (List Byte)) (s : State) : State :=
  { s with lane := some item, relay := rest, turn := .reply }

/-- The urgent report is sent with the further count it holds now (R173, R174). -/
def sendUrgent (r : Urgent) (s : State) : State :=
  { s with lane := some (urgentBytes s.address s.further r), urgent := none, further := 0 }

/-- Replies go first when both queues hold items: by mode and turn (R174). -/
def replyFirst (s : State) : Bool := decide (s.relayMode = .ownFirst) || decide (s.turn = .reply)

/-- The arbiter's choice of one item for a free lane; none waits, nothing is chosen (R174). -/
def chooseItem (s : State) : State :=
  match s.urgent, s.replies, s.relay with
  | some r, _, _ => sendUrgent r s
  | none, [], [] => s
  | none, item :: rest, [] => sendReply item rest s
  | none, [], item :: rest => sendRelay item rest s
  | none, a :: as, b :: bs => if replyFirst s then sendReply a as s else sendRelay b bs s

/-- An amplifier reply arrives at the relay queue (R176). -/
def relayArrival (bytes : List Byte) (s : State) : State :=
  if s.relay.length < Config.relayPlaces then { s with relay := s.relay ++ [bytes] } else countEvent .relayDropped s

/-- A foreign burst arrives at the through queue (R177). -/
def throughArrival (bytes : List Byte) (s : State) : State :=
  if s.through.length < Config.throughPlaces then { s with through := s.through ++ [bytes] }
  else countEvent .fwdDropped s

/-- A burst of the part's own arrives at the inbound queue (R149). -/
def inboundArrival (b : Burst) (s : State) : State :=
  if s.inbound.length < Config.inboundPlaces then { s with inbound := s.inbound ++ [b] } else countEvent .cmdDropped s

end Sys2Proof.Machine
end

