-- ==== Sys2Proof/Machine/Walker.lean ====
section
/-! DEFINITION. The walker and the edit port arbiter (spec/07): jobs and their starts, purge, recode and scan steps, job
reports, grants, JOB RECODE, JOB SCAN and SET ARB. -/
namespace Sys2Proof.Machine

/-- SET ARB (R132). -/
def setArbAnswer (limiting cmdBurst walkBurst : Word) (s : State) : Answer :=
  if 1 < limiting.toNat then .refuse .range
  else
    .done
      { s with arbiter := { s.arbiter with
          limiting := decide (limiting.toNat = 1), cmdBurst := clampNat 1 255 cmdBurst.toNat,
          walkBurst := clampNat 1 255 walkBurst.toNat } }
      (clampedIf (clamps 1 255 cmdBurst.toNat || clamps 1 255 walkBurst.toNat)) []

/-- The party granted when both requests stand (the table of R130). -/
def weigh (a : Arbiter) : Party :=
  if !a.limiting then .command
  else
    match a.owner with
    | .command => if a.run < a.cmdBurst then .command else .walker
    | .walker => if a.run < a.walkBurst then .walker else .command

/-- The party that a decision grants, from the requests standing at that moment (R130); none when none stands. -/
def chosen (a : Arbiter) : Option Party :=
  match a.cmdRequest, a.walkRequest with
  | false, false => none
  | true, false => some .command
  | false, true => some .walker
  | true, true => some (weigh a)

/-- The run state after a grant (R129). -/
def recordGrant (p : Party) (a : Arbiter) : Arbiter :=
  if a.owner = p then { a with run := min 255 (a.run + 1) } else { a with owner := p, run := 1 }

/-- A grant: the run state is updated and the port is BUSY for the granted step (R129, R130). A command request is met by
its grant (R131); the walker's stands until a step ends its job (R119). -/
def grantTo (p : Party) (a : Arbiter) : Arbiter :=
  { recordGrant p a with port := .busy, cmdRequest := a.cmdRequest && decide (p = .walker) }

/-- A grant is made whenever the port is FREE and at least one request stands (R130). Where the granted step falls against
other blocks' events is left to the queue (the model's choice, log entry 6). -/
def grantIfFree (a : Arbiter) : Arbiter :=
  match a.port, chosen a with
  | .free, some p => grantTo p a
  | .free, none => a
  | .busy, _ => a

/-- The party holds the grant of the step that the port is BUSY with: the last grant was to the run owner (R129, log
entry 6). -/
def granted (a : Arbiter) (p : Party) : Bool := decide (a.port = .busy ∧ a.owner = p)

/-- A party raises its request; on a FREE port it is granted at once (R130). -/
def requestPort (p : Party) (s : State) : State :=
  match p with
  | .command => { s with arbiter := grantIfFree { s.arbiter with cmdRequest := true } }
  | .walker => { s with arbiter := grantIfFree { s.arbiter with walkRequest := true } }

/-- The command processor reaches an immediate edit: it raises its request, unless the edit has been granted already
(R131). A request that stands stands on. -/
def requestEdit (s : State) : State := if granted s.arbiter .command then s else requestPort .command s

/-- The end of an edit step: the port falls FREE, and the requests standing at that moment are weighed (R130). -/
def releasePort (s : State) : State := { s with arbiter := grantIfFree { s.arbiter with port := .free } }

/-- A job with a fresh cursor (R117). -/
def freshJob : Job → Running
  | .purge slot => .purge slot 0
  | .recode j => .recode j j.first j.count 0 0
  | .scan j => .scan j j.first j.count

/-- The lowest-numbered FADING feed with purge pending set (R12). -/
def pendingPurge (s : State) : Option Nat :=
  (List.range 128).find? fun k => decide ((s.feed k).lifecycle = .fading ∧ (s.feed k).purgePending = some true)

/-- A PURGE job appended for a slot, which becomes PURGING in the same step (R11, R12). -/
def appendPurge (slot : Nat) (s : State) : State :=
  { s.setFeed slot (purgingFeed (s.feed slot)) with jobs := s.jobs ++ [.purge slot] }

/-- The place that a started job leaves is given to the lowest pending purge, if there is one (R12). -/
def placePurge (s : State) : State :=
  match pendingPurge s with
  | some slot => appendPurge slot s
  | none => s

/-- A job start is due: the walker is IDLE and the queue is not empty (R118). -/
def startDue (s : State) : Bool := decide (s.walker = .idle) && !s.jobs.isEmpty

/-- The job start (R117, R118): the request for the first step is raised (R119), and a pending purge is placed (R12). -/
def startJob (s : State) : State :=
  match s.jobs with
  | [] => s
  | j :: rest => placePurge (requestPort .walker { s with jobs := rest, walker := .running (freshJob j) })

/-- The job start, if one is due. -/
def startIfDue (s : State) : State := if startDue s then startJob s else s

/-- The running job ends without a report: its request is withdrawn and the walker starts its next job (R118, R119). -/
def endJob (s : State) : State :=
  startIfDue { s with walker := .idle, arbiter := { s.arbiter with walkRequest := false } }

/-- The running job ends with a report: posted if a reply-queue place is free, and the next job starts; else held
(R124). -/
def endWithReport (r : JobReport) (s : State) : State :=
  if s.placeFree then endJob { s with replies := s.replies ++ [.report r] }
  else { s with walker := .holding r, arbiter := { s.arbiter with walkRequest := false } }

/-- A held report can be posted (R124). -/
def postDue (s : State) : Bool :=
  match s.walker with
  | .holding _ => s.placeFree
  | .idle => false
  | .running _ => false

/-- The held report posted, and the next job started (R118, R124). -/
def postHeld (s : State) : State :=
  match s.walker with
  | .holding r => startIfDue { s with replies := s.replies ++ [.report r], walker := .idle }
  | .idle => s
  | .running _ => s

/-- The held report posted, if it can be. -/
def postIfDue (s : State) : State := if postDue s then postHeld s else s

/-- The step of a PURGE job on list c (R120); on list 63 it is the purge completion (R15). -/
def purgeOn (slot c : Nat) (s : State) : State :=
  let t := releaseRoute c slot s
  if 63 ≤ c then endJob (freeSlot slot t) else { t with walker := .running (.purge slot (c + 1)) }

/-- The first entry of a list whose feed slot is at least f (R121, R123). -/
def entryFrom (f : Nat) (l : List MixEntry) : Option MixEntry := l.find? fun e => decide (f ≤ e.feed)

/-- The end of a RECODE job (R122). -/
def endRecode (j : RecodeJob) (remaining changed filtered : Nat) (exhausted : Bool) (s : State) : State :=
  if j.notify then endWithReport (.recode j.tag j.output j.first remaining exhausted changed filtered) s
  else endJob s

/-- A RECODE job goes on after an entry, or ends by its count (R121, R122). -/
def recodeNext (j : RecodeJob) (f remaining changed filtered : Nat) (s : State) : State :=
  if remaining = 0 then endRecode j 0 changed filtered true s
  else { s with walker := .running (.recode j f remaining changed filtered) }

/-- The step of a RECODE job (R121). -/
def recodeOn (j : RecodeJob) (f remaining changed filtered : Nat) (s : State) : State :=
  match entryFrom f (s.list j.output) with
  | none => endRecode j remaining changed filtered false s
  | some e =>
    let n := s.recode j.table e.code
    if n = e.code ∧ s.filter then
      recodeNext j (e.feed + 1) (remaining - 1) changed (filtered + 1) (countEvent .filtered s)
    else
      recodeNext j (e.feed + 1) (remaining - 1) (changed + 1) filtered (retarget j.output e.feed n j.ramp s)

/-- The step of a SCAN job (R123). -/
def scanOn (j : ScanJob) (f remaining : Nat) (s : State) : State :=
  match entryFrom f (s.list j.output) with
  | none => endWithReport (.scan j.tag j.output j.first remaining false none) s
  | some e =>
    let v := s.recode j.table e.code
    if v ≠ 0 then endWithReport (.scan j.tag j.output j.first (remaining - 1) false (some (e.feed, v))) s
    else if remaining - 1 = 0 then endWithReport (.scan j.tag j.output j.first 0 true none) s
    else { s with walker := .running (.scan j (e.feed + 1) (remaining - 1)) }

/-- A job appended at the tail of the queue, or refused JOB_FULL (R125). An IDLE walker starts it at once (R118), before
the burst goes on. -/
def appendJob (j : Job) (clamped : Bool) (s : State) : Answer :=
  if Config.jobPlaces ≤ s.jobs.length then .refuse .jobFull
  else .done (startIfDue { s with jobs := s.jobs ++ [j] }) (clampedIf clamped) []

/-- The RANGE tests that JOB RECODE and JOB SCAN share (R125). -/
def jobRange (output firstFeed count table : Word) : Bool :=
  decide (63 < output.toNat ∨ 127 < firstFeed.toNat ∨ count.toNat = 0 ∨ 128 < count.toNat ∨ 1 < table.toNat)

/-- JOB RECODE of a burst with a tag (R125). -/
def jobRecodeAnswer (tag output firstFeed count table ramp notify : Word) (s : State) : Answer :=
  if jobRange output firstFeed count table ∨ 1 < notify.toNat then .refuse .range
  else
    appendJob
      (.recode { output := output.toNat, first := firstFeed.toNat, count := count.toNat, table := recodeTableOf table,
                 ramp := rampCode ramp, notify := decide (notify.toNat = 1), tag := tag })
      (rampClamps ramp) s

/-- JOB SCAN of a burst with a tag (R125). -/
def jobScanAnswer (tag output firstFeed count table : Word) (s : State) : Answer :=
  if jobRange output firstFeed count table then .refuse .range
  else
    appendJob
      (.scan { output := output.toNat, first := firstFeed.toNat, count := count.toNat, table := recodeTableOf table,
               tag := tag })
      false s

/-- Fade completion of a feed: its PURGE job is appended and it becomes PURGING, or purge pending is set when the queue
is full (R11). -/
def fadeFinish (slot : Nat) (s : State) : State :=
  if s.jobs.length < Config.jobPlaces then appendPurge slot s
  else
    let f := s.feed slot
    s.setFeed slot
      { f with
        fade := f.fade.map fun d => { d with current := 0, remaining := 0 }
        purgePending := some true }

end Sys2Proof.Machine
end

