-- ==== Sys2Proof/Machine/Processor.lean ====
section
/-! DEFINITION. The command processor (spec/09): the parser word by word, the take of a burst, what a command does to the
burst in execution, and the burst's end with its reply. -/
namespace Sys2Proof.Machine

/-- What the next word of the burst carries out: a command with all its arguments, a cued command, or a DATA word for
the load pointer. -/
inductive Ready where
  | command (op : Op) (args : List Word)
  | cued (dueHigh dueLow batch : Word) (deferred : Deferred)
  | data (w : Word)
  deriving DecidableEq, Repr

/-- What taking the next word comes to: nothing outside the parser; something carried out, with the parser after it; a
refusal; or no word is left, with ARG_MISSING when a command lacks arguments (R152 to R154, R100). -/
inductive Look where
  | quiet (x : Exec)
  | ready (r : Ready) (x : Exec)
  | refuse (code : Code)
  | finished (missing : Bool)
  deriving DecidableEq, Repr

/-- The framing after a word that is not a marker (R152). -/
def framingAfter : Framing → Framing
  | .marker => .marker
  | .singleOp => .marker
  | .singleData => .marker
  | .bulkOp => .bulkOp
  | .bulkData => .bulkData

/-- The parser state with no command under way, by the framing (R152). -/
def parserAtRest : Framing → Parser
  | .marker => .wordWait
  | .singleOp => .wordWait
  | .singleData => .wordWait
  | .bulkOp => .bulkOp
  | .bulkData => .bulkData

/-- A command is under way: ARG_WAIT or CUE_WAIT (R152). -/
def Parser.underWay : Parser → Bool
  | .argWait _ _ => true
  | .cueWait _ _ _ _ => true
  | .wordWait => false
  | .bulkOp => false
  | .bulkData => false

/-- The framing that a marker word sets (R151). -/
def framingOf (w : Word) : Framing :=
  match markerMore w, markerIsData w with
  | true, false => .singleOp
  | true, true => .singleData
  | false, false => .bulkOp
  | false, true => .bulkData

/-- A word in marker position: the framing changes, and the parser state too unless a command is under way (R152). -/
def takeMarker (w : Word) (x : Exec) : Exec :=
  let fr := framingOf w
  { x with framing := fr, parser := if x.parser.underWay then x.parser else parserAtRest fr }

/-- An OP word that names a command, with no command under way (R153); `x` is the burst after the word. -/
def takeName (w : Word) (x : Exec) : Look :=
  match opOfWord w with
  | none => .refuse .unknownOp
  | some op =>
    if op.arity = 0 then .ready (.command op []) { x with parser := parserAtRest x.framing }
    else .quiet { x with parser := .argWait op [] }

/-- The arguments of a command, the last taken just now: AT goes on to CUE_WAIT, another command with all its arguments
is carried out (R99, R154). -/
def takeArgument (op : Op) (args : List Word) (x : Exec) : Look :=
  if args.length < op.arity then .quiet { x with parser := .argWait op args }
  else
    match op, args with
    | .atCue, [dueHigh, dueLow, batch] => .quiet { x with parser := .cueWait dueHigh dueLow batch none }
    | _, _ => .ready (.command op args) { x with parser := parserAtRest x.framing }

/-- An OP word in CUE_WAIT: the deferred command's name, then its arguments (R99, R100). -/
def takeCueWord (dueHigh dueLow batch : Word) (named : Option (Op × List Word)) (w : Word) (x : Exec) : Look :=
  match named with
  | none =>
    match opOfWord w with
    | none => .refuse .argMissing
    | some op =>
      if op.deferrable then .quiet { x with parser := .cueWait dueHigh dueLow batch (some (op, [])) }
      else .refuse .argMissing
  | some (op, args) =>
    let args := args ++ [w]
    if args.length < op.arity then .quiet { x with parser := .cueWait dueHigh dueLow batch (some (op, args)) }
    else
      match deferredOf op args with
      | some d => .ready (.cued dueHigh dueLow batch d) { x with parser := parserAtRest x.framing }
      | none => .refuse .argMissing

/-- A word taken as an OP word; `x` is the burst after the word (R152 to R154). -/
def takeOp (w : Word) (x : Exec) : Look :=
  match x.parser with
  | .argWait op args => takeArgument op (args ++ [w]) x
  | .cueWait dueHigh dueLow batch named => takeCueWord dueHigh dueLow batch named w x
  | .wordWait => takeName w x
  | .bulkOp => takeName w x
  | .bulkData => takeName w x

/-- A word taken as a DATA word; `x` is the burst after the word (R152, R154). -/
def takeData (w : Word) (x : Exec) : Look :=
  if x.parser.underWay then .refuse .argMissing
  else .ready (.data w) { x with parser := parserAtRest x.framing }

/-- The next word of the burst, taken by its framing (R151, R152). -/
def look (x : Exec) : Look :=
  match x.rest with
  | [] => .finished x.parser.underWay
  | w :: ws =>
    let y := { x with rest := ws, framing := framingAfter x.framing }
    match x.framing with
    | .marker => .quiet (takeMarker w y)
    | .singleOp => takeOp w y
    | .bulkOp => takeOp w y
    | .singleData => takeData w y
    | .bulkData => takeData w y

/-- At most n words that carry nothing out are taken (log entry 5). -/
def runAhead : Nat → Exec → Exec
  | 0, x => x
  | n + 1, x =>
    match look x with
    | .quiet y => runAhead n y
    | .ready _ _ => x
    | .refuse _ => x
    | .finished _ => x

/-- The reply of a burst that ends (R156). -/
def replyOf (x : Exec) (stop : Option Code) (count : Count) : Reply :=
  { tag := x.tag, stop := stop, index := if stop.isSome then x.executed + 1 else 0, executed := x.executed,
    notes := x.notes, count := count, reads := x.reads }

/-- The burst's end: its reply is posted into the reserved place and the processor is IDLE (R156). -/
def endBurst (x : Exec) (stop : Option Code) (s : State) : State :=
  { s with proc := none, replies := s.replies ++ [.reply (replyOf x stop s.count)] }

/-- The burst goes on to the next word that carries something out, which is not yet taken, or ends (R152 to R156). -/
def proceed (x : Exec) (s : State) : State :=
  let y := runAhead x.rest.length x
  match look y with
  | .refuse code => endBurst y (some code) s
  | .finished missing => endBurst y (if missing then some .argMissing else none) s
  | .ready _ _ => { s with proc := some y }
  | .quiet _ => { s with proc := some y }

/-- The room for read words that the reply has left (R157). -/
def Exec.room (x : Exec) : Nat := Config.readWords - x.reads.length

/-- The burst after a command carried out with notes and read words (R155 to R157). -/
def Exec.did (x : Exec) (notes : Notes) (words : List Word) : Exec :=
  { x with executed := x.executed + 1, notes := x.notes.merge notes, reads := x.reads ++ words }

/-- A command's answer taken into the burst: a refusal stops the burst, a command carried out lets it go on (R155). -/
def finish (x : Exec) (a : Answer) (s : State) : State :=
  match a with
  | .refuse code => endBurst x (some code) s
  | .done t notes words => proceed (x.did notes words) t

/-- What the next word carries out is an immediate edit of the mix map (the column Port of the catalogue). -/
def Ready.isEdit : Ready → Bool
  | .command op _ => op.usesPort
  | .cued _ _ _ _ => false
  | .data _ => false

/-- The burst in execution stands at an immediate edit. -/
def State.atEdit (s : State) : Bool :=
  match s.proc.map look with
  | some (.ready r _) => r.isEdit
  | some (.quiet _) => false
  | some (.refuse _) => false
  | some (.finished _) => false
  | none => false

/-- The end of an edit step: the answer is taken into the burst, the request of an edit that follows at once is raised,
and the port then falls FREE (R130, R131). An edit behind a DATA word does not follow at once: its request is raised when
it is reached, after that word is written, where R131 leaves the point open (DESIGN CHOICE, log entry 26). -/
def finishEdit (x : Exec) (a : Answer) (s : State) : State :=
  let t := finish x a s
  releasePort (if t.atEdit then requestPort .command t else t)

/-- The processor is EXECUTING and the next word of its burst carries `r` out; the burst after that word. -/
def atReady (r : Ready) (s : State) : Option Exec :=
  match s.proc with
  | none => none
  | some x =>
    match look x with
    | .ready q y => if q = r then some y else none
    | .quiet _ => none
    | .refuse _ => none
    | .finished _ => none

/-- A take is due: IDLE, a burst waits, and a reply-queue place is neither occupied nor reserved (R150). -/
def takeDue (s : State) : Bool := s.proc.isNone && !s.inbound.isEmpty && s.placeFree

/-- A burst at its start (R152). -/
def burstStart (b : Burst) : Exec :=
  { tag := b.tag, rest := b.words, parser := .wordWait, framing := .marker, executed := 0, notes := noNotes, reads := [] }

/-- The take of the head burst (R150), and the words of it that carry nothing out. -/
def takeBurst (s : State) : State :=
  match s.inbound with
  | [] => s
  | b :: rest => proceed (burstStart b) { s with inbound := rest }

/-- The takes that are due, at most n. -/
def takeIfDue : Nat → State → State
  | 0, s => s
  | n + 1, s => if takeDue s then takeIfDue n (takeBurst s) else s

end Sys2Proof.Machine
end

