-- ==== Sys2Proof/Machine/Period.lean ====
section
/-! DEFINITION. The period (spec/08 R134, R135): its start, its close and the ends that a close owes; and what happens at
once, before any other event (log entries 2 to 4). -/
namespace Sys2Proof.Machine

/-- What the close owes, list by list, slot by slot, channel by channel, and the servo expiry (R69, R77, R11, R144,
R47). -/
def closeOwes (s : State) : List CloseWork :=
  (List.range 64).flatMap (listEnds s) ++ (closeFades s).map .fadeCompletion ++
    (List.range 64).flatMap (dipEnds s) ++ (if s.servoCount + 1 < s.servoN then [] else [.servoExpiry])

/-- The close of the period but for the ends it owes: reads of lists not summed and ramp steps (R60, R77), steps of
feeds not asked and fade steps (R29, R39), silence in the lines of channels not computed (R142), dip steps (R144) and
the servo interval counter (R47). -/
def closePeriod (s : State) : State :=
  countEvents ((closeUnderruns s).map fun _ => Event.feedUnderrun)
    { s with
      phase := .between, closeDue := closeOwes s, lists := closeLists s, summed := [],
      feeds := Tab.update feedInit 128 closeFeed s.feeds, lines := closeLines s, work := [],
      dips := Tab.update dipInit 64 (fun _ d => dipStep d) s.dips,
      servoCount := if s.servoCount + 1 < s.servoN then s.servoCount + 1 else s.servoCount }

/-- One end that the close owes. -/
def doEnd (w : CloseWork) (s : State) : State :=
  match w with
  | .rampEnd c f => rampFinish c f s
  | .autoRelease c f => releaseRoute c f s
  | .fadeCompletion f => fadeFinish f s
  | .dipDelayMove c => dipMove c s
  | .dipRiseEnd c => dipEnd c s
  | .servoExpiry => servoExpire s

/-- An end taken by its own event: it leaves the list of what the close owes. A job start that is due comes first
(R118). -/
def takeEnd (w : CloseWork) (s : State) : State :=
  let t := startIfDue s
  if w ∈ t.closeDue then doEnd w { t with closeDue := t.closeDue.erase w } else t

/-- A job start that is due, and all that the close still owes, in order, with the job starts that come about (R118, log
entry 3). -/
def closeRest (s : State) : State :=
  s.closeDue.foldl (fun t w => startIfDue (doEnd w t)) (startIfDue { s with closeDue := [] })

/-- What the rules put at once: the rest of a close, a job start, the posting of a held report, and takes of bursts.
Every event that is not one of these finds them done (log entry 2). -/
def settle (s : State) : State :=
  let t := postIfDue (closeRest s)
  takeIfDue t.inbound.length t

/-- The start of a period: the counter rises, OUTPUT_PERIOD is counted, the due pass is made and the override state is
copied (R135, R104, R91). -/
def startPeriod (s : State) : State :=
  let t := countEvent .outputPeriod { s with count := s.count + 1#32, phase := .computing, work := [] }
  let u := duePass t.cues.length t
  { u with ovCurrent := u.ovPending }

end Sys2Proof.Machine
end

