-- ==== Sys2Proof/Machine/Reset.lean ====
section
/-! DEFINITION. The three resets (spec/00 Conventions): power-on reset, soft reset and feed-link reset. -/
namespace Sys2Proof.Machine

/-- The soft reset of RESET PART, owner by owner (the table of R168). The burst in execution, the inbound queue, the
tables, the mask, the counts and the return path's queues are kept. -/
def softReset (s : State) : State :=
  { s with
    feeds := [], dir := [], servoN := 256, servoCount := 0, lists := [], pool := Config.mixEntries, filter := true,
    master := 128, invert := [], outClips := [], ovPending := overrideOff, ovCurrent := overrideOff, cues := [],
    jobs := [], walker := .idle, arbiter := arbiterReset, active := 64, readDelays := s.delays, dips := [],
    lines := [], pointer := pointerReset, latch := 0#16, patch := none, counters := [] }

/-- The state that a command's answer leaves; a refused command changes no state (R155). -/
def Answer.stateOr (s : State) : Answer → State
  | .refuse _ => s
  | .done t _ _ => t

/-- The mix map after the edit that the burst in execution is at; at no edit, as it is. -/
def editMade (s : State) : State :=
  match s.proc.map look with
  | some (.ready (.command .setGain [output, slot, code, ramp]) _) => (setGainAnswer output slot code ramp s).stateOr s
  | some (.ready (.command .clearOutput [output, ramp]) _) => (clearOutputAnswer output ramp s).stateOr s
  | _ => s

/-- What a feed-link reset clears, owner by owner (R187, with R129, R149, R169, R171, R176). -/
def clearFeedLink (s : State) : State :=
  { s with
    feedUp := .up, feedPartial := [], inbound := [], proc := none, replies := [], relay := [],
    arbiter := { s.arbiter with cmdRequest := false } }

/-- The feed-link reset. An edit that an earlier event granted is made and stays, and the burst is then abandoned (R170); an
edit that waits loses its request, and one that is not reached is not made (R131, R169; log entry 6). -/
def feedLinkReset (s : State) : State :=
  if granted s.arbiter .command then releasePort (clearFeedLink (editMade s)) else clearFeedLink s

/-- Power-on reset with the straps sampled as the part leaves it (R184, the power-on columns of the chapters); the
queue of commands is not the part's. -/
def powerOn (straps : BitVec 4) (s : State) : State := { State.reset with address := straps, pending := s.pending }

end Sys2Proof.Machine
end

