-- ==== Sys2Proof/Machine/Commands.lean ====
section
/-! DEFINITION. The meanings of the commands of a burst: each is carried out when the burst in execution spells it next
(R155). A command that the processor is not at is not carried out (log entry 1). -/
namespace Sys2Proof.Machine

/-- A command carried out by the burst in execution; `body` gets the burst (its tag and the reply's room). -/
def carryOut (r : Ready) (body : Exec → State → Answer) (s : State) : Host.Outcome State Fault Refusal :=
  let u := settle s
  match atReady r u with
  | none => .next u
  | some x => .next (finish x (body x u) u)

/-- An immediate edit of the mix map: its last argument word is taken and the command request raised, and with the grant
it is carried out at its edit step (R62, R131). On a BUSY port the request waits, and the step is a later event of the
queue (log entry 6). -/
def carryEdit (r : Ready) (body : State → Answer) (s : State) : Host.Outcome State Fault Refusal :=
  let u := settle s
  match atReady r u with
  | none => .next u
  | some x =>
    let v := requestEdit u
    if granted v.arbiter .command then .next (finishEdit x (body v) v) else .next v

/-- A DATA word taken by the burst in execution; it is not a command (R155, R161). -/
def execTableWrite (data : Word) (s : State) : Host.Outcome State Fault Refusal :=
  let u := settle s
  match atReady (.data data) u with
  | none => .next u
  | some x => .next (proceed { x with notes := x.notes.merge (dataNotes data u) } (dataWrite data u))

/-- BIND (R8, R9). -/
def execBind (streamId slot bank stepHigh stepLow : Word) (s : State) : Host.Outcome State Fault Refusal :=
  carryOut (.command .bind [streamId, slot, bank, stepHigh, stepLow])
    (fun _ u => bindAnswer streamId slot bank stepHigh stepLow u) s

/-- UNBIND (R10). -/
def execUnbind (slot fadeCode : Word) (s : State) : Host.Outcome State Fault Refusal :=
  carryOut (.command .unbind [slot, fadeCode]) (fun _ u => unbindAnswer slot fadeCode u) s

/-- SET MASK (R7). -/
def execSetMask (mask : Word) (s : State) : Host.Outcome State Fault Refusal :=
  carryOut (.command .setMask [mask]) (fun _ u => setMaskAnswer mask u) s

/-- SET RATE (R40, R41). -/
def execSetRate (slot stepHigh stepLow bank threshold : Word) (s : State) : Host.Outcome State Fault Refusal :=
  carryOut (.command .setRate [slot, stepHigh, stepLow, bank, threshold])
    (fun _ u => setRateAnswer slot stepHigh stepLow bank threshold u) s

/-- SET SERVO (R52 to R54). -/
def execSetServo (mode slot target gain limit interval : Word) (s : State) : Host.Outcome State Fault Refusal :=
  carryOut (.command .setServo [mode, slot, target, gain, limit, interval])
    (fun x u => setServoAnswer x.room mode slot target gain limit interval u) s

/-- SET GAIN at its edit step (R62 to R66). -/
def execSetGain (output slot code ramp : Word) (s : State) : Host.Outcome State Fault Refusal :=
  carryEdit (.command .setGain [output, slot, code, ramp]) (setGainAnswer output slot code ramp) s

/-- CLEAR OUTPUT at its edit step (R62, R67). -/
def execClearOutput (output ramp : Word) (s : State) : Host.Outcome State Fault Refusal :=
  carryEdit (.command .clearOutput [output, ramp]) (clearOutputAnswer output ramp) s

/-- SET FILTER (R68). -/
def execSetFilter (mode : Word) (s : State) : Host.Outcome State Fault Refusal :=
  carryOut (.command .setFilter [mode]) (fun _ u => setFilterAnswer mode u) s

/-- READ OUTPUT (R72, R73). -/
def execReadOutput (output firstFeed : Word) (s : State) : Host.Outcome State Fault Refusal :=
  carryOut (.command .readOutput [output, firstFeed]) (fun x u => readOutputAnswer x.room output firstFeed u) s

/-- SET MASTER (R85). -/
def execSetMaster (level : Word) (s : State) : Host.Outcome State Fault Refusal :=
  carryOut (.command .setMaster [level]) (fun _ u => setMasterAnswer level u) s

/-- SET INVERT (R86). -/
def execSetInvert (output mode : Word) (s : State) : Host.Outcome State Fault Refusal :=
  carryOut (.command .setInvert [output, mode]) (fun _ u => setInvertAnswer output mode u) s

/-- SET OVERRIDE (R89, R90). -/
def execSetOverride (mode monitor mask1 mask2 mask3 mask4 : Word) (s : State) : Host.Outcome State Fault Refusal :=
  carryOut (.command .setOverride [mode, monitor, mask1, mask2, mask3, mask4])
    (fun _ u => setOverrideAnswer mode monitor mask1 mask2 mask3 mask4 u) s

/-- AT with the command it defers (R99, R101, R102). -/
def execAtCue (dueHigh dueLow batch : Word) (deferred : Deferred) (s : State) : Host.Outcome State Fault Refusal :=
  carryOut (.cued dueHigh dueLow batch deferred) (fun x u => atAnswer x.room dueHigh dueLow batch deferred u) s

/-- CANCEL BATCH (R111). -/
def execCancelBatch (batch : Word) (s : State) : Host.Outcome State Fault Refusal :=
  carryOut (.command .cancelBatch [batch]) (fun x u => cancelBatchAnswer x.room batch u) s

/-- FLUSH CUES (R112). -/
def execFlushCues (s : State) : Host.Outcome State Fault Refusal :=
  carryOut (.command .flushCues []) (fun x u => flushCuesAnswer x.room u) s

/-- JOB RECODE (R125). -/
def execJobRecode (output firstFeed count table ramp notify : Word) (s : State) : Host.Outcome State Fault Refusal :=
  carryOut (.command .jobRecode [output, firstFeed, count, table, ramp, notify])
    (fun x u => jobRecodeAnswer x.tag output firstFeed count table ramp notify u) s

/-- JOB SCAN (R125). -/
def execJobScan (output firstFeed count table : Word) (s : State) : Host.Outcome State Fault Refusal :=
  carryOut (.command .jobScan [output, firstFeed, count, table])
    (fun x u => jobScanAnswer x.tag output firstFeed count table u) s

/-- SET ARB (R132). -/
def execSetArb (limiting cmdBurst walkBurst : Word) (s : State) : Host.Outcome State Fault Refusal :=
  carryOut (.command .setArb [limiting, cmdBurst, walkBurst]) (fun _ u => setArbAnswer limiting cmdBurst walkBurst u) s

/-- SET ACTIVE (R137). -/
def execSetActive (count : Word) (s : State) : Host.Outcome State Fault Refusal :=
  carryOut (.command .setActive [count]) (fun _ u => setActiveAnswer count u) s

/-- SET DELAY (R146). -/
def execSetDelay (output delay : Word) (s : State) : Host.Outcome State Fault Refusal :=
  carryOut (.command .setDelay [output, delay]) (fun _ u => setDelayAnswer output delay u) s

/-- SET TABLE (R160). -/
def execSetTable (table : Word) (s : State) : Host.Outcome State Fault Refusal :=
  carryOut (.command .setTable [table]) (fun _ u => setTableAnswer table u) s

/-- SET ROW (R160). -/
def execSetRow (row : Word) (s : State) : Host.Outcome State Fault Refusal :=
  carryOut (.command .setRow [row]) (fun _ u => setRowAnswer row u) s

/-- SET COLUMN (R160). -/
def execSetColumn (column : Word) (s : State) : Host.Outcome State Fault Refusal :=
  carryOut (.command .setColumn [column]) (fun _ u => setColumnAnswer column u) s

/-- READ (R162, R164). -/
def execRead (steps : Word) (s : State) : Host.Outcome State Fault Refusal :=
  carryOut (.command .read [steps]) (fun x u => readAnswer x.room steps u) s

/-- PATCH BEGIN (R163). -/
def execPatchBegin (s : State) : Host.Outcome State Fault Refusal :=
  carryOut (.command .patchBegin []) (fun _ u => patchBeginAnswer u) s

/-- PATCH END (R163). -/
def execPatchEnd (s : State) : Host.Outcome State Fault Refusal :=
  carryOut (.command .patchEnd []) (fun _ u => patchEndAnswer u) s

/-- NOP: no effect; it counts as a command executed (R166). -/
def execNop (s : State) : Host.Outcome State Fault Refusal :=
  carryOut (.command .nop []) (fun _ u => .done u noNotes []) s

/-- READ FEED (R167). -/
def execReadFeed (slot : Word) (s : State) : Host.Outcome State Fault Refusal :=
  carryOut (.command .readFeed [slot]) (fun x u => readFeedAnswer x.room slot u) s

/-- RESET PART: the soft reset, and the burst ends there with stop code OK (R168). -/
def execResetPart (s : State) : Host.Outcome State Fault Refusal :=
  let u := settle s
  match atReady (.command .resetPart []) u with
  | none => .next u
  | some x => .next (endBurst (x.did noNotes []) none (softReset u))

/-- SET RELAY (R175). -/
def execSetRelay (mode : Word) (s : State) : Host.Outcome State Fault Refusal :=
  carryOut (.command .setRelay [mode]) (fun _ u => setRelayAnswer mode u) s

/-- COUNTER SELECT (R179). -/
def execCounterSelect (counter event : Word) (s : State) : Host.Outcome State Fault Refusal :=
  carryOut (.command .counterSelect [counter, event]) (fun _ u => counterSelectAnswer counter event u) s

/-- COUNTER LOAD (R180). -/
def execCounterLoad (counter valueHigh valueLow : Word) (s : State) : Host.Outcome State Fault Refusal :=
  carryOut (.command .counterLoad [counter, valueHigh, valueLow])
    (fun _ u => counterLoadAnswer counter valueHigh valueLow u) s

/-- COUNTER READ (R181). -/
def execCounterRead (counter : Word) (s : State) : Host.Outcome State Fault Refusal :=
  carryOut (.command .counterRead [counter]) (fun x u => counterReadAnswer x.room counter u) s

end Sys2Proof.Machine
end

