-- ==== Sys2Proof/Machine/Events.lean ====
section
/-! DEFINITION. The meanings of the events that are not commands of a burst: resets, links, arrivals, the period and the
ends of its close, the take, the walker's steps and the return lane. An event whose condition does not hold is not
taken (log entry 1). -/
namespace Sys2Proof.Machine

/-- POWER_ON_RESET (R22, R184). -/
def execPowerOnReset (straps : BitVec 4) (s : State) : Host.Outcome State Fault Refusal := .next (powerOn straps s)

/-- FEED_LINK_RESET: the feed link goes from DOWN to UP (R187). -/
def execFeedLinkReset (s : State) : Host.Outcome State Fault Refusal :=
  let u := settle s
  .next (if u.feedUp = .down then feedLinkReset u else u)

/-- FEED_LINK_DOWN: the link state is DOWN, and the item in flight is lost (R174, R184). Nothing else changes (R169). -/
def execFeedLinkDown (s : State) : Host.Outcome State Fault Refusal :=
  let u := settle s
  .next { u with feedUp := .down, lane := none }

/-- SPEAKER_LINK_UP (R134). -/
def execSpeakerLinkUp (s : State) : Host.Outcome State Fault Refusal := .next { settle s with speakerUp := .up }

/-- SPEAKER_LINK_DOWN: a period in progress is ended by its close, and what the forward lane carries and the partly
received burst are lost (R134, R177, R185). -/
def execSpeakerLinkDown (s : State) : Host.Outcome State Fault Refusal :=
  let u := settle s
  let v := if u.phase = .between then u else closePeriod u
  .next { v with speakerUp := .down, speakerPartial := [], forwardLane := .idle, gapOpen := false }

/-- What the feed link port does with a received burst (R184). -/
def handOn (bytes : List Byte) (s : State) : State :=
  match receive bytes with
  | .failed => countEvent .checkFail s
  | .audio id seq samples => audioArrival id seq samples s
  | .command address tag words =>
    if address = s.address.toNat then inboundArrival { tag := tag, words := words } s else throughArrival bytes s

/-- FEED_BURST_RECEIVED: while the link is UP (R184, R187). -/
def execFeedBurstReceived (bytes : List Byte) (s : State) : Host.Outcome State Fault Refusal :=
  let u := settle s
  .next (if u.feedUp = .up then handOn bytes { u with feedPartial := [] } else u)

/-- AMPLIFIER_REPLY_RECEIVED: while the link is UP (R176, R185). -/
def execAmplifierReplyReceived (bytes : List Byte) (s : State) : Host.Outcome State Fault Refusal :=
  let u := settle s
  .next
    (if u.speakerUp = .up then
      if amplifierAccepted bytes then relayArrival bytes { u with speakerPartial := [] }
      else { u with speakerPartial := [] }
    else u)

/-- PERIOD_START: while the speaker link is UP and no period is in progress (R134, R135). -/
def execPeriodStart (s : State) : Host.Outcome State Fault Refusal :=
  let u := settle s
  .next (if u.speakerUp = .up ∧ u.phase = .between then startPeriod u else u)

/-- CHANNEL_COMPUTE: the summing engine comes to a channel, once in a period; below the active count it is computed, at
or above it is passed over (R79, R137). -/
def execChannelCompute (channel : Nat) (s : State) : Host.Outcome State Fault Refusal :=
  if 63 < channel then .fault (.noSuchChannel channel)
  else
    let u := settle s
    .next
      (if u.phase = .computing ∧ u.workOf channel = .waiting then
        if channel < u.active then computeChannel channel u else u.setWork channel .passed
      else u)

/-- FRAME_EVENT: once every channel of the period has been handled (R139, R140). -/
def execFrameEvent (s : State) : Host.Outcome State Fault Refusal :=
  let u := settle s
  .next (if u.phase = .computing ∧ channelsHandled u then frameSend u else u)

/-- FOREIGN_BURST_SEND: in the gap after a frame, the head of the through queue leaves, one in each gap (R177). -/
def execForeignBurstSend (s : State) : Host.Outcome State Fault Refusal :=
  let u := settle s
  .next
    (match u.through with
    | [] => u
    | b :: rest =>
      if u.speakerUp = .up ∧ u.gapOpen then { u with forwardLane := .foreign b, through := rest, gapOpen := false }
      else u)

/-- PERIOD_CLOSE: after the period's frame (R134, R135, R140). -/
def execPeriodClose (s : State) : Host.Outcome State Fault Refusal :=
  let u := settle s
  .next (if u.phase = .framed then closePeriod u else u)

/-- RAMP_END: the final ramp step of an entry, when the close owes it (R77). -/
def execRampEnd (output feed : Nat) (s : State) : Host.Outcome State Fault Refusal :=
  .next (takeEnd (.rampEnd output feed) s)

/-- AUTO_RELEASE: the final ramp step of an entry falling to code 0, with its release (R69). -/
def execAutoRelease (output feed : Nat) (s : State) : Host.Outcome State Fault Refusal :=
  .next (takeEnd (.autoRelease output feed) s)

/-- FADE_COMPLETION (R11, R39). -/
def execFadeCompletion (feed : Nat) (s : State) : Host.Outcome State Fault Refusal :=
  .next (takeEnd (.fadeCompletion feed) s)

/-- DIP_DELAY_MOVE (R144). -/
def execDipDelayMove (channel : Nat) (s : State) : Host.Outcome State Fault Refusal :=
  .next (takeEnd (.dipDelayMove channel) s)

/-- DIP_RISE_END (R144). -/
def execDipRiseEnd (channel : Nat) (s : State) : Host.Outcome State Fault Refusal :=
  .next (takeEnd (.dipRiseEnd channel) s)

/-- SERVO_EXPIRY (R47 to R49). -/
def execServoExpiry (s : State) : Host.Outcome State Fault Refusal := .next (takeEnd .servoExpiry s)

/-- BURST_TAKE (R150). It can come before the posting of a held report (R124), so it does not settle that. -/
def execBurstTake (s : State) : Host.Outcome State Fault Refusal :=
  let u := closeRest s
  .next (if takeDue u then takeBurst u else u)

/-- JOB_START (R118). It can come between the ends of a close. -/
def execJobStart (s : State) : Host.Outcome State Fault Refusal := .next (startIfDue s)

/-- PURGE_STEP on a grant (R119, R120). -/
def execPurgeStep (s : State) : Host.Outcome State Fault Refusal :=
  let u := settle s
  .next
    (match u.walker with
    | .running (.purge slot c) =>
      if granted u.arbiter .walker then releasePort (purgeOn slot c u) else u
    | .running (.recode _ _ _ _ _) => u
    | .running (.scan _ _ _) => u
    | .idle => u
    | .holding _ => u)

/-- RECODE_STEP on a grant (R119, R121, R122). -/
def execRecodeStep (s : State) : Host.Outcome State Fault Refusal :=
  let u := settle s
  .next
    (match u.walker with
    | .running (.recode j f remaining changed filtered) =>
      if granted u.arbiter .walker then releasePort (recodeOn j f remaining changed filtered u) else u
    | .running (.purge _ _) => u
    | .running (.scan _ _ _) => u
    | .idle => u
    | .holding _ => u)

/-- SCAN_STEP on a grant (R119, R123). -/
def execScanStep (s : State) : Host.Outcome State Fault Refusal :=
  let u := settle s
  .next
    (match u.walker with
    | .running (.scan j f remaining) =>
      if granted u.arbiter .walker then releasePort (scanOn j f remaining u) else u
    | .running (.purge _ _) => u
    | .running (.recode _ _ _ _ _) => u
    | .idle => u
    | .holding _ => u)

/-- HELD_REPORT_POST (R124). It can come before a take that wants the same place, so it does not settle takes. -/
def execHeldReportPost (s : State) : Host.Outcome State Fault Refusal :=
  .next (postIfDue (closeRest s))

/-- RETURN_LANE_CHOICE: while the feed link is UP and the lane is FREE (R174). -/
def execReturnLaneChoice (s : State) : Host.Outcome State Fault Refusal :=
  let u := settle s
  .next (if u.feedUp = .up ∧ u.lane = none then chooseItem u else u)

/-- RETURN_SEND_END: the item in flight has left the part (R174). -/
def execReturnSendEnd (s : State) : Host.Outcome State Fault Refusal := .next { settle s with lane := none }

end Sys2Proof.Machine
end

