-- ==== Sys2Proof/Machine/Dispatch.lean ====
section
/-! DEFINITION. The meaning of every command: one arm for each row of spec/opcode_table.json, in the table's order. -/
namespace Sys2Proof.Machine

def exec (i : Instr) (s : State) : Host.Outcome State Fault Refusal :=
  match i with
  | .powerOnReset straps => Sys2Proof.Machine.execPowerOnReset straps s
  | .feedLinkReset => Sys2Proof.Machine.execFeedLinkReset s
  | .feedLinkDown => Sys2Proof.Machine.execFeedLinkDown s
  | .speakerLinkUp => Sys2Proof.Machine.execSpeakerLinkUp s
  | .speakerLinkDown => Sys2Proof.Machine.execSpeakerLinkDown s
  | .feedBurstReceived bytes => Sys2Proof.Machine.execFeedBurstReceived bytes s
  | .amplifierReplyReceived bytes => Sys2Proof.Machine.execAmplifierReplyReceived bytes s
  | .periodStart => Sys2Proof.Machine.execPeriodStart s
  | .channelCompute channel => Sys2Proof.Machine.execChannelCompute channel s
  | .frameEvent => Sys2Proof.Machine.execFrameEvent s
  | .foreignBurstSend => Sys2Proof.Machine.execForeignBurstSend s
  | .periodClose => Sys2Proof.Machine.execPeriodClose s
  | .rampEnd output feed => Sys2Proof.Machine.execRampEnd output feed s
  | .autoRelease output feed => Sys2Proof.Machine.execAutoRelease output feed s
  | .fadeCompletion feed => Sys2Proof.Machine.execFadeCompletion feed s
  | .dipDelayMove channel => Sys2Proof.Machine.execDipDelayMove channel s
  | .dipRiseEnd channel => Sys2Proof.Machine.execDipRiseEnd channel s
  | .servoExpiry => Sys2Proof.Machine.execServoExpiry s
  | .burstTake => Sys2Proof.Machine.execBurstTake s
  | .tableWrite data => Sys2Proof.Machine.execTableWrite data s
  | .bind streamId slot bank stepHigh stepLow => Sys2Proof.Machine.execBind streamId slot bank stepHigh stepLow s
  | .unbind slot fadeCode => Sys2Proof.Machine.execUnbind slot fadeCode s
  | .setMask mask => Sys2Proof.Machine.execSetMask mask s
  | .setRate slot stepHigh stepLow bank threshold => Sys2Proof.Machine.execSetRate slot stepHigh stepLow bank threshold s
  | .setServo mode slot target gain limit interval => Sys2Proof.Machine.execSetServo mode slot target gain limit interval s
  | .setGain output slot code ramp => Sys2Proof.Machine.execSetGain output slot code ramp s
  | .clearOutput output ramp => Sys2Proof.Machine.execClearOutput output ramp s
  | .setFilter mode => Sys2Proof.Machine.execSetFilter mode s
  | .readOutput output firstFeed => Sys2Proof.Machine.execReadOutput output firstFeed s
  | .setMaster level => Sys2Proof.Machine.execSetMaster level s
  | .setInvert output mode => Sys2Proof.Machine.execSetInvert output mode s
  | .setOverride mode monitor mask1 mask2 mask3 mask4 => Sys2Proof.Machine.execSetOverride mode monitor mask1 mask2 mask3 mask4 s
  | .atCue dueHigh dueLow batch deferred => Sys2Proof.Machine.execAtCue dueHigh dueLow batch deferred s
  | .cancelBatch batch => Sys2Proof.Machine.execCancelBatch batch s
  | .flushCues => Sys2Proof.Machine.execFlushCues s
  | .jobRecode output firstFeed count table ramp notify => Sys2Proof.Machine.execJobRecode output firstFeed count table ramp notify s
  | .jobScan output firstFeed count table => Sys2Proof.Machine.execJobScan output firstFeed count table s
  | .setArb limiting cmdBurst walkBurst => Sys2Proof.Machine.execSetArb limiting cmdBurst walkBurst s
  | .setActive count => Sys2Proof.Machine.execSetActive count s
  | .setDelay output delay => Sys2Proof.Machine.execSetDelay output delay s
  | .setTable table => Sys2Proof.Machine.execSetTable table s
  | .setRow row => Sys2Proof.Machine.execSetRow row s
  | .setColumn column => Sys2Proof.Machine.execSetColumn column s
  | .read steps => Sys2Proof.Machine.execRead steps s
  | .patchBegin => Sys2Proof.Machine.execPatchBegin s
  | .patchEnd => Sys2Proof.Machine.execPatchEnd s
  | .nop => Sys2Proof.Machine.execNop s
  | .readFeed slot => Sys2Proof.Machine.execReadFeed slot s
  | .resetPart => Sys2Proof.Machine.execResetPart s
  | .setRelay mode => Sys2Proof.Machine.execSetRelay mode s
  | .counterSelect counter event => Sys2Proof.Machine.execCounterSelect counter event s
  | .counterLoad counter valueHigh valueLow => Sys2Proof.Machine.execCounterLoad counter valueHigh valueLow s
  | .counterRead counter => Sys2Proof.Machine.execCounterRead counter s
  | .jobStart => Sys2Proof.Machine.execJobStart s
  | .purgeStep => Sys2Proof.Machine.execPurgeStep s
  | .recodeStep => Sys2Proof.Machine.execRecodeStep s
  | .scanStep => Sys2Proof.Machine.execScanStep s
  | .heldReportPost => Sys2Proof.Machine.execHeldReportPost s
  | .returnLaneChoice => Sys2Proof.Machine.execReturnLaneChoice s
  | .returnSendEnd => Sys2Proof.Machine.execReturnSendEnd s

end Sys2Proof.Machine
end

