-- ==== Sys2Proof/WellFormed.lean ====
section
/-! DEFINITION. Which commands name a channel (0..63, R58), an output list and a feed slot (0..127, R1) that the part has.
Argument words of burst commands are not checked here: any 16-bit word may stand in a burst, and the command itself
tests it (R154). -/
namespace Sys2Proof

/-- A channel or output list of the part (R58, R79). -/
def isChannel (c : Nat) : Bool := decide (c < 64)

/-- A feed slot of the part (R1). -/
def isSlot (f : Nat) : Bool := decide (f < 128)

/-- Every channel, list and feed slot that the event names exists. -/
def Instr.wellFormed : Instr → Bool
  | .powerOnReset _ => true
  | .feedLinkReset => true
  | .feedLinkDown => true
  | .speakerLinkUp => true
  | .speakerLinkDown => true
  | .feedBurstReceived _ => true
  | .amplifierReplyReceived _ => true
  | .periodStart => true
  | .channelCompute c => isChannel c
  | .frameEvent => true
  | .foreignBurstSend => true
  | .periodClose => true
  | .rampEnd c f => isChannel c && isSlot f
  | .autoRelease c f => isChannel c && isSlot f
  | .fadeCompletion f => isSlot f
  | .dipDelayMove c => isChannel c
  | .dipRiseEnd c => isChannel c
  | .servoExpiry => true
  | .burstTake => true
  | .tableWrite _ => true
  | .bind _ _ _ _ _ => true
  | .unbind _ _ => true
  | .setMask _ => true
  | .setRate _ _ _ _ _ => true
  | .setServo _ _ _ _ _ _ => true
  | .setGain _ _ _ _ => true
  | .clearOutput _ _ => true
  | .setFilter _ => true
  | .readOutput _ _ => true
  | .setMaster _ => true
  | .setInvert _ _ => true
  | .setOverride _ _ _ _ _ _ => true
  | .atCue _ _ _ _ => true
  | .cancelBatch _ => true
  | .flushCues => true
  | .jobRecode _ _ _ _ _ _ => true
  | .jobScan _ _ _ _ => true
  | .setArb _ _ _ => true
  | .setActive _ => true
  | .setDelay _ _ => true
  | .setTable _ => true
  | .setRow _ => true
  | .setColumn _ => true
  | .read _ => true
  | .patchBegin => true
  | .patchEnd => true
  | .nop => true
  | .readFeed _ => true
  | .resetPart => true
  | .setRelay _ => true
  | .counterSelect _ _ => true
  | .counterLoad _ _ _ => true
  | .counterRead _ => true
  | .jobStart => true
  | .purgeStep => true
  | .recodeStep => true
  | .scanStep => true
  | .heldReportPost => true
  | .returnLaneChoice => true
  | .returnSendEnd => true

end Sys2Proof
end

