-- ==== Sys2Proof/Safety.lean ====
section
/-! DEFINITION. The terms in which statements speak of the part: what a command does to its burst and what the burst's
words bring to hand, when nothing is due at once, and the laws that the spec sets in bold (R3, R23, R49, R57, R58, R78,
R97, R116, R140, R171), the law of the edit port (R129, R130), with the ranges that go with them. -/
namespace Sys2Proof.Machine

/-- What the word that a command of a burst waits for carries out: the command with its argument words, AT with its
deferred command, or a DATA word. The events that are no commands of a burst have none. -/
def Instr.ready (i : Instr) : Option Ready :=
  match i with
  | .atCue dueHigh dueLow batch deferred => some (.cued dueHigh dueLow batch deferred)
  | .tableWrite data => some (.data data)
  | i => i.spelled.map fun p => .command p.1 p.2

/-- The command processor is executing a burst whose next word carries out command `i`; `x` is that burst after the
word, with its tag, the commands executed so far, its notes and its read words (R155). -/
def atHand (i : Instr) (s : State) (x : Exec) : Prop :=
  (Instr.ready i).bind (fun r => atReady r (settle s)) = some x

/-- The command is an immediate edit at hand, and the edit port is granted to it, by an earlier event or at its request
(R62, R130, R131). -/
def editAtHand (i : Instr) (s : State) (x : Exec) : Prop :=
  atHand i s x ∧ granted (requestEdit (settle s)).arbiter .command = true

/-- Burst `x` comes to `y` by words that carry nothing out: markers, names of commands with arguments to come, and
arguments but the last (R151 to R154). -/
inductive ReadsOn : Exec → Exec → Prop where
  | here (x : Exec) : ReadsOn x x
  | word (x y z : Exec) : look x = .quiet y → ReadsOn y z → ReadsOn x z

/-- State `s` with burst `x` ended: IDLE, its reply posted with the stop code, the stop index, and the count as it stands
(R155, R156). -/
def burstEnded (x : Exec) (stop : Option Code) (s : State) : State :=
  { s with
    proc := none,
    replies := s.replies ++ [.reply
      { tag := x.tag, stop := stop, index := if stop = none then 0 else x.executed + 1, executed := x.executed,
        notes := x.notes, count := s.count, reads := x.reads }] }

/-- State `t` is `s` with burst `x` gone on: it stands before the next word that carries something out, or it has ended,
at its last word with OK or at a refusal of the parser (R153 to R156). -/
def burstGoes (x : Exec) (s t : State) : Prop :=
  ∃ y, ReadsOn x y ∧
    match look y with
    | .ready _ _ => t = { s with proc := some y }
    | .finished missing => t = burstEnded y (if missing then some .argMissing else none) s
    | .refuse code => t = burstEnded y (some code) s
    | .quiet _ => False

/-- Burst `x` with one command more carried out, with its notes and read words (R155 to R157). -/
def Exec.after (x : Exec) (notes : Notes) (words : List Word) : Exec :=
  { x with executed := x.executed + 1, notes := x.notes.merge notes, reads := x.reads ++ words }

/-- The event completes as a command of burst `x` carried out: the state comes to `target`, and the burst goes on with
one command more. -/
def completes (i : Instr) (s : State) (x : Exec) (target : State) (notes : Notes) (words : List Word) : Prop :=
  ∃ t, exec i s = .next t ∧ burstGoes (x.after notes words) target t

/-- The event completes as a command of burst `x` refused: the state stays `target`, and the burst ends with the code. -/
def refuses (i : Instr) (s : State) (x : Exec) (target : State) (code : Code) : Prop :=
  exec i s = .next (burstEnded x (some code) target)

/-- The event completes as the edit step of an immediate edit carried out: the state comes to `target`, the burst goes on,
the command request is raised again if the burst then stands at an immediate edit, and the port falls FREE (R130,
R131). A burst that stands at a DATA word raises none, whatever command follows that word (the model's choice, log
entry 26). -/
def editCompletes (i : Instr) (s : State) (x : Exec) (target : State) (notes : Notes) (words : List Word) : Prop :=
  ∃ t, burstGoes (x.after notes words) target t ∧
    exec i s = .next (releasePort (if t.atEdit then requestPort .command t else t))

/-- The event completes as the edit step of an immediate edit refused: it has used its grant (R62, R131). -/
def editRefuses (i : Instr) (s : State) (x : Exec) (target : State) (code : Code) : Prop :=
  exec i s = .next (releasePort (burstEnded x (some code) target))

/-- The words `b` of a burst carry the OP words `ws`, from one framing to the next: each behind a marker with more = 1,
or all behind one with more = 0 (R151). -/
inductive OpWords : Framing → List Word → List Word → Framing → Prop where
  | none (f : Framing) : OpWords f [] [] f
  | single (m w : Word) (b ws : List Word) (f : Framing) : m.getLsbD 15 = true → m.getLsbD 14 = false →
      OpWords .marker b ws f → OpWords .marker (m :: w :: b) (w :: ws) f
  | bulk (m w : Word) (b ws : List Word) (f : Framing) : m.getLsbD 15 = false → m.getLsbD 14 = false →
      OpWords .bulkOp b ws f → OpWords .marker (m :: w :: b) (w :: ws) f
  | word (w : Word) (b ws : List Word) (f : Framing) : OpWords .bulkOp b ws f → OpWords .bulkOp (w :: b) (w :: ws) f

/-- OP words that begin a command and do not complete it: a name short of its arguments, AT short of its three, or AT
with a deferred command short of its own (R100, R154). -/
def cutShort (ops : List Word) : Prop :=
  (∃ (op : Op) (args : List Word), op ≠ .atCue ∧ ops = op.word :: args ∧ args.length < op.arity) ∨
    (∃ args, ops = Op.atCue.word :: args ∧ args.length ≤ 3) ∨
    ∃ (high low batch : Word) (op : Op) (args : List Word), op.deferrable = true ∧ args.length < op.arity ∧
      ops = Op.atCue.word :: high :: low :: batch :: op.word :: args

/-- A body in the envelope of R183: the type, the body's length in two bytes, the body, and the check word over all of
these in two bytes, high bytes first. -/
def framedBytes (type : Nat) (body : List Byte) : List Byte :=
  let head := BitVec.ofNat 8 type :: BitVec.ofNat 8 (body.length / 256) :: BitVec.ofNat 8 body.length :: body
  head ++ [(checkWord head).extractLsb' 8 8, (checkWord head).extractLsb' 0 8]

/-- Nothing is due at once: no end of a close, no job start, no posting of a held report, no take of a burst. -/
def State.quiet (s : State) : Bool := s.closeDue.isEmpty && !startDue s && !postDue s && !takeDue s

/-- The event of an end that a close owes. -/
def CloseWork.event : CloseWork → Instr
  | .rampEnd output feed => .rampEnd output feed
  | .autoRelease output feed => .autoRelease output feed
  | .fadeCompletion feed => .fadeCompletion feed
  | .dipDelayMove channel => .dipDelayMove channel
  | .dipRiseEnd channel => .dipRiseEnd channel
  | .servoExpiry => .servoExpiry

/-- The state that events taken one after the other lead to; none when one of them gives no next state. -/
def afterEvents : List Instr → State → Option State
  | [], s => some s
  | c :: rest, s =>
    match exec c s with
    | .next t => afterEvents rest t
    | .fault _ => none
    | .refused _ => none

/-- The state with no job running and the walker's request withdrawn (R119). -/
def jobEnded (s : State) : State := { s with walker := .idle, arbiter := { s.arbiter with walkRequest := false } }

/-- The ranges of R1 and the laws of R23 and R49 for one feed record. -/
def feedLaw (f : Feed) : Prop :=
  -2 ≤ f.fill ∧ f.fill ≤ 48 ∧ f.frac < 2 ^ 24 ∧ 2 ^ 22 ≤ f.nominal ∧ f.nominal ≤ 2 ^ 25 ∧ f.limit ≤ 65535 ∧
    -(f.limit : Int) ≤ f.trim ∧ f.trim ≤ f.limit ∧ 2 ≤ f.target ∧ f.target ≤ 44 ∧ f.gain ≤ 255 ∧
    1 ≤ f.threshold ∧ f.threshold ≤ 48 ∧ f.bank ≤ 3

/-- Every feed record keeps its law. -/
def State.feedsLawful (s : State) : Prop := ∀ k, feedLaw (s.feed k)

/-- The laws of R57 and R58: entries in lists and pool number 1024, every list is strictly ascending by feed slot, and
no list stands beyond the 64. -/
def State.mixLawful (s : State) : Prop :=
  ((List.range 64).map fun c => (s.list c).length).sum + s.pool = 1024 ∧
    (∀ c, (s.list c).Pairwise fun a b => a.feed < b.feed) ∧ ∀ c, 64 ≤ c → s.list c = []

/-- The law of R78 for one entry: the current gain lies in its range, and the steps that remain lead toward the target
without passing it. -/
def entryLaw (e : MixEntry) : Prop :=
  0 ≤ e.current ∧ e.current ≤ 8388352 ∧ e.target ≤ 32767 ∧
    ((0 ≤ e.increment ∧ e.increment * e.remaining ≤ (e.target : Int) * 256 - e.current) ∨
      (e.increment ≤ 0 ∧ (e.target : Int) * 256 - e.current ≤ e.increment * e.remaining) ∨ e.remaining = 0)

/-- The gain law stays within 0..32767 with entry 0 at 0 (R74), and every mix entry keeps its law (R78). -/
def State.gainsLawful (s : State) : Prop :=
  (∀ c, c < 256 → s.law c ≤ 32767) ∧ s.law 0 = 0 ∧ (∀ t c, c < 256 → s.recode t c < 256) ∧
    ∀ c e, e ∈ s.list c → e.code < 256 ∧ entryLaw e

/-- A value in the sample range. -/
def isSample (x : Int) : Prop := -8388608 ≤ x ∧ x ≤ 8388607

/-- The level of a dip is at most 32 (R141). -/
def dipLaw : Dip → Prop
  | .still => True
  | .falling level _ => level ≤ 32
  | .rising level => level ≤ 32

/-- What the law of R140 rests on: every delay line place and every frame sample formed is a sample, and no dip level
exceeds 32. -/
def State.samplesLawful (s : State) : Prop :=
  (∀ c p, isSample (Tab.get silence (s.line c) p)) ∧ (∀ c x, s.workOf c = .computed x → isSample x) ∧
    ∀ c, dipLaw (s.dip c)

/-- The law of R97: at most 64 entries, and no due time stands before one ahead of it: it lies 0..2^31 − 1 after it. -/
def State.cuesLawful (s : State) : Prop :=
  s.cues.length ≤ 64 ∧ s.cues.Pairwise fun a b => (b.due - a.due).toNat < 2 ^ 31

/-- The laws of R116 and R171, and the capacities of the inbound, relay and through queues (R149, R176, R177). -/
def State.queuesLawful (s : State) : Prop :=
  s.jobs.length ≤ 8 ∧ s.replies.length + s.reserved ≤ 8 ∧ s.inbound.length ≤ 4 ∧ s.relay.length ≤ 4 ∧
    s.through.length ≤ 4

/-- The ranges of the load pointer and of the remembered column (R158). -/
def State.pointerLawful (s : State) : Prop :=
  s.pointer.table ≤ 8 ∧ s.pointer.row < tableRows s.pointer.table ∧ s.pointer.column ≤ 16 ∧
    ∀ c, s.patch = some c → c ≤ 16

/-- The law of R3 with the directory position of R1: a slot is not FREE exactly when its record names a position whose
entry names the slot; an entry names a slot of the part, whose record names that entry's position and id, and stands in
the set of its id under the mask (R6); no two entries hold one id. A fade completion that a close still owes is one of
a slot that is not FREE. -/
def State.directoryLawful (s : State) : Prop :=
  (∀ k, (s.feed k).lifecycle = .free → (s.feed k).dirPos = none) ∧
    (∀ k, (s.feed k).lifecycle ≠ .free → k < 128 ∧ ∃ pos id, (s.feed k).dirPos = some pos ∧
      (s.feed k).streamId = some id ∧ s.dirEntry pos = some { streamId := id, slot := k }) ∧
    (∀ pos e, s.dirEntry pos = some e → e.slot < 128 ∧ pos / 4 = setIndex s.mask e.streamId ∧
      (s.feed e.slot).lifecycle ≠ .free ∧ (s.feed e.slot).dirPos = some pos ∧
      (s.feed e.slot).streamId = some e.streamId) ∧
    (∀ p q e d, s.dirEntry p = some e → s.dirEntry q = some d → e.streamId = d.streamId → p = q) ∧
    ∀ k, .fadeCompletion k ∈ s.closeDue → (s.feed k).lifecycle ≠ .free

/-- The law of the edit port (R119, R129 to R131): a FREE port leaves no request standing; the walker's request stands
while a job runs, and only then is its step granted; the command request stands, or its edit is granted, only while the
burst in execution stands at an immediate edit; and the ranges of R129. -/
def State.portLawful (s : State) : Prop :=
  let a := s.arbiter
  (a.port = .free → a.cmdRequest = false ∧ a.walkRequest = false) ∧
    (a.walkRequest = true ↔ ∃ job, s.walker = .running job) ∧
    (granted a .walker = true → a.walkRequest = true) ∧
    (granted a .command = true → a.cmdRequest = false) ∧
    (a.cmdRequest = true ∨ granted a .command = true → s.atEdit = true) ∧
    1 ≤ a.cmdBurst ∧ a.cmdBurst ≤ 255 ∧ 1 ≤ a.walkBurst ∧ a.walkBurst ≤ 255 ∧ a.run ≤ 255

/-- The number of PURGE jobs for a slot, queued or running (R13). -/
def State.purgeJobs (s : State) (slot : Nat) : Nat :=
  s.jobs.count (.purge slot) +
    match s.walker with
    | .running (.purge k _) => if k = slot then 1 else 0
    | .running (.recode _ _ _ _ _) => 0
    | .running (.scan _ _ _) => 0
    | .idle => 0
    | .holding _ => 0

/-- The law of R13: a feed is PURGING exactly when one PURGE job for it is queued or running, and no slot has more; with
what it rests on: fade fields and the purge pending flag belong to FADING alone (R1), a purge is pending only when the
fade is over (R11), and a close owes a slot at most one fade completion, while it is FADING with no purge pending. -/
def State.purgesLawful (s : State) : Prop :=
  (∀ k, s.purgeJobs k = if (s.feed k).lifecycle = .purging then 1 else 0) ∧
    (∀ k d, (s.feed k).purgePending = some true → (s.feed k).fade = some d → d.remaining = 0) ∧
    (∀ k, (s.feed k).lifecycle ≠ .fading → (s.feed k).fade = none ∧ (s.feed k).purgePending = none) ∧
    (∀ k, s.closeDue.count (.fadeCompletion k) ≤ 1) ∧
    ∀ k, .fadeCompletion k ∈ s.closeDue → (s.feed k).lifecycle = .fading ∧ (s.feed k).purgePending ≠ some true

/-- The canonical form of every table of the state. -/
def State.canonical (s : State) : Bool :=
  Tab.wf dirInit s.dir && Tab.wf feedInit s.feeds && Tab.wf coefInit s.coef && Tab.wf listInit s.lists &&
    Tab.wf offInit s.summed && Tab.wf gainLawInit s.gainLaw && Tab.wf offInit s.invert && Tab.wf zeroInit s.outClips &&
    Tab.wf identityInit s.recodeA && Tab.wf identityInit s.recodeB && Tab.wf identityInit s.slotMap &&
    Tab.wf zeroInit s.delays && Tab.wf zeroInit s.readDelays && Tab.wf dipInit s.dips && Tab.wf lineInit s.lines &&
    Tab.wf workInit s.work && Tab.wf counterInit s.counters &&
    s.feeds.all (fun p => Tab.wf silence p.2.ring) && s.lines.all fun p => Tab.wf silence p.2

end Sys2Proof.Machine
end

