-- ==== Sys2Proof/Certificates/Slice0/Obligations.lean ====
section
/-! DEFINITION. The statements for the provers. `settle s` is the state once what the rules put at once has happened (log
entry 2); `completes`, `refuses`, `editCompletes` and `editRefuses` say what a command of the burst in execution does to
the part and to its burst, and `burstGoes` what the burst's next words come to; `atHand` and `editAtHand` say that the
burst's next word carries the command out. A target written with `with` says that everything it does not name is
unchanged. -/
section
open Sys2Proof Sys2Proof.Machine

/-- A step takes the command at the front of the queue and executes it on the state with the queue's rest. -/
def Obligations.StepRunsFrontCommand : Prop :=
  ∀ (c : Instr) (rest : List Instr) (s : State),
    step { s with pending := c :: rest } = exec c { s with pending := rest }

/-- No command touches the queue, POWER_ON_RESET among them (the model's choice, log entry 20); every command that names
channels and slots of the part completes in every state, since an event out of turn is not taken instead of stopping (the
model's choice, log entry 1); a channel that the part does not have faults (the model's choice, log entry 18). -/
def Obligations.EventsCompleteAndKeepQueue : Prop :=
  (∀ (c : Instr) (s t : State), exec c s = .next t → t.pending = s.pending) ∧
    (∀ (c : Instr) (s : State), c.wellFormed = true → ∃ t, exec c s = .next t) ∧
    ∀ (channel : Nat) (s : State), 63 < channel → exec (.channelCompute channel) s = .fault (.noSuchChannel channel)

/-- A command of a burst that the burst in execution does not spell next is not carried out, an immediate edit's request
not raised (the model's choice, log entry 1). An immediate edit at hand raises the command request (R131): on a FREE port
on which nobody waits it is granted at once, and the edit step is in the same event; on a BUSY port it waits, and the edit
is not made (R62, R130). A request granted by an earlier event is not raised again. -/
def Obligations.CommandWaitsForItsTurn : Prop :=
  (∀ (c : Instr) (r : Ready) (s : State), Instr.ready c = some r → atReady r (settle s) = none →
      exec c s = .next (settle s)) ∧
    ∀ (c : Instr) (op : Op) (args : List Word) (s : State) (x : Exec), c.spelled = some (op, args) →
      op.usesPort = true → atHand c s x →
      let u := settle s
      let a := u.arbiter
      let free := a.port = .free ∧ a.walkRequest = false
      let own := a.port = .busy ∧ a.owner = .command
      (a.port = .busy → a.owner = .walker → exec c s = .next { u with arbiter := { a with cmdRequest := true } }) ∧
      (own → requestEdit u = u) ∧
      (free → requestEdit u = { u with arbiter := { a with
        port := .busy, owner := .command, cmdRequest := false,
        run := if a.owner = .command then min 255 (a.run + 1) else 1 } }) ∧
      (free ∨ own → editAtHand c s x)

/-- After what the rules put at once nothing more is due, and a state with nothing due is left as it is. What happens at
once is what the events themselves lead to: a job start that is due (R118); each end that the close owes, in the order of
the list, with a job start after each (R135, R118); then a held report's posting (R124) and as many takes as bursts wait
(R150), where one that is not due changes nothing. That these are done before any other event is the model's reading
(log entry 2), and their order where the queue does not name them the model's choice (log entry 3). -/
def Obligations.SettledStateIsAtRest : Prop :=
  (∀ s : State, (settle s).quiet = true) ∧ (∀ s : State, s.quiet = true → settle s = s) ∧
    ∀ s : State,
      let ends := .jobStart :: s.closeDue.flatMap fun w => [w.event, .jobStart]
      afterEvents ends s = some (closeRest s) ∧
        afterEvents (ends ++ .heldReportPost :: List.replicate s.inbound.length .burstTake) s = some (settle s)

/-- POWER_ON_RESET leaves every block as the power-on columns give it, with the straps as the address (the queue is not
the part's); State.reset is that state with straps 0 (a choice, log entry 9). -/
def Obligations.PowerOnReset : Prop :=
  exec (.powerOnReset 0#4) State.reset = .next State.reset ∧
    ∀ (straps : BitVec 4) (s : State), ∃ t, exec (.powerOnReset straps) s = .next t ∧
      (t.address = straps ∧ t.pending = s.pending ∧ t.feedUp = .down ∧ t.feedPartial = [] ∧ t.speakerUp = .down ∧
        t.speakerPartial = [] ∧ t.forwardLane = .idle ∧ t.gapOpen = false) ∧
      ((∀ p, t.dirEntry p = none) ∧ t.mask = 0xFFFF#16 ∧
        ∀ k, t.feed k =
          { lifecycle := .free, flow := none, streamId := none, dirPos := none, ring := [], written := 0#32,
            index := 0#32, frac := 0, nominal := 2 ^ 24, trim := 0, servoOn := true, target := 16, gain := 32,
            limit := 16384, threshold := 16, bank := 0, lastSeq := none, fade := none, purgePending := none,
            underruns := 0, overruns := 0, gaps := 0, stales := 0, clips := 0, step := none } ∧
          ∀ place, (t.feed k).ringAt place = 0) ∧
      (∀ bank row, bank < 4 → row < 65 →
        t.coefWord bank row 0 = (if row = 64 then 32767#16 else BitVec.ofNat 16 (512 * row)) ∧
        t.coefWord bank row 1 = (if row = 0 then 32767#16 else BitVec.ofNat 16 (32768 - 512 * row)) ∧
        ∀ tap, 2 ≤ tap → tap < 16 → t.coefWord bank row tap = 0#16) ∧
      (t.servoN = 256 ∧ t.servoCount = 0 ∧ (∀ c, t.list c = []) ∧ t.pool = 1024 ∧ t.filter = true) ∧
      ((∀ code, code < 256 → t.law code = code * 16384 / 255) ∧ t.master = 128 ∧ (∀ c, t.inverted c = false) ∧
        (∀ c, t.clipCount c = 0) ∧ t.ovPending = { on := false, monitor := 0, mask := 0#64 } ∧
        t.ovCurrent = { on := false, monitor := 0, mask := 0#64 }) ∧
      (t.cues = [] ∧ t.cueNumber = 0#16 ∧ t.jobs = [] ∧ t.walker = .idle ∧ ∀ table code, t.recode table code = code) ∧
      t.arbiter = { port := .free, limiting := true, cmdBurst := 8, walkBurst := 4, owner := .command, run := 0,
                    cmdRequest := false, walkRequest := false } ∧
      (t.count = 0#32 ∧ t.active = 64 ∧ (∀ c, t.slotOf c = c) ∧ (∀ c, t.delay c = 0) ∧ (∀ c, t.readDelay c = 0) ∧
        (∀ c, t.dip c = .still) ∧ (∀ c p, Tab.get silence (t.line c) p = 0) ∧ t.phase = .between ∧ t.closeDue = []) ∧
      (t.inbound = [] ∧ t.proc = none ∧ t.pointer = { table := 0, row := 0, column := 0 } ∧ t.latch = 0#16 ∧
        t.patch = none) ∧
      (t.replies = [] ∧ t.urgent = none ∧ t.further = 0 ∧ t.lane = none ∧ t.relayMode = .roundRobin ∧
        t.turn = .reply ∧ t.relay = [] ∧ t.through = []) ∧
      ∀ k, t.counter k = { select := .none, value := 0#32 }

/-- The feed link reset, the fall of the feed link, and the rise and fall of the speaker link; a period in progress is
ended by its close, which leaves its final steps owed (the model's choice, log entries 4 and 25). An edit that waits
at a feed-link reset, or that is not reached, is not made (R169); one that an earlier event granted is made and stays
(R170, log entry 6). The forward lane and the gap are the model's own fields (log entry 15). A FEED_LINK_RESET while
the link is UP is not taken (the model's choice, log entry 1). -/
def Obligations.LinkEvents : Prop :=
  ∀ s : State,
    let u := settle s
    let cleared := fun t : State => { t with
      feedUp := .up, feedPartial := [], inbound := [], proc := none, replies := [], relay := [],
      arbiter := { t.arbiter with cmdRequest := false } }
    (u.feedUp = .down → granted u.arbiter .command = false → exec .feedLinkReset s = .next (cleared u)) ∧
    (u.feedUp = .down → granted u.arbiter .command = true → ∀ (d : Deferred) (x : Exec), d.op.usesPort = true →
      atReady (.command d.op d.args) u = some x →
      (∀ t notes words, applyDeferred d u = .done t notes words →
        exec .feedLinkReset s = .next (releasePort (cleared t))) ∧
      ∀ code, applyDeferred d u = .refuse code → exec .feedLinkReset s = .next (releasePort (cleared u))) ∧
    ((settle s).feedUp = .up → exec .feedLinkReset s = .next (settle s)) ∧
    exec .feedLinkDown s = .next { settle s with feedUp := .down, lane := none } ∧
    exec .speakerLinkUp s = .next { settle s with speakerUp := .up } ∧
    ((settle s).phase = .between → exec .speakerLinkDown s = .next
      { settle s with speakerUp := .down, speakerPartial := [], forwardLane := .idle, gapOpen := false }) ∧
    ((settle s).phase ≠ .between → exec .speakerLinkDown s = .next
      { closePeriod (settle s) with speakerUp := .down, speakerPartial := [], forwardLane := .idle, gapOpen := false })

/-- BIND: its tests in order with their codes, and past them the directory entry in the lowest-numbered invalid way and
the fresh LIVE record; a step outside 2^22..2^25 is clamped with the note CLAMPED. -/
def Obligations.BindTestsAndPlacesFeed : Prop :=
  ∀ (id slot bank high low : Word) (s : State) (x : Exec), atHand (.bind id slot bank high low) s x →
    let u := settle s
    let m := (id &&& u.mask).toNat
    let first := ((m % 32) ^^^ (m / 32 % 32) ^^^ (m / 1024 % 32) ^^^ (m / 32768)) * 4
    let holds := fun w : Nat => (u.dirEntry (first + w)).map DirEntry.streamId = some id
    let ranged := slot.toNat ≤ 127 ∧ bank.toNat ≤ 3
    let isFree := (u.feed slot.toNat).lifecycle = .free
    (¬ranged → refuses (.bind id slot bank high low) s x u .range) ∧
    (ranged → ¬isFree → refuses (.bind id slot bank high low) s x u .slotBusy) ∧
    (ranged → isFree → (∃ w < 4, holds w) → refuses (.bind id slot bank high low) s x u .duplicate) ∧
    (ranged → isFree → (∀ w < 4, ¬holds w) → (∀ w < 4, u.dirEntry (first + w) ≠ none) →
      refuses (.bind id slot bank high low) s x u .setFull) ∧
    ∀ way, ranged → isFree → (∀ w < 4, ¬holds w) → way < 4 → u.dirEntry (first + way) = none →
      (∀ w < way, u.dirEntry (first + w) ≠ none) →
      completes (.bind id slot bank high low) s x
        ((u.setDirEntry (first + way) (some { streamId := id, slot := slot.toNat })).setFeed slot.toNat
          { lifecycle := .live, flow := some .priming, streamId := some id, dirPos := some (first + way), ring := [],
            written := 0#32, index := 0#32, frac := 0, nominal := max (2 ^ 22) (min (2 ^ 25) (high ++ low).toNat),
            trim := 0, servoOn := true, target := 16, gain := 32, limit := 16384, threshold := 16,
            bank := bank.toNat, lastSeq := none, fade := none, purgePending := none, underruns := 0, overruns := 0,
            gaps := 0, stales := 0, clips := 0, step := none })
        { noNotes with clamped := decide ((high ++ low).toNat < 2 ^ 22 ∨ 2 ^ 25 < (high ++ low).toNat) } []

/-- UNBIND: RANGE, NO_FEED for a slot that is not LIVE, and else the fade from 16384 over 2^code periods. -/
def Obligations.UnbindStartsFade : Prop :=
  ∀ (slot code : Word) (s : State) (x : Exec), atHand (.unbind slot code) s x →
    let u := settle s
    let f := u.feed slot.toNat
    (127 < slot.toNat → refuses (.unbind slot code) s x u .range) ∧
    (slot.toNat ≤ 127 → f.lifecycle ≠ .live → refuses (.unbind slot code) s x u .noFeed) ∧
    (slot.toNat ≤ 127 → f.lifecycle = .live → completes (.unbind slot code) s x
      (u.setFeed slot.toNat
        { f with
          lifecycle := .fading, purgePending := some false,
          fade := some { current := 16384 * 256, remaining := 2 ^ min 12 code.toNat,
                         increment := (-(16384 * 256) : Int).tdiv (2 ^ min 12 code.toNat) } })
      { noNotes with clamped := decide (12 < code.toNat) } [])

/-- SET MASK: NOT_EMPTY while a directory entry is valid, and else the mask. -/
def Obligations.SetMaskNeedsEmptyDirectory : Prop :=
  ∀ (mask : Word) (s : State) (x : Exec), atHand (.setMask mask) s x →
    let u := settle s
    ((∃ p < 128, u.dirEntry p ≠ none) → refuses (.setMask mask) s x u .notEmpty) ∧
    ((∀ p < 128, u.dirEntry p = none) → completes (.setMask mask) s x { u with mask := mask } noNotes [])

/-- SET RATE: its tests in order, and past them the new step, bank and threshold, with the flow test. -/
def Obligations.SetRateReplacesRate : Prop :=
  ∀ (slot high low bank threshold : Word) (s : State) (x : Exec), atHand (.setRate slot high low bank threshold) s x →
    let u := settle s
    let f := u.feed slot.toNat
    let bound := f.lifecycle = .live ∨ f.lifecycle = .fading
    let t := max 1 (min 48 threshold.toNat)
    (127 < slot.toNat ∨ 3 < bank.toNat → refuses (.setRate slot high low bank threshold) s x u .range) ∧
    (slot.toNat ≤ 127 → bank.toNat ≤ 3 → ¬bound →
      refuses (.setRate slot high low bank threshold) s x u .noFeed) ∧
    (slot.toNat ≤ 127 → bank.toNat ≤ 3 → bound →
      completes (.setRate slot high low bank threshold) s x
        (u.setFeed slot.toNat
          { f with
            nominal := max (2 ^ 22) (min (2 ^ 25) (high ++ low).toNat), bank := bank.toNat, threshold := t,
            flow := if (f.flow = some .priming ∨ f.flow = some .starved) ∧ (t : Int) ≤ f.fill then some .running
              else f.flow })
        { noNotes with
          clamped := decide ((high ++ low).toNat < 2 ^ 22 ∨ 2 ^ 25 < (high ++ low).toNat ∨ threshold.toNat < 1 ∨
            48 < threshold.toNat) } [])

/-- SET SERVO: its tests in order; in mode 0 or 1 the feed's servo fields with the trim saturated into the new limit; in
every mode the interval word; and the two read words N and counter when the reply has room. -/
def Obligations.SetServoSetsFeedAndInterval : Prop :=
  ∀ (mode slot target gain limit interval : Word) (s : State) (x : Exec),
    atHand (.setServo mode slot target gain limit interval) s x →
    let i := Instr.setServo mode slot target gain limit interval
    let u := settle s
    let room := 64 - x.reads.length
    let f := u.feed slot.toNat
    let bound := f.lifecycle = .live ∨ f.lifecycle = .fading
    let n := if interval.toNat = 0 then u.servoN else max 16 (min 4096 interval.toNat)
    let count := if n = u.servoN then u.servoCount else 0
    let intervalClamped := interval.toNat ≠ 0 ∧ (interval.toNat < 16 ∨ 4096 < interval.toNat)
    let words := if 2 ≤ room then [BitVec.ofNat 16 n, BitVec.ofNat 16 count] else []
    (2 < mode.toNat → refuses i s x u .range) ∧
    (mode.toNat < 2 → 127 < slot.toNat → refuses i s x u .range) ∧
    (mode.toNat < 2 → slot.toNat ≤ 127 → ¬bound → refuses i s x u .noFeed) ∧
    (mode.toNat = 2 → completes i s x { u with servoN := n, servoCount := count }
      { noNotes with clamped := decide intervalClamped, readOverflow := decide (room < 2) } words) ∧
    (mode.toNat < 2 → slot.toNat ≤ 127 → bound → completes i s x
      { u.setFeed slot.toNat
          { f with
            servoOn := decide (mode.toNat = 1), target := max 2 (min 44 target.toNat), gain := min 255 gain.toNat,
            limit := limit.toNat, trim := max (-(limit.toNat : Int)) (min limit.toNat f.trim) } with
        servoN := n, servoCount := count }
      { noNotes with
        clamped := decide (target.toNat < 2 ∨ 44 < target.toNat ∨ 255 < gain.toNat ∨ intervalClamped),
        readOverflow := decide (room < 2) } words)

/-- READ FEED: RANGE, and else the 28 words of the record, placed whole when the reply has room. -/
def Obligations.ReadFeedPlacesRecord : Prop :=
  ∀ (slot : Word) (s : State) (x : Exec), atHand (.readFeed slot) s x →
    let u := settle s
    let room := 64 - x.reads.length
    let f := u.feed slot.toNat
    let n16 := fun n : Nat => BitVec.ofNat 16 n
    let wide := fun v : Count => [v.extractLsb' 16 16, v.extractLsb' 0 16]
    let words : List Word :=
      [match f.lifecycle with | .free => 0#16 | .live => 1#16 | .fading => 2#16 | .purging => 3#16,
       match f.flow with | none => 0#16 | some .priming => 1#16 | some .running => 2#16 | some .starved => 3#16,
       f.streamId.getD 0#16, n16 (f.dirPos.getD 0), BitVec.ofInt 16 (f.written - f.index).toInt] ++
      wide f.index ++ wide (BitVec.ofNat 32 f.frac) ++ wide (BitVec.ofNat 32 f.nominal) ++
      wide (BitVec.ofInt 32 f.trim) ++
      [if f.servoOn then 1#16 else 0#16, n16 f.target, n16 f.gain, n16 f.limit, n16 f.threshold, n16 f.bank,
       match f.lastSeq with | none => 0xFFFF#16 | some q => n16 q,
       match f.fade with | none => 0#16 | some d => BitVec.ofInt 16 (d.current / 256),
       match f.fade with | none => 0#16 | some d => n16 d.remaining,
       if f.purgePending = some true then 1#16 else 0#16,
       n16 f.underruns, n16 f.overruns, n16 f.gaps, n16 f.stales, n16 f.clips]
    (127 < slot.toNat → refuses (.readFeed slot) s x u .range) ∧
    (slot.toNat ≤ 127 → 28 ≤ room → completes (.readFeed slot) s x u noNotes words) ∧
    (slot.toNat ≤ 127 → room < 28 →
      completes (.readFeed slot) s x u { noNotes with readOverflow := true } [])

/-- A burst built in the envelope, with its check word, passes the port's tests and is read back as it was built: a
command burst, an audio burst, an amplifier reply. -/
def Obligations.BuiltBurstsAreReceived : Prop :=
  (∀ (address : Nat) (tag : Word) (words : List Word), address ≤ 15 → words.length ≤ 512 →
      receive (envelope 2 (natByte address :: (wordBytes tag ++ words.flatMap wordBytes))) =
        .command address tag words) ∧
    (∀ (id : Word) (seq : Nat) (samples : List Int), seq < 256 → 1 ≤ samples.length → samples.length ≤ 32 →
      (∀ v ∈ samples, isSample v) →
      receive (envelope 1 (wordBytes id ++ [natByte seq, natByte samples.length] ++ samples.flatMap sampleBytes)) =
        .audio id seq samples) ∧
    ∀ body : List Byte, 1 ≤ body.length → body.length < 65536 → amplifierAccepted (envelope 3 body) = true

/-- What the ports do with a received burst. One whose length, check word, type or body fails the tests of R184 is
CHECK_FAIL; a command burst goes to the inbound queue or is CMD_DROPPED, or to the through queue or is FWD_DROPPED, with
the words its bytes spell; an amplifier reply that passes the tests of R185 goes to the relay queue or is RELAY_DROPPED,
and one that fails is dropped uncounted; nothing is received on a link that is DOWN. The check word is the cyclic check
of R183, bit by bit. -/
def Obligations.BurstArrivals : Prop :=
  (checkWord [] = 0xFFFF#16 ∧ ∀ (l : List Byte) (b : Byte), checkWord (l ++ [b]) =
    [7, 6, 5, 4, 3, 2, 1, 0].foldl (fun (r : Word) k =>
      if r.getLsbD 15 = b.getLsbD k then r <<< 1 else (r <<< 1) ^^^ 0b0001000000100001#16) (checkWord l)) ∧
  ∀ (bytes : List Byte) (s : State),
    let u := settle s
    let v := { u with feedPartial := [] }
    let w := { u with speakerPartial := [] }
    let i := Instr.feedBurstReceived bytes
    let r := Instr.amplifierReplyReceived bytes
    let byte := fun n : Nat => bytes.getD n 0#8
    let word := fun n : Nat => byte n ++ byte (n + 1)
    let length := (word 1).toNat
    let type := (byte 0).toNat
    let framed := bytes.length = length + 5 ∧ checkWord (bytes.take (length + 3)) = word (length + 3)
    let count := (byte 6).toNat
    let audio := type = 1 ∧ 1 ≤ count ∧ count ≤ 32 ∧ length = 4 + 3 * count
    let command := type = 2 ∧ length % 2 = 1 ∧ 3 ≤ length ∧ (length - 3) / 2 ≤ 512 ∧ (byte 3).toNat ≤ 15
    let samples := (List.range count).map fun k =>
      (byte (7 + 3 * k) ++ byte (8 + 3 * k) ++ byte (9 + 3 * k) : BitVec 24).toInt
    let words := (List.range ((length - 3) / 2)).map fun k => word (6 + 2 * k)
    let own := (byte 3).toNat = u.address.toNat
    (u.feedUp = .down → exec i s = .next u) ∧
    (u.feedUp = .up → ¬(framed ∧ (audio ∨ command)) → exec i s = .next (countEvent .checkFail v)) ∧
    (u.feedUp = .up → framed → audio → exec i s = .next (audioArrival (word 3) (byte 5).toNat samples v)) ∧
    (u.feedUp = .up → framed → command →
      (own → u.inbound.length < 4 →
        exec i s = .next { v with inbound := u.inbound ++ [{ tag := word 4, words := words }] }) ∧
      (own → 4 ≤ u.inbound.length → exec i s = .next (countEvent .cmdDropped v)) ∧
      (¬own → u.through.length < 4 → exec i s = .next { v with through := u.through ++ [bytes] }) ∧
      (¬own → 4 ≤ u.through.length → exec i s = .next (countEvent .fwdDropped v))) ∧
    (u.speakerUp = .down → exec r s = .next u) ∧
    (u.speakerUp = .up → ¬(framed ∧ type = 3 ∧ 1 ≤ length) → exec r s = .next w) ∧
    (u.speakerUp = .up → framed → type = 3 → 1 ≤ length →
      (u.relay.length < 4 → exec r s = .next { w with relay := u.relay ++ [bytes] }) ∧
      (4 ≤ u.relay.length → exec r s = .next (countEvent .relayDropped w)))

/-- An audio burst: LOOKUP_MISS, dropped uncounted for a PURGING slot, accepted with its gap and overrun events, or
stale. -/
def Obligations.AudioArrival : Prop :=
  ∀ (bytes : List Byte) (s : State) (id : Word) (seq : Nat) (samples : List Int),
    (settle s).feedUp = .up → receive bytes = .audio id seq samples →
    let u := settle s
    let v := { u with feedPartial := [] }
    let i := Instr.feedBurstReceived bytes
    let m := (id &&& u.mask).toNat
    let first := ((m % 32) ^^^ (m / 32 % 32) ^^^ (m / 1024 % 32) ^^^ (m / 32768)) * 4
    let holds := fun w : Nat => (u.dirEntry (first + w)).map DirEntry.streamId = some id
    ((∀ w < 4, ¬holds w) → exec i s = .next (countEvent .lookupMiss v)) ∧
    ∀ w slot, w < 4 → u.dirEntry (first + w) = some { streamId := id, slot := slot } → (∀ q < w, ¬holds q) →
      let f := u.feed slot
      let bound := f.lifecycle = .live ∨ f.lifecycle = .fading
      let d := match f.lastSeq with | none => 0 | some last => (seq + 256 - (last + 1) % 256) % 256
      (¬bound → exec i s = .next v) ∧
      (bound → d < 128 → samples.length ≤ 32 → -2 ≤ f.fill → f.fill ≤ 48 →
        exec i s = .next (countEvents
          ((if d = 0 then [] else [.seqGap]) ++ (if 48 < f.fill + samples.length then [.feedOverrun] else []))
          (v.setFeed slot (acceptBurst f seq samples)))) ∧
      (bound → 128 ≤ d → exec i s = .next (countEvent .staleBurst
        (v.setFeed slot { f with stales := min 65535 (f.stales + 1) })))

/-- The record after an accepted burst: as many samples as the fill leaves room for stand at W onwards, W rises by as
many, an overrun counts the rest, a gap counts once, the sequence number is the burst's, and the flow test is made. -/
def Obligations.AcceptedBurstFillsRing : Prop :=
  ∀ (f : Feed) (seq : Nat) (samples : List Int), samples.length ≤ 32 → -2 ≤ f.fill → f.fill ≤ 48 →
    let n := min samples.length (48 - f.fill).toNat
    let d := match f.lastSeq with | none => 0 | some last => (seq + 256 - (last + 1) % 256) % 256
    let g := acceptBurst f seq samples
    g.written = f.written + BitVec.ofNat 32 n ∧ g.fill = f.fill + n ∧ g.lastSeq = some seq ∧
      (∀ k < n, g.ringAt ((f.written + BitVec.ofNat 32 k).toNat % 64) = samples.getD k 0) ∧
      (∀ place, (∀ k < n, place ≠ (f.written + BitVec.ofNat 32 k).toNat % 64) → g.ringAt place = f.ringAt place) ∧
      g.overruns = (if n < samples.length then min 65535 (f.overruns + 1) else f.overruns) ∧
      g.gaps = (if d = 0 then f.gaps else min 65535 (f.gaps + 1)) ∧
      g.flow = (if (f.flow = some .priming ∨ f.flow = some .starved) ∧ (f.threshold : Int) ≤ f.fill + n then
        some .running else f.flow) ∧
      g = { f with ring := g.ring, written := g.written, lastSeq := g.lastSeq, overruns := g.overruns,
                   gaps := g.gaps, flow := g.flow }

/-- The period step of a sample request: the filter's arithmetic with its roundings and saturation, the fade, the position
advance and the clip of a RUNNING feed that has input; the underrun of one that has none; 0 for the others. -/
def Obligations.SampleArithmetic : Prop :=
  ∀ (k : Nat) (s : State),
    let f := s.feed k
    let bound := f.lifecycle = .live ∨ f.lifecycle = .fading
    let fading := decide (f.lifecycle = .fading)
    let p := f.frac / 2 ^ 18
    let w : Int := (f.frac / 2 ^ 8 % 1024 : Nat)
    let h := fun row tap => (s.coefWord f.bank row tap).toInt
    let c := fun tap => h p tap + (h (p + 1) tap - h p tap) * w / 1024
    let x := fun tap => f.ringAt ((f.index - BitVec.ofNat 32 tap).toNat % 64)
    let acc := ((List.range 16).map fun tap => c tap * x tap).sum
    let raw := (acc + 16384) / 32768
    let r := max (-8388608) (min 8388607 raw)
    let clipped := raw < -8388608 ∨ 8388607 < raw
    let sample := match f.fade with | none => r | some d => (r * (d.current / 256) + 8192) / 16384
    let g : Int := f.frac + f.nominal + f.trim
    (¬bound → requestSample k s = (s, 0)) ∧
    (bound → f.step = none → f.flow = some .running → 1 ≤ f.fill → requestSample k s =
      (countEvents (if clipped then [.feedClip] else [])
        (s.setFeed k
          { f with
            index := f.index + BitVec.ofInt 32 (g / 2 ^ 24), frac := (g % 2 ^ 24).toNat,
            clips := if clipped then min 65535 (f.clips + 1) else f.clips,
            step := some { sample := sample, fading := fading } }), sample)) ∧
    (bound → f.step = none → f.flow = some .running → f.fill ≤ 0 → requestSample k s =
      (countEvent .feedUnderrun
        (s.setFeed k
          { f with
            flow := some .starved, underruns := min 65535 (f.underruns + 1),
            step := some { sample := 0, fading := fading } }), 0)) ∧
    (bound → f.step = none → f.flow ≠ some .running → requestSample k s =
      (s.setFeed k { f with step := some { sample := 0, fading := fading } }, 0))

/-- A feed takes one step in a period: a second request gives the same sample and changes nothing, and a request to one
feed leaves every other feed's record. -/
def Obligations.OneStepPerPeriod : Prop :=
  ∀ (k : Nat) (s : State),
    requestSample k (requestSample k s).1 = ((requestSample k s).1, (requestSample k s).2) ∧
      ∀ j, j ≠ k → (requestSample k s).1.feed j = s.feed j

/-- SET GAIN at its edit step: RANGE, NO_FEED, POOL_FULL; filtered for the same code with the filter ON and for code 0
without an entry; else the entry is retargeted in place, or inserted before the first entry of a higher slot.
That a request does not follow at once over a DATA word is the model's choice (log entry 26). -/
def Obligations.SetGainEditsRoute : Prop :=
  ∀ (output slot code ramp : Word) (s : State) (x : Exec), editAtHand (.setGain output slot code ramp) s x →
    let i := Instr.setGain output slot code ramp
    let g := requestEdit (settle s)
    let c := output.toNat
    let k := slot.toNat
    let r := 2 ^ min 12 ramp.toNat
    let law : Int := g.law code.toNat
    let l := g.list c
    let found := l.find? fun e => e.feed == k
    let ranged := c ≤ 63 ∧ k ≤ 127 ∧ code.toNat ≤ 255
    let live := (g.feed k).lifecycle = .live
    let notes := { noNotes with clamped := decide (12 < ramp.toNat) }
    (¬ranged → editRefuses i s x g .range) ∧
    (ranged → ¬live → editRefuses i s x g .noFeed) ∧
    (ranged → live → found = none → code.toNat ≠ 0 → g.pool = 0 → editRefuses i s x g .poolFull) ∧
    (ranged → live → found = none → code.toNat = 0 →
      editCompletes i s x (countEvent .filtered g) { notes with filtered := true } []) ∧
    (∀ e, ranged → live → found = some e → e.code = code.toNat → g.filter = true →
      editCompletes i s x (countEvent .filtered g) { notes with filtered := true } []) ∧
    (∀ e, ranged → live → found = some e → (e.code ≠ code.toNat ∨ g.filter = false) →
      editCompletes i s x
        (g.setList c (l.map fun e => if e.feed = k then
          { e with code := code.toNat, target := g.law code.toNat, remaining := r,
                   increment := (law * 256 - e.current).tdiv r, readSince := false } else e)) notes []) ∧
    ∀ front back, ranged → live → found = none → code.toNat ≠ 0 → g.pool ≠ 0 → l = front ++ back →
      (∀ e ∈ front, e.feed ≤ k) → (∀ e ∈ back.head?, k < e.feed) →
      editCompletes i s x
        { g.setList c (front ++
            { feed := k, code := code.toNat, target := g.law code.toNat, current := 0, remaining := r,
              increment := (law * 256).tdiv r, readSince := false } :: back) with
          pool := g.pool - 1 } notes []

/-- CLEAR OUTPUT at its edit step: RANGE, and else every entry of the list retargeted to code 0, but for those already
falling to 0 with the filter ON, each of which is counted as filtered.
That a request does not follow at once over a DATA word is the model's choice (log entry 26). -/
def Obligations.ClearOutputRetargets : Prop :=
  ∀ (output ramp : Word) (s : State) (x : Exec), editAtHand (.clearOutput output ramp) s x →
    let i := Instr.clearOutput output ramp
    let g := requestEdit (settle s)
    let c := output.toNat
    let r := 2 ^ min 12 ramp.toNat
    let kept := fun e : MixEntry => e.code = 0 ∧ g.filter = true
    let n := (g.list c).countP fun e => decide (kept e)
    (63 < c → editRefuses i s x g .range) ∧
    (c ≤ 63 → editCompletes i s x
      (countEvents (List.replicate n .filtered)
        (g.setList c ((g.list c).map fun e => if kept e then e else
          { e with code := 0, target := g.law 0, remaining := r,
                   increment := ((g.law 0 : Int) * 256 - e.current).tdiv r, readSince := false })))
      { noNotes with clamped := decide (12 < ramp.toNat), filtered := decide (0 < n) } [])

/-- SET FILTER, SET MASTER, SET INVERT, SET ACTIVE and SET RELAY: their RANGE refusals, their clamps and the one setting
that each writes. -/
def Obligations.SettingCommands : Prop :=
  ∀ (a b : Word) (s : State) (x : Exec),
    let u := settle s
    (atHand (.setFilter a) s x →
      (1 < a.toNat → refuses (.setFilter a) s x u .range) ∧
      (a.toNat ≤ 1 → completes (.setFilter a) s x { u with filter := decide (a.toNat = 1) } noNotes [])) ∧
    (atHand (.setMaster a) s x → completes (.setMaster a) s x { u with master := min 255 a.toNat }
      { noNotes with clamped := decide (255 < a.toNat) } []) ∧
    (atHand (.setInvert a b) s x →
      (63 < a.toNat ∨ 1 < b.toNat → refuses (.setInvert a b) s x u .range) ∧
      (a.toNat ≤ 63 → b.toNat ≤ 1 → completes (.setInvert a b) s x
        { u with invert := Tab.put offInit u.invert a.toNat (decide (b.toNat = 1)) } noNotes [])) ∧
    (atHand (.setActive a) s x → completes (.setActive a) s x { u with active := max 1 (min 64 a.toNat) }
      { noNotes with clamped := decide (a.toNat < 1 ∨ 64 < a.toNat) } []) ∧
    (atHand (.setRelay a) s x →
      (1 < a.toNat → refuses (.setRelay a) s x u .range) ∧
      (a.toNat = 0 → completes (.setRelay a) s x { u with relayMode := .roundRobin } noNotes []) ∧
      (a.toNat = 1 → completes (.setRelay a) s x { u with relayMode := .ownFirst } noNotes []))

/-- SET OVERRIDE: RANGE leaves the pending copy; in mode 0 the monitor and mask words are not examined; past the tests
the whole pending copy is replaced and the current copy kept. -/
def Obligations.SetOverrideWritesPending : Prop :=
  ∀ (mode monitor m1 m2 m3 m4 : Word) (s : State) (x : Exec),
    atHand (.setOverride mode monitor m1 m2 m3 m4) s x →
    let i := Instr.setOverride mode monitor m1 m2 m3 m4
    let u := settle s
    (1 < mode.toNat ∨ (mode.toNat = 1 ∧ 127 < monitor.toNat) → refuses i s x u .range) ∧
    (mode.toNat = 0 → completes i s x { u with ovPending := { on := false, monitor := 0, mask := 0#64 } } noNotes []) ∧
    (mode.toNat = 1 → monitor.toNat ≤ 127 → ∃ mask : BitVec 64,
      (∀ c < 16, mask.getLsbD c = m1.getLsbD c ∧ mask.getLsbD (16 + c) = m2.getLsbD c ∧
        mask.getLsbD (32 + c) = m3.getLsbD c ∧ mask.getLsbD (48 + c) = m4.getLsbD c) ∧
      completes i s x { u with ovPending := { on := true, monitor := monitor.toNat, mask := mask } } noNotes [])

/-- READ OUTPUT: RANGE, nothing when the header does not fit, and else the header with the groups that fit. -/
def Obligations.ReadOutputPlacesUnits : Prop :=
  ∀ (output firstFeed : Word) (s : State) (x : Exec), atHand (.readOutput output firstFeed) s x →
    let i := Instr.readOutput output firstFeed
    let u := settle s
    let room := 64 - x.reads.length
    let c := output.toNat
    let n16 := fun n : Nat => BitVec.ofNat 16 n
    let bit := fun b : Bool => if b then 1 else 0
    let wanted := ((u.list c).filter fun e => decide (firstFeed.toNat ≤ e.feed)).take 14
    let placed := wanted.take ((room - 5) / 4)
    let conflict := decide (c < u.active ∧ u.slotOf c < u.active ∧ ∃ d < u.active, d ≠ c ∧ u.slotOf d = u.slotOf c)
    (63 < c ∨ 127 < firstFeed.toNat → refuses i s x u .range) ∧
    (c ≤ 63 → firstFeed.toNat ≤ 127 → room < 5 → completes i s x u { noNotes with readOverflow := true } []) ∧
    (c ≤ 63 → firstFeed.toNat ≤ 127 → 5 ≤ room → completes i s x u
      { noNotes with readOverflow := decide (placed.length < wanted.length) }
      ([n16 (u.list c).length, n16 u.pool, n16 (u.clipCount c),
        n16 (bit (u.inverted c) + 2 * bit (u.ovCurrent.mask.getLsbD c) + 4 * bit (decide (c < u.active)) +
          8 * bit conflict), n16 placed.length] ++
        placed.flatMap fun e => [n16 e.feed, n16 e.code, BitVec.ofInt 16 (e.current / 256), n16 e.remaining]))

/-- A channel computed from its list: the sum over the entries, its scaling, level, saturations, polarity and clip; the
list read; the delay line written and the frame sample formed; everything else but the feeds asked and the event
counters unchanged. -/
def Obligations.ChannelFromList : Prop :=
  ∀ (c : Nat) (s : State), c < 64 → (settle s).phase = .computing → (settle s).workOf c = .waiting →
    c < (settle s).active → (settle s).ovCurrent.on = false →
    let u := settle s
    let sat := fun v : Int => max (-8388608) (min 8388607 v)
    let wide := fun v : Int => v < -8388608 ∨ 8388607 < v
    let acc := ((u.list c).map fun e => (requestSample e.feed u).2 * (e.current / 256)).sum
    let y := (acc + 8192) / 16384
    let z := (sat y * u.master + 64) / 128
    let v := if u.inverted c then (if sat z = -8388608 then 8388607 else -sat z) else sat z
    let clipped := wide y ∨ wide z
    let written := fun p : Nat => if p = u.count.toNat % 1024 then v else Tab.get silence (u.line c) p
    let delayed := written ((u.count - BitVec.ofNat 32 (u.readDelay c)).toNat % 1024)
    let frame := match u.dip c with
      | .still => delayed
      | .falling level _ => (delayed * level).tdiv 32
      | .rising level => (delayed * level).tdiv 32
    ∃ t, exec (.channelCompute c) s = .next t ∧
      t.workOf c = .computed frame ∧ (∀ p, Tab.get silence (t.line c) p = written p) ∧
      t.list c = (u.list c).map (fun e => { e with readSince := true }) ∧ t.isSummed c = true ∧
      t.clipCount c = (if clipped then min 65535 (u.clipCount c + 1) else u.clipCount c) ∧
      (∀ d, d ≠ c → t.workOf d = u.workOf d ∧ t.line d = u.line d ∧ t.list d = u.list d ∧
        t.isSummed d = u.isSummed d ∧ t.clipCount d = u.clipCount d) ∧
      (∀ k, t.feed k = if (u.list c).any (fun e => e.feed == k) then (requestSample k u).1.feed k else u.feed k) ∧
      ((u.list c).Pairwise (fun a b => a.feed < b.feed) →
        let counted := countEvents
          (((u.list c).flatMap fun e => if (u.feed e.feed).bound ∧ (u.feed e.feed).step = none then
            requestEvents u (u.feed e.feed) else []) ++ if clipped then [.outputClip] else []) u
        t.counters = counted.counters ∧ t.urgent = counted.urgent ∧ t.further = counted.further) ∧
      t = { u with work := t.work, lines := t.lines, lists := t.lists, summed := t.summed, outClips := t.outClips,
                   feeds := t.feeds, counters := t.counters, urgent := t.urgent, further := t.further }

/-- A channel under the override carries the monitor feed's sample at the master level, or 0 outside the mask, its invert
flag not applied and its list not read; a channel at or above the active count is passed over, whatever the override. -/
def Obligations.ChannelUnderOverride : Prop :=
  ∀ (c : Nat) (s : State), c < 64 → (settle s).phase = .computing → (settle s).workOf c = .waiting →
    let u := settle s
    let masked := u.ovCurrent.mask.getLsbD c
    let z := ((requestSample u.ovCurrent.monitor u).2 * u.master + 64) / 128
    let v := if masked then max (-8388608) (min 8388607 z) else 0
    let clipped := masked = true ∧ (z < -8388608 ∨ 8388607 < z)
    let written := fun p : Nat => if p = u.count.toNat % 1024 then v else Tab.get silence (u.line c) p
    let delayed := written ((u.count - BitVec.ofNat 32 (u.readDelay c)).toNat % 1024)
    let frame := match u.dip c with
      | .still => delayed
      | .falling level _ => (delayed * level).tdiv 32
      | .rising level => (delayed * level).tdiv 32
    let asked := if masked then (requestSample u.ovCurrent.monitor u).1 else u
    (u.active ≤ c → exec (.channelCompute c) s = .next (u.setWork c .passed)) ∧
    (c < u.active → u.ovCurrent.on = true → ∃ t, exec (.channelCompute c) s = .next t ∧
      t.workOf c = .computed frame ∧ (∀ p, Tab.get silence (t.line c) p = written p) ∧
      t.clipCount c = (if clipped then min 65535 (u.clipCount c + 1) else u.clipCount c) ∧
      (∀ d, d ≠ c → t.workOf d = u.workOf d ∧ t.line d = u.line d ∧ t.clipCount d = u.clipCount d) ∧
      let counted := if clipped then countEvent .outputClip asked else asked
      t = { counted with work := t.work, lines := t.lines, outClips := t.outClips })

/-- The frame event, once every channel below the active count has been handled: slot k carries the frame sample of the
lowest channel mapped to it if that was computed, else 0, in the layout of R186; the gap after the frame takes the oldest
foreign burst. -/
def Obligations.FrameAndForeignBurst : Prop :=
  ∀ s : State,
    let u := settle s
    let handled := ∀ c < u.active, u.workOf c ≠ .waiting
    let byte := fun (v : Count) (k : Nat) => v.extractLsb' k 8
    let sample := fun x : Int => let v := BitVec.ofInt 24 x; [v.extractLsb' 16 8, v.extractLsb' 8 8, v.extractLsb' 0 8]
    (¬(u.phase = .computing ∧ handled) → exec .frameEvent s = .next u) ∧
    (u.phase = .computing → handled → ∃ (t : State) (samples : List Int),
      exec .frameEvent s = .next t ∧ samples.length = u.active ∧
      (∀ k < u.active, (∀ c < u.active, u.slotOf c ≠ k) → samples.getD k 0 = 0) ∧
      (∀ k < u.active, ∀ c < u.active, u.slotOf c = k → (∀ d < c, u.slotOf d ≠ k) →
        samples.getD k 0 = match u.workOf c with | .computed v => v | .passed => 0 | .waiting => 0) ∧
      (∀ c < 64, t.workOf c = match u.workOf c with
        | .computed v => .computed v | .passed => .passed | .waiting => .passed) ∧
      (∀ c, 64 ≤ c → t.workOf c = u.workOf c) ∧
      t = { u with phase := .framed, gapOpen := true, work := t.work,
                   forwardLane := .frame (framedBytes 6
                     ([byte u.count 24, byte u.count 16, byte u.count 8, byte u.count 0, BitVec.ofNat 8 u.active] ++
                       samples.flatMap sample)) }) ∧
    (∀ b rest, u.speakerUp = .up → u.gapOpen = true → u.through = b :: rest →
      exec .foreignBurstSend s = .next { u with forwardLane := .foreign b, through := rest, gapOpen := false }) ∧
    (u.speakerUp = .down ∨ u.gapOpen = false ∨ u.through = [] → exec .foreignBurstSend s = .next u)

/-- SET DELAY: RANGE, and else the delay table entry and the dip by the table of R143. -/
def Obligations.SetDelayStartsDip : Prop :=
  ∀ (output delay : Word) (s : State) (x : Exec), atHand (.setDelay output delay) s x →
    let i := Instr.setDelay output delay
    let u := settle s
    let c := output.toNat
    let v := min 1023 delay.toNat
    let dip := match u.dip c with
      | .still => if v = u.readDelay c then Dip.still else .falling 32 v
      | .falling level _ => .falling level v
      | .rising level => if v = u.readDelay c then .rising level else .falling level v
    (63 < c → refuses i s x u .range) ∧
    (c ≤ 63 → completes i s x { u.setDip c dip with delays := Tab.put zeroInit u.delays c v }
      { noNotes with clamped := decide (1023 < delay.toNat) } [])

/-- The ends of dips that a close owes, each taken by its event: the fall's end moves the read delay and begins the rise,
the rise's end returns the dip to NONE. An end that is not owed is not taken (log entry 1). -/
def Obligations.DipEnds : Prop :=
  ∀ (c : Nat) (s : State),
    let u := startIfDue s
    (.dipDelayMove c ∈ u.closeDue → ∀ level pending, u.dip c = .falling level pending →
      exec (.dipDelayMove c) s = .next
        { u.setDip c (.rising 0) with
          readDelays := Tab.put zeroInit u.readDelays c pending, closeDue := u.closeDue.erase (.dipDelayMove c) }) ∧
    (.dipRiseEnd c ∈ u.closeDue → ∀ level, u.dip c = .rising level →
      exec (.dipRiseEnd c) s = .next
        { u.setDip c .still with closeDue := u.closeDue.erase (.dipRiseEnd c) }) ∧
    (.dipDelayMove c ∉ u.closeDue → exec (.dipDelayMove c) s = .next u) ∧
    (.dipRiseEnd c ∉ u.closeDue → exec (.dipRiseEnd c) s = .next u)

/-- PERIOD_START: the count rises, OUTPUT_PERIOD is counted, the due pass of the new count is made, and the pending
override copy becomes current; only with the link UP and no period in progress. -/
def Obligations.PeriodStart : Prop :=
  ∀ s : State,
    let u := settle s
    let v := countEvent .outputPeriod { u with count := u.count + 1#32, phase := .computing, work := [] }
    (u.speakerUp = .up → u.phase = .between →
      exec .periodStart s = .next { duePass v.cues.length v with ovCurrent := u.ovPending }) ∧
    (u.speakerUp = .down ∨ u.phase ≠ .between → exec .periodStart s = .next u)

/-- The due pass: it ends at an empty list or at a head due after the period's count; a due head is taken out and applied;
one that its command refuses is a cue fault, which removes the waiting entries of its batch, reports and counts. -/
def Obligations.DuePassAppliesCues : Prop :=
  let pass := fun s : State => duePass s.cues.length s
  (∀ s : State, s.cues = [] → pass s = s) ∧
  (∀ (s : State) (c : Cue) (rest : List Cue), s.cues = c :: rest → 2 ^ 31 ≤ (s.count - c.due).toNat → pass s = s) ∧
  (∀ (s t : State) (c : Cue) (rest : List Cue) (notes : Notes) (words : List Word), s.cues = c :: rest →
    (s.count - c.due).toNat < 2 ^ 31 → applyDeferred c.command { s with cues := rest } = .done t notes words →
    t.cues = rest ∧ pass s = pass t) ∧
  ∀ (s : State) (c : Cue) (rest : List Cue) (code : Code), s.cues = c :: rest → (s.count - c.due).toNat < 2 ^ 31 →
    applyDeferred c.command { s with cues := rest } = .refuse code →
    pass s = pass (countEvent .cueFault (offerUrgent
      (.cueFault c.number c.batch code (rest.countP fun d => decide (d.batch = c.batch)) c.command.op c.late)
      { s with cues := rest.filter fun d => decide (d.batch ≠ c.batch) }))

/-- A cued command has the effect and the refusal of the immediate one: what its application answers, the immediate
command at hand does, an edit at its edit step, in the state in which its request is granted. -/
def Obligations.CuedCommandIsTheImmediateOne : Prop :=
  ∀ (i : Instr) (d : Deferred) (s : State) (x : Exec), i.spelled = some (d.op, d.args) →
    (d.op.usesPort = false → atHand i s x →
      (∀ t notes words, applyDeferred d (settle s) = .done t notes words → completes i s x t notes words) ∧
      ∀ code, applyDeferred d (settle s) = .refuse code → refuses i s x (settle s) code) ∧
    let g := requestEdit (settle s)
    (d.op.usesPort = true → editAtHand i s x →
      (∀ t notes words, applyDeferred d g = .done t notes words → editCompletes i s x t notes words) ∧
      ∀ code, applyDeferred d g = .refuse code → editRefuses i s x g code)

/-- AT: RANGE, CUE_FULL, ORDER, and past them a new tail entry with the counter's number, late when the due time is not
after the count, its number placed as one read word when the reply has room. -/
def Obligations.AtAcceptsCue : Prop :=
  ∀ (high low batch : Word) (d : Deferred) (s : State) (x : Exec), atHand (.atCue high low batch d) s x →
    let i := Instr.atCue high low batch d
    let u := settle s
    let room := 64 - x.reads.length
    let due : Count := high ++ low
    let late := decide ((u.count - due).toNat < 2 ^ 31)
    let disordered := (∃ t ∈ u.cues.getLast?, 1 ≤ (t.due - due).toNat ∧ (t.due - due).toNat < 2 ^ 31) ∨
      ∃ h ∈ u.cues.head?, 2 ^ 31 ≤ (due - h.due).toNat
    (255 < batch.toNat → refuses i s x u .range) ∧
    (batch.toNat ≤ 255 → 64 ≤ u.cues.length → refuses i s x u .cueFull) ∧
    (batch.toNat ≤ 255 → u.cues.length < 64 → disordered → refuses i s x u .order) ∧
    (batch.toNat ≤ 255 → u.cues.length < 64 → ¬disordered → completes i s x
      (countEvents (if late then [.cueLate] else [])
        { u with
          cues := u.cues ++ [{ number := u.cueNumber, batch := batch.toNat, due := due, late := late, command := d }],
          cueNumber := u.cueNumber + 1#16 })
      { noNotes with late := late, readOverflow := decide (room < 1) } (if 1 ≤ room then [u.cueNumber] else []))

/-- CANCEL BATCH and FLUSH CUES: the entries removed, their number placed as one read word when the reply has room, the
cue number counter, the urgent slot and everything else kept. -/
def Obligations.CancelAndFlushCues : Prop :=
  ∀ (batch : Word) (s : State) (x : Exec),
    let u := settle s
    let room := 64 - x.reads.length
    let cancelled := u.cues.countP fun c => decide (c.batch = batch.toNat)
    let word := fun n : Nat => if 1 ≤ room then [BitVec.ofNat 16 n] else []
    let notes := { noNotes with readOverflow := decide (room < 1) }
    (atHand (.cancelBatch batch) s x →
      (255 < batch.toNat → refuses (.cancelBatch batch) s x u .range) ∧
      (batch.toNat ≤ 255 → completes (.cancelBatch batch) s x
        { u with cues := u.cues.filter fun c => decide (c.batch ≠ batch.toNat) } notes (word cancelled))) ∧
    (atHand .flushCues s x →
      completes .flushCues s x { u with cues := [] } notes (word u.cues.length))

/-- PERIOD_CLOSE, and the same close at the loss of the speaker link: lists not summed are read and ramps step, feeds not
asked step and fades step, silence is written for channels not computed, dips step and the servo counter rises; each
final step is owed and left to its own event. -/
def Obligations.PeriodClose : Prop :=
  (∀ s : State, (settle s).phase = .framed → exec .periodClose s = .next (closePeriod (settle s))) ∧
  (∀ s : State, (settle s).phase ≠ .framed → exec .periodClose s = .next (settle s)) ∧
  ∀ u : State,
    let t := closePeriod u
    let read := fun c (e : MixEntry) => e.readSince = true ∨ u.isSummed c = false
    let early := fun f : Feed => f.bound = true ∧ f.step = none
    let waiting := u.servoCount + 1 < u.servoN
    (∀ c < 64, t.list c = (u.list c).map fun e =>
      if read c e ∧ 1 < e.remaining then
        { e with remaining := e.remaining - 1, current := e.current + e.increment, readSince := false }
      else { e with readSince := false }) ∧
    (∀ k < 128, t.feed k = { fadeStep (closeStep (u.feed k)) with step := none }) ∧
    (∀ f : Feed, ¬early f → closeStep f = f) ∧
    (∀ f : Feed, early f →
      let held := some { sample := 0, fading := decide (f.lifecycle = .fading) }
      let position : Int := f.frac + f.nominal + f.trim
      (f.flow = some .running → 1 ≤ f.fill → closeStep f =
        { f with index := f.index + BitVec.ofInt 32 (position / 2 ^ 24), frac := (position % 2 ^ 24).toNat,
                 step := held }) ∧
      (f.flow = some .running → f.fill ≤ 0 → closeStep f =
        { f with flow := some .starved, underruns := min 65535 (f.underruns + 1), step := held }) ∧
      (f.flow ≠ some .running → closeStep f = { f with step := held })) ∧
    (∀ (f : Feed) (d : Fade) (p : StepTaken), f.lifecycle = .fading → f.fade = some d → f.step = some p →
      p.fading = true → 1 < d.remaining →
      fadeStep f = { f with fade := some { d with remaining := d.remaining - 1, current := d.current + d.increment } }) ∧
    (∀ f : Feed, (∀ d p, f.lifecycle = .fading → f.fade = some d → f.step = some p → p.fading = true →
      d.remaining ≤ 1) → fadeStep f = f) ∧
    (∀ c < 64, (∀ v, u.workOf c = .computed v → t.line c = u.line c) ∧
      ((∀ v, u.workOf c ≠ .computed v) → ∀ p, Tab.get silence (t.line c) p =
        if p = u.count.toNat % 1024 then 0 else Tab.get silence (u.line c) p)) ∧
    (∀ c < 64, t.dip c = match u.dip c with
      | .still => .still
      | .falling level pending => if 1 < level then .falling (level - 1) pending else .falling level pending
      | .rising level => if level + 1 < 32 then .rising (level + 1) else .rising level) ∧
    t.servoCount = (if waiting then u.servoCount + 1 else u.servoCount) ∧
    (∀ c f, .rampEnd c f ∈ t.closeDue ↔ c < 64 ∧ ∃ e ∈ u.list c, e.feed = f ∧ read c e ∧ e.remaining = 1 ∧ e.code ≠ 0) ∧
    (∀ c f, .autoRelease c f ∈ t.closeDue ↔
      c < 64 ∧ ∃ e ∈ u.list c, e.feed = f ∧ read c e ∧ e.remaining = 1 ∧ e.code = 0) ∧
    (∀ k, .fadeCompletion k ∈ t.closeDue ↔ k < 128 ∧ ∃ d p, (u.feed k).lifecycle = .fading ∧
      (u.feed k).fade = some d ∧ d.remaining = 1 ∧ (closeStep (u.feed k)).step = some p ∧ p.fading = true) ∧
    (∀ c, .dipDelayMove c ∈ t.closeDue ↔ c < 64 ∧ ∃ level pending, u.dip c = .falling level pending ∧ level ≤ 1) ∧
    (∀ c, .dipRiseEnd c ∈ t.closeDue ↔ c < 64 ∧ ∃ level, u.dip c = .rising level ∧ 31 ≤ level) ∧
    (.servoExpiry ∈ t.closeDue ↔ ¬waiting) ∧
    ∃ lists feeds lines dips, t = countEvents
      (((List.range 128).filter fun k => decide (early (u.feed k) ∧ (u.feed k).flow = some .running ∧
        (u.feed k).fill ≤ 0)).map fun _ => Event.feedUnderrun)
      { u with phase := .between, work := [], summed := [], closeDue := t.closeDue, servoCount := t.servoCount,
               lists := lists, feeds := feeds, lines := lines, dips := dips }

/-- RAMP_END and AUTO_RELEASE, when the close owes them: the current gain is exactly the target; an entry falling to code
0 leaves its list for the pool. -/
def Obligations.RampEndAndAutoRelease : Prop :=
  ∀ (c f : Nat) (s : State),
    let u := startIfDue s
    (.rampEnd c f ∈ u.closeDue → exec (.rampEnd c f) s = .next
      { u.setList c ((u.list c).map fun e => if e.feed = f then
          { e with remaining := 0, current := (e.target : Int) * 256 } else e) with
        closeDue := u.closeDue.erase (.rampEnd c f) }) ∧
    (.autoRelease c f ∈ u.closeDue → (∃ e ∈ u.list c, e.feed = f) → exec (.autoRelease c f) s = .next
      { u.setList c ((u.list c).filter fun e => decide (e.feed ≠ f)) with
        pool := u.pool + 1, closeDue := u.closeDue.erase (.autoRelease c f) }) ∧
    (.autoRelease c f ∈ u.closeDue → (∀ e ∈ u.list c, e.feed ≠ f) → exec (.autoRelease c f) s = .next
      { u with closeDue := u.closeDue.erase (.autoRelease c f) }) ∧
    (.rampEnd c f ∉ u.closeDue → exec (.rampEnd c f) s = .next u) ∧
    (.autoRelease c f ∉ u.closeDue → exec (.autoRelease c f) s = .next u)

/-- FADE_COMPLETION, when the close owes it: the PURGE job and PURGING with room in the queue, else purge pending with the
fade at 0. SERVO_EXPIRY, when the close owes it: the counter is 0 and each bound RUNNING feed with its servo ON takes trim
plus error times K, saturated into its limit; every other record is kept. -/
def Obligations.FadeCompletionAndServoExpiry : Prop :=
  ∀ (k : Nat) (s : State),
    let u := startIfDue s
    let f := u.feed k
    let due := u.closeDue.erase (.fadeCompletion k)
    (.fadeCompletion k ∈ u.closeDue → u.jobs.length < 8 → exec (.fadeCompletion k) s = .next
      { u.setFeed k { f with lifecycle := .purging, flow := none, fade := none, purgePending := none } with
        jobs := u.jobs ++ [.purge k], closeDue := due }) ∧
    (.fadeCompletion k ∈ u.closeDue → 8 ≤ u.jobs.length → ∀ d, f.fade = some d → exec (.fadeCompletion k) s = .next
      { u.setFeed k { f with fade := some { d with current := 0, remaining := 0 }, purgePending := some true } with
        closeDue := due }) ∧
    (.fadeCompletion k ∉ u.closeDue → exec (.fadeCompletion k) s = .next u) ∧
    (.servoExpiry ∉ u.closeDue → exec .servoExpiry s = .next u) ∧
    (.servoExpiry ∈ u.closeDue → ∃ t, exec .servoExpiry s = .next t ∧
      (∀ m, t.feed m =
        let f := u.feed m
        if m < 128 ∧ (f.lifecycle = .live ∨ f.lifecycle = .fading) ∧ f.flow = some .running ∧ f.servoOn = true then
          { f with trim := max (-(f.limit : Int)) (min f.limit (f.trim + (f.fill - f.target) * f.gain)) }
        else f) ∧
      t = { u with feeds := t.feeds, servoCount := 0, closeDue := u.closeDue.erase .servoExpiry })

/-- JOB RECODE and JOB SCAN: RANGE, JOB_FULL, and past them the job at the queue's tail with the burst's tag, which an IDLE
walker starts at once, before the burst goes on. -/
def Obligations.JobCommandsQueueJobs : Prop :=
  ∀ (output first count table ramp notify : Word) (s : State) (x : Exec),
    let u := settle s
    let recode := Instr.jobRecode output first count table ramp notify
    let scan := Instr.jobScan output first count table
    let ranged := output.toNat ≤ 63 ∧ first.toNat ≤ 127 ∧ 1 ≤ count.toNat ∧ count.toNat ≤ 128 ∧ table.toNat ≤ 1
    let t := if table.toNat = 0 then RecodeTable.a else .b
    let queued := fun (i : Instr) (job : Job) (notes : Notes) =>
      ∃ v, exec .jobStart { u with jobs := u.jobs ++ [job] } = .next v ∧ completes i s x v notes []
    (atHand recode s x →
      (¬(ranged ∧ notify.toNat ≤ 1) → refuses recode s x u .range) ∧
      (ranged → notify.toNat ≤ 1 → 8 ≤ u.jobs.length → refuses recode s x u .jobFull) ∧
      (ranged → notify.toNat ≤ 1 → u.jobs.length < 8 → queued recode
        (.recode { output := output.toNat, first := first.toNat, count := count.toNat, table := t,
                   ramp := min 12 ramp.toNat, notify := decide (notify.toNat = 1), tag := x.tag })
        { noNotes with clamped := decide (12 < ramp.toNat) })) ∧
    (atHand scan s x →
      (¬ranged → refuses scan s x u .range) ∧
      (ranged → 8 ≤ u.jobs.length → refuses scan s x u .jobFull) ∧
      (ranged → u.jobs.length < 8 → queued scan
        (.scan { output := output.toNat, first := first.toNat, count := count.toNat, table := t, tag := x.tag })
        noNotes))

/-- JOB_START: the head job leaves the queue and runs with a fresh cursor, its request for the edit port is raised (and
granted at once on a FREE port, R130), and the place it leaves goes to the lowest FADING slot with purge pending, which
becomes PURGING. -/
def Obligations.JobStart : Prop :=
  ∀ s : State,
    let pending := fun k => k < 128 ∧ (s.feed k).lifecycle = .fading ∧ (s.feed k).purgePending = some true
    (s.walker ≠ .idle ∨ s.jobs = [] → exec .jobStart s = .next s) ∧
    ∀ j rest, s.walker = .idle → s.jobs = j :: rest →
      let fresh := match j with
        | .purge slot => Running.purge slot 0
        | .recode r => .recode r r.first r.count 0 0
        | .scan r => .scan r r.first r.count
      let started := requestPort .walker { s with jobs := rest, walker := .running fresh }
      ((∀ k, ¬pending k) → exec .jobStart s = .next started) ∧
      ∀ k, pending k → (∀ m < k, ¬pending m) → exec .jobStart s = .next
        { started.setFeed k
            { s.feed k with lifecycle := .purging, flow := none, fade := none, purgePending := none } with
          jobs := rest ++ [.purge k] }

/-- PURGE_STEP on a grant, at whose end the port falls FREE: the slot's entry leaves the list for the pool, and the cursor
moves on; on list 63 the directory entry becomes invalid, the record returns to FREE, and the walker starts its next
job. -/
def Obligations.PurgeStep : Prop :=
  ∀ (s : State) (slot c : Nat), (settle s).walker = .running (.purge slot c) →
    let u := settle s
    let held := (u.list c).any fun e => e.feed == slot
    let removed := if held then
        { u.setList c ((u.list c).filter fun e => decide (e.feed ≠ slot)) with pool := u.pool + 1 } else u
    (granted u.arbiter .walker = false → exec .purgeStep s = .next u) ∧
    (granted u.arbiter .walker = true → c < 63 →
      exec .purgeStep s = .next (releasePort { removed with walker := .running (.purge slot (c + 1)) })) ∧
    (granted u.arbiter .walker = true → 63 ≤ c → ∀ pos, (u.feed slot).dirPos = some pos →
      ∃ t, exec .jobStart (jobEnded ((removed.setDirEntry pos none).setFeed slot freeFeed)) = .next t ∧
        exec .purgeStep s = .next (releasePort t))

/-- RECODE_STEP on a grant, at whose end the port falls FREE: the first entry at or above the cursor is filtered or
retargeted through the table, and the cursor moves past it; a job that finds none, or whose count is done, ends, with a
report when notify is ON. -/
def Obligations.RecodeStep : Prop :=
  ∀ (s : State) (j : RecodeJob) (f remaining changed filtered : Nat),
    (settle s).walker = .running (.recode j f remaining changed filtered) →
    granted (settle s).arbiter .walker = true →
    let u := settle s
    let found := (u.list j.output).find? fun e => decide (f ≤ e.feed)
    let ends := fun (left ch fi : Nat) (exhausted : Bool) (t : State) =>
      let report := JobReport.recode j.tag j.output j.first left exhausted ch fi
      let starts := fun v : State =>
        ∃ w, exec .jobStart (jobEnded v) = .next w ∧ exec .recodeStep s = .next (releasePort w)
      if j.notify = false then starts t
      else if u.placeFree then starts { t with replies := u.replies ++ [.report report] }
      else exec .recodeStep s = .next (releasePort { jobEnded t with walker := .holding report })
    let goesOn := fun (next ch fi : Nat) (t : State) =>
      if remaining - 1 = 0 then ends 0 ch fi true t
      else exec .recodeStep s = .next (releasePort { t with walker := .running (.recode j next (remaining - 1) ch fi) })
    (found = none → ends remaining changed filtered false u) ∧
    ∀ e, found = some e →
      let n := u.recode j.table e.code
      (n = e.code → u.filter = true →
        goesOn (e.feed + 1) changed (filtered + 1) (countEvent .filtered u)) ∧
      (n ≠ e.code ∨ u.filter = false →
        goesOn (e.feed + 1) (changed + 1) filtered
          (u.setList j.output ((u.list j.output).map fun d => if d.feed = e.feed then
            { d with code := n, target := u.law n, remaining := 2 ^ j.ramp,
                     increment := ((u.law n : Int) * 256 - d.current).tdiv (2 ^ j.ramp), readSince := false } else d)))

/-- SCAN_STEP on a grant, at whose end the port falls FREE: an entry whose code the table maps to 0 is passed; the first
that it does not, the end of the list or the end of the count ends the job with its report. A step of the walker without
its grant, or while the walker is IDLE, HOLDING or running a job of another kind, is not taken (the model's choice, log
entry 1). -/
def Obligations.ScanStep : Prop :=
  (∀ s : State,
    let w := (settle s).walker
    let ungranted := granted (settle s).arbiter .walker = false
    (ungranted ∨ (∀ slot c, w ≠ .running (.purge slot c)) → exec .purgeStep s = .next (settle s)) ∧
    (ungranted ∨ (∀ j f remaining changed filtered, w ≠ .running (.recode j f remaining changed filtered)) →
      exec .recodeStep s = .next (settle s)) ∧
    (ungranted ∨ (∀ j f remaining, w ≠ .running (.scan j f remaining)) → exec .scanStep s = .next (settle s))) ∧
  ∀ (s : State) (j : ScanJob) (f remaining : Nat), (settle s).walker = .running (.scan j f remaining) →
    granted (settle s).arbiter .walker = true →
    let u := settle s
    let found := (u.list j.output).find? fun e => decide (f ≤ e.feed)
    let ends := fun (left : Nat) (exhausted : Bool) (hit : Option (Nat × Nat)) =>
      let report := JobReport.scan j.tag j.output j.first left exhausted hit
      if u.placeFree then
        ∃ w, exec .jobStart (jobEnded { u with replies := u.replies ++ [.report report] }) = .next w ∧
          exec .scanStep s = .next (releasePort w)
      else exec .scanStep s = .next (releasePort { jobEnded u with walker := .holding report })
    (found = none → ends remaining false none) ∧
    ∀ e, found = some e →
      let v := u.recode j.table e.code
      (v ≠ 0 → ends (remaining - 1) false (some (e.feed, v))) ∧
      (v = 0 → remaining - 1 = 0 → ends 0 true none) ∧
      (v = 0 → remaining - 1 ≠ 0 →
        exec .scanStep s = .next (releasePort { u with walker := .running (.scan j (e.feed + 1) (remaining - 1)) }))

/-- HELD_REPORT_POST completes: it posts the held report into a free place, and the walker is left IDLE when no job is
queued and else starts its next job, as JOB_START does (`Obligations.JobStart` gives that state); BURST_TAKE takes the head
burst when the processor is IDLE and a place is free, and the burst begins at its first word. -/
def Obligations.HeldReportAndBurstTake : Prop :=
  ∀ s : State,
    let u := closeRest s
    (∀ r, u.walker = .holding r → u.placeFree = true →
      let posted := { u with replies := u.replies ++ [.report r], walker := .idle }
      exec .heldReportPost s = exec .jobStart posted ∧
        (u.jobs = [] → exec .heldReportPost s = .next posted) ∧
        ∃ t, exec .heldReportPost s = .next t ∧ exec .jobStart posted = .next t ∧ t.replies = posted.replies) ∧
    ((∀ r, u.walker ≠ .holding r) ∨ u.placeFree = false → exec .heldReportPost s = .next u) ∧
    (∀ b rest, u.proc = none → u.inbound = b :: rest → u.replies.length < 8 → ∃ t, exec .burstTake s = .next t ∧
      burstGoes { tag := b.tag, rest := b.words, parser := .wordWait, framing := .marker, executed := 0,
                  notes := noNotes, reads := [] } { u with inbound := rest } t) ∧
    (u.proc ≠ none ∨ u.inbound = [] ∨ 8 ≤ u.replies.length → exec .burstTake s = .next u)

/-- SET ARB; and the edit port: a request raised while it is BUSY waits, one raised while it is FREE and nobody waits is
granted at once, and when it falls FREE the requests standing are weighed by the table of R130, each grant recorded in the
run state (R129). -/
def Obligations.ArbiterGrantsByRuns : Prop :=
  (∀ (limiting cmd walk : Word) (s : State) (x : Exec), atHand (.setArb limiting cmd walk) s x →
    let u := settle s
    (1 < limiting.toNat → refuses (.setArb limiting cmd walk) s x u .range) ∧
    (limiting.toNat ≤ 1 → completes (.setArb limiting cmd walk) s x
      { u with arbiter := { u.arbiter with
          limiting := decide (limiting.toNat = 1), cmdBurst := max 1 (min 255 cmd.toNat),
          walkBurst := max 1 (min 255 walk.toNat) } }
      { noNotes with clamped := decide (cmd.toNat < 1 ∨ 255 < cmd.toNat ∨ walk.toNat < 1 ∨ 255 < walk.toNat) } [])) ∧
  ∀ s : State,
    let a := s.arbiter
    let command := a.limiting = false ∨ (a.owner = .command ∧ a.run < a.cmdBurst) ∨
      (a.owner = .walker ∧ a.walkBurst ≤ a.run)
    let run := fun p => if a.owner = p then min 255 (a.run + 1) else 1
    let toCommand := { a with port := .busy, owner := .command, run := run .command, cmdRequest := false }
    let toWalker := { a with port := .busy, owner := .walker, run := run .walker, walkRequest := true }
    (a.port = .busy → requestPort .command s = { s with arbiter := { a with cmdRequest := true } } ∧
      requestPort .walker s = { s with arbiter := { a with walkRequest := true } }) ∧
    (a.port = .free → a.walkRequest = false → requestPort .command s = { s with arbiter := toCommand }) ∧
    (a.port = .free → a.cmdRequest = false → requestPort .walker s = { s with arbiter := toWalker }) ∧
    (a.cmdRequest = false → a.walkRequest = false → releasePort s = { s with arbiter := { a with port := .free } }) ∧
    (a.cmdRequest = true → a.walkRequest = false ∨ command → releasePort s = { s with arbiter := toCommand }) ∧
    (a.walkRequest = true → a.cmdRequest = false ∨ ¬command → releasePort s = { s with arbiter := toWalker })

/-- SET TABLE, SET ROW, SET COLUMN, PATCH BEGIN and PATCH END: the pointer and the patch state, the latch untouched. -/
def Obligations.PointerCommands : Prop :=
  ∀ (w : Word) (s : State) (x : Exec),
    let u := settle s
    let p := u.pointer
    let rows := if p.table < 4 then 65 else if p.table < 7 then 16 else 4
    (atHand (.setTable w) s x →
      (8 < w.toNat → refuses (.setTable w) s x u .range) ∧
      (w.toNat ≤ 8 → completes (.setTable w) s x
        { u with pointer := { table := w.toNat, row := 0, column := 0 }, patch := none } noNotes [])) ∧
    (atHand (.setRow w) s x →
      (rows ≤ w.toNat → refuses (.setRow w) s x u .range) ∧
      (w.toNat < rows → completes (.setRow w) s x
        { u with pointer := { p with row := w.toNat, column := 0 } } noNotes [])) ∧
    (atHand (.setColumn w) s x →
      (15 < w.toNat → refuses (.setColumn w) s x u .range) ∧
      (w.toNat ≤ 15 → completes (.setColumn w) s x { u with pointer := { p with column := w.toNat } } noNotes [])) ∧
    (atHand .patchBegin s x → completes .patchBegin s x { u with patch := some p.column } noNotes []) ∧
    (atHand .patchEnd s x →
      (u.patch = none → completes .patchEnd s x u noNotes []) ∧
      ∀ c, u.patch = some c →
        completes .patchEnd s x { u with pointer := { p with column := c }, patch := none } noNotes [])

/-- READ: each step places the latch and loads it from under the pointer, 0 at the row end and else the entry of the
pointer's table, for DELAY the delay table's and not the read delay; in normal mode the column rises to the row end, in
patch mode it stays; the words past the reply's room are not placed. -/
def Obligations.ReadSteps : Prop :=
  ∀ (steps : Word) (s : State) (x : Exec), atHand (.read steps) s x → (settle s).pointer.column ≤ 16 →
    let u := settle s
    let room := 64 - x.reads.length
    let p := u.pointer
    let n := steps.toNat
    let entry := fun j : Nat =>
      let pos := 16 * p.row + j
      if j = 16 then 0#16
      else if p.table < 4 then Tab.get coefInit u.coef ((p.table * 65 + p.row) * 16 + j)
      else BitVec.ofNat 16 (
        if p.table = 4 then Tab.get gainLawInit u.gainLaw pos
        else if p.table = 5 then Tab.get identityInit u.recodeA pos
        else if p.table = 6 then Tab.get identityInit u.recodeB pos
        else if p.table = 7 then Tab.get identityInit u.slotMap pos
        else Tab.get zeroInit u.delays pos)
    let column := fun k : Nat => if u.patch.isSome then p.column else min 16 (p.column + k)
    let words := (List.range n).map fun k => if k = 0 then u.latch else entry (column (k - 1))
    (n = 0 ∨ 64 < n → refuses (.read steps) s x u .range) ∧
    (1 ≤ n → n ≤ 64 → completes (.read steps) s x
      { u with latch := entry (column (n - 1)), pointer := { p with column := column n } }
      { noNotes with readOverflow := decide (room < n) } (words.take room))

/-- A DATA word: stored under the pointer with its table's clamp, the column rising, in DELAY as a delay change (R143);
discarded with ROW_END at the row end; in patch mode the latch loaded from the new column, 0 at the row end and else the
entry of the pointer's table as it then stands. It is no command: the commands executed stay. -/
def Obligations.TableWrite : Prop :=
  ∀ (w : Word) (s : State) (x : Exec), atHand (.tableWrite w) s x → (settle s).pointer.column ≤ 16 →
    let u := settle s
    let p := u.pointer
    let pos := 16 * p.row + p.column
    let moved := { u with pointer := { p with column := p.column + 1 } }
    let entry := fun (t : State) (j : Nat) =>
      let pos := 16 * p.row + j
      if j = 16 then 0#16
      else if p.table < 4 then Tab.get coefInit t.coef ((p.table * 65 + p.row) * 16 + j)
      else BitVec.ofNat 16 (
        if p.table = 4 then Tab.get gainLawInit t.gainLaw pos
        else if p.table = 5 then Tab.get identityInit t.recodeA pos
        else if p.table = 6 then Tab.get identityInit t.recodeB pos
        else if p.table = 7 then Tab.get identityInit t.slotMap pos
        else Tab.get zeroInit t.delays pos)
    let latched := fun t : State => if u.patch.isSome then { t with latch := entry t t.pointer.column } else t
    let v := min 1023 w.toNat
    let dip := match u.dip pos with
      | .still => if v = u.readDelay pos then Dip.still else .falling 32 v
      | .falling level _ => .falling level v
      | .rising level => if v = u.readDelay pos then .rising level else .falling level v
    let writes := fun (t : State) (notes : Notes) => ∃ v, exec (.tableWrite w) s = .next v ∧
      burstGoes { x with notes := x.notes.merge notes } (latched t) v
    let clamped := fun top : Nat => { noNotes with clamped := decide (top < w.toNat) }
    (p.column = 16 → writes u { noNotes with rowEnd := true }) ∧
    (p.column < 16 → p.table < 4 →
      writes { moved with coef := Tab.put coefInit u.coef ((p.table * 65 + p.row) * 16 + p.column) w } noNotes) ∧
    (p.column < 16 → p.table = 4 → pos = 0 → writes moved noNotes) ∧
    (p.column < 16 → p.table = 4 → pos ≠ 0 →
      writes { moved with gainLaw := Tab.put gainLawInit u.gainLaw pos (min 32767 w.toNat) } (clamped 32767)) ∧
    (p.column < 16 → p.table = 5 →
      writes { moved with recodeA := Tab.put identityInit u.recodeA pos (min 255 w.toNat) } (clamped 255)) ∧
    (p.column < 16 → p.table = 6 →
      writes { moved with recodeB := Tab.put identityInit u.recodeB pos (min 255 w.toNat) } (clamped 255)) ∧
    (p.column < 16 → p.table = 7 →
      writes { moved with slotMap := Tab.put identityInit u.slotMap pos (min 63 w.toNat) } (clamped 63)) ∧
    (p.column < 16 → p.table = 8 →
      writes { moved.setDip pos dip with delays := Tab.put zeroInit u.delays pos v } (clamped 1023))

/-- RESET PART: the soft reset of every owner, and the burst ends there with stop code OK, its notes and read words kept
and RESET PART counted. -/
def Obligations.ResetPart : Prop :=
  ∀ (s : State) (x : Exec), atHand .resetPart s x →
    let u := settle s
    exec .resetPart s = .next
      { u with
        feeds := [], dir := [], servoN := 256, servoCount := 0, lists := [], pool := 1024, filter := true,
        master := 128, invert := [], outClips := [],
        ovPending := { on := false, monitor := 0, mask := 0#64 },
        ovCurrent := { on := false, monitor := 0, mask := 0#64 }, cues := [], jobs := [], walker := .idle,
        arbiter := { port := .free, limiting := true, cmdBurst := 8, walkBurst := 4, owner := .command, run := 0,
                     cmdRequest := false, walkRequest := false },
        active := 64, readDelays := u.delays, dips := [], lines := [],
        pointer := { table := 0, row := 0, column := 0 }, latch := 0#16, patch := none, counters := [], proc := none,
        replies := u.replies ++ [.reply
          { tag := x.tag, stop := none, index := 0, executed := x.executed + 1, notes := x.notes, count := u.count,
            reads := x.reads }] }

/-- COUNTER SELECT, COUNTER LOAD and COUNTER READ, with the indices of the events (R179). -/
def Obligations.CounterCommands : Prop :=
  let events : List Event :=
    [.none, .feedUnderrun, .feedOverrun, .seqGap, .staleBurst, .feedClip, .outputClip, .cueLate, .cueFault, .filtered,
     .lookupMiss, .checkFail, .cmdDropped, .relayDropped, .fwdDropped, .outputPeriod]
  (∀ (e : Event) (n : Nat), e.index = n ↔ events[n]? = some e) ∧
  ∀ (k a b : Word) (s : State) (x : Exec),
    let u := settle s
    let room := 64 - x.reads.length
    let c := u.counter k.toNat
    (atHand (.counterSelect k a) s x →
      (3 < k.toNat ∨ 15 < a.toNat → refuses (.counterSelect k a) s x u .range) ∧
      (k.toNat ≤ 3 → ∀ e : Event, e.index = a.toNat →
        completes (.counterSelect k a) s x (u.setCounter k.toNat { c with select := e }) noNotes [])) ∧
    (atHand (.counterLoad k a b) s x →
      (3 < k.toNat → refuses (.counterLoad k a b) s x u .range) ∧
      (k.toNat ≤ 3 → completes (.counterLoad k a b) s x
        (u.setCounter k.toNat { c with value := a ++ b }) noNotes [])) ∧
    (atHand (.counterRead k) s x →
      (3 < k.toNat → refuses (.counterRead k) s x u .range) ∧
      (k.toNat ≤ 3 → 3 ≤ room → completes (.counterRead k) s x u noNotes
        [BitVec.ofNat 16 c.select.index, c.value.extractLsb' 16 16, c.value.extractLsb' 0 16]) ∧
      (k.toNat ≤ 3 → room < 3 → completes (.counterRead k) s x u { noNotes with readOverflow := true } []))

/-- One occurrence of an event: 1 more at every counter that selects it, an ALERT from each that comes to 2^31 placed in
the urgent slot or added to the further count, in the order of the counters (a choice, log entry 10). -/
def Obligations.EventsCountAndAlert : Prop :=
  ∀ (e : Event) (s : State), e ≠ .none →
    let t := countEvent e s
    let alerting := (List.range 4).filter fun k =>
      decide ((s.counter k).select = e ∧ (s.counter k).value = 0x7FFFFFFF#32)
    countEvent .none s = s ∧
    (∀ k, t.counter k = if k < 4 ∧ (s.counter k).select = e then
      { s.counter k with value := (s.counter k).value + 1#32 } else s.counter k) ∧
    (alerting = [] → t.urgent = s.urgent ∧ t.further = s.further) ∧
    (∀ r, s.urgent = some r → s.further ≤ 255 → t.urgent = some r ∧ t.further = min 255 (s.further + alerting.length)) ∧
    (∀ k rest, s.urgent = none → alerting = k :: rest →
      t.urgent = some (.alert k e 0x80000000#32) ∧ t.further = rest.length) ∧
    t = { s with counters := t.counters, urgent := t.urgent, further := t.further }

/-- The return lane: the urgent report first, else the only queue that holds an item, else by mode and turn; the item
leaves its queue, in the layout of R186 for its kind, and the lane is SENDING until RETURN_SEND_END. -/
def Obligations.ReturnLaneChoosesItem : Prop :=
  ∀ s : State,
    let u := settle s
    let i := Instr.returnLaneChoice
    let b := fun n : Nat => BitVec.ofNat 8 n
    let two := fun w : Word => [w.extractLsb' 8 8, w.extractLsb' 0 8]
    let four := fun v : Count => [v.extractLsb' 24 8, v.extractLsb' 16 8, v.extractLsb' 8 8, v.extractLsb' 0 8]
    let flag := fun (p : Bool) (n : Nat) => if p then n else 0
    let code := fun c : Option Code => match c with
      | none => 0 | some .range => 1 | some .slotBusy => 2 | some .duplicate => 3 | some .setFull => 4
      | some .noFeed => 5 | some .poolFull => 6 | some .cueFull => 7 | some .order => 8 | some .jobFull => 9
      | some .notEmpty => 10 | some .argMissing => 11 | some .unknownOp => 12
    let layout := fun item : ReturnItem => match item with
      | .reply r => framedBytes 3 ([b u.address.toNat] ++ two r.tag ++
          [b (code r.stop), b (flag r.notes.clamped 1 + flag r.notes.filtered 2 + flag r.notes.rowEnd 4 +
            flag r.notes.readOverflow 8 + flag r.notes.late 16)] ++
          two (BitVec.ofNat 16 r.index) ++ two (BitVec.ofNat 16 r.executed) ++ four r.count ++ [b r.reads.length] ++
          r.reads.flatMap two)
      | .report (.recode tag output first remaining exhausted changed filtered) => framedBytes 5
          ([b u.address.toNat] ++ two tag ++
            [b 1, b output, b first, b remaining, b (flag exhausted 1), b changed, b filtered, b 0, b 0])
      | .report (.scan tag output first remaining exhausted none) => framedBytes 5
          ([b u.address.toNat] ++ two tag ++
            [b 2, b output, b first, b remaining, b (flag exhausted 1), b 0, b 0, b 0, b 0])
      | .report (.scan tag output first remaining exhausted (some (slot, value))) => framedBytes 5
          ([b u.address.toNat] ++ two tag ++
            [b 2, b output, b first, b remaining, b (flag exhausted 1 + 2), b slot, b value, b 0, b 0])
    let urgently := fun r : Urgent => match r with
      | .cueFault number batch kind cancelled command late => framedBytes 4
          ([b u.address.toNat, b 1, b u.further, b batch] ++ two number ++
            [b (code (some kind)), b cancelled, b (flag late 1), command.word.extractLsb' 0 8])
      | .alert counter select value => framedBytes 4
          ([b u.address.toNat, b 2, b u.further, b counter, b select.index] ++ four value)
    let own := fun (item : ReturnItem) (rest : List ReturnItem) =>
      exec i s = .next { u with lane := some (layout item), replies := rest, turn := .relay }
    let amplifier := fun (item : List Byte) (rest : List (List Byte)) =>
      exec i s = .next { u with lane := some item, relay := rest, turn := .reply }
    (u.feedUp = .down ∨ u.lane ≠ none → exec i s = .next u) ∧
    (u.urgent = none → u.replies = [] → u.relay = [] → exec i s = .next u) ∧
    (u.feedUp = .up → u.lane = none → ∀ r, u.urgent = some r → exec i s = .next
      { u with lane := some (urgently r), urgent := none, further := 0 }) ∧
    (u.feedUp = .up → u.lane = none → u.urgent = none → ∀ item rest, u.replies = item :: rest → u.relay = [] →
      own item rest) ∧
    (u.feedUp = .up → u.lane = none → u.urgent = none → ∀ item rest, u.replies = [] → u.relay = item :: rest →
      amplifier item rest) ∧
    (u.feedUp = .up → u.lane = none → u.urgent = none → ∀ a as b bs, u.replies = a :: as → u.relay = b :: bs →
      (u.relayMode = .ownFirst ∨ u.turn = .reply → own a as) ∧
      (u.relayMode = .roundRobin → u.turn = .relay → amplifier b bs)) ∧
    exec .returnSendEnd s = .next { u with lane := none }

/-- The catalogue: each command's word, the number of its arguments, the commands that use the edit port and those
that AT can defer. The words of a burst with no command under way, under any framing: a name with all its arguments
brings its command to hand, with the words after it left; AT with its deferred command, and a DATA word, come to hand
likewise; the burst then stands at an immediate edit exactly when the command uses the edit port. A word that names
nothing stops the burst with UNKNOWN_OP. A command cut short by the burst's end or by a DATA word, and AT before a
word that names no deferrable command, stop it with ARG_MISSING. The burst's last word ends it with OK. -/
def Obligations.ParserReachesCommands : Prop :=
  let first : List (Op × Nat × Nat) :=
    [(.nop, 0x0100, 0), (.bind, 0x0110, 5), (.unbind, 0x0111, 2), (.setMask, 0x0112, 1), (.setRate, 0x0120, 5),
      (.setServo, 0x0130, 6), (.setGain, 0x0140, 4), (.clearOutput, 0x0141, 2), (.setFilter, 0x0142, 1)]
  let second : List (Op × Nat × Nat) :=
    [(.readOutput, 0x0143, 2), (.setMaster, 0x0150, 1), (.setInvert, 0x0151, 2), (.setOverride, 0x0152, 6),
      (.atCue, 0x0160, 3), (.cancelBatch, 0x0161, 1), (.flushCues, 0x0162, 0), (.jobRecode, 0x0170, 6)]
  let third : List (Op × Nat × Nat) :=
    [(.jobScan, 0x0171, 4), (.setArb, 0x0172, 3), (.setActive, 0x0180, 1), (.setDelay, 0x0181, 2),
      (.setTable, 0x0190, 1), (.setRow, 0x0191, 1), (.setColumn, 0x0192, 1), (.read, 0x0193, 1)]
  let fourth : List (Op × Nat × Nat) :=
    [(.patchBegin, 0x0194, 0), (.patchEnd, 0x0195, 0), (.readFeed, 0x01A0, 1), (.resetPart, 0x01AF, 0),
      (.setRelay, 0x01B0, 1), (.counterSelect, 0x01B1, 2), (.counterLoad, 0x01B2, 3), (.counterRead, 0x01B3, 1)]
  let catalogue := first ++ second ++ third ++ fourth
  (∀ op : Op, (op, op.word.toNat, op.arity) ∈ catalogue ∧
    (op.usesPort = true ↔ op ∈ [Op.setGain, .clearOutput]) ∧
    (op.deferrable = true ↔ op ∈ [Op.setGain, .clearOutput, .setMaster, .setInvert, .setDelay, .unbind])) ∧
  (∀ (x : Exec) (s t : State), x.framing = .bulkData → x.parser = .bulkData →
    (∀ (w : Word) (more : List Word), burstGoes { x with rest := w :: more } s t →
      t = { s with proc := t.proc } ∧ t.atEdit = false ∧ atReady (.data w) t = some { x with rest := more }) ∧
    (burstGoes { x with rest := [] } s t → t = burstEnded x none s)) ∧
  ∀ (x : Exec) (s : State), (x.framing = .marker ∧ x.parser = .wordWait) ∨ (x.framing = .bulkOp ∧ x.parser = .bulkOp) →
    let goes := fun (words : List Word) (t : State) => burstGoes { x with rest := words } s t
    let left := fun (more : List Word) (f : Framing) => some
      { x with rest := more, framing := f, parser := if f = .marker then .wordWait else .bulkOp }
    let stopped := fun (words : List Word) (stop : Option Code) => ∀ t, goes words t → t = burstEnded x stop s
    (∀ words, ∃ t, goes words t) ∧
    (∀ (op : Op) (args b more : List Word) (f : Framing) (t : State), op ≠ .atCue → args.length = op.arity →
      OpWords x.framing b (op.word :: args) f → goes (b ++ more) t →
      atReady (.command op args) t = left more f ∧ t = { s with proc := t.proc } ∧ t.atEdit = op.usesPort) ∧
    (∀ (high low batch : Word) (op : Op) (d : Deferred) (args b more : List Word) (f : Framing) (t : State),
      deferredOf op args = some d → OpWords x.framing b (Op.atCue.word :: high :: low :: batch :: op.word :: args) f →
      goes (b ++ more) t → atReady (.cued high low batch d) t = left more f ∧ t = { s with proc := t.proc } ∧
        t.atEdit = false) ∧
    (∀ (m w : Word) (more : List Word) (t : State), x.framing = .marker → m.getLsbD 14 = true →
      goes (m :: w :: more) t →
      t = { s with proc := t.proc } ∧ t.atEdit = false ∧ atReady (.data w) t = some
        (if m.getLsbD 15 then { x with rest := more }
        else { x with rest := more, framing := .bulkData, parser := .bulkData })) ∧
    (∀ (w : Word) (b more : List Word) (f : Framing), (∀ op : Op, w ≠ op.word) → OpWords x.framing b [w] f →
      stopped (b ++ more) (some .unknownOp)) ∧
    (∀ (ops b : List Word) (f : Framing), cutShort ops → OpWords x.framing b ops f → stopped b (some .argMissing)) ∧
    (∀ (ops b more : List Word) (m : Word), cutShort ops → OpWords x.framing b ops .marker →
      stopped (b ++ [m]) (some .argMissing) ∧
      ∀ d, m.getLsbD 14 = true → stopped (b ++ m :: d :: more) (some .argMissing)) ∧
    (∀ (high low batch w : Word) (b more : List Word) (f : Framing), (∀ op : Op, op.deferrable = true → w ≠ op.word) →
      OpWords x.framing b [Op.atCue.word, high, low, batch, w] f → stopped (b ++ more) (some .argMissing)) ∧
    stopped [] none ∧ (x.framing = .marker → ∀ m, stopped [m] none)

/-- NOP has no effect and counts as a command executed; a burst of NOP alone is answered OK, with one command executed
and the count at its completion. -/
def Obligations.NopOnlyCounts : Prop :=
  ∀ (s : State) (x : Exec), atHand .nop s x →
    let u := settle s
    completes .nop s x u noNotes [] ∧
    (x.rest = [] → x.executed = 0 → exec .nop s = .next
      { u with proc := none, replies := u.replies ++ [.reply
        { tag := x.tag, stop := none, index := 0, executed := 1, notes := x.notes, count := u.count,
          reads := x.reads }] })

/-- Every step keeps the laws of the feed records (R1, R23, R49), and the law that what leaves on the speaker link is a
sample (R140), with what it rests on. -/
def Obligations.FeedAndSampleLawsKept : Prop :=
  (∀ s t : State, s.feedsLawful → step s = .next t → t.feedsLawful) ∧
    ∀ s t : State, s.samplesLawful → step s = .next t → t.samplesLawful

/-- Every step keeps the laws of the mix map: 1024 entries in all, and every list ascending. -/
def Obligations.MixLawKept : Prop :=
  ∀ s t : State, s.mixLawful → step s = .next t → t.mixLawful

/-- Every step keeps the law of gains and ramps. -/
def Obligations.GainLawKept : Prop :=
  ∀ s t : State, s.gainsLawful → step s = .next t → t.gainsLawful

/-- Every step keeps the law of the cue list, the laws of the queues, the ranges of the load pointer, and the law of the
edit port. -/
def Obligations.CueQueuePointerAndPortLawsKept : Prop :=
  (∀ s t : State, s.cuesLawful → step s = .next t → t.cuesLawful) ∧
    (∀ s t : State, s.queuesLawful → step s = .next t → t.queuesLawful) ∧
    (∀ s t : State, s.pointerLawful → step s = .next t → t.pointerLawful) ∧
    ∀ s t : State, s.portLawful → step s = .next t → t.portLawful

/-- Every step keeps the law of the feed directory. -/
def Obligations.DirectoryLawKept : Prop :=
  ∀ s t : State, s.directoryLawful → step s = .next t → t.directoryLawful

/-- Every step keeps the law that a feed is PURGING exactly when one PURGE job for it is queued or running. -/
def Obligations.PurgeLawKept : Prop :=
  ∀ s t : State, s.purgesLawful → step s = .next t → t.purgesLawful

/-- Every step keeps the canonical form of every table. -/
def Obligations.CanonicalFormKept : Prop :=
  ∀ s t : State, s.canonical = true → step s = .next t → t.canonical = true

/-- The state after reset keeps every law. -/
def Obligations.LawsHoldAtReset : Prop :=
  State.reset.feedsLawful ∧ State.reset.samplesLawful ∧ State.reset.mixLawful ∧ State.reset.gainsLawful ∧
    State.reset.cuesLawful ∧ State.reset.queuesLawful ∧ State.reset.pointerLawful ∧ State.reset.directoryLawful ∧
    State.reset.purgesLawful ∧ State.reset.portLawful ∧ State.reset.canonical = true

end
end

