-- ==== Sys2Proof/Laws/Table.lean ====
section
/-! SUPPORT. What reading a table gives after each table operation, and that each keeps the canonical form. -/
namespace Sys2Proof.Machine

variable {α : Type}

@[simp] theorem Tab.get_nil (d : Nat → α) (k : Nat) : Tab.get d [] k = d k := rfl

theorem Tab.get_of_absent (d : Nat → α) (m : Tab α) (k : Nat) (h : ∀ p ∈ m, p.1 ≠ k) : Tab.get d m k = d k := by
  induction m with
  | nil => rfl
  | cons p r ih =>
    obtain ⟨a, v⟩ := p
    have ha : a ≠ k := h (a, v) (by simp)
    simp only [Tab.get, if_neg ha]
    exact ih fun q hq => h q (by simp [hq])

theorem Tab.get_filter (d : Nat → α) (m : Tab α) (k j : Nat) :
    Tab.get d (m.filter fun p => p.1 != k) j = if j = k then d k else Tab.get d m j := by
  induction m with
  | nil => by_cases h : j = k <;> simp [h]
  | cons p r ih =>
    obtain ⟨a, v⟩ := p
    by_cases ha : a = k
    · subst ha
      simp only [List.filter, bne_self_eq_false, ih, Tab.get]
      by_cases hj : j = a
      · simp [hj]
      · simp [hj, Ne.symm hj]
    · have hb : (a != k) = true := by simp [ha]
      simp only [List.filter, hb, Tab.get, ih]
      by_cases hj : a = j
      · subst hj; simp [ha]
      · simp [hj]

theorem Tab.get_insert (d : Nat → α) (m : Tab α) (k j : Nat) (v : α) (h : ∀ p ∈ m, p.1 ≠ k) :
    Tab.get d (Tab.insert k v m) j = if j = k then v else Tab.get d m j := by
  induction m with
  | nil => by_cases hj : j = k <;> simp [Tab.insert, Tab.get, hj, eq_comm (a := k)]
  | cons p r ih =>
    obtain ⟨a, w⟩ := p
    have ha : a ≠ k := h (a, w) (by simp)
    have ihr := ih fun q hq => h q (by simp [hq])
    by_cases hk : k < a
    · simp only [Tab.insert, if_pos hk, Tab.get]
      by_cases hj : j = k
      · subst hj; simp
      · simp [hj, Ne.symm hj]
    · simp only [Tab.insert, if_neg hk, Tab.get, ihr]
      by_cases hj : a = j
      · subst hj; simp [ha]
      · simp [hj]

/-- Reading a table after a write. -/
theorem Tab.get_put [DecidableEq α] (d : Nat → α) (m : Tab α) (k j : Nat) (v : α) :
    Tab.get d (Tab.put d m k v) j = if j = k then v else Tab.get d m j := by
  unfold Tab.put
  by_cases hv : v = d k
  · simp only [if_pos hv, Tab.get_filter]
    rw [hv]
  · simp only [if_neg hv]
    rw [Tab.get_insert d _ k j v (by intro p hp; simp at hp; exact hp.2), Tab.get_filter]
    by_cases hj : j = k <;> simp [hj]

@[simp] theorem Tab.get_put_same [DecidableEq α] (d : Nat → α) (m : Tab α) (k : Nat) (v : α) :
    Tab.get d (Tab.put d m k v) k = v := by simp [Tab.get_put]

theorem Tab.get_put_other [DecidableEq α] (d : Nat → α) (m : Tab α) (k j : Nat) (v : α) (h : j ≠ k) :
    Tab.get d (Tab.put d m k v) j = Tab.get d m j := by simp [Tab.get_put, h]

/-- Reading a table after every position below n is replaced. -/
theorem Tab.get_update [DecidableEq α] (d : Nat → α) (n : Nat) (f : Nat → α → α) (m : Tab α) (j : Nat) :
    Tab.get d (Tab.update d n f m) j = if j < n then f j (Tab.get d m j) else Tab.get d m j := by
  unfold Tab.update
  induction n with
  | zero => simp
  | succ n ih =>
    simp only [List.range_succ, List.foldl_append, List.foldl_cons, List.foldl_nil, Tab.get_put, ih]
    by_cases hj : j = n
    · subst hj; rw [ih]; simp
    · have hlt : (j < n + 1) = (j < n) := by simp only [eq_iff_iff]; omega
      simp only [if_neg hj, hlt]

/-- The pairs of a table in canonical form. -/
theorem Tab.wf_iff [DecidableEq α] (d : Nat → α) (m : Tab α) :
    Tab.wf d m = true ↔ m.Pairwise (fun p q => p.1 < q.1) ∧ ∀ p ∈ m, p.2 ≠ d p.1 := by
  simp [Tab.wf]

@[simp] theorem Tab.wf_nil [DecidableEq α] (d : Nat → α) : Tab.wf d [] = true := rfl

theorem Tab.mem_insert (m : Tab α) (k : Nat) (v : α) (p : Nat × α) :
    p ∈ Tab.insert k v m ↔ p = (k, v) ∨ p ∈ m := by
  induction m with
  | nil => simp [Tab.insert]
  | cons q r ih =>
    obtain ⟨a, w⟩ := q
    by_cases hk : k < a
    · simp [Tab.insert, hk]
    · simp only [Tab.insert, if_neg hk, List.mem_cons, ih]; tauto

theorem Tab.pairwise_insert (m : Tab α) (k : Nat) (v : α) (h : m.Pairwise fun p q => p.1 < q.1)
    (hk : ∀ p ∈ m, p.1 ≠ k) : (Tab.insert k v m).Pairwise fun p q => p.1 < q.1 := by
  induction m with
  | nil => simp [Tab.insert]
  | cons q r ih =>
    obtain ⟨a, w⟩ := q
    rw [List.pairwise_cons] at h
    have ha : a ≠ k := hk (a, w) (by simp)
    by_cases hlt : k < a
    · simp only [Tab.insert, if_pos hlt]
      refine List.pairwise_cons.2 ⟨?_, List.pairwise_cons.2 h⟩
      intro p hp
      rcases List.mem_cons.1 hp with rfl | hp
      · exact hlt
      · exact Nat.lt_trans hlt (h.1 p hp)
    · simp only [Tab.insert, if_neg hlt]
      refine List.pairwise_cons.2 ⟨?_, ih h.2 fun p hp => hk p (by simp [hp])⟩
      intro p hp
      rcases (Tab.mem_insert r k v p).1 hp with rfl | hp
      · show a < k; omega
      · exact h.1 p hp

/-- A write keeps the canonical form. -/
theorem Tab.wf_put [DecidableEq α] (d : Nat → α) (m : Tab α) (k : Nat) (v : α) (h : Tab.wf d m = true) :
    Tab.wf d (Tab.put d m k v) = true := by
  rw [Tab.wf_iff] at h ⊢
  unfold Tab.put
  have hf : (m.filter fun p => p.1 != k).Pairwise fun p q => p.1 < q.1 := h.1.filter _
  by_cases hv : v = d k
  · simp only [if_pos hv]
    exact ⟨hf, fun p hp => h.2 p (List.mem_filter.1 hp).1⟩
  · simp only [if_neg hv]
    refine ⟨Tab.pairwise_insert _ k v hf (by intro p hp; simp at hp; exact hp.2), ?_⟩
    intro p hp
    rcases (Tab.mem_insert _ k v p).1 hp with rfl | hp
    · exact hv
    · exact h.2 p (List.mem_filter.1 hp).1

/-- Replacing every position below n keeps the canonical form. -/
theorem Tab.wf_update [DecidableEq α] (d : Nat → α) (n : Nat) (f : Nat → α → α) (m : Tab α) (h : Tab.wf d m = true) :
    Tab.wf d (Tab.update d n f m) = true := by
  unfold Tab.update
  induction n with
  | zero => simpa using h
  | succ n ih =>
    simp only [List.range_succ, List.foldl_append, List.foldl_cons, List.foldl_nil]
    exact Tab.wf_put _ _ _ _ ih

/-- The pair a read finds, when the position is listed. -/
theorem Tab.get_of_mem (d : Nat → α) (m : Tab α) (h : m.Pairwise fun p q => p.1 < q.1) (p : Nat × α) (hp : p ∈ m) :
    Tab.get d m p.1 = p.2 := by
  induction m with
  | nil => simp at hp
  | cons q r ih =>
    obtain ⟨a, w⟩ := q
    rw [List.pairwise_cons] at h
    rcases List.mem_cons.1 hp with rfl | hp
    · simp [Tab.get]
    · have : a < p.1 := h.1 p hp
      simp only [Tab.get, if_neg (Nat.ne_of_lt this)]
      exact ih h.2 hp

/-- Every value of a table after a write is one of its values before or the value written. -/
theorem Tab.mem_put [DecidableEq α] (d : Nat → α) (m : Tab α) (k : Nat) (v : α) (p : Nat × α)
    (h : p ∈ Tab.put d m k v) : p = (k, v) ∨ p ∈ m := by
  unfold Tab.put at h
  by_cases hv : v = d k
  · simp only [if_pos hv] at h
    exact Or.inr (List.mem_filter.1 h).1
  · simp only [if_neg hv] at h
    rcases (Tab.mem_insert _ k v p).1 h with hp | hp
    · exact Or.inl hp
    · exact Or.inr (List.mem_filter.1 hp).1

end Sys2Proof.Machine
end

