-- ==== Sys2Proof/Laws/State.lean ====
section
/-! SUPPORT. Each named update of the state, field by field and reader by reader. -/
namespace Sys2Proof.Machine

variable (s : State)

@[simp] theorem setFeed_address (k : Nat) (f : Feed) : (s.setFeed k f).address = s.address := rfl
@[simp] theorem setFeed_feedUp (k : Nat) (f : Feed) : (s.setFeed k f).feedUp = s.feedUp := rfl
@[simp] theorem setFeed_feedPartial (k : Nat) (f : Feed) : (s.setFeed k f).feedPartial = s.feedPartial := rfl
@[simp] theorem setFeed_speakerUp (k : Nat) (f : Feed) : (s.setFeed k f).speakerUp = s.speakerUp := rfl
@[simp] theorem setFeed_speakerPartial (k : Nat) (f : Feed) : (s.setFeed k f).speakerPartial = s.speakerPartial := rfl
@[simp] theorem setFeed_forwardLane (k : Nat) (f : Feed) : (s.setFeed k f).forwardLane = s.forwardLane := rfl
@[simp] theorem setFeed_gapOpen (k : Nat) (f : Feed) : (s.setFeed k f).gapOpen = s.gapOpen := rfl
@[simp] theorem setFeed_dir (k : Nat) (f : Feed) : (s.setFeed k f).dir = s.dir := rfl
@[simp] theorem setFeed_mask (k : Nat) (f : Feed) : (s.setFeed k f).mask = s.mask := rfl
@[simp] theorem setFeed_coef (k : Nat) (f : Feed) : (s.setFeed k f).coef = s.coef := rfl
@[simp] theorem setFeed_servoN (k : Nat) (f : Feed) : (s.setFeed k f).servoN = s.servoN := rfl
@[simp] theorem setFeed_servoCount (k : Nat) (f : Feed) : (s.setFeed k f).servoCount = s.servoCount := rfl
@[simp] theorem setFeed_lists (k : Nat) (f : Feed) : (s.setFeed k f).lists = s.lists := rfl
@[simp] theorem setFeed_summed (k : Nat) (f : Feed) : (s.setFeed k f).summed = s.summed := rfl
@[simp] theorem setFeed_pool (k : Nat) (f : Feed) : (s.setFeed k f).pool = s.pool := rfl
@[simp] theorem setFeed_filter (k : Nat) (f : Feed) : (s.setFeed k f).filter = s.filter := rfl
@[simp] theorem setFeed_gainLaw (k : Nat) (f : Feed) : (s.setFeed k f).gainLaw = s.gainLaw := rfl
@[simp] theorem setFeed_master (k : Nat) (f : Feed) : (s.setFeed k f).master = s.master := rfl
@[simp] theorem setFeed_invert (k : Nat) (f : Feed) : (s.setFeed k f).invert = s.invert := rfl
@[simp] theorem setFeed_outClips (k : Nat) (f : Feed) : (s.setFeed k f).outClips = s.outClips := rfl
@[simp] theorem setFeed_ovPending (k : Nat) (f : Feed) : (s.setFeed k f).ovPending = s.ovPending := rfl
@[simp] theorem setFeed_ovCurrent (k : Nat) (f : Feed) : (s.setFeed k f).ovCurrent = s.ovCurrent := rfl
@[simp] theorem setFeed_cues (k : Nat) (f : Feed) : (s.setFeed k f).cues = s.cues := rfl
@[simp] theorem setFeed_cueNumber (k : Nat) (f : Feed) : (s.setFeed k f).cueNumber = s.cueNumber := rfl
@[simp] theorem setFeed_jobs (k : Nat) (f : Feed) : (s.setFeed k f).jobs = s.jobs := rfl
@[simp] theorem setFeed_walker (k : Nat) (f : Feed) : (s.setFeed k f).walker = s.walker := rfl
@[simp] theorem setFeed_recodeA (k : Nat) (f : Feed) : (s.setFeed k f).recodeA = s.recodeA := rfl
@[simp] theorem setFeed_recodeB (k : Nat) (f : Feed) : (s.setFeed k f).recodeB = s.recodeB := rfl
@[simp] theorem setFeed_arbiter (k : Nat) (f : Feed) : (s.setFeed k f).arbiter = s.arbiter := rfl
@[simp] theorem setFeed_count (k : Nat) (f : Feed) : (s.setFeed k f).count = s.count := rfl
@[simp] theorem setFeed_active (k : Nat) (f : Feed) : (s.setFeed k f).active = s.active := rfl
@[simp] theorem setFeed_slotMap (k : Nat) (f : Feed) : (s.setFeed k f).slotMap = s.slotMap := rfl
@[simp] theorem setFeed_delays (k : Nat) (f : Feed) : (s.setFeed k f).delays = s.delays := rfl
@[simp] theorem setFeed_readDelays (k : Nat) (f : Feed) : (s.setFeed k f).readDelays = s.readDelays := rfl
@[simp] theorem setFeed_dips (k : Nat) (f : Feed) : (s.setFeed k f).dips = s.dips := rfl
@[simp] theorem setFeed_lines (k : Nat) (f : Feed) : (s.setFeed k f).lines = s.lines := rfl
@[simp] theorem setFeed_phase (k : Nat) (f : Feed) : (s.setFeed k f).phase = s.phase := rfl
@[simp] theorem setFeed_work (k : Nat) (f : Feed) : (s.setFeed k f).work = s.work := rfl
@[simp] theorem setFeed_closeDue (k : Nat) (f : Feed) : (s.setFeed k f).closeDue = s.closeDue := rfl
@[simp] theorem setFeed_inbound (k : Nat) (f : Feed) : (s.setFeed k f).inbound = s.inbound := rfl
@[simp] theorem setFeed_proc (k : Nat) (f : Feed) : (s.setFeed k f).proc = s.proc := rfl
@[simp] theorem setFeed_pointer (k : Nat) (f : Feed) : (s.setFeed k f).pointer = s.pointer := rfl
@[simp] theorem setFeed_latch (k : Nat) (f : Feed) : (s.setFeed k f).latch = s.latch := rfl
@[simp] theorem setFeed_patch (k : Nat) (f : Feed) : (s.setFeed k f).patch = s.patch := rfl
@[simp] theorem setFeed_replies (k : Nat) (f : Feed) : (s.setFeed k f).replies = s.replies := rfl
@[simp] theorem setFeed_urgent (k : Nat) (f : Feed) : (s.setFeed k f).urgent = s.urgent := rfl
@[simp] theorem setFeed_further (k : Nat) (f : Feed) : (s.setFeed k f).further = s.further := rfl
@[simp] theorem setFeed_lane (k : Nat) (f : Feed) : (s.setFeed k f).lane = s.lane := rfl
@[simp] theorem setFeed_relayMode (k : Nat) (f : Feed) : (s.setFeed k f).relayMode = s.relayMode := rfl
@[simp] theorem setFeed_turn (k : Nat) (f : Feed) : (s.setFeed k f).turn = s.turn := rfl
@[simp] theorem setFeed_relay (k : Nat) (f : Feed) : (s.setFeed k f).relay = s.relay := rfl
@[simp] theorem setFeed_through (k : Nat) (f : Feed) : (s.setFeed k f).through = s.through := rfl
@[simp] theorem setFeed_counters (k : Nat) (f : Feed) : (s.setFeed k f).counters = s.counters := rfl
@[simp] theorem setFeed_pending (k : Nat) (f : Feed) : (s.setFeed k f).pending = s.pending := rfl
theorem setFeed_feed (k : Nat) (f : Feed) (j : Nat) : (s.setFeed k f).feed j = if j = k then f else s.feed j := Tab.get_put ..
@[simp] theorem setFeed_feed_same (k : Nat) (f : Feed) : (s.setFeed k f).feed k = f := Tab.get_put_same ..
theorem setFeed_feed_other (k : Nat) (f : Feed) (j : Nat) (h : j ≠ k) : (s.setFeed k f).feed j = s.feed j := Tab.get_put_other _ _ _ _ _ h
@[simp] theorem setFeed_dirEntry (k : Nat) (f : Feed) (j : Nat) : (s.setFeed k f).dirEntry j = s.dirEntry j := rfl
@[simp] theorem setFeed_list (k : Nat) (f : Feed) (j : Nat) : (s.setFeed k f).list j = s.list j := rfl
@[simp] theorem setFeed_law (k : Nat) (f : Feed) (j : Nat) : (s.setFeed k f).law j = s.law j := rfl
@[simp] theorem setFeed_recode (k : Nat) (f : Feed) (t : RecodeTable) (j : Nat) : (s.setFeed k f).recode t j = s.recode t j := by cases t <;> rfl
@[simp] theorem setFeed_coefWord (k : Nat) (f : Feed) (b r j : Nat) : (s.setFeed k f).coefWord b r j = s.coefWord b r j := rfl
@[simp] theorem setFeed_inverted (k : Nat) (f : Feed) (j : Nat) : (s.setFeed k f).inverted j = s.inverted j := rfl
@[simp] theorem setFeed_clipCount (k : Nat) (f : Feed) (j : Nat) : (s.setFeed k f).clipCount j = s.clipCount j := rfl
@[simp] theorem setFeed_isSummed (k : Nat) (f : Feed) (j : Nat) : (s.setFeed k f).isSummed j = s.isSummed j := rfl
@[simp] theorem setFeed_slotOf (k : Nat) (f : Feed) (j : Nat) : (s.setFeed k f).slotOf j = s.slotOf j := rfl
@[simp] theorem setFeed_delay (k : Nat) (f : Feed) (j : Nat) : (s.setFeed k f).delay j = s.delay j := rfl
@[simp] theorem setFeed_readDelay (k : Nat) (f : Feed) (j : Nat) : (s.setFeed k f).readDelay j = s.readDelay j := rfl
@[simp] theorem setFeed_dip (k : Nat) (f : Feed) (j : Nat) : (s.setFeed k f).dip j = s.dip j := rfl
@[simp] theorem setFeed_line (k : Nat) (f : Feed) (j : Nat) : (s.setFeed k f).line j = s.line j := rfl
@[simp] theorem setFeed_workOf (k : Nat) (f : Feed) (j : Nat) : (s.setFeed k f).workOf j = s.workOf j := rfl
@[simp] theorem setFeed_counter (k : Nat) (f : Feed) (j : Nat) : (s.setFeed k f).counter j = s.counter j := rfl

@[simp] theorem setDirEntry_address (p : Nat) (e : Option DirEntry) : (s.setDirEntry p e).address = s.address := rfl
@[simp] theorem setDirEntry_feedUp (p : Nat) (e : Option DirEntry) : (s.setDirEntry p e).feedUp = s.feedUp := rfl
@[simp] theorem setDirEntry_feedPartial (p : Nat) (e : Option DirEntry) : (s.setDirEntry p e).feedPartial = s.feedPartial := rfl
@[simp] theorem setDirEntry_speakerUp (p : Nat) (e : Option DirEntry) : (s.setDirEntry p e).speakerUp = s.speakerUp := rfl
@[simp] theorem setDirEntry_speakerPartial (p : Nat) (e : Option DirEntry) : (s.setDirEntry p e).speakerPartial = s.speakerPartial := rfl
@[simp] theorem setDirEntry_forwardLane (p : Nat) (e : Option DirEntry) : (s.setDirEntry p e).forwardLane = s.forwardLane := rfl
@[simp] theorem setDirEntry_gapOpen (p : Nat) (e : Option DirEntry) : (s.setDirEntry p e).gapOpen = s.gapOpen := rfl
@[simp] theorem setDirEntry_mask (p : Nat) (e : Option DirEntry) : (s.setDirEntry p e).mask = s.mask := rfl
@[simp] theorem setDirEntry_feeds (p : Nat) (e : Option DirEntry) : (s.setDirEntry p e).feeds = s.feeds := rfl
@[simp] theorem setDirEntry_coef (p : Nat) (e : Option DirEntry) : (s.setDirEntry p e).coef = s.coef := rfl
@[simp] theorem setDirEntry_servoN (p : Nat) (e : Option DirEntry) : (s.setDirEntry p e).servoN = s.servoN := rfl
@[simp] theorem setDirEntry_servoCount (p : Nat) (e : Option DirEntry) : (s.setDirEntry p e).servoCount = s.servoCount := rfl
@[simp] theorem setDirEntry_lists (p : Nat) (e : Option DirEntry) : (s.setDirEntry p e).lists = s.lists := rfl
@[simp] theorem setDirEntry_summed (p : Nat) (e : Option DirEntry) : (s.setDirEntry p e).summed = s.summed := rfl
@[simp] theorem setDirEntry_pool (p : Nat) (e : Option DirEntry) : (s.setDirEntry p e).pool = s.pool := rfl
@[simp] theorem setDirEntry_filter (p : Nat) (e : Option DirEntry) : (s.setDirEntry p e).filter = s.filter := rfl
@[simp] theorem setDirEntry_gainLaw (p : Nat) (e : Option DirEntry) : (s.setDirEntry p e).gainLaw = s.gainLaw := rfl
@[simp] theorem setDirEntry_master (p : Nat) (e : Option DirEntry) : (s.setDirEntry p e).master = s.master := rfl
@[simp] theorem setDirEntry_invert (p : Nat) (e : Option DirEntry) : (s.setDirEntry p e).invert = s.invert := rfl
@[simp] theorem setDirEntry_outClips (p : Nat) (e : Option DirEntry) : (s.setDirEntry p e).outClips = s.outClips := rfl
@[simp] theorem setDirEntry_ovPending (p : Nat) (e : Option DirEntry) : (s.setDirEntry p e).ovPending = s.ovPending := rfl
@[simp] theorem setDirEntry_ovCurrent (p : Nat) (e : Option DirEntry) : (s.setDirEntry p e).ovCurrent = s.ovCurrent := rfl
@[simp] theorem setDirEntry_cues (p : Nat) (e : Option DirEntry) : (s.setDirEntry p e).cues = s.cues := rfl
@[simp] theorem setDirEntry_cueNumber (p : Nat) (e : Option DirEntry) : (s.setDirEntry p e).cueNumber = s.cueNumber := rfl
@[simp] theorem setDirEntry_jobs (p : Nat) (e : Option DirEntry) : (s.setDirEntry p e).jobs = s.jobs := rfl
@[simp] theorem setDirEntry_walker (p : Nat) (e : Option DirEntry) : (s.setDirEntry p e).walker = s.walker := rfl
@[simp] theorem setDirEntry_recodeA (p : Nat) (e : Option DirEntry) : (s.setDirEntry p e).recodeA = s.recodeA := rfl
@[simp] theorem setDirEntry_recodeB (p : Nat) (e : Option DirEntry) : (s.setDirEntry p e).recodeB = s.recodeB := rfl
@[simp] theorem setDirEntry_arbiter (p : Nat) (e : Option DirEntry) : (s.setDirEntry p e).arbiter = s.arbiter := rfl
@[simp] theorem setDirEntry_count (p : Nat) (e : Option DirEntry) : (s.setDirEntry p e).count = s.count := rfl
@[simp] theorem setDirEntry_active (p : Nat) (e : Option DirEntry) : (s.setDirEntry p e).active = s.active := rfl
@[simp] theorem setDirEntry_slotMap (p : Nat) (e : Option DirEntry) : (s.setDirEntry p e).slotMap = s.slotMap := rfl
@[simp] theorem setDirEntry_delays (p : Nat) (e : Option DirEntry) : (s.setDirEntry p e).delays = s.delays := rfl
@[simp] theorem setDirEntry_readDelays (p : Nat) (e : Option DirEntry) : (s.setDirEntry p e).readDelays = s.readDelays := rfl
@[simp] theorem setDirEntry_dips (p : Nat) (e : Option DirEntry) : (s.setDirEntry p e).dips = s.dips := rfl
@[simp] theorem setDirEntry_lines (p : Nat) (e : Option DirEntry) : (s.setDirEntry p e).lines = s.lines := rfl
@[simp] theorem setDirEntry_phase (p : Nat) (e : Option DirEntry) : (s.setDirEntry p e).phase = s.phase := rfl
@[simp] theorem setDirEntry_work (p : Nat) (e : Option DirEntry) : (s.setDirEntry p e).work = s.work := rfl
@[simp] theorem setDirEntry_closeDue (p : Nat) (e : Option DirEntry) : (s.setDirEntry p e).closeDue = s.closeDue := rfl
@[simp] theorem setDirEntry_inbound (p : Nat) (e : Option DirEntry) : (s.setDirEntry p e).inbound = s.inbound := rfl
@[simp] theorem setDirEntry_proc (p : Nat) (e : Option DirEntry) : (s.setDirEntry p e).proc = s.proc := rfl
@[simp] theorem setDirEntry_pointer (p : Nat) (e : Option DirEntry) : (s.setDirEntry p e).pointer = s.pointer := rfl
@[simp] theorem setDirEntry_latch (p : Nat) (e : Option DirEntry) : (s.setDirEntry p e).latch = s.latch := rfl
@[simp] theorem setDirEntry_patch (p : Nat) (e : Option DirEntry) : (s.setDirEntry p e).patch = s.patch := rfl
@[simp] theorem setDirEntry_replies (p : Nat) (e : Option DirEntry) : (s.setDirEntry p e).replies = s.replies := rfl
@[simp] theorem setDirEntry_urgent (p : Nat) (e : Option DirEntry) : (s.setDirEntry p e).urgent = s.urgent := rfl
@[simp] theorem setDirEntry_further (p : Nat) (e : Option DirEntry) : (s.setDirEntry p e).further = s.further := rfl
@[simp] theorem setDirEntry_lane (p : Nat) (e : Option DirEntry) : (s.setDirEntry p e).lane = s.lane := rfl
@[simp] theorem setDirEntry_relayMode (p : Nat) (e : Option DirEntry) : (s.setDirEntry p e).relayMode = s.relayMode := rfl
@[simp] theorem setDirEntry_turn (p : Nat) (e : Option DirEntry) : (s.setDirEntry p e).turn = s.turn := rfl
@[simp] theorem setDirEntry_relay (p : Nat) (e : Option DirEntry) : (s.setDirEntry p e).relay = s.relay := rfl
@[simp] theorem setDirEntry_through (p : Nat) (e : Option DirEntry) : (s.setDirEntry p e).through = s.through := rfl
@[simp] theorem setDirEntry_counters (p : Nat) (e : Option DirEntry) : (s.setDirEntry p e).counters = s.counters := rfl
@[simp] theorem setDirEntry_pending (p : Nat) (e : Option DirEntry) : (s.setDirEntry p e).pending = s.pending := rfl
@[simp] theorem setDirEntry_feed (p : Nat) (e : Option DirEntry) (j : Nat) : (s.setDirEntry p e).feed j = s.feed j := rfl
theorem setDirEntry_dirEntry (p : Nat) (e : Option DirEntry) (j : Nat) : (s.setDirEntry p e).dirEntry j = if j = p then e else s.dirEntry j := Tab.get_put ..
@[simp] theorem setDirEntry_dirEntry_same (p : Nat) (e : Option DirEntry) : (s.setDirEntry p e).dirEntry p = e := Tab.get_put_same ..
theorem setDirEntry_dirEntry_other (p : Nat) (e : Option DirEntry) (j : Nat) (h : j ≠ p) : (s.setDirEntry p e).dirEntry j = s.dirEntry j := Tab.get_put_other _ _ _ _ _ h
@[simp] theorem setDirEntry_list (p : Nat) (e : Option DirEntry) (j : Nat) : (s.setDirEntry p e).list j = s.list j := rfl
@[simp] theorem setDirEntry_law (p : Nat) (e : Option DirEntry) (j : Nat) : (s.setDirEntry p e).law j = s.law j := rfl
@[simp] theorem setDirEntry_recode (p : Nat) (e : Option DirEntry) (t : RecodeTable) (j : Nat) : (s.setDirEntry p e).recode t j = s.recode t j := by cases t <;> rfl
@[simp] theorem setDirEntry_coefWord (p : Nat) (e : Option DirEntry) (b r j : Nat) : (s.setDirEntry p e).coefWord b r j = s.coefWord b r j := rfl
@[simp] theorem setDirEntry_inverted (p : Nat) (e : Option DirEntry) (j : Nat) : (s.setDirEntry p e).inverted j = s.inverted j := rfl
@[simp] theorem setDirEntry_clipCount (p : Nat) (e : Option DirEntry) (j : Nat) : (s.setDirEntry p e).clipCount j = s.clipCount j := rfl
@[simp] theorem setDirEntry_isSummed (p : Nat) (e : Option DirEntry) (j : Nat) : (s.setDirEntry p e).isSummed j = s.isSummed j := rfl
@[simp] theorem setDirEntry_slotOf (p : Nat) (e : Option DirEntry) (j : Nat) : (s.setDirEntry p e).slotOf j = s.slotOf j := rfl
@[simp] theorem setDirEntry_delay (p : Nat) (e : Option DirEntry) (j : Nat) : (s.setDirEntry p e).delay j = s.delay j := rfl
@[simp] theorem setDirEntry_readDelay (p : Nat) (e : Option DirEntry) (j : Nat) : (s.setDirEntry p e).readDelay j = s.readDelay j := rfl
@[simp] theorem setDirEntry_dip (p : Nat) (e : Option DirEntry) (j : Nat) : (s.setDirEntry p e).dip j = s.dip j := rfl
@[simp] theorem setDirEntry_line (p : Nat) (e : Option DirEntry) (j : Nat) : (s.setDirEntry p e).line j = s.line j := rfl
@[simp] theorem setDirEntry_workOf (p : Nat) (e : Option DirEntry) (j : Nat) : (s.setDirEntry p e).workOf j = s.workOf j := rfl
@[simp] theorem setDirEntry_counter (p : Nat) (e : Option DirEntry) (j : Nat) : (s.setDirEntry p e).counter j = s.counter j := rfl

@[simp] theorem setList_address (c : Nat) (l : List MixEntry) : (s.setList c l).address = s.address := rfl
@[simp] theorem setList_feedUp (c : Nat) (l : List MixEntry) : (s.setList c l).feedUp = s.feedUp := rfl
@[simp] theorem setList_feedPartial (c : Nat) (l : List MixEntry) : (s.setList c l).feedPartial = s.feedPartial := rfl
@[simp] theorem setList_speakerUp (c : Nat) (l : List MixEntry) : (s.setList c l).speakerUp = s.speakerUp := rfl
@[simp] theorem setList_speakerPartial (c : Nat) (l : List MixEntry) : (s.setList c l).speakerPartial = s.speakerPartial := rfl
@[simp] theorem setList_forwardLane (c : Nat) (l : List MixEntry) : (s.setList c l).forwardLane = s.forwardLane := rfl
@[simp] theorem setList_gapOpen (c : Nat) (l : List MixEntry) : (s.setList c l).gapOpen = s.gapOpen := rfl
@[simp] theorem setList_dir (c : Nat) (l : List MixEntry) : (s.setList c l).dir = s.dir := rfl
@[simp] theorem setList_mask (c : Nat) (l : List MixEntry) : (s.setList c l).mask = s.mask := rfl
@[simp] theorem setList_feeds (c : Nat) (l : List MixEntry) : (s.setList c l).feeds = s.feeds := rfl
@[simp] theorem setList_coef (c : Nat) (l : List MixEntry) : (s.setList c l).coef = s.coef := rfl
@[simp] theorem setList_servoN (c : Nat) (l : List MixEntry) : (s.setList c l).servoN = s.servoN := rfl
@[simp] theorem setList_servoCount (c : Nat) (l : List MixEntry) : (s.setList c l).servoCount = s.servoCount := rfl
@[simp] theorem setList_summed (c : Nat) (l : List MixEntry) : (s.setList c l).summed = s.summed := rfl
@[simp] theorem setList_pool (c : Nat) (l : List MixEntry) : (s.setList c l).pool = s.pool := rfl
@[simp] theorem setList_filter (c : Nat) (l : List MixEntry) : (s.setList c l).filter = s.filter := rfl
@[simp] theorem setList_gainLaw (c : Nat) (l : List MixEntry) : (s.setList c l).gainLaw = s.gainLaw := rfl
@[simp] theorem setList_master (c : Nat) (l : List MixEntry) : (s.setList c l).master = s.master := rfl
@[simp] theorem setList_invert (c : Nat) (l : List MixEntry) : (s.setList c l).invert = s.invert := rfl
@[simp] theorem setList_outClips (c : Nat) (l : List MixEntry) : (s.setList c l).outClips = s.outClips := rfl
@[simp] theorem setList_ovPending (c : Nat) (l : List MixEntry) : (s.setList c l).ovPending = s.ovPending := rfl
@[simp] theorem setList_ovCurrent (c : Nat) (l : List MixEntry) : (s.setList c l).ovCurrent = s.ovCurrent := rfl
@[simp] theorem setList_cues (c : Nat) (l : List MixEntry) : (s.setList c l).cues = s.cues := rfl
@[simp] theorem setList_cueNumber (c : Nat) (l : List MixEntry) : (s.setList c l).cueNumber = s.cueNumber := rfl
@[simp] theorem setList_jobs (c : Nat) (l : List MixEntry) : (s.setList c l).jobs = s.jobs := rfl
@[simp] theorem setList_walker (c : Nat) (l : List MixEntry) : (s.setList c l).walker = s.walker := rfl
@[simp] theorem setList_recodeA (c : Nat) (l : List MixEntry) : (s.setList c l).recodeA = s.recodeA := rfl
@[simp] theorem setList_recodeB (c : Nat) (l : List MixEntry) : (s.setList c l).recodeB = s.recodeB := rfl
@[simp] theorem setList_arbiter (c : Nat) (l : List MixEntry) : (s.setList c l).arbiter = s.arbiter := rfl
@[simp] theorem setList_count (c : Nat) (l : List MixEntry) : (s.setList c l).count = s.count := rfl
@[simp] theorem setList_active (c : Nat) (l : List MixEntry) : (s.setList c l).active = s.active := rfl
@[simp] theorem setList_slotMap (c : Nat) (l : List MixEntry) : (s.setList c l).slotMap = s.slotMap := rfl
@[simp] theorem setList_delays (c : Nat) (l : List MixEntry) : (s.setList c l).delays = s.delays := rfl
@[simp] theorem setList_readDelays (c : Nat) (l : List MixEntry) : (s.setList c l).readDelays = s.readDelays := rfl
@[simp] theorem setList_dips (c : Nat) (l : List MixEntry) : (s.setList c l).dips = s.dips := rfl
@[simp] theorem setList_lines (c : Nat) (l : List MixEntry) : (s.setList c l).lines = s.lines := rfl
@[simp] theorem setList_phase (c : Nat) (l : List MixEntry) : (s.setList c l).phase = s.phase := rfl
@[simp] theorem setList_work (c : Nat) (l : List MixEntry) : (s.setList c l).work = s.work := rfl
@[simp] theorem setList_closeDue (c : Nat) (l : List MixEntry) : (s.setList c l).closeDue = s.closeDue := rfl
@[simp] theorem setList_inbound (c : Nat) (l : List MixEntry) : (s.setList c l).inbound = s.inbound := rfl
@[simp] theorem setList_proc (c : Nat) (l : List MixEntry) : (s.setList c l).proc = s.proc := rfl
@[simp] theorem setList_pointer (c : Nat) (l : List MixEntry) : (s.setList c l).pointer = s.pointer := rfl
@[simp] theorem setList_latch (c : Nat) (l : List MixEntry) : (s.setList c l).latch = s.latch := rfl
@[simp] theorem setList_patch (c : Nat) (l : List MixEntry) : (s.setList c l).patch = s.patch := rfl
@[simp] theorem setList_replies (c : Nat) (l : List MixEntry) : (s.setList c l).replies = s.replies := rfl
@[simp] theorem setList_urgent (c : Nat) (l : List MixEntry) : (s.setList c l).urgent = s.urgent := rfl
@[simp] theorem setList_further (c : Nat) (l : List MixEntry) : (s.setList c l).further = s.further := rfl
@[simp] theorem setList_lane (c : Nat) (l : List MixEntry) : (s.setList c l).lane = s.lane := rfl
@[simp] theorem setList_relayMode (c : Nat) (l : List MixEntry) : (s.setList c l).relayMode = s.relayMode := rfl
@[simp] theorem setList_turn (c : Nat) (l : List MixEntry) : (s.setList c l).turn = s.turn := rfl
@[simp] theorem setList_relay (c : Nat) (l : List MixEntry) : (s.setList c l).relay = s.relay := rfl
@[simp] theorem setList_through (c : Nat) (l : List MixEntry) : (s.setList c l).through = s.through := rfl
@[simp] theorem setList_counters (c : Nat) (l : List MixEntry) : (s.setList c l).counters = s.counters := rfl
@[simp] theorem setList_pending (c : Nat) (l : List MixEntry) : (s.setList c l).pending = s.pending := rfl
@[simp] theorem setList_feed (c : Nat) (l : List MixEntry) (j : Nat) : (s.setList c l).feed j = s.feed j := rfl
@[simp] theorem setList_dirEntry (c : Nat) (l : List MixEntry) (j : Nat) : (s.setList c l).dirEntry j = s.dirEntry j := rfl
theorem setList_list (c : Nat) (l : List MixEntry) (j : Nat) : (s.setList c l).list j = if j = c then l else s.list j := Tab.get_put ..
@[simp] theorem setList_list_same (c : Nat) (l : List MixEntry) : (s.setList c l).list c = l := Tab.get_put_same ..
theorem setList_list_other (c : Nat) (l : List MixEntry) (j : Nat) (h : j ≠ c) : (s.setList c l).list j = s.list j := Tab.get_put_other _ _ _ _ _ h
@[simp] theorem setList_law (c : Nat) (l : List MixEntry) (j : Nat) : (s.setList c l).law j = s.law j := rfl
@[simp] theorem setList_recode (c : Nat) (l : List MixEntry) (t : RecodeTable) (j : Nat) : (s.setList c l).recode t j = s.recode t j := by cases t <;> rfl
@[simp] theorem setList_coefWord (c : Nat) (l : List MixEntry) (b r j : Nat) : (s.setList c l).coefWord b r j = s.coefWord b r j := rfl
@[simp] theorem setList_inverted (c : Nat) (l : List MixEntry) (j : Nat) : (s.setList c l).inverted j = s.inverted j := rfl
@[simp] theorem setList_clipCount (c : Nat) (l : List MixEntry) (j : Nat) : (s.setList c l).clipCount j = s.clipCount j := rfl
@[simp] theorem setList_isSummed (c : Nat) (l : List MixEntry) (j : Nat) : (s.setList c l).isSummed j = s.isSummed j := rfl
@[simp] theorem setList_slotOf (c : Nat) (l : List MixEntry) (j : Nat) : (s.setList c l).slotOf j = s.slotOf j := rfl
@[simp] theorem setList_delay (c : Nat) (l : List MixEntry) (j : Nat) : (s.setList c l).delay j = s.delay j := rfl
@[simp] theorem setList_readDelay (c : Nat) (l : List MixEntry) (j : Nat) : (s.setList c l).readDelay j = s.readDelay j := rfl
@[simp] theorem setList_dip (c : Nat) (l : List MixEntry) (j : Nat) : (s.setList c l).dip j = s.dip j := rfl
@[simp] theorem setList_line (c : Nat) (l : List MixEntry) (j : Nat) : (s.setList c l).line j = s.line j := rfl
@[simp] theorem setList_workOf (c : Nat) (l : List MixEntry) (j : Nat) : (s.setList c l).workOf j = s.workOf j := rfl
@[simp] theorem setList_counter (c : Nat) (l : List MixEntry) (j : Nat) : (s.setList c l).counter j = s.counter j := rfl

@[simp] theorem setDip_address (c : Nat) (d : Dip) : (s.setDip c d).address = s.address := rfl
@[simp] theorem setDip_feedUp (c : Nat) (d : Dip) : (s.setDip c d).feedUp = s.feedUp := rfl
@[simp] theorem setDip_feedPartial (c : Nat) (d : Dip) : (s.setDip c d).feedPartial = s.feedPartial := rfl
@[simp] theorem setDip_speakerUp (c : Nat) (d : Dip) : (s.setDip c d).speakerUp = s.speakerUp := rfl
@[simp] theorem setDip_speakerPartial (c : Nat) (d : Dip) : (s.setDip c d).speakerPartial = s.speakerPartial := rfl
@[simp] theorem setDip_forwardLane (c : Nat) (d : Dip) : (s.setDip c d).forwardLane = s.forwardLane := rfl
@[simp] theorem setDip_gapOpen (c : Nat) (d : Dip) : (s.setDip c d).gapOpen = s.gapOpen := rfl
@[simp] theorem setDip_dir (c : Nat) (d : Dip) : (s.setDip c d).dir = s.dir := rfl
@[simp] theorem setDip_mask (c : Nat) (d : Dip) : (s.setDip c d).mask = s.mask := rfl
@[simp] theorem setDip_feeds (c : Nat) (d : Dip) : (s.setDip c d).feeds = s.feeds := rfl
@[simp] theorem setDip_coef (c : Nat) (d : Dip) : (s.setDip c d).coef = s.coef := rfl
@[simp] theorem setDip_servoN (c : Nat) (d : Dip) : (s.setDip c d).servoN = s.servoN := rfl
@[simp] theorem setDip_servoCount (c : Nat) (d : Dip) : (s.setDip c d).servoCount = s.servoCount := rfl
@[simp] theorem setDip_lists (c : Nat) (d : Dip) : (s.setDip c d).lists = s.lists := rfl
@[simp] theorem setDip_summed (c : Nat) (d : Dip) : (s.setDip c d).summed = s.summed := rfl
@[simp] theorem setDip_pool (c : Nat) (d : Dip) : (s.setDip c d).pool = s.pool := rfl
@[simp] theorem setDip_filter (c : Nat) (d : Dip) : (s.setDip c d).filter = s.filter := rfl
@[simp] theorem setDip_gainLaw (c : Nat) (d : Dip) : (s.setDip c d).gainLaw = s.gainLaw := rfl
@[simp] theorem setDip_master (c : Nat) (d : Dip) : (s.setDip c d).master = s.master := rfl
@[simp] theorem setDip_invert (c : Nat) (d : Dip) : (s.setDip c d).invert = s.invert := rfl
@[simp] theorem setDip_outClips (c : Nat) (d : Dip) : (s.setDip c d).outClips = s.outClips := rfl
@[simp] theorem setDip_ovPending (c : Nat) (d : Dip) : (s.setDip c d).ovPending = s.ovPending := rfl
@[simp] theorem setDip_ovCurrent (c : Nat) (d : Dip) : (s.setDip c d).ovCurrent = s.ovCurrent := rfl
@[simp] theorem setDip_cues (c : Nat) (d : Dip) : (s.setDip c d).cues = s.cues := rfl
@[simp] theorem setDip_cueNumber (c : Nat) (d : Dip) : (s.setDip c d).cueNumber = s.cueNumber := rfl
@[simp] theorem setDip_jobs (c : Nat) (d : Dip) : (s.setDip c d).jobs = s.jobs := rfl
@[simp] theorem setDip_walker (c : Nat) (d : Dip) : (s.setDip c d).walker = s.walker := rfl
@[simp] theorem setDip_recodeA (c : Nat) (d : Dip) : (s.setDip c d).recodeA = s.recodeA := rfl
@[simp] theorem setDip_recodeB (c : Nat) (d : Dip) : (s.setDip c d).recodeB = s.recodeB := rfl
@[simp] theorem setDip_arbiter (c : Nat) (d : Dip) : (s.setDip c d).arbiter = s.arbiter := rfl
@[simp] theorem setDip_count (c : Nat) (d : Dip) : (s.setDip c d).count = s.count := rfl
@[simp] theorem setDip_active (c : Nat) (d : Dip) : (s.setDip c d).active = s.active := rfl
@[simp] theorem setDip_slotMap (c : Nat) (d : Dip) : (s.setDip c d).slotMap = s.slotMap := rfl
@[simp] theorem setDip_delays (c : Nat) (d : Dip) : (s.setDip c d).delays = s.delays := rfl
@[simp] theorem setDip_readDelays (c : Nat) (d : Dip) : (s.setDip c d).readDelays = s.readDelays := rfl
@[simp] theorem setDip_lines (c : Nat) (d : Dip) : (s.setDip c d).lines = s.lines := rfl
@[simp] theorem setDip_phase (c : Nat) (d : Dip) : (s.setDip c d).phase = s.phase := rfl
@[simp] theorem setDip_work (c : Nat) (d : Dip) : (s.setDip c d).work = s.work := rfl
@[simp] theorem setDip_closeDue (c : Nat) (d : Dip) : (s.setDip c d).closeDue = s.closeDue := rfl
@[simp] theorem setDip_inbound (c : Nat) (d : Dip) : (s.setDip c d).inbound = s.inbound := rfl
@[simp] theorem setDip_proc (c : Nat) (d : Dip) : (s.setDip c d).proc = s.proc := rfl
@[simp] theorem setDip_pointer (c : Nat) (d : Dip) : (s.setDip c d).pointer = s.pointer := rfl
@[simp] theorem setDip_latch (c : Nat) (d : Dip) : (s.setDip c d).latch = s.latch := rfl
@[simp] theorem setDip_patch (c : Nat) (d : Dip) : (s.setDip c d).patch = s.patch := rfl
@[simp] theorem setDip_replies (c : Nat) (d : Dip) : (s.setDip c d).replies = s.replies := rfl
@[simp] theorem setDip_urgent (c : Nat) (d : Dip) : (s.setDip c d).urgent = s.urgent := rfl
@[simp] theorem setDip_further (c : Nat) (d : Dip) : (s.setDip c d).further = s.further := rfl
@[simp] theorem setDip_lane (c : Nat) (d : Dip) : (s.setDip c d).lane = s.lane := rfl
@[simp] theorem setDip_relayMode (c : Nat) (d : Dip) : (s.setDip c d).relayMode = s.relayMode := rfl
@[simp] theorem setDip_turn (c : Nat) (d : Dip) : (s.setDip c d).turn = s.turn := rfl
@[simp] theorem setDip_relay (c : Nat) (d : Dip) : (s.setDip c d).relay = s.relay := rfl
@[simp] theorem setDip_through (c : Nat) (d : Dip) : (s.setDip c d).through = s.through := rfl
@[simp] theorem setDip_counters (c : Nat) (d : Dip) : (s.setDip c d).counters = s.counters := rfl
@[simp] theorem setDip_pending (c : Nat) (d : Dip) : (s.setDip c d).pending = s.pending := rfl
@[simp] theorem setDip_feed (c : Nat) (d : Dip) (j : Nat) : (s.setDip c d).feed j = s.feed j := rfl
@[simp] theorem setDip_dirEntry (c : Nat) (d : Dip) (j : Nat) : (s.setDip c d).dirEntry j = s.dirEntry j := rfl
@[simp] theorem setDip_list (c : Nat) (d : Dip) (j : Nat) : (s.setDip c d).list j = s.list j := rfl
@[simp] theorem setDip_law (c : Nat) (d : Dip) (j : Nat) : (s.setDip c d).law j = s.law j := rfl
@[simp] theorem setDip_recode (c : Nat) (d : Dip) (t : RecodeTable) (j : Nat) : (s.setDip c d).recode t j = s.recode t j := by cases t <;> rfl
@[simp] theorem setDip_coefWord (c : Nat) (d : Dip) (b r j : Nat) : (s.setDip c d).coefWord b r j = s.coefWord b r j := rfl
@[simp] theorem setDip_inverted (c : Nat) (d : Dip) (j : Nat) : (s.setDip c d).inverted j = s.inverted j := rfl
@[simp] theorem setDip_clipCount (c : Nat) (d : Dip) (j : Nat) : (s.setDip c d).clipCount j = s.clipCount j := rfl
@[simp] theorem setDip_isSummed (c : Nat) (d : Dip) (j : Nat) : (s.setDip c d).isSummed j = s.isSummed j := rfl
@[simp] theorem setDip_slotOf (c : Nat) (d : Dip) (j : Nat) : (s.setDip c d).slotOf j = s.slotOf j := rfl
@[simp] theorem setDip_delay (c : Nat) (d : Dip) (j : Nat) : (s.setDip c d).delay j = s.delay j := rfl
@[simp] theorem setDip_readDelay (c : Nat) (d : Dip) (j : Nat) : (s.setDip c d).readDelay j = s.readDelay j := rfl
theorem setDip_dip (c : Nat) (d : Dip) (j : Nat) : (s.setDip c d).dip j = if j = c then d else s.dip j := Tab.get_put ..
@[simp] theorem setDip_dip_same (c : Nat) (d : Dip) : (s.setDip c d).dip c = d := Tab.get_put_same ..
theorem setDip_dip_other (c : Nat) (d : Dip) (j : Nat) (h : j ≠ c) : (s.setDip c d).dip j = s.dip j := Tab.get_put_other _ _ _ _ _ h
@[simp] theorem setDip_line (c : Nat) (d : Dip) (j : Nat) : (s.setDip c d).line j = s.line j := rfl
@[simp] theorem setDip_workOf (c : Nat) (d : Dip) (j : Nat) : (s.setDip c d).workOf j = s.workOf j := rfl
@[simp] theorem setDip_counter (c : Nat) (d : Dip) (j : Nat) : (s.setDip c d).counter j = s.counter j := rfl

@[simp] theorem setWork_address (c : Nat) (w : ChannelWork) : (s.setWork c w).address = s.address := rfl
@[simp] theorem setWork_feedUp (c : Nat) (w : ChannelWork) : (s.setWork c w).feedUp = s.feedUp := rfl
@[simp] theorem setWork_feedPartial (c : Nat) (w : ChannelWork) : (s.setWork c w).feedPartial = s.feedPartial := rfl
@[simp] theorem setWork_speakerUp (c : Nat) (w : ChannelWork) : (s.setWork c w).speakerUp = s.speakerUp := rfl
@[simp] theorem setWork_speakerPartial (c : Nat) (w : ChannelWork) : (s.setWork c w).speakerPartial = s.speakerPartial := rfl
@[simp] theorem setWork_forwardLane (c : Nat) (w : ChannelWork) : (s.setWork c w).forwardLane = s.forwardLane := rfl
@[simp] theorem setWork_gapOpen (c : Nat) (w : ChannelWork) : (s.setWork c w).gapOpen = s.gapOpen := rfl
@[simp] theorem setWork_dir (c : Nat) (w : ChannelWork) : (s.setWork c w).dir = s.dir := rfl
@[simp] theorem setWork_mask (c : Nat) (w : ChannelWork) : (s.setWork c w).mask = s.mask := rfl
@[simp] theorem setWork_feeds (c : Nat) (w : ChannelWork) : (s.setWork c w).feeds = s.feeds := rfl
@[simp] theorem setWork_coef (c : Nat) (w : ChannelWork) : (s.setWork c w).coef = s.coef := rfl
@[simp] theorem setWork_servoN (c : Nat) (w : ChannelWork) : (s.setWork c w).servoN = s.servoN := rfl
@[simp] theorem setWork_servoCount (c : Nat) (w : ChannelWork) : (s.setWork c w).servoCount = s.servoCount := rfl
@[simp] theorem setWork_lists (c : Nat) (w : ChannelWork) : (s.setWork c w).lists = s.lists := rfl
@[simp] theorem setWork_summed (c : Nat) (w : ChannelWork) : (s.setWork c w).summed = s.summed := rfl
@[simp] theorem setWork_pool (c : Nat) (w : ChannelWork) : (s.setWork c w).pool = s.pool := rfl
@[simp] theorem setWork_filter (c : Nat) (w : ChannelWork) : (s.setWork c w).filter = s.filter := rfl
@[simp] theorem setWork_gainLaw (c : Nat) (w : ChannelWork) : (s.setWork c w).gainLaw = s.gainLaw := rfl
@[simp] theorem setWork_master (c : Nat) (w : ChannelWork) : (s.setWork c w).master = s.master := rfl
@[simp] theorem setWork_invert (c : Nat) (w : ChannelWork) : (s.setWork c w).invert = s.invert := rfl
@[simp] theorem setWork_outClips (c : Nat) (w : ChannelWork) : (s.setWork c w).outClips = s.outClips := rfl
@[simp] theorem setWork_ovPending (c : Nat) (w : ChannelWork) : (s.setWork c w).ovPending = s.ovPending := rfl
@[simp] theorem setWork_ovCurrent (c : Nat) (w : ChannelWork) : (s.setWork c w).ovCurrent = s.ovCurrent := rfl
@[simp] theorem setWork_cues (c : Nat) (w : ChannelWork) : (s.setWork c w).cues = s.cues := rfl
@[simp] theorem setWork_cueNumber (c : Nat) (w : ChannelWork) : (s.setWork c w).cueNumber = s.cueNumber := rfl
@[simp] theorem setWork_jobs (c : Nat) (w : ChannelWork) : (s.setWork c w).jobs = s.jobs := rfl
@[simp] theorem setWork_walker (c : Nat) (w : ChannelWork) : (s.setWork c w).walker = s.walker := rfl
@[simp] theorem setWork_recodeA (c : Nat) (w : ChannelWork) : (s.setWork c w).recodeA = s.recodeA := rfl
@[simp] theorem setWork_recodeB (c : Nat) (w : ChannelWork) : (s.setWork c w).recodeB = s.recodeB := rfl
@[simp] theorem setWork_arbiter (c : Nat) (w : ChannelWork) : (s.setWork c w).arbiter = s.arbiter := rfl
@[simp] theorem setWork_count (c : Nat) (w : ChannelWork) : (s.setWork c w).count = s.count := rfl
@[simp] theorem setWork_active (c : Nat) (w : ChannelWork) : (s.setWork c w).active = s.active := rfl
@[simp] theorem setWork_slotMap (c : Nat) (w : ChannelWork) : (s.setWork c w).slotMap = s.slotMap := rfl
@[simp] theorem setWork_delays (c : Nat) (w : ChannelWork) : (s.setWork c w).delays = s.delays := rfl
@[simp] theorem setWork_readDelays (c : Nat) (w : ChannelWork) : (s.setWork c w).readDelays = s.readDelays := rfl
@[simp] theorem setWork_dips (c : Nat) (w : ChannelWork) : (s.setWork c w).dips = s.dips := rfl
@[simp] theorem setWork_lines (c : Nat) (w : ChannelWork) : (s.setWork c w).lines = s.lines := rfl
@[simp] theorem setWork_phase (c : Nat) (w : ChannelWork) : (s.setWork c w).phase = s.phase := rfl
@[simp] theorem setWork_closeDue (c : Nat) (w : ChannelWork) : (s.setWork c w).closeDue = s.closeDue := rfl
@[simp] theorem setWork_inbound (c : Nat) (w : ChannelWork) : (s.setWork c w).inbound = s.inbound := rfl
@[simp] theorem setWork_proc (c : Nat) (w : ChannelWork) : (s.setWork c w).proc = s.proc := rfl
@[simp] theorem setWork_pointer (c : Nat) (w : ChannelWork) : (s.setWork c w).pointer = s.pointer := rfl
@[simp] theorem setWork_latch (c : Nat) (w : ChannelWork) : (s.setWork c w).latch = s.latch := rfl
@[simp] theorem setWork_patch (c : Nat) (w : ChannelWork) : (s.setWork c w).patch = s.patch := rfl
@[simp] theorem setWork_replies (c : Nat) (w : ChannelWork) : (s.setWork c w).replies = s.replies := rfl
@[simp] theorem setWork_urgent (c : Nat) (w : ChannelWork) : (s.setWork c w).urgent = s.urgent := rfl
@[simp] theorem setWork_further (c : Nat) (w : ChannelWork) : (s.setWork c w).further = s.further := rfl
@[simp] theorem setWork_lane (c : Nat) (w : ChannelWork) : (s.setWork c w).lane = s.lane := rfl
@[simp] theorem setWork_relayMode (c : Nat) (w : ChannelWork) : (s.setWork c w).relayMode = s.relayMode := rfl
@[simp] theorem setWork_turn (c : Nat) (w : ChannelWork) : (s.setWork c w).turn = s.turn := rfl
@[simp] theorem setWork_relay (c : Nat) (w : ChannelWork) : (s.setWork c w).relay = s.relay := rfl
@[simp] theorem setWork_through (c : Nat) (w : ChannelWork) : (s.setWork c w).through = s.through := rfl
@[simp] theorem setWork_counters (c : Nat) (w : ChannelWork) : (s.setWork c w).counters = s.counters := rfl
@[simp] theorem setWork_pending (c : Nat) (w : ChannelWork) : (s.setWork c w).pending = s.pending := rfl
@[simp] theorem setWork_feed (c : Nat) (w : ChannelWork) (j : Nat) : (s.setWork c w).feed j = s.feed j := rfl
@[simp] theorem setWork_dirEntry (c : Nat) (w : ChannelWork) (j : Nat) : (s.setWork c w).dirEntry j = s.dirEntry j := rfl
@[simp] theorem setWork_list (c : Nat) (w : ChannelWork) (j : Nat) : (s.setWork c w).list j = s.list j := rfl
@[simp] theorem setWork_law (c : Nat) (w : ChannelWork) (j : Nat) : (s.setWork c w).law j = s.law j := rfl
@[simp] theorem setWork_recode (c : Nat) (w : ChannelWork) (t : RecodeTable) (j : Nat) : (s.setWork c w).recode t j = s.recode t j := by cases t <;> rfl
@[simp] theorem setWork_coefWord (c : Nat) (w : ChannelWork) (b r j : Nat) : (s.setWork c w).coefWord b r j = s.coefWord b r j := rfl
@[simp] theorem setWork_inverted (c : Nat) (w : ChannelWork) (j : Nat) : (s.setWork c w).inverted j = s.inverted j := rfl
@[simp] theorem setWork_clipCount (c : Nat) (w : ChannelWork) (j : Nat) : (s.setWork c w).clipCount j = s.clipCount j := rfl
@[simp] theorem setWork_isSummed (c : Nat) (w : ChannelWork) (j : Nat) : (s.setWork c w).isSummed j = s.isSummed j := rfl
@[simp] theorem setWork_slotOf (c : Nat) (w : ChannelWork) (j : Nat) : (s.setWork c w).slotOf j = s.slotOf j := rfl
@[simp] theorem setWork_delay (c : Nat) (w : ChannelWork) (j : Nat) : (s.setWork c w).delay j = s.delay j := rfl
@[simp] theorem setWork_readDelay (c : Nat) (w : ChannelWork) (j : Nat) : (s.setWork c w).readDelay j = s.readDelay j := rfl
@[simp] theorem setWork_dip (c : Nat) (w : ChannelWork) (j : Nat) : (s.setWork c w).dip j = s.dip j := rfl
@[simp] theorem setWork_line (c : Nat) (w : ChannelWork) (j : Nat) : (s.setWork c w).line j = s.line j := rfl
theorem setWork_workOf (c : Nat) (w : ChannelWork) (j : Nat) : (s.setWork c w).workOf j = if j = c then w else s.workOf j := Tab.get_put ..
@[simp] theorem setWork_workOf_same (c : Nat) (w : ChannelWork) : (s.setWork c w).workOf c = w := Tab.get_put_same ..
theorem setWork_workOf_other (c : Nat) (w : ChannelWork) (j : Nat) (h : j ≠ c) : (s.setWork c w).workOf j = s.workOf j := Tab.get_put_other _ _ _ _ _ h
@[simp] theorem setWork_counter (c : Nat) (w : ChannelWork) (j : Nat) : (s.setWork c w).counter j = s.counter j := rfl

@[simp] theorem setCounter_address (k : Nat) (c : Counter) : (s.setCounter k c).address = s.address := rfl
@[simp] theorem setCounter_feedUp (k : Nat) (c : Counter) : (s.setCounter k c).feedUp = s.feedUp := rfl
@[simp] theorem setCounter_feedPartial (k : Nat) (c : Counter) : (s.setCounter k c).feedPartial = s.feedPartial := rfl
@[simp] theorem setCounter_speakerUp (k : Nat) (c : Counter) : (s.setCounter k c).speakerUp = s.speakerUp := rfl
@[simp] theorem setCounter_speakerPartial (k : Nat) (c : Counter) : (s.setCounter k c).speakerPartial = s.speakerPartial := rfl
@[simp] theorem setCounter_forwardLane (k : Nat) (c : Counter) : (s.setCounter k c).forwardLane = s.forwardLane := rfl
@[simp] theorem setCounter_gapOpen (k : Nat) (c : Counter) : (s.setCounter k c).gapOpen = s.gapOpen := rfl
@[simp] theorem setCounter_dir (k : Nat) (c : Counter) : (s.setCounter k c).dir = s.dir := rfl
@[simp] theorem setCounter_mask (k : Nat) (c : Counter) : (s.setCounter k c).mask = s.mask := rfl
@[simp] theorem setCounter_feeds (k : Nat) (c : Counter) : (s.setCounter k c).feeds = s.feeds := rfl
@[simp] theorem setCounter_coef (k : Nat) (c : Counter) : (s.setCounter k c).coef = s.coef := rfl
@[simp] theorem setCounter_servoN (k : Nat) (c : Counter) : (s.setCounter k c).servoN = s.servoN := rfl
@[simp] theorem setCounter_servoCount (k : Nat) (c : Counter) : (s.setCounter k c).servoCount = s.servoCount := rfl
@[simp] theorem setCounter_lists (k : Nat) (c : Counter) : (s.setCounter k c).lists = s.lists := rfl
@[simp] theorem setCounter_summed (k : Nat) (c : Counter) : (s.setCounter k c).summed = s.summed := rfl
@[simp] theorem setCounter_pool (k : Nat) (c : Counter) : (s.setCounter k c).pool = s.pool := rfl
@[simp] theorem setCounter_filter (k : Nat) (c : Counter) : (s.setCounter k c).filter = s.filter := rfl
@[simp] theorem setCounter_gainLaw (k : Nat) (c : Counter) : (s.setCounter k c).gainLaw = s.gainLaw := rfl
@[simp] theorem setCounter_master (k : Nat) (c : Counter) : (s.setCounter k c).master = s.master := rfl
@[simp] theorem setCounter_invert (k : Nat) (c : Counter) : (s.setCounter k c).invert = s.invert := rfl
@[simp] theorem setCounter_outClips (k : Nat) (c : Counter) : (s.setCounter k c).outClips = s.outClips := rfl
@[simp] theorem setCounter_ovPending (k : Nat) (c : Counter) : (s.setCounter k c).ovPending = s.ovPending := rfl
@[simp] theorem setCounter_ovCurrent (k : Nat) (c : Counter) : (s.setCounter k c).ovCurrent = s.ovCurrent := rfl
@[simp] theorem setCounter_cues (k : Nat) (c : Counter) : (s.setCounter k c).cues = s.cues := rfl
@[simp] theorem setCounter_cueNumber (k : Nat) (c : Counter) : (s.setCounter k c).cueNumber = s.cueNumber := rfl
@[simp] theorem setCounter_jobs (k : Nat) (c : Counter) : (s.setCounter k c).jobs = s.jobs := rfl
@[simp] theorem setCounter_walker (k : Nat) (c : Counter) : (s.setCounter k c).walker = s.walker := rfl
@[simp] theorem setCounter_recodeA (k : Nat) (c : Counter) : (s.setCounter k c).recodeA = s.recodeA := rfl
@[simp] theorem setCounter_recodeB (k : Nat) (c : Counter) : (s.setCounter k c).recodeB = s.recodeB := rfl
@[simp] theorem setCounter_arbiter (k : Nat) (c : Counter) : (s.setCounter k c).arbiter = s.arbiter := rfl
@[simp] theorem setCounter_count (k : Nat) (c : Counter) : (s.setCounter k c).count = s.count := rfl
@[simp] theorem setCounter_active (k : Nat) (c : Counter) : (s.setCounter k c).active = s.active := rfl
@[simp] theorem setCounter_slotMap (k : Nat) (c : Counter) : (s.setCounter k c).slotMap = s.slotMap := rfl
@[simp] theorem setCounter_delays (k : Nat) (c : Counter) : (s.setCounter k c).delays = s.delays := rfl
@[simp] theorem setCounter_readDelays (k : Nat) (c : Counter) : (s.setCounter k c).readDelays = s.readDelays := rfl
@[simp] theorem setCounter_dips (k : Nat) (c : Counter) : (s.setCounter k c).dips = s.dips := rfl
@[simp] theorem setCounter_lines (k : Nat) (c : Counter) : (s.setCounter k c).lines = s.lines := rfl
@[simp] theorem setCounter_phase (k : Nat) (c : Counter) : (s.setCounter k c).phase = s.phase := rfl
@[simp] theorem setCounter_work (k : Nat) (c : Counter) : (s.setCounter k c).work = s.work := rfl
@[simp] theorem setCounter_closeDue (k : Nat) (c : Counter) : (s.setCounter k c).closeDue = s.closeDue := rfl
@[simp] theorem setCounter_inbound (k : Nat) (c : Counter) : (s.setCounter k c).inbound = s.inbound := rfl
@[simp] theorem setCounter_proc (k : Nat) (c : Counter) : (s.setCounter k c).proc = s.proc := rfl
@[simp] theorem setCounter_pointer (k : Nat) (c : Counter) : (s.setCounter k c).pointer = s.pointer := rfl
@[simp] theorem setCounter_latch (k : Nat) (c : Counter) : (s.setCounter k c).latch = s.latch := rfl
@[simp] theorem setCounter_patch (k : Nat) (c : Counter) : (s.setCounter k c).patch = s.patch := rfl
@[simp] theorem setCounter_replies (k : Nat) (c : Counter) : (s.setCounter k c).replies = s.replies := rfl
@[simp] theorem setCounter_urgent (k : Nat) (c : Counter) : (s.setCounter k c).urgent = s.urgent := rfl
@[simp] theorem setCounter_further (k : Nat) (c : Counter) : (s.setCounter k c).further = s.further := rfl
@[simp] theorem setCounter_lane (k : Nat) (c : Counter) : (s.setCounter k c).lane = s.lane := rfl
@[simp] theorem setCounter_relayMode (k : Nat) (c : Counter) : (s.setCounter k c).relayMode = s.relayMode := rfl
@[simp] theorem setCounter_turn (k : Nat) (c : Counter) : (s.setCounter k c).turn = s.turn := rfl
@[simp] theorem setCounter_relay (k : Nat) (c : Counter) : (s.setCounter k c).relay = s.relay := rfl
@[simp] theorem setCounter_through (k : Nat) (c : Counter) : (s.setCounter k c).through = s.through := rfl
@[simp] theorem setCounter_pending (k : Nat) (c : Counter) : (s.setCounter k c).pending = s.pending := rfl
@[simp] theorem setCounter_feed (k : Nat) (c : Counter) (j : Nat) : (s.setCounter k c).feed j = s.feed j := rfl
@[simp] theorem setCounter_dirEntry (k : Nat) (c : Counter) (j : Nat) : (s.setCounter k c).dirEntry j = s.dirEntry j := rfl
@[simp] theorem setCounter_list (k : Nat) (c : Counter) (j : Nat) : (s.setCounter k c).list j = s.list j := rfl
@[simp] theorem setCounter_law (k : Nat) (c : Counter) (j : Nat) : (s.setCounter k c).law j = s.law j := rfl
@[simp] theorem setCounter_recode (k : Nat) (c : Counter) (t : RecodeTable) (j : Nat) : (s.setCounter k c).recode t j = s.recode t j := by cases t <;> rfl
@[simp] theorem setCounter_coefWord (k : Nat) (c : Counter) (b r j : Nat) : (s.setCounter k c).coefWord b r j = s.coefWord b r j := rfl
@[simp] theorem setCounter_inverted (k : Nat) (c : Counter) (j : Nat) : (s.setCounter k c).inverted j = s.inverted j := rfl
@[simp] theorem setCounter_clipCount (k : Nat) (c : Counter) (j : Nat) : (s.setCounter k c).clipCount j = s.clipCount j := rfl
@[simp] theorem setCounter_isSummed (k : Nat) (c : Counter) (j : Nat) : (s.setCounter k c).isSummed j = s.isSummed j := rfl
@[simp] theorem setCounter_slotOf (k : Nat) (c : Counter) (j : Nat) : (s.setCounter k c).slotOf j = s.slotOf j := rfl
@[simp] theorem setCounter_delay (k : Nat) (c : Counter) (j : Nat) : (s.setCounter k c).delay j = s.delay j := rfl
@[simp] theorem setCounter_readDelay (k : Nat) (c : Counter) (j : Nat) : (s.setCounter k c).readDelay j = s.readDelay j := rfl
@[simp] theorem setCounter_dip (k : Nat) (c : Counter) (j : Nat) : (s.setCounter k c).dip j = s.dip j := rfl
@[simp] theorem setCounter_line (k : Nat) (c : Counter) (j : Nat) : (s.setCounter k c).line j = s.line j := rfl
@[simp] theorem setCounter_workOf (k : Nat) (c : Counter) (j : Nat) : (s.setCounter k c).workOf j = s.workOf j := rfl
theorem setCounter_counter (k : Nat) (c : Counter) (j : Nat) : (s.setCounter k c).counter j = if j = k then c else s.counter j := Tab.get_put ..
@[simp] theorem setCounter_counter_same (k : Nat) (c : Counter) : (s.setCounter k c).counter k = c := Tab.get_put_same ..
theorem setCounter_counter_other (k : Nat) (c : Counter) (j : Nat) (h : j ≠ k) : (s.setCounter k c).counter j = s.counter j := Tab.get_put_other _ _ _ _ _ h

@[simp] theorem releasePort_address : (releasePort s).address = s.address := rfl
@[simp] theorem releasePort_feedUp : (releasePort s).feedUp = s.feedUp := rfl
@[simp] theorem releasePort_feedPartial : (releasePort s).feedPartial = s.feedPartial := rfl
@[simp] theorem releasePort_speakerUp : (releasePort s).speakerUp = s.speakerUp := rfl
@[simp] theorem releasePort_speakerPartial : (releasePort s).speakerPartial = s.speakerPartial := rfl
@[simp] theorem releasePort_forwardLane : (releasePort s).forwardLane = s.forwardLane := rfl
@[simp] theorem releasePort_gapOpen : (releasePort s).gapOpen = s.gapOpen := rfl
@[simp] theorem releasePort_dir : (releasePort s).dir = s.dir := rfl
@[simp] theorem releasePort_mask : (releasePort s).mask = s.mask := rfl
@[simp] theorem releasePort_feeds : (releasePort s).feeds = s.feeds := rfl
@[simp] theorem releasePort_coef : (releasePort s).coef = s.coef := rfl
@[simp] theorem releasePort_servoN : (releasePort s).servoN = s.servoN := rfl
@[simp] theorem releasePort_servoCount : (releasePort s).servoCount = s.servoCount := rfl
@[simp] theorem releasePort_lists : (releasePort s).lists = s.lists := rfl
@[simp] theorem releasePort_summed : (releasePort s).summed = s.summed := rfl
@[simp] theorem releasePort_pool : (releasePort s).pool = s.pool := rfl
@[simp] theorem releasePort_filter : (releasePort s).filter = s.filter := rfl
@[simp] theorem releasePort_gainLaw : (releasePort s).gainLaw = s.gainLaw := rfl
@[simp] theorem releasePort_master : (releasePort s).master = s.master := rfl
@[simp] theorem releasePort_invert : (releasePort s).invert = s.invert := rfl
@[simp] theorem releasePort_outClips : (releasePort s).outClips = s.outClips := rfl
@[simp] theorem releasePort_ovPending : (releasePort s).ovPending = s.ovPending := rfl
@[simp] theorem releasePort_ovCurrent : (releasePort s).ovCurrent = s.ovCurrent := rfl
@[simp] theorem releasePort_cues : (releasePort s).cues = s.cues := rfl
@[simp] theorem releasePort_cueNumber : (releasePort s).cueNumber = s.cueNumber := rfl
@[simp] theorem releasePort_jobs : (releasePort s).jobs = s.jobs := rfl
@[simp] theorem releasePort_walker : (releasePort s).walker = s.walker := rfl
@[simp] theorem releasePort_recodeA : (releasePort s).recodeA = s.recodeA := rfl
@[simp] theorem releasePort_recodeB : (releasePort s).recodeB = s.recodeB := rfl
@[simp] theorem releasePort_count : (releasePort s).count = s.count := rfl
@[simp] theorem releasePort_active : (releasePort s).active = s.active := rfl
@[simp] theorem releasePort_slotMap : (releasePort s).slotMap = s.slotMap := rfl
@[simp] theorem releasePort_delays : (releasePort s).delays = s.delays := rfl
@[simp] theorem releasePort_readDelays : (releasePort s).readDelays = s.readDelays := rfl
@[simp] theorem releasePort_dips : (releasePort s).dips = s.dips := rfl
@[simp] theorem releasePort_lines : (releasePort s).lines = s.lines := rfl
@[simp] theorem releasePort_phase : (releasePort s).phase = s.phase := rfl
@[simp] theorem releasePort_work : (releasePort s).work = s.work := rfl
@[simp] theorem releasePort_closeDue : (releasePort s).closeDue = s.closeDue := rfl
@[simp] theorem releasePort_inbound : (releasePort s).inbound = s.inbound := rfl
@[simp] theorem releasePort_proc : (releasePort s).proc = s.proc := rfl
@[simp] theorem releasePort_pointer : (releasePort s).pointer = s.pointer := rfl
@[simp] theorem releasePort_latch : (releasePort s).latch = s.latch := rfl
@[simp] theorem releasePort_patch : (releasePort s).patch = s.patch := rfl
@[simp] theorem releasePort_replies : (releasePort s).replies = s.replies := rfl
@[simp] theorem releasePort_urgent : (releasePort s).urgent = s.urgent := rfl
@[simp] theorem releasePort_further : (releasePort s).further = s.further := rfl
@[simp] theorem releasePort_lane : (releasePort s).lane = s.lane := rfl
@[simp] theorem releasePort_relayMode : (releasePort s).relayMode = s.relayMode := rfl
@[simp] theorem releasePort_turn : (releasePort s).turn = s.turn := rfl
@[simp] theorem releasePort_relay : (releasePort s).relay = s.relay := rfl
@[simp] theorem releasePort_through : (releasePort s).through = s.through := rfl
@[simp] theorem releasePort_counters : (releasePort s).counters = s.counters := rfl
@[simp] theorem releasePort_pending : (releasePort s).pending = s.pending := rfl

@[simp] theorem requestPort_address (p : Party) : (requestPort p s).address = s.address := by cases p <;> rfl
@[simp] theorem requestPort_feedUp (p : Party) : (requestPort p s).feedUp = s.feedUp := by cases p <;> rfl
@[simp] theorem requestPort_feedPartial (p : Party) : (requestPort p s).feedPartial = s.feedPartial := by cases p <;> rfl
@[simp] theorem requestPort_speakerUp (p : Party) : (requestPort p s).speakerUp = s.speakerUp := by cases p <;> rfl
@[simp] theorem requestPort_speakerPartial (p : Party) : (requestPort p s).speakerPartial = s.speakerPartial := by cases p <;> rfl
@[simp] theorem requestPort_forwardLane (p : Party) : (requestPort p s).forwardLane = s.forwardLane := by cases p <;> rfl
@[simp] theorem requestPort_gapOpen (p : Party) : (requestPort p s).gapOpen = s.gapOpen := by cases p <;> rfl
@[simp] theorem requestPort_dir (p : Party) : (requestPort p s).dir = s.dir := by cases p <;> rfl
@[simp] theorem requestPort_mask (p : Party) : (requestPort p s).mask = s.mask := by cases p <;> rfl
@[simp] theorem requestPort_feeds (p : Party) : (requestPort p s).feeds = s.feeds := by cases p <;> rfl
@[simp] theorem requestPort_coef (p : Party) : (requestPort p s).coef = s.coef := by cases p <;> rfl
@[simp] theorem requestPort_servoN (p : Party) : (requestPort p s).servoN = s.servoN := by cases p <;> rfl
@[simp] theorem requestPort_servoCount (p : Party) : (requestPort p s).servoCount = s.servoCount := by cases p <;> rfl
@[simp] theorem requestPort_lists (p : Party) : (requestPort p s).lists = s.lists := by cases p <;> rfl
@[simp] theorem requestPort_summed (p : Party) : (requestPort p s).summed = s.summed := by cases p <;> rfl
@[simp] theorem requestPort_pool (p : Party) : (requestPort p s).pool = s.pool := by cases p <;> rfl
@[simp] theorem requestPort_filter (p : Party) : (requestPort p s).filter = s.filter := by cases p <;> rfl
@[simp] theorem requestPort_gainLaw (p : Party) : (requestPort p s).gainLaw = s.gainLaw := by cases p <;> rfl
@[simp] theorem requestPort_master (p : Party) : (requestPort p s).master = s.master := by cases p <;> rfl
@[simp] theorem requestPort_invert (p : Party) : (requestPort p s).invert = s.invert := by cases p <;> rfl
@[simp] theorem requestPort_outClips (p : Party) : (requestPort p s).outClips = s.outClips := by cases p <;> rfl
@[simp] theorem requestPort_ovPending (p : Party) : (requestPort p s).ovPending = s.ovPending := by cases p <;> rfl
@[simp] theorem requestPort_ovCurrent (p : Party) : (requestPort p s).ovCurrent = s.ovCurrent := by cases p <;> rfl
@[simp] theorem requestPort_cues (p : Party) : (requestPort p s).cues = s.cues := by cases p <;> rfl
@[simp] theorem requestPort_cueNumber (p : Party) : (requestPort p s).cueNumber = s.cueNumber := by cases p <;> rfl
@[simp] theorem requestPort_jobs (p : Party) : (requestPort p s).jobs = s.jobs := by cases p <;> rfl
@[simp] theorem requestPort_walker (p : Party) : (requestPort p s).walker = s.walker := by cases p <;> rfl
@[simp] theorem requestPort_recodeA (p : Party) : (requestPort p s).recodeA = s.recodeA := by cases p <;> rfl
@[simp] theorem requestPort_recodeB (p : Party) : (requestPort p s).recodeB = s.recodeB := by cases p <;> rfl
@[simp] theorem requestPort_count (p : Party) : (requestPort p s).count = s.count := by cases p <;> rfl
@[simp] theorem requestPort_active (p : Party) : (requestPort p s).active = s.active := by cases p <;> rfl
@[simp] theorem requestPort_slotMap (p : Party) : (requestPort p s).slotMap = s.slotMap := by cases p <;> rfl
@[simp] theorem requestPort_delays (p : Party) : (requestPort p s).delays = s.delays := by cases p <;> rfl
@[simp] theorem requestPort_readDelays (p : Party) : (requestPort p s).readDelays = s.readDelays := by cases p <;> rfl
@[simp] theorem requestPort_dips (p : Party) : (requestPort p s).dips = s.dips := by cases p <;> rfl
@[simp] theorem requestPort_lines (p : Party) : (requestPort p s).lines = s.lines := by cases p <;> rfl
@[simp] theorem requestPort_phase (p : Party) : (requestPort p s).phase = s.phase := by cases p <;> rfl
@[simp] theorem requestPort_work (p : Party) : (requestPort p s).work = s.work := by cases p <;> rfl
@[simp] theorem requestPort_closeDue (p : Party) : (requestPort p s).closeDue = s.closeDue := by cases p <;> rfl
@[simp] theorem requestPort_inbound (p : Party) : (requestPort p s).inbound = s.inbound := by cases p <;> rfl
@[simp] theorem requestPort_proc (p : Party) : (requestPort p s).proc = s.proc := by cases p <;> rfl
@[simp] theorem requestPort_pointer (p : Party) : (requestPort p s).pointer = s.pointer := by cases p <;> rfl
@[simp] theorem requestPort_latch (p : Party) : (requestPort p s).latch = s.latch := by cases p <;> rfl
@[simp] theorem requestPort_patch (p : Party) : (requestPort p s).patch = s.patch := by cases p <;> rfl
@[simp] theorem requestPort_replies (p : Party) : (requestPort p s).replies = s.replies := by cases p <;> rfl
@[simp] theorem requestPort_urgent (p : Party) : (requestPort p s).urgent = s.urgent := by cases p <;> rfl
@[simp] theorem requestPort_further (p : Party) : (requestPort p s).further = s.further := by cases p <;> rfl
@[simp] theorem requestPort_lane (p : Party) : (requestPort p s).lane = s.lane := by cases p <;> rfl
@[simp] theorem requestPort_relayMode (p : Party) : (requestPort p s).relayMode = s.relayMode := by cases p <;> rfl
@[simp] theorem requestPort_turn (p : Party) : (requestPort p s).turn = s.turn := by cases p <;> rfl
@[simp] theorem requestPort_relay (p : Party) : (requestPort p s).relay = s.relay := by cases p <;> rfl
@[simp] theorem requestPort_through (p : Party) : (requestPort p s).through = s.through := by cases p <;> rfl
@[simp] theorem requestPort_counters (p : Party) : (requestPort p s).counters = s.counters := by cases p <;> rfl
@[simp] theorem requestPort_pending (p : Party) : (requestPort p s).pending = s.pending := by cases p <;> rfl
@[simp] theorem requestPort_feed (p : Party) (j : Nat) : (requestPort p s).feed j = s.feed j := by cases p <;> rfl
@[simp] theorem releasePort_feed (j : Nat) : (releasePort s).feed j = s.feed j := rfl
@[simp] theorem requestPort_dirEntry (p : Party) (j : Nat) : (requestPort p s).dirEntry j = s.dirEntry j := by cases p <;> rfl
@[simp] theorem releasePort_dirEntry (j : Nat) : (releasePort s).dirEntry j = s.dirEntry j := rfl
@[simp] theorem requestPort_list (p : Party) (j : Nat) : (requestPort p s).list j = s.list j := by cases p <;> rfl
@[simp] theorem releasePort_list (j : Nat) : (releasePort s).list j = s.list j := rfl
@[simp] theorem requestPort_law (p : Party) (j : Nat) : (requestPort p s).law j = s.law j := by cases p <;> rfl
@[simp] theorem releasePort_law (j : Nat) : (releasePort s).law j = s.law j := rfl
@[simp] theorem requestPort_recode (p : Party) (t : RecodeTable) (j : Nat) : (requestPort p s).recode t j = s.recode t j := by cases p <;> cases t <;> rfl
@[simp] theorem releasePort_recode (t : RecodeTable) (j : Nat) : (releasePort s).recode t j = s.recode t j := by cases t <;> rfl
@[simp] theorem requestPort_coefWord (p : Party) (b r j : Nat) : (requestPort p s).coefWord b r j = s.coefWord b r j := by cases p <;> rfl
@[simp] theorem releasePort_coefWord (b r j : Nat) : (releasePort s).coefWord b r j = s.coefWord b r j := rfl
@[simp] theorem requestPort_inverted (p : Party) (j : Nat) : (requestPort p s).inverted j = s.inverted j := by cases p <;> rfl
@[simp] theorem releasePort_inverted (j : Nat) : (releasePort s).inverted j = s.inverted j := rfl
@[simp] theorem requestPort_clipCount (p : Party) (j : Nat) : (requestPort p s).clipCount j = s.clipCount j := by cases p <;> rfl
@[simp] theorem releasePort_clipCount (j : Nat) : (releasePort s).clipCount j = s.clipCount j := rfl
@[simp] theorem requestPort_isSummed (p : Party) (j : Nat) : (requestPort p s).isSummed j = s.isSummed j := by cases p <;> rfl
@[simp] theorem releasePort_isSummed (j : Nat) : (releasePort s).isSummed j = s.isSummed j := rfl
@[simp] theorem requestPort_slotOf (p : Party) (j : Nat) : (requestPort p s).slotOf j = s.slotOf j := by cases p <;> rfl
@[simp] theorem releasePort_slotOf (j : Nat) : (releasePort s).slotOf j = s.slotOf j := rfl
@[simp] theorem requestPort_delay (p : Party) (j : Nat) : (requestPort p s).delay j = s.delay j := by cases p <;> rfl
@[simp] theorem releasePort_delay (j : Nat) : (releasePort s).delay j = s.delay j := rfl
@[simp] theorem requestPort_readDelay (p : Party) (j : Nat) : (requestPort p s).readDelay j = s.readDelay j := by cases p <;> rfl
@[simp] theorem releasePort_readDelay (j : Nat) : (releasePort s).readDelay j = s.readDelay j := rfl
@[simp] theorem requestPort_dip (p : Party) (j : Nat) : (requestPort p s).dip j = s.dip j := by cases p <;> rfl
@[simp] theorem releasePort_dip (j : Nat) : (releasePort s).dip j = s.dip j := rfl
@[simp] theorem requestPort_line (p : Party) (j : Nat) : (requestPort p s).line j = s.line j := by cases p <;> rfl
@[simp] theorem releasePort_line (j : Nat) : (releasePort s).line j = s.line j := rfl
@[simp] theorem requestPort_workOf (p : Party) (j : Nat) : (requestPort p s).workOf j = s.workOf j := by cases p <;> rfl
@[simp] theorem releasePort_workOf (j : Nat) : (releasePort s).workOf j = s.workOf j := rfl
@[simp] theorem requestPort_counter (p : Party) (j : Nat) : (requestPort p s).counter j = s.counter j := by cases p <;> rfl
@[simp] theorem releasePort_counter (j : Nat) : (releasePort s).counter j = s.counter j := rfl

@[simp] theorem requestEdit_address : (requestEdit s).address = s.address := by unfold requestEdit; split <;> simp
@[simp] theorem requestEdit_feedUp : (requestEdit s).feedUp = s.feedUp := by unfold requestEdit; split <;> simp
@[simp] theorem requestEdit_feedPartial : (requestEdit s).feedPartial = s.feedPartial := by unfold requestEdit; split <;> simp
@[simp] theorem requestEdit_speakerUp : (requestEdit s).speakerUp = s.speakerUp := by unfold requestEdit; split <;> simp
@[simp] theorem requestEdit_speakerPartial : (requestEdit s).speakerPartial = s.speakerPartial := by unfold requestEdit; split <;> simp
@[simp] theorem requestEdit_forwardLane : (requestEdit s).forwardLane = s.forwardLane := by unfold requestEdit; split <;> simp
@[simp] theorem requestEdit_gapOpen : (requestEdit s).gapOpen = s.gapOpen := by unfold requestEdit; split <;> simp
@[simp] theorem requestEdit_dir : (requestEdit s).dir = s.dir := by unfold requestEdit; split <;> simp
@[simp] theorem requestEdit_mask : (requestEdit s).mask = s.mask := by unfold requestEdit; split <;> simp
@[simp] theorem requestEdit_feeds : (requestEdit s).feeds = s.feeds := by unfold requestEdit; split <;> simp
@[simp] theorem requestEdit_coef : (requestEdit s).coef = s.coef := by unfold requestEdit; split <;> simp
@[simp] theorem requestEdit_servoN : (requestEdit s).servoN = s.servoN := by unfold requestEdit; split <;> simp
@[simp] theorem requestEdit_servoCount : (requestEdit s).servoCount = s.servoCount := by unfold requestEdit; split <;> simp
@[simp] theorem requestEdit_lists : (requestEdit s).lists = s.lists := by unfold requestEdit; split <;> simp
@[simp] theorem requestEdit_summed : (requestEdit s).summed = s.summed := by unfold requestEdit; split <;> simp
@[simp] theorem requestEdit_pool : (requestEdit s).pool = s.pool := by unfold requestEdit; split <;> simp
@[simp] theorem requestEdit_filter : (requestEdit s).filter = s.filter := by unfold requestEdit; split <;> simp
@[simp] theorem requestEdit_gainLaw : (requestEdit s).gainLaw = s.gainLaw := by unfold requestEdit; split <;> simp
@[simp] theorem requestEdit_master : (requestEdit s).master = s.master := by unfold requestEdit; split <;> simp
@[simp] theorem requestEdit_invert : (requestEdit s).invert = s.invert := by unfold requestEdit; split <;> simp
@[simp] theorem requestEdit_outClips : (requestEdit s).outClips = s.outClips := by unfold requestEdit; split <;> simp
@[simp] theorem requestEdit_ovPending : (requestEdit s).ovPending = s.ovPending := by unfold requestEdit; split <;> simp
@[simp] theorem requestEdit_ovCurrent : (requestEdit s).ovCurrent = s.ovCurrent := by unfold requestEdit; split <;> simp
@[simp] theorem requestEdit_cues : (requestEdit s).cues = s.cues := by unfold requestEdit; split <;> simp
@[simp] theorem requestEdit_cueNumber : (requestEdit s).cueNumber = s.cueNumber := by unfold requestEdit; split <;> simp
@[simp] theorem requestEdit_jobs : (requestEdit s).jobs = s.jobs := by unfold requestEdit; split <;> simp
@[simp] theorem requestEdit_walker : (requestEdit s).walker = s.walker := by unfold requestEdit; split <;> simp
@[simp] theorem requestEdit_recodeA : (requestEdit s).recodeA = s.recodeA := by unfold requestEdit; split <;> simp
@[simp] theorem requestEdit_recodeB : (requestEdit s).recodeB = s.recodeB := by unfold requestEdit; split <;> simp
@[simp] theorem requestEdit_count : (requestEdit s).count = s.count := by unfold requestEdit; split <;> simp
@[simp] theorem requestEdit_active : (requestEdit s).active = s.active := by unfold requestEdit; split <;> simp
@[simp] theorem requestEdit_slotMap : (requestEdit s).slotMap = s.slotMap := by unfold requestEdit; split <;> simp
@[simp] theorem requestEdit_delays : (requestEdit s).delays = s.delays := by unfold requestEdit; split <;> simp
@[simp] theorem requestEdit_readDelays : (requestEdit s).readDelays = s.readDelays := by unfold requestEdit; split <;> simp
@[simp] theorem requestEdit_dips : (requestEdit s).dips = s.dips := by unfold requestEdit; split <;> simp
@[simp] theorem requestEdit_lines : (requestEdit s).lines = s.lines := by unfold requestEdit; split <;> simp
@[simp] theorem requestEdit_phase : (requestEdit s).phase = s.phase := by unfold requestEdit; split <;> simp
@[simp] theorem requestEdit_work : (requestEdit s).work = s.work := by unfold requestEdit; split <;> simp
@[simp] theorem requestEdit_closeDue : (requestEdit s).closeDue = s.closeDue := by unfold requestEdit; split <;> simp
@[simp] theorem requestEdit_inbound : (requestEdit s).inbound = s.inbound := by unfold requestEdit; split <;> simp
@[simp] theorem requestEdit_proc : (requestEdit s).proc = s.proc := by unfold requestEdit; split <;> simp
@[simp] theorem requestEdit_pointer : (requestEdit s).pointer = s.pointer := by unfold requestEdit; split <;> simp
@[simp] theorem requestEdit_latch : (requestEdit s).latch = s.latch := by unfold requestEdit; split <;> simp
@[simp] theorem requestEdit_patch : (requestEdit s).patch = s.patch := by unfold requestEdit; split <;> simp
@[simp] theorem requestEdit_replies : (requestEdit s).replies = s.replies := by unfold requestEdit; split <;> simp
@[simp] theorem requestEdit_urgent : (requestEdit s).urgent = s.urgent := by unfold requestEdit; split <;> simp
@[simp] theorem requestEdit_further : (requestEdit s).further = s.further := by unfold requestEdit; split <;> simp
@[simp] theorem requestEdit_lane : (requestEdit s).lane = s.lane := by unfold requestEdit; split <;> simp
@[simp] theorem requestEdit_relayMode : (requestEdit s).relayMode = s.relayMode := by unfold requestEdit; split <;> simp
@[simp] theorem requestEdit_turn : (requestEdit s).turn = s.turn := by unfold requestEdit; split <;> simp
@[simp] theorem requestEdit_relay : (requestEdit s).relay = s.relay := by unfold requestEdit; split <;> simp
@[simp] theorem requestEdit_through : (requestEdit s).through = s.through := by unfold requestEdit; split <;> simp
@[simp] theorem requestEdit_counters : (requestEdit s).counters = s.counters := by unfold requestEdit; split <;> simp
@[simp] theorem requestEdit_pending : (requestEdit s).pending = s.pending := by unfold requestEdit; split <;> simp
@[simp] theorem requestEdit_feed (j : Nat) : (requestEdit s).feed j = s.feed j := by unfold requestEdit; split <;> simp
@[simp] theorem requestEdit_dirEntry (j : Nat) : (requestEdit s).dirEntry j = s.dirEntry j := by unfold requestEdit; split <;> simp
@[simp] theorem requestEdit_list (j : Nat) : (requestEdit s).list j = s.list j := by unfold requestEdit; split <;> simp
@[simp] theorem requestEdit_law (j : Nat) : (requestEdit s).law j = s.law j := by unfold requestEdit; split <;> simp
@[simp] theorem requestEdit_recode (t : RecodeTable) (j : Nat) : (requestEdit s).recode t j = s.recode t j := by unfold requestEdit; split <;> simp
@[simp] theorem requestEdit_coefWord (b r j : Nat) : (requestEdit s).coefWord b r j = s.coefWord b r j := by unfold requestEdit; split <;> simp
@[simp] theorem requestEdit_inverted (j : Nat) : (requestEdit s).inverted j = s.inverted j := by unfold requestEdit; split <;> simp
@[simp] theorem requestEdit_clipCount (j : Nat) : (requestEdit s).clipCount j = s.clipCount j := by unfold requestEdit; split <;> simp
@[simp] theorem requestEdit_isSummed (j : Nat) : (requestEdit s).isSummed j = s.isSummed j := by unfold requestEdit; split <;> simp
@[simp] theorem requestEdit_slotOf (j : Nat) : (requestEdit s).slotOf j = s.slotOf j := by unfold requestEdit; split <;> simp
@[simp] theorem requestEdit_delay (j : Nat) : (requestEdit s).delay j = s.delay j := by unfold requestEdit; split <;> simp
@[simp] theorem requestEdit_readDelay (j : Nat) : (requestEdit s).readDelay j = s.readDelay j := by unfold requestEdit; split <;> simp
@[simp] theorem requestEdit_dip (j : Nat) : (requestEdit s).dip j = s.dip j := by unfold requestEdit; split <;> simp
@[simp] theorem requestEdit_line (j : Nat) : (requestEdit s).line j = s.line j := by unfold requestEdit; split <;> simp
@[simp] theorem requestEdit_workOf (j : Nat) : (requestEdit s).workOf j = s.workOf j := by unfold requestEdit; split <;> simp
@[simp] theorem requestEdit_counter (j : Nat) : (requestEdit s).counter j = s.counter j := by unfold requestEdit; split <;> simp

@[simp] theorem setColumnTo_address (c : Nat) : (setColumnTo c s).address = s.address := rfl
@[simp] theorem setColumnTo_feedUp (c : Nat) : (setColumnTo c s).feedUp = s.feedUp := rfl
@[simp] theorem setColumnTo_feedPartial (c : Nat) : (setColumnTo c s).feedPartial = s.feedPartial := rfl
@[simp] theorem setColumnTo_speakerUp (c : Nat) : (setColumnTo c s).speakerUp = s.speakerUp := rfl
@[simp] theorem setColumnTo_speakerPartial (c : Nat) : (setColumnTo c s).speakerPartial = s.speakerPartial := rfl
@[simp] theorem setColumnTo_forwardLane (c : Nat) : (setColumnTo c s).forwardLane = s.forwardLane := rfl
@[simp] theorem setColumnTo_gapOpen (c : Nat) : (setColumnTo c s).gapOpen = s.gapOpen := rfl
@[simp] theorem setColumnTo_dir (c : Nat) : (setColumnTo c s).dir = s.dir := rfl
@[simp] theorem setColumnTo_mask (c : Nat) : (setColumnTo c s).mask = s.mask := rfl
@[simp] theorem setColumnTo_feeds (c : Nat) : (setColumnTo c s).feeds = s.feeds := rfl
@[simp] theorem setColumnTo_coef (c : Nat) : (setColumnTo c s).coef = s.coef := rfl
@[simp] theorem setColumnTo_servoN (c : Nat) : (setColumnTo c s).servoN = s.servoN := rfl
@[simp] theorem setColumnTo_servoCount (c : Nat) : (setColumnTo c s).servoCount = s.servoCount := rfl
@[simp] theorem setColumnTo_lists (c : Nat) : (setColumnTo c s).lists = s.lists := rfl
@[simp] theorem setColumnTo_summed (c : Nat) : (setColumnTo c s).summed = s.summed := rfl
@[simp] theorem setColumnTo_pool (c : Nat) : (setColumnTo c s).pool = s.pool := rfl
@[simp] theorem setColumnTo_filter (c : Nat) : (setColumnTo c s).filter = s.filter := rfl
@[simp] theorem setColumnTo_gainLaw (c : Nat) : (setColumnTo c s).gainLaw = s.gainLaw := rfl
@[simp] theorem setColumnTo_master (c : Nat) : (setColumnTo c s).master = s.master := rfl
@[simp] theorem setColumnTo_invert (c : Nat) : (setColumnTo c s).invert = s.invert := rfl
@[simp] theorem setColumnTo_outClips (c : Nat) : (setColumnTo c s).outClips = s.outClips := rfl
@[simp] theorem setColumnTo_ovPending (c : Nat) : (setColumnTo c s).ovPending = s.ovPending := rfl
@[simp] theorem setColumnTo_ovCurrent (c : Nat) : (setColumnTo c s).ovCurrent = s.ovCurrent := rfl
@[simp] theorem setColumnTo_cues (c : Nat) : (setColumnTo c s).cues = s.cues := rfl
@[simp] theorem setColumnTo_cueNumber (c : Nat) : (setColumnTo c s).cueNumber = s.cueNumber := rfl
@[simp] theorem setColumnTo_jobs (c : Nat) : (setColumnTo c s).jobs = s.jobs := rfl
@[simp] theorem setColumnTo_walker (c : Nat) : (setColumnTo c s).walker = s.walker := rfl
@[simp] theorem setColumnTo_recodeA (c : Nat) : (setColumnTo c s).recodeA = s.recodeA := rfl
@[simp] theorem setColumnTo_recodeB (c : Nat) : (setColumnTo c s).recodeB = s.recodeB := rfl
@[simp] theorem setColumnTo_arbiter (c : Nat) : (setColumnTo c s).arbiter = s.arbiter := rfl
@[simp] theorem setColumnTo_count (c : Nat) : (setColumnTo c s).count = s.count := rfl
@[simp] theorem setColumnTo_active (c : Nat) : (setColumnTo c s).active = s.active := rfl
@[simp] theorem setColumnTo_slotMap (c : Nat) : (setColumnTo c s).slotMap = s.slotMap := rfl
@[simp] theorem setColumnTo_delays (c : Nat) : (setColumnTo c s).delays = s.delays := rfl
@[simp] theorem setColumnTo_readDelays (c : Nat) : (setColumnTo c s).readDelays = s.readDelays := rfl
@[simp] theorem setColumnTo_dips (c : Nat) : (setColumnTo c s).dips = s.dips := rfl
@[simp] theorem setColumnTo_lines (c : Nat) : (setColumnTo c s).lines = s.lines := rfl
@[simp] theorem setColumnTo_phase (c : Nat) : (setColumnTo c s).phase = s.phase := rfl
@[simp] theorem setColumnTo_work (c : Nat) : (setColumnTo c s).work = s.work := rfl
@[simp] theorem setColumnTo_closeDue (c : Nat) : (setColumnTo c s).closeDue = s.closeDue := rfl
@[simp] theorem setColumnTo_inbound (c : Nat) : (setColumnTo c s).inbound = s.inbound := rfl
@[simp] theorem setColumnTo_proc (c : Nat) : (setColumnTo c s).proc = s.proc := rfl
@[simp] theorem setColumnTo_latch (c : Nat) : (setColumnTo c s).latch = s.latch := rfl
@[simp] theorem setColumnTo_patch (c : Nat) : (setColumnTo c s).patch = s.patch := rfl
@[simp] theorem setColumnTo_replies (c : Nat) : (setColumnTo c s).replies = s.replies := rfl
@[simp] theorem setColumnTo_urgent (c : Nat) : (setColumnTo c s).urgent = s.urgent := rfl
@[simp] theorem setColumnTo_further (c : Nat) : (setColumnTo c s).further = s.further := rfl
@[simp] theorem setColumnTo_lane (c : Nat) : (setColumnTo c s).lane = s.lane := rfl
@[simp] theorem setColumnTo_relayMode (c : Nat) : (setColumnTo c s).relayMode = s.relayMode := rfl
@[simp] theorem setColumnTo_turn (c : Nat) : (setColumnTo c s).turn = s.turn := rfl
@[simp] theorem setColumnTo_relay (c : Nat) : (setColumnTo c s).relay = s.relay := rfl
@[simp] theorem setColumnTo_through (c : Nat) : (setColumnTo c s).through = s.through := rfl
@[simp] theorem setColumnTo_counters (c : Nat) : (setColumnTo c s).counters = s.counters := rfl
@[simp] theorem setColumnTo_pending (c : Nat) : (setColumnTo c s).pending = s.pending := rfl
@[simp] theorem refillLatch_address : (refillLatch s).address = s.address := rfl
@[simp] theorem refillLatch_feedUp : (refillLatch s).feedUp = s.feedUp := rfl
@[simp] theorem refillLatch_feedPartial : (refillLatch s).feedPartial = s.feedPartial := rfl
@[simp] theorem refillLatch_speakerUp : (refillLatch s).speakerUp = s.speakerUp := rfl
@[simp] theorem refillLatch_speakerPartial : (refillLatch s).speakerPartial = s.speakerPartial := rfl
@[simp] theorem refillLatch_forwardLane : (refillLatch s).forwardLane = s.forwardLane := rfl
@[simp] theorem refillLatch_gapOpen : (refillLatch s).gapOpen = s.gapOpen := rfl
@[simp] theorem refillLatch_dir : (refillLatch s).dir = s.dir := rfl
@[simp] theorem refillLatch_mask : (refillLatch s).mask = s.mask := rfl
@[simp] theorem refillLatch_feeds : (refillLatch s).feeds = s.feeds := rfl
@[simp] theorem refillLatch_coef : (refillLatch s).coef = s.coef := rfl
@[simp] theorem refillLatch_servoN : (refillLatch s).servoN = s.servoN := rfl
@[simp] theorem refillLatch_servoCount : (refillLatch s).servoCount = s.servoCount := rfl
@[simp] theorem refillLatch_lists : (refillLatch s).lists = s.lists := rfl
@[simp] theorem refillLatch_summed : (refillLatch s).summed = s.summed := rfl
@[simp] theorem refillLatch_pool : (refillLatch s).pool = s.pool := rfl
@[simp] theorem refillLatch_filter : (refillLatch s).filter = s.filter := rfl
@[simp] theorem refillLatch_gainLaw : (refillLatch s).gainLaw = s.gainLaw := rfl
@[simp] theorem refillLatch_master : (refillLatch s).master = s.master := rfl
@[simp] theorem refillLatch_invert : (refillLatch s).invert = s.invert := rfl
@[simp] theorem refillLatch_outClips : (refillLatch s).outClips = s.outClips := rfl
@[simp] theorem refillLatch_ovPending : (refillLatch s).ovPending = s.ovPending := rfl
@[simp] theorem refillLatch_ovCurrent : (refillLatch s).ovCurrent = s.ovCurrent := rfl
@[simp] theorem refillLatch_cues : (refillLatch s).cues = s.cues := rfl
@[simp] theorem refillLatch_cueNumber : (refillLatch s).cueNumber = s.cueNumber := rfl
@[simp] theorem refillLatch_jobs : (refillLatch s).jobs = s.jobs := rfl
@[simp] theorem refillLatch_walker : (refillLatch s).walker = s.walker := rfl
@[simp] theorem refillLatch_recodeA : (refillLatch s).recodeA = s.recodeA := rfl
@[simp] theorem refillLatch_recodeB : (refillLatch s).recodeB = s.recodeB := rfl
@[simp] theorem refillLatch_arbiter : (refillLatch s).arbiter = s.arbiter := rfl
@[simp] theorem refillLatch_count : (refillLatch s).count = s.count := rfl
@[simp] theorem refillLatch_active : (refillLatch s).active = s.active := rfl
@[simp] theorem refillLatch_slotMap : (refillLatch s).slotMap = s.slotMap := rfl
@[simp] theorem refillLatch_delays : (refillLatch s).delays = s.delays := rfl
@[simp] theorem refillLatch_readDelays : (refillLatch s).readDelays = s.readDelays := rfl
@[simp] theorem refillLatch_dips : (refillLatch s).dips = s.dips := rfl
@[simp] theorem refillLatch_lines : (refillLatch s).lines = s.lines := rfl
@[simp] theorem refillLatch_phase : (refillLatch s).phase = s.phase := rfl
@[simp] theorem refillLatch_work : (refillLatch s).work = s.work := rfl
@[simp] theorem refillLatch_closeDue : (refillLatch s).closeDue = s.closeDue := rfl
@[simp] theorem refillLatch_inbound : (refillLatch s).inbound = s.inbound := rfl
@[simp] theorem refillLatch_proc : (refillLatch s).proc = s.proc := rfl
@[simp] theorem refillLatch_pointer : (refillLatch s).pointer = s.pointer := rfl
@[simp] theorem refillLatch_patch : (refillLatch s).patch = s.patch := rfl
@[simp] theorem refillLatch_replies : (refillLatch s).replies = s.replies := rfl
@[simp] theorem refillLatch_urgent : (refillLatch s).urgent = s.urgent := rfl
@[simp] theorem refillLatch_further : (refillLatch s).further = s.further := rfl
@[simp] theorem refillLatch_lane : (refillLatch s).lane = s.lane := rfl
@[simp] theorem refillLatch_relayMode : (refillLatch s).relayMode = s.relayMode := rfl
@[simp] theorem refillLatch_turn : (refillLatch s).turn = s.turn := rfl
@[simp] theorem refillLatch_relay : (refillLatch s).relay = s.relay := rfl
@[simp] theorem refillLatch_through : (refillLatch s).through = s.through := rfl
@[simp] theorem refillLatch_counters : (refillLatch s).counters = s.counters := rfl
@[simp] theorem refillLatch_pending : (refillLatch s).pending = s.pending := rfl

end Sys2Proof.Machine
end

