-- ==== Sys2Proof/Laws/Ops.lean ====
section
/-! SUPPORT. What each shared operation can change, said once. A shape lemma names the fields that may differ; every other
field then agrees by `rfl` after rewriting with it. -/
namespace Sys2Proof.Machine

-- reports and event counters

theorem offerUrgent_shape (r : Urgent) (s : State) :
    ∃ u n, offerUrgent r s = { s with urgent := u, further := n } := by
  unfold offerUrgent; split
  · exact ⟨_, _, rfl⟩
  · exact ⟨s.urgent, _, rfl⟩

theorem bumpCounter_shape (e : Event) (s : State) (k : Nat) :
    ∃ c u n, bumpCounter e s k = { s with counters := c, urgent := u, further := n } := by
  unfold bumpCounter; simp only; split
  · split
    · obtain ⟨u, n, h⟩ := offerUrgent_shape
        (.alert k (s.counter k).select ((s.counter k).value + 1#32))
        (s.setCounter k { s.counter k with value := (s.counter k).value + 1#32 })
      exact ⟨_, u, n, h.trans rfl⟩
    · exact ⟨_, s.urgent, s.further, rfl⟩
  · exact ⟨s.counters, s.urgent, s.further, rfl⟩

/-- Counting an event changes the counters and the urgent slot. -/
theorem countEvent_shape (e : Event) (s : State) :
    ∃ c u n, countEvent e s = { s with counters := c, urgent := u, further := n } := by
  unfold countEvent; split
  · exact ⟨s.counters, s.urgent, s.further, rfl⟩
  · have key : ∀ (l : List Nat) (t : State), ∃ c u n,
        l.foldl (bumpCounter e) t = { t with counters := c, urgent := u, further := n } := by
      intro l; induction l with
      | nil => intro t; exact ⟨t.counters, t.urgent, t.further, rfl⟩
      | cons k l ih =>
        intro t; obtain ⟨c, u, n, h⟩ := bumpCounter_shape e t k
        obtain ⟨c', u', n', h'⟩ := ih (bumpCounter e t k)
        exact ⟨c', u', n', by rw [List.foldl_cons, h', h]⟩
    exact key _ s

/-- Counting events changes the counters and the urgent slot. -/
theorem countEvents_shape (es : List Event) (s : State) :
    ∃ c u n, countEvents es s = { s with counters := c, urgent := u, further := n } := by
  unfold countEvents
  induction es generalizing s with
  | nil => exact ⟨s.counters, s.urgent, s.further, rfl⟩
  | cons e es ih =>
    obtain ⟨c, u, n, h⟩ := countEvent_shape e s
    obtain ⟨c', u', n', h'⟩ := ih (countEvent e s)
    exact ⟨c', u', n', by rw [List.foldl_cons, h', h]⟩

theorem countEvents_nil (s : State) : countEvents [] s = s := rfl

theorem countEvents_cons (e : Event) (es : List Event) (s : State) :
    countEvents (e :: es) s = countEvents es (countEvent e s) := rfl

/-- An occurrence at one counter, in the canonical form. -/
theorem bumpCounter_wf (e : Event) (s : State) (k : Nat) (h : Tab.wf counterInit s.counters = true) :
    Tab.wf counterInit (bumpCounter e s k).counters = true := by
  unfold bumpCounter; simp only; split
  · have hp : Tab.wf counterInit (s.setCounter k { s.counter k with value := (s.counter k).value + 1#32 }).counters = true :=
      Tab.wf_put _ _ _ _ h
    split
    · unfold offerUrgent; split <;> exact hp
    · exact hp
  · exact h

theorem countEvent_wf (e : Event) (s : State) (h : Tab.wf counterInit s.counters = true) :
    Tab.wf counterInit (countEvent e s).counters = true := by
  unfold countEvent; split
  · exact h
  · simp only [counterNumbers, List.foldl_cons, List.foldl_nil]
    exact bumpCounter_wf _ _ _ (bumpCounter_wf _ _ _ (bumpCounter_wf _ _ _ (bumpCounter_wf _ _ _ h)))

theorem countEvents_wf (es : List Event) (s : State) (h : Tab.wf counterInit s.counters = true) :
    Tab.wf counterInit (countEvents es s).counters = true := by
  induction es generalizing s with
  | nil => exact h
  | cons e es ih => exact ih _ (countEvent_wf e s h)

-- the burst in execution

theorem look_rest_lt (x y : Exec) (h : look x = .quiet y) : y.rest.length < x.rest.length := by
  unfold look at h
  cases hr : x.rest with
  | nil => rw [hr] at h; simp at h
  | cons w ws =>
    have key : ∀ z : Exec, z.rest = ws → (∀ v : Exec, takeOp w z = .quiet v → v.rest = ws) ∧
        (∀ v : Exec, takeData w z = .quiet v → v.rest = ws) ∧ (takeMarker w z).rest = ws := by
      intro z hz
      refine ⟨?_, ?_, by simp [takeMarker, hz]⟩
      · intro v hv
        have hn : ∀ v : Exec, takeName w z = .quiet v → v.rest = ws := by
          intro v hv
          unfold takeName at hv
          split at hv
          · simp at hv
          · split at hv <;> simp at hv; rw [← hv]; exact hz
        unfold takeOp at hv
        split at hv
        · unfold takeArgument at hv
          split at hv
          · simp at hv; rw [← hv]; exact hz
          · split at hv <;> simp at hv; rw [← hv]; exact hz
        · unfold takeCueWord at hv
          split at hv
          · split at hv
            · simp at hv
            · split at hv <;> simp at hv; rw [← hv]; exact hz
          · simp only at hv
            split at hv
            · simp at hv; rw [← hv]; exact hz
            · split at hv <;> simp at hv
        · exact hn v hv
        · exact hn v hv
        · exact hn v hv
      · intro v hv
        unfold takeData at hv; split at hv <;> simp at hv
    rw [hr] at h
    simp only at h
    have k := key { x with rest := ws, framing := framingAfter x.framing } rfl
    have hy : y.rest = ws := by
      split at h
      · simp only [Look.quiet.injEq] at h; rw [← h]; exact k.2.2
      · exact k.1 y h
      · exact k.1 y h
      · exact k.2.1 y h
      · exact k.2.1 y h
    simp [hy]

/-- Running ahead stops where something is carried out, refused or ended. -/
theorem runAhead_stops (n : Nat) (x : Exec) (h : x.rest.length ≤ n) (y : Exec) : look (runAhead n x) ≠ .quiet y := by
  induction n generalizing x with
  | zero =>
    have : x.rest = [] := List.length_eq_zero_iff.1 (Nat.le_zero.1 h)
    simp [runAhead, look, this]
  | succ n ih =>
    unfold runAhead
    split
    · rename_i z hz
      exact ih z (by have := look_rest_lt x z hz; omega)
    · rename_i hz; rw [hz]; simp
    · rename_i hz; rw [hz]; simp
    · rename_i hz; rw [hz]; simp

theorem takeMarker_did (w : Word) (x : Exec) : (takeMarker w x).tag = x.tag ∧ (takeMarker w x).executed = x.executed ∧
    (takeMarker w x).notes = x.notes ∧ (takeMarker w x).reads = x.reads := ⟨rfl, rfl, rfl, rfl⟩

/-- Taking a word that carries nothing out keeps the burst's tag, count, notes and read words. -/
theorem look_keeps (x y : Exec) (h : look x = .quiet y) :
    y.tag = x.tag ∧ y.executed = x.executed ∧ y.notes = x.notes ∧ y.reads = x.reads := by
  have hop : ∀ w (z v : Exec), takeOp w z = .quiet v →
      v.tag = z.tag ∧ v.executed = z.executed ∧ v.notes = z.notes ∧ v.reads = z.reads := by
    intro w z v hv
    have hn : takeName w z = .quiet v → v.tag = z.tag ∧ v.executed = z.executed ∧ v.notes = z.notes ∧ v.reads = z.reads := by
      intro hv
      unfold takeName at hv
      split at hv
      · simp at hv
      · split at hv <;> simp at hv; rw [← hv]; exact ⟨rfl, rfl, rfl, rfl⟩
    unfold takeOp at hv
    split at hv
    · unfold takeArgument at hv
      split at hv
      · simp at hv; rw [← hv]; exact ⟨rfl, rfl, rfl, rfl⟩
      · split at hv <;> simp at hv; rw [← hv]; exact ⟨rfl, rfl, rfl, rfl⟩
    · unfold takeCueWord at hv
      split at hv
      · split at hv
        · simp at hv
        · split at hv <;> simp at hv; rw [← hv]; exact ⟨rfl, rfl, rfl, rfl⟩
      · simp only at hv
        split at hv
        · simp at hv; rw [← hv]; exact ⟨rfl, rfl, rfl, rfl⟩
        · split at hv <;> simp at hv
    · exact hn hv
    · exact hn hv
    · exact hn hv
  have hd : ∀ w (z v : Exec), takeData w z ≠ .quiet v := by
    intro w z v hv; unfold takeData at hv; split at hv <;> simp at hv
  unfold look at h
  split at h
  · simp at h
  · simp only at h
    split at h
    · simp only [Look.quiet.injEq] at h; rw [← h]; exact ⟨rfl, rfl, rfl, rfl⟩
    · have e := hop _ _ _ h; exact ⟨e.1, e.2.1, e.2.2.1, e.2.2.2⟩
    · have e := hop _ _ _ h; exact ⟨e.1, e.2.1, e.2.2.1, e.2.2.2⟩
    · exact absurd h (hd _ _ _)
    · exact absurd h (hd _ _ _)

theorem runAhead_keeps (n : Nat) (x : Exec) :
    (runAhead n x).tag = x.tag ∧ (runAhead n x).executed = x.executed ∧ (runAhead n x).notes = x.notes ∧
      (runAhead n x).reads = x.reads := by
  induction n generalizing x with
  | zero => exact ⟨rfl, rfl, rfl, rfl⟩
  | succ n ih =>
    unfold runAhead
    split
    · rename_i z hz
      have a := ih z
      have b := look_keeps x z hz
      exact ⟨a.1.trans b.1, a.2.1.trans b.2.1, a.2.2.1.trans b.2.2.1, a.2.2.2.trans b.2.2.2⟩
    · exact ⟨rfl, rfl, rfl, rfl⟩
    · exact ⟨rfl, rfl, rfl, rfl⟩
    · exact ⟨rfl, rfl, rfl, rfl⟩

theorem requestPort_shape (p : Party) (s : State) : ∃ q, requestPort p s = { s with arbiter := q } := by
  cases p <;> exact ⟨_, rfl⟩

theorem requestEdit_shape (s : State) : ∃ q, requestEdit s = { s with arbiter := q } := by
  unfold requestEdit; split
  · exact ⟨s.arbiter, rfl⟩
  · exact requestPort_shape .command s

/-- An edit granted already raises no request. -/
theorem requestEdit_granted (s : State) (h : granted s.arbiter .command = true) : requestEdit s = s := if_pos h

/-- An edit not granted yet raises the command request. -/
theorem requestEdit_raises (s : State) (h : granted s.arbiter .command = false) : requestEdit s = requestPort .command s :=
  if_neg (by simp [h])

/-- A burst that goes on changes the processor and the reply queue. -/
theorem proceed_shape (x : Exec) (s : State) : ∃ p r, proceed x s = { s with proc := p, replies := r } := by
  unfold proceed endBurst
  simp only
  split
  · exact ⟨_, _, rfl⟩
  · exact ⟨_, _, rfl⟩
  · exact ⟨_, s.replies, rfl⟩
  · exact ⟨_, s.replies, rfl⟩

theorem readsOn_runAhead (n : Nat) (x : Exec) : ReadsOn x (runAhead n x) := by
  induction n generalizing x with
  | zero => exact .here x
  | succ n ih =>
    unfold runAhead; split
    · rename_i y h; exact .word x y _ h (ih y)
    · exact .here x
    · exact .here x
    · exact .here x

theorem endBurst_eq (x : Exec) (c : Option Code) (s : State) : endBurst x c s = burstEnded x c s := by
  cases c <;> rfl

/-- What a burst that goes on comes to. -/
theorem proceed_goes (x : Exec) (s : State) : burstGoes x s (proceed x s) := by
  have hstop := runAhead_stops x.rest.length x (Nat.le_refl _)
  refine ⟨_, readsOn_runAhead x.rest.length x, ?_⟩
  unfold proceed
  cases h : look (runAhead x.rest.length x) with
  | refuse c => simp only [h]; exact endBurst_eq _ _ _
  | finished m => simp only [h]; exact endBurst_eq _ _ _
  | ready r y => simp only [h]
  | quiet z => exact absurd h (hstop z)

/-- After a burst goes on it is in execution still with no reply posted, or it has ended with its one reply posted. -/
theorem proceed_posts (x : Exec) (s : State) :
    ((proceed x s).proc.isSome = true ∧ (proceed x s).replies = s.replies) ∨
      ((proceed x s).proc = none ∧ ∃ r, (proceed x s).replies = s.replies ++ [.reply r]) := by
  have hstop := runAhead_stops x.rest.length x (Nat.le_refl _)
  unfold proceed endBurst
  simp only
  split
  · exact .inr ⟨rfl, _, rfl⟩
  · exact .inr ⟨rfl, _, rfl⟩
  · exact .inl ⟨rfl, rfl⟩
  · rename_i z hz; exact absurd hz (hstop z)

/-- A processor that goes on with a burst holds it or has posted its reply: one place either way. -/
theorem proceed_places (x : Exec) (s : State) :
    (proceed x s).replies.length + (proceed x s).reserved = s.replies.length + 1 := by
  rcases proceed_posts x s with ⟨hp, hr⟩ | ⟨hp, r, hr⟩
  · simp [State.reserved, hp, hr]
  · simp [State.reserved, hp, hr]

theorem takeBurst_shape (s : State) : ∃ i p r, takeBurst s = { s with inbound := i, proc := p, replies := r } := by
  unfold takeBurst
  split
  · exact ⟨s.inbound, s.proc, s.replies, rfl⟩
  · rename_i b rest _
    obtain ⟨p, r, h⟩ := proceed_shape (burstStart b) { s with inbound := rest }
    exact ⟨rest, p, r, h⟩

theorem takeIfDue_shape (n : Nat) (s : State) : ∃ i p r,
    takeIfDue n s = { s with inbound := i, proc := p, replies := r } := by
  induction n generalizing s with
  | zero => exact ⟨s.inbound, s.proc, s.replies, rfl⟩
  | succ n ih =>
    unfold takeIfDue
    split
    · obtain ⟨i, p, r, h⟩ := takeBurst_shape s
      obtain ⟨i', p', r', h'⟩ := ih (takeBurst s)
      exact ⟨i', p', r', by rw [h', h]⟩
    · exact ⟨s.inbound, s.proc, s.replies, rfl⟩

-- commands of a burst

theorem carryOut_done {r : Ready} {body : Exec → State → Answer} {s t : State} {x : Exec} {notes : Notes}
    {words : List Word} (h : atReady r (settle s) = some x) (hb : body x (settle s) = .done t notes words) :
    carryOut r body s = .next (proceed (x.did notes words) t) := by
  simp [carryOut, h, hb, finish]

theorem carryOut_refused {r : Ready} {body : Exec → State → Answer} {s : State} {x : Exec} {code : Code}
    (h : atReady r (settle s) = some x) (hb : body x (settle s) = .refuse code) :
    carryOut r body s = .next (endBurst x (some code) (settle s)) := by
  simp [carryOut, h, hb, finish]

theorem carryEdit_done {r : Ready} {body : State → Answer} {s t : State} {x : Exec} {notes : Notes}
    {words : List Word} (h : atReady r (settle s) = some x)
    (hg : granted (requestEdit (settle s)).arbiter .command = true)
    (hb : body (requestEdit (settle s)) = .done t notes words) :
    let v := proceed (x.did notes words) t
    carryEdit r body s = .next (releasePort (if v.atEdit then requestPort .command v else v)) := by
  simp only [carryEdit, h, hg, hb, finishEdit, finish, if_true]

theorem carryEdit_refused {r : Ready} {body : State → Answer} {s : State} {x : Exec} {code : Code}
    (h : atReady r (settle s) = some x) (hg : granted (requestEdit (settle s)).arbiter .command = true)
    (hb : body (requestEdit (settle s)) = .refuse code) :
    carryEdit r body s = .next (releasePort (endBurst x (some code) (requestEdit (settle s)))) := by
  simp [carryEdit, h, hg, hb, finishEdit, finish, endBurst, State.atEdit]

/-- A command whose event is the going on of its burst completes with the state that its answer gives. -/
theorem completes_of_proceed {i : Instr} {s t : State} {x : Exec} {notes : Notes} {words : List Word}
    (h : exec i s = .next (proceed (x.did notes words) t)) : completes i s x t notes words :=
  ⟨_, h, proceed_goes _ _⟩

/-- A command whose event is the end of its burst with a code is refused. -/
theorem refuses_of_endBurst {i : Instr} {s t : State} {x : Exec} {code : Code}
    (h : exec i s = .next (endBurst x (some code) t)) : refuses i s x t code := h

-- the walker's starts and the ends of a close

theorem placePurge_shape (s : State) : ∃ f j, placePurge s = { s with feeds := f, jobs := j } := by
  unfold placePurge; split
  · exact ⟨_, _, rfl⟩
  · exact ⟨s.feeds, s.jobs, rfl⟩

theorem startIfDue_shape (s : State) : ∃ f j w q,
    startIfDue s = { s with feeds := f, jobs := j, walker := w, arbiter := q } := by
  unfold startIfDue startJob; split
  · split
    · exact ⟨s.feeds, s.jobs, s.walker, s.arbiter, rfl⟩
    · rename_i j rest _
      obtain ⟨f, j', h⟩ := placePurge_shape
        (requestPort .walker { s with jobs := rest, walker := .running (freshJob j) })
      exact ⟨f, j', _, _, h⟩
  · exact ⟨s.feeds, s.jobs, s.walker, s.arbiter, rfl⟩

theorem postIfDue_shape (s : State) : ∃ f j w q r,
    postIfDue s = { s with feeds := f, jobs := j, walker := w, arbiter := q, replies := r } := by
  unfold postIfDue postHeld; split
  · split
    · rename_i rep _
      obtain ⟨f, j, w, q, h⟩ := startIfDue_shape { s with replies := s.replies ++ [.report rep], walker := .idle }
      exact ⟨f, j, w, q, _, h⟩
    · exact ⟨s.feeds, s.jobs, s.walker, s.arbiter, s.replies, rfl⟩
    · exact ⟨s.feeds, s.jobs, s.walker, s.arbiter, s.replies, rfl⟩
  · exact ⟨s.feeds, s.jobs, s.walker, s.arbiter, s.replies, rfl⟩

theorem doEnd_shape (w : CloseWork) (s : State) : ∃ l p f j d r n, doEnd w s =
    { s with lists := l, pool := p, feeds := f, jobs := j, dips := d, readDelays := r, servoCount := n } := by
  cases w with
  | rampEnd c f => exact ⟨_, s.pool, s.feeds, s.jobs, s.dips, s.readDelays, s.servoCount, rfl⟩
  | autoRelease c f =>
    unfold doEnd releaseRoute; simp only; split
    · exact ⟨_, _, s.feeds, s.jobs, s.dips, s.readDelays, s.servoCount, rfl⟩
    · exact ⟨s.lists, s.pool, s.feeds, s.jobs, s.dips, s.readDelays, s.servoCount, rfl⟩
  | fadeCompletion f =>
    unfold doEnd fadeFinish; simp only; split
    · exact ⟨s.lists, s.pool, _, _, s.dips, s.readDelays, s.servoCount, rfl⟩
    · exact ⟨s.lists, s.pool, _, s.jobs, s.dips, s.readDelays, s.servoCount, rfl⟩
  | dipDelayMove c =>
    unfold doEnd dipMove; simp only; split
    · exact ⟨s.lists, s.pool, s.feeds, s.jobs, _, _, s.servoCount, rfl⟩
    · exact ⟨s.lists, s.pool, s.feeds, s.jobs, s.dips, s.readDelays, s.servoCount, rfl⟩
    · exact ⟨s.lists, s.pool, s.feeds, s.jobs, s.dips, s.readDelays, s.servoCount, rfl⟩
  | dipRiseEnd c =>
    unfold doEnd dipEnd; simp only; split
    · exact ⟨s.lists, s.pool, s.feeds, s.jobs, _, s.readDelays, s.servoCount, rfl⟩
    · exact ⟨s.lists, s.pool, s.feeds, s.jobs, s.dips, s.readDelays, s.servoCount, rfl⟩
    · exact ⟨s.lists, s.pool, s.feeds, s.jobs, s.dips, s.readDelays, s.servoCount, rfl⟩
  | servoExpiry => exact ⟨s.lists, s.pool, _, s.jobs, s.dips, s.readDelays, 0, rfl⟩

/-- A property of states kept by each end and by job starts is kept by all that a close owes. -/
theorem closeRest_keeps (P : State → Prop) (hstart : ∀ t, P t → P (startIfDue t)) (hend : ∀ w t, P t → P (doEnd w t))
    (s : State) (h : P { s with closeDue := [] }) : P (closeRest s) := by
  unfold closeRest
  replace h := hstart _ h
  generalize startIfDue { s with closeDue := [] } = t at h
  induction s.closeDue generalizing t with
  | nil => exact h
  | cons w l ih => exact ih _ (hstart _ (hend _ _ h))

theorem placePurge_closeDue (s : State) (l : List CloseWork) :
    placePurge { s with closeDue := l } = { placePurge s with closeDue := l } := by
  have e : pendingPurge { s with closeDue := l } = pendingPurge s := rfl
  unfold placePurge
  rw [e]
  cases pendingPurge s <;> rfl

/-- No job start on an empty queue. -/
theorem startJob_nil (s : State) (h : s.jobs = []) : startJob s = s := by
  unfold startJob
  split
  · rfl
  · rename_i g; rw [h] at g; cases g

/-- The head job leaves the queue and runs with a fresh cursor; the place it leaves is offered to a pending purge. -/
theorem startJob_cons (s : State) (j : Job) (rest : List Job) (h : s.jobs = j :: rest) :
    startJob s = placePurge (requestPort .walker { s with jobs := rest, walker := .running (freshJob j) }) := by
  unfold startJob
  split
  · rename_i g; rw [h] at g; cases g
  · rename_i g; rw [h] at g; cases g; rfl

theorem startJob_closeDue (s : State) (l : List CloseWork) :
    startJob { s with closeDue := l } = { startJob s with closeDue := l } := by
  obtain h | ⟨j, rest, h⟩ : s.jobs = [] ∨ ∃ j rest, s.jobs = j :: rest := by cases s.jobs <;> simp
  · rw [startJob_nil s h]; exact startJob_nil { s with closeDue := l } h
  · rw [startJob_cons s j rest h]
    exact (startJob_cons { s with closeDue := l } j rest h).trans (placePurge_closeDue
      (requestPort .walker { s with jobs := rest, walker := .running (freshJob j) }) l)

theorem startIfDue_closeDue (s : State) (l : List CloseWork) :
    startIfDue { s with closeDue := l } = { startIfDue s with closeDue := l } := by
  unfold startIfDue
  by_cases h : startDue s = true
  · have g : startDue { s with closeDue := l } = true := h
    rw [if_pos h, if_pos g, startJob_closeDue]
  · have g : ¬ startDue { s with closeDue := l } = true := h
    rw [if_neg h, if_neg g]

/-- An end reads nothing of what the close owes besides it. -/
theorem doEnd_closeDue (w : CloseWork) (s : State) (l : List CloseWork) :
    doEnd w { s with closeDue := l } = { doEnd w s with closeDue := l } := by
  cases w with
  | rampEnd c f => rfl
  | autoRelease c f =>
    show releaseRoute c f _ = { releaseRoute c f s with closeDue := l }
    unfold releaseRoute
    by_cases h : (entryFor f (s.list c)).isSome = true
    · exact (if_pos h).trans (by rw [if_pos h]; rfl)
    · exact (if_neg h).trans (by rw [if_neg h])
  | fadeCompletion f =>
    show fadeFinish f _ = { fadeFinish f s with closeDue := l }
    unfold fadeFinish
    by_cases h : s.jobs.length < Config.jobPlaces
    · exact (if_pos h).trans (by rw [if_pos h]; rfl)
    · exact (if_neg h).trans (by rw [if_neg h]; rfl)
  | dipDelayMove c =>
    have e : State.dip { s with closeDue := l } c = s.dip c := rfl
    show dipMove c _ = { dipMove c s with closeDue := l }
    unfold dipMove
    rw [e]; cases s.dip c <;> rfl
  | dipRiseEnd c =>
    have e : State.dip { s with closeDue := l } c = s.dip c := rfl
    show dipEnd c _ = { dipEnd c s with closeDue := l }
    unfold dipEnd
    rw [e]; cases s.dip c <;> rfl
  | servoExpiry => simp only [doEnd, servoExpire]

theorem doEnd_keeps_closeDue (w : CloseWork) (s : State) : (doEnd w s).closeDue = s.closeDue := by
  obtain ⟨_, _, _, _, _, _, _, e⟩ := doEnd_shape w s; rw [e]

theorem startIfDue_proc (s : State) : (startIfDue s).proc = s.proc := by
  obtain ⟨_, _, _, _, e⟩ := startIfDue_shape s; rw [e]

theorem startIfDue_keeps_closeDue (s : State) : (startIfDue s).closeDue = s.closeDue := by
  obtain ⟨_, _, _, _, e⟩ := startIfDue_shape s; rw [e]

/-- A property of states, kept by a job start that is due and when the first end owed is taken with the job start after
it, holds once all that the close owes is done. -/
theorem closeRest_induction (P : State → Prop)
    (h : ∀ w l t, P { t with closeDue := w :: l } → P { startIfDue (doEnd w t) with closeDue := l }) (s : State)
    (hs : P (startIfDue s)) : P (closeRest s) := by
  have key : ∀ (l : List CloseWork) (t : State), t.closeDue = [] → P { t with closeDue := l } →
      P (l.foldl (fun t w => startIfDue (doEnd w t)) t) := by
    intro l; induction l with
    | nil => intro t ht hp; have e : ({ t with closeDue := [] } : State) = t := by rw [← ht]
             rw [e] at hp; exact hp
    | cons w l ih =>
      intro t ht hp
      refine ih _ ?_ (h w l t hp)
      show (startIfDue (doEnd w t)).closeDue = []
      rw [startIfDue_keeps_closeDue, doEnd_keeps_closeDue]; exact ht
  refine key s.closeDue (startIfDue { s with closeDue := [] }) (startIfDue_keeps_closeDue _) ?_
  rw [startIfDue_closeDue]
  show P { startIfDue s with closeDue := s.closeDue }
  rw [← startIfDue_keeps_closeDue s]; exact hs

/-- What happens at once changes the lists, the pool, the feeds, the jobs, the dips, the read delays, the servo counter,
what a close owes, the walker, the arbiter, the inbound queue, the processor and the reply queue. -/
theorem settle_shape (s : State) : ∃ l p f j d r n w a i x q, settle s =
    { s with
      lists := l, pool := p, feeds := f, jobs := j, dips := d, readDelays := r, servoCount := n, closeDue := [],
      walker := w, arbiter := a, inbound := i, proc := x,
      replies := q } := by
  let P : State → Prop := fun t => ∃ l p f j d r n w a, t =
    { s with
      lists := l, pool := p, feeds := f, jobs := j, dips := d, readDelays := r, servoCount := n, closeDue := [],
      walker := w, arbiter := a }
  have hp : P (closeRest s) := by
    refine closeRest_keeps P ?_ ?_ s ⟨s.lists, s.pool, s.feeds, s.jobs, s.dips, s.readDelays, s.servoCount, s.walker,
      s.arbiter, rfl⟩
    · rintro t ⟨l, p, f, j, d, r, n, w, a, rfl⟩
      obtain ⟨f', j', w', q, h⟩ := startIfDue_shape
        { s with
          lists := l, pool := p, feeds := f, jobs := j, dips := d, readDelays := r, servoCount := n, closeDue := [],
          walker := w, arbiter := a }
      exact ⟨l, p, f', j', d, r, n, w', q, h⟩
    · rintro v t ⟨l, p, f, j, d, r, n, w, a, rfl⟩
      obtain ⟨l', p', f', j', d', r', n', h⟩ := doEnd_shape v
        { s with
          lists := l, pool := p, feeds := f, jobs := j, dips := d, readDelays := r, servoCount := n, closeDue := [],
          walker := w, arbiter := a }
      exact ⟨l', p', f', j', d', r', n', w, a, h⟩
  obtain ⟨l, p, f, j, d, r, n, w, a, h⟩ := hp
  obtain ⟨f2, j2, w2, q2, r2, h2⟩ := postIfDue_shape (closeRest s)
  obtain ⟨i3, p3, r3, h3⟩ := takeIfDue_shape (postIfDue (closeRest s)).inbound.length (postIfDue (closeRest s))
  refine ⟨l, p, f2, j2, d, r, n, w2, q2, i3, p3, r3, ?_⟩
  unfold settle
  simp only
  rw [h3, h2, h]

@[simp] theorem settle_pending (s : State) : (settle s).pending = s.pending := by
  obtain ⟨l, p, f, j, d, r, n, w, a, i, x, q, h⟩ := settle_shape s; rw [h]

@[simp] theorem settle_closeDue (s : State) : (settle s).closeDue = [] := by
  obtain ⟨l, p, f, j, d, r, n, w, a, i, x, q, h⟩ := settle_shape s; rw [h]

/-- A state reached by settling is one that starts, ends, postings and takes lead to: a property they all keep holds. -/
theorem settle_keeps (P : State → Prop) (hclear : ∀ t, P t → P { t with closeDue := [] })
    (hstart : ∀ t, P t → P (startIfDue t)) (hend : ∀ w t, P t → P (doEnd w t)) (hpost : ∀ t, P t → P (postIfDue t))
    (htake : ∀ t, takeDue t = true → P t → P (takeBurst t)) (s : State) (h : P s) : P (settle s) := by
  have hp := hpost _ (closeRest_keeps P hstart hend s (hclear s h))
  unfold settle
  generalize postIfDue (closeRest s) = t at hp
  simp only
  generalize t.inbound.length = n
  induction n generalizing t with
  | zero => exact hp
  | succ n ih =>
    unfold takeIfDue; split
    · rename_i hd; exact ih _ (htake t hd hp)
    · exact hp

end Sys2Proof.Machine
end

