-- ==== Sys2Proof/Laws/Answers.lean ====
section
/-! SUPPORT. What each command's answer can change when it is carried out: the fields a shape lemma names; every other
field of the new state agrees with the old by `rfl` after rewriting with it. -/
namespace Sys2Proof.Machine

variable {s t : State} {n : Notes} {w : List Word}

theorem bindAnswer_shape {a b c d e : Word} (h : bindAnswer a b c d e s = .done t n w) :
    ∃ p q, t = { s with dir := p, feeds := q } := by
  unfold bindAnswer at h
  split at h
  · cases h
  · split at h
    · cases h
    · split at h
      · cases h
      · split at h
        · cases h
        · cases h; exact ⟨_, _, rfl⟩

theorem unbindAnswer_shape {a b : Word} (h : unbindAnswer a b s = .done t n w) : ∃ q, t = { s with feeds := q } := by
  unfold unbindAnswer at h
  split at h
  · cases h
  · split at h
    · cases h
    · cases h; exact ⟨_, rfl⟩

theorem setMaskAnswer_shape {a : Word} (h : setMaskAnswer a s = .done t n w) : t = { s with mask := a } := by
  unfold setMaskAnswer at h
  split at h
  · cases h; rfl
  · cases h

theorem setRateAnswer_shape {a b c d e : Word} (h : setRateAnswer a b c d e s = .done t n w) :
    ∃ q, t = { s with feeds := q } := by
  unfold setRateAnswer at h
  split at h
  · cases h
  · split at h
    · cases h
    · cases h; exact ⟨_, rfl⟩

theorem applyInterval_shape (a : Word) (s : State) :
    ∃ x y, applyInterval a s = { s with servoN := x, servoCount := y } := by
  unfold applyInterval
  split
  · exact ⟨s.servoN, s.servoCount, rfl⟩
  · simp only; split
    · exact ⟨s.servoN, s.servoCount, rfl⟩
    · exact ⟨_, 0, rfl⟩

theorem setServoAnswer_shape {r : Nat} {a b c d e f : Word} (h : setServoAnswer r a b c d e f s = .done t n w) :
    ∃ q x y, t = { s with feeds := q, servoN := x, servoCount := y } := by
  unfold setServoAnswer servoDone at h
  split at h
  · cases h
  · split at h
    · cases h
      obtain ⟨x, y, e⟩ := applyInterval_shape f s
      exact ⟨s.feeds, x, y, e⟩
    · split at h
      · cases h
      · split at h
        · cases h
        · cases h
          obtain ⟨x, y, e⟩ := applyInterval_shape f (s.setFeed b.toNat (servoSettings (decide (a.toNat = 1)) c d e (s.feed b.toNat)))
          exact ⟨_, x, y, e⟩

theorem readFeedAnswer_shape {r : Nat} {a : Word} (h : readFeedAnswer r a s = .done t n w) : t = s := by
  unfold readFeedAnswer at h
  split at h <;> cases h; rfl

theorem setGainAnswer_shape {a b c d : Word} (h : setGainAnswer a b c d s = .done t n w) : ∃ l p x y z,
    t = { s with lists := l, pool := p, counters := x, urgent := y, further := z } := by
  obtain ⟨x, y, z, e⟩ := countEvent_shape .filtered s
  unfold setGainAnswer at h
  simp only at h
  split at h
  · cases h
  · split at h
    · cases h
    · split at h
      · split at h
        · cases h; exact ⟨s.lists, s.pool, x, y, z, e⟩
        · cases h; exact ⟨_, s.pool, s.counters, s.urgent, s.further, rfl⟩
      · split at h
        · cases h; exact ⟨s.lists, s.pool, x, y, z, e⟩
        · split at h
          · cases h
          · cases h; exact ⟨_, _, s.counters, s.urgent, s.further, rfl⟩

theorem clearOutputAnswer_shape {a b : Word} (h : clearOutputAnswer a b s = .done t n w) : ∃ l x y z,
    t = { s with lists := l, counters := x, urgent := y, further := z } := by
  unfold clearOutputAnswer at h
  simp only at h
  split at h
  · cases h
  · simp only [Answer.done.injEq] at h
    obtain ⟨h, -, -⟩ := h
    obtain ⟨x, y, z, e⟩ := countEvents_shape
      (List.map (fun _ => Event.filtered) (List.filter (clearFilters s) (s.list a.toNat)))
      (s.setList a.toNat ((s.list a.toNat).map fun e => if clearFilters s e then e else rampStart s 0 (rampCode b) e))
    exact ⟨_, x, y, z, h.symm.trans e⟩

theorem setFilterAnswer_shape {a : Word} (h : setFilterAnswer a s = .done t n w) : ∃ b, t = { s with filter := b } := by
  unfold setFilterAnswer at h
  split at h <;> cases h; exact ⟨_, rfl⟩

theorem readOutputAnswer_shape {r : Nat} {a b : Word} (h : readOutputAnswer r a b s = .done t n w) : t = s := by
  unfold readOutputAnswer at h
  simp only at h
  split at h
  · cases h
  · split at h <;> cases h <;> rfl

theorem setMasterAnswer_shape {a : Word} (h : setMasterAnswer a s = .done t n w) : ∃ m, t = { s with master := m } := by
  unfold setMasterAnswer at h; cases h; exact ⟨_, rfl⟩

theorem setInvertAnswer_shape {a b : Word} (h : setInvertAnswer a b s = .done t n w) :
    ∃ v, t = { s with invert := v } := by
  unfold setInvertAnswer at h
  split at h <;> cases h; exact ⟨_, rfl⟩

theorem setOverrideAnswer_shape {a b c d e f : Word} (h : setOverrideAnswer a b c d e f s = .done t n w) :
    ∃ v, t = { s with ovPending := v } := by
  unfold setOverrideAnswer at h
  split at h
  · cases h
  · split at h <;> cases h <;> exact ⟨_, rfl⟩

theorem acceptCue_shape (c : Cue) (s : State) : ∃ x y z, acceptCue c s =
    { s with cues := s.cues ++ [c], cueNumber := s.cueNumber + 1#16, counters := x, urgent := y, further := z } := by
  unfold acceptCue; simp only; split
  · obtain ⟨x, y, z, e⟩ := countEvent_shape .cueLate { s with cues := s.cues ++ [c], cueNumber := s.cueNumber + 1#16 }
    exact ⟨x, y, z, e⟩
  · exact ⟨s.counters, s.urgent, s.further, rfl⟩

/-- A cue is accepted behind the tail, in order, with room in the list. -/
theorem atAnswer_shape {r : Nat} {a b c : Word} {d : Deferred} (h : atAnswer r a b c d s = .done t n w) :
    s.cues.length < Config.cuePlaces ∧ outOfOrder s.cues (wide a b) = false ∧ ∃ k x y z, k.due = wide a b ∧
      t = { s with cues := s.cues ++ [k], cueNumber := s.cueNumber + 1#16, counters := x, urgent := y, further := z } := by
  unfold atAnswer at h
  simp only at h
  split at h
  · cases h
  · split at h
    · cases h
    · rename_i hl
      split at h
      · cases h
      · rename_i ho
        cases h
        obtain ⟨x, y, z, e⟩ := acceptCue_shape (cueEntry (wide a b) c d s) s
        exact ⟨Nat.lt_of_not_le hl, by simpa using ho, _, x, y, z, rfl, e⟩

theorem cancelBatchAnswer_shape {r : Nat} {a : Word} (h : cancelBatchAnswer r a s = .done t n w) :
    t = { s with cues := otherBatches a.toNat s.cues } := by
  unfold cancelBatchAnswer at h
  simp only at h
  split at h <;> cases h; rfl

theorem flushCuesAnswer_shape {r : Nat} (h : flushCuesAnswer r s = .done t n w) : t = { s with cues := [] } := by
  unfold flushCuesAnswer at h; cases h; rfl

/-- A job is appended to a queue with room, and a start follows that is due. -/
theorem appendJob_shape {j : Job} {b : Bool} (h : appendJob j b s = .done t n w) :
    s.jobs.length < Config.jobPlaces ∧ t = startIfDue { s with jobs := s.jobs ++ [j] } := by
  unfold appendJob at h
  split at h
  · cases h
  · rename_i hl; cases h; exact ⟨Nat.lt_of_not_le hl, rfl⟩

theorem jobRecodeAnswer_shape {g a b c d e f : Word} (h : jobRecodeAnswer g a b c d e f s = .done t n w) :
    s.jobs.length < Config.jobPlaces ∧ ∃ j, t = startIfDue { s with jobs := s.jobs ++ [.recode j] } := by
  unfold jobRecodeAnswer at h
  split at h
  · cases h
  · obtain ⟨hl, e⟩ := appendJob_shape h; exact ⟨hl, _, e⟩

theorem jobScanAnswer_shape {g a b c d : Word} (h : jobScanAnswer g a b c d s = .done t n w) :
    s.jobs.length < Config.jobPlaces ∧ ∃ j, t = startIfDue { s with jobs := s.jobs ++ [.scan j] } := by
  unfold jobScanAnswer at h
  split at h
  · cases h
  · obtain ⟨hl, e⟩ := appendJob_shape h; exact ⟨hl, _, e⟩

theorem setArbAnswer_shape {a b c : Word} (h : setArbAnswer a b c s = .done t n w) : ∃ x y z,
    t = { s with arbiter := { s.arbiter with limiting := x, cmdBurst := y, walkBurst := z } } := by
  unfold setArbAnswer at h
  split at h <;> cases h; exact ⟨_, _, _, rfl⟩

theorem setActiveAnswer_shape {a : Word} (h : setActiveAnswer a s = .done t n w) : ∃ m, t = { s with active := m } := by
  unfold setActiveAnswer at h; cases h; exact ⟨_, rfl⟩

theorem setDelayAnswer_shape {a b : Word} (h : setDelayAnswer a b s = .done t n w) :
    ∃ d e, t = { s with dips := d, delays := e } := by
  unfold setDelayAnswer at h
  split at h <;> cases h; exact ⟨_, _, rfl⟩

theorem setTableAnswer_shape {a : Word} (h : setTableAnswer a s = .done t n w) :
    ∃ p q, t = { s with pointer := p, patch := q } := by
  unfold setTableAnswer at h
  split at h <;> cases h; exact ⟨_, _, rfl⟩

theorem setRowAnswer_shape {a : Word} (h : setRowAnswer a s = .done t n w) : ∃ p, t = { s with pointer := p } := by
  unfold setRowAnswer at h
  split at h <;> cases h; exact ⟨_, rfl⟩

theorem setColumnAnswer_shape {a : Word} (h : setColumnAnswer a s = .done t n w) : ∃ p, t = { s with pointer := p } := by
  unfold setColumnAnswer at h
  split at h <;> cases h; exact ⟨_, rfl⟩

theorem readStep_shape (s : State) : ∃ p l, readStep s = { s with pointer := p, latch := l } := by
  unfold readStep; simp only; split
  · exact ⟨s.pointer, _, rfl⟩
  · exact ⟨_, _, rfl⟩

theorem readSteps_shape (k : Nat) (s : State) : ∃ p l, readSteps k s = { s with pointer := p, latch := l } := by
  induction k generalizing s with
  | zero => exact ⟨s.pointer, s.latch, rfl⟩
  | succ k ih =>
    obtain ⟨p, l, e⟩ := readStep_shape s
    obtain ⟨p', l', e'⟩ := ih (readStep s)
    exact ⟨p', l', by rw [readSteps, e', e]⟩

theorem readAnswer_shape {r : Nat} {a : Word} (h : readAnswer r a s = .done t n w) :
    ∃ p l, t = { s with pointer := p, latch := l } := by
  unfold readAnswer at h
  split at h <;> cases h; exact readSteps_shape _ _

theorem patchBeginAnswer_shape (h : patchBeginAnswer s = .done t n w) : ∃ q, t = { s with patch := q } := by
  unfold patchBeginAnswer at h; cases h; exact ⟨_, rfl⟩

theorem patchEndAnswer_shape (h : patchEndAnswer s = .done t n w) : ∃ p q, t = { s with pointer := p, patch := q } := by
  unfold patchEndAnswer at h
  split at h <;> cases h
  · exact ⟨_, _, rfl⟩
  · exact ⟨s.pointer, s.patch, rfl⟩

theorem setRelayAnswer_shape {a : Word} (h : setRelayAnswer a s = .done t n w) : ∃ m, t = { s with relayMode := m } := by
  unfold setRelayAnswer at h
  split at h <;> cases h; exact ⟨_, rfl⟩

theorem counterSelectAnswer_shape {a b : Word} (h : counterSelectAnswer a b s = .done t n w) :
    ∃ c, t = s.setCounter a.toNat c := by
  unfold counterSelectAnswer at h
  split at h <;> cases h; exact ⟨_, rfl⟩

theorem counterLoadAnswer_shape {a b c : Word} (h : counterLoadAnswer a b c s = .done t n w) :
    ∃ c, t = s.setCounter a.toNat c := by
  unfold counterLoadAnswer at h
  split at h <;> cases h; exact ⟨_, rfl⟩

theorem counterReadAnswer_shape {r : Nat} {a : Word} (h : counterReadAnswer r a s = .done t n w) : t = s := by
  unfold counterReadAnswer at h
  split at h <;> cases h; rfl

/-- What a DATA word can change. -/
theorem dataWrite_shape (v : Word) (s : State) : ∃ a b c d e f g p l, dataWrite v s =
    { s with coef := a, gainLaw := b, recodeA := c, recodeB := d, slotMap := e, dips := f, delays := g, pointer := p,
             latch := l } := by
  have hw : ∀ (table row column : Nat) (s : State), ∃ a b c d e f g, writeEntry table row column v s =
      { s with coef := a, gainLaw := b, recodeA := c, recodeB := d, slotMap := e, dips := f, delays := g } := by
    intro table row column s
    unfold writeEntry; simp only
    split
    · exact ⟨_, s.gainLaw, s.recodeA, s.recodeB, s.slotMap, s.dips, s.delays, rfl⟩
    · split
      · split
        · exact ⟨s.coef, s.gainLaw, s.recodeA, s.recodeB, s.slotMap, s.dips, s.delays, rfl⟩
        · exact ⟨s.coef, _, s.recodeA, s.recodeB, s.slotMap, s.dips, s.delays, rfl⟩
      · exact ⟨s.coef, s.gainLaw, _, s.recodeB, s.slotMap, s.dips, s.delays, rfl⟩
      · exact ⟨s.coef, s.gainLaw, s.recodeA, _, s.slotMap, s.dips, s.delays, rfl⟩
      · exact ⟨s.coef, s.gainLaw, s.recodeA, s.recodeB, _, s.dips, s.delays, rfl⟩
      · exact ⟨s.coef, s.gainLaw, s.recodeA, s.recodeB, s.slotMap, _, _, rfl⟩
  unfold dataWrite; simp only
  by_cases hc : s.pointer.column = 16
  · rw [if_pos hc]; split
    · exact ⟨s.coef, s.gainLaw, s.recodeA, s.recodeB, s.slotMap, s.dips, s.delays, s.pointer, _, rfl⟩
    · exact ⟨s.coef, s.gainLaw, s.recodeA, s.recodeB, s.slotMap, s.dips, s.delays, s.pointer, s.latch, rfl⟩
  · rw [if_neg hc]
    obtain ⟨a, b, c, d, e, f, g, h⟩ := hw s.pointer.table s.pointer.row s.pointer.column s
    rw [h]; split
    · exact ⟨a, b, c, d, e, f, g, _, _, rfl⟩
    · exact ⟨a, b, c, d, e, f, g, _, s.latch, rfl⟩

-- cues

/-- What applying a cued command can change; the cue list is not among it. -/
theorem applyDeferred_shape {d : Deferred} (h : applyDeferred d s = .done t n w) : ∃ a b c e f g i x y z, t =
    { s with feeds := a, lists := b, pool := c, master := e, invert := f, dips := g, delays := i, counters := x,
             urgent := y, further := z } := by
  cases d with
  | setGain => obtain ⟨l, p, x, y, z, e⟩ := setGainAnswer_shape h; exact ⟨_, _, _, _, _, _, _, _, _, _, e⟩
  | clearOutput => obtain ⟨l, x, y, z, e⟩ := clearOutputAnswer_shape h; exact ⟨_, _, _, _, _, _, _, _, _, _, e⟩
  | setMaster => obtain ⟨m, e⟩ := setMasterAnswer_shape h; exact ⟨_, _, _, _, _, _, _, _, _, _, e⟩
  | setInvert => obtain ⟨m, e⟩ := setInvertAnswer_shape h; exact ⟨_, _, _, _, _, _, _, _, _, _, e⟩
  | setDelay => obtain ⟨m, m', e⟩ := setDelayAnswer_shape h; exact ⟨_, _, _, _, _, _, _, _, _, _, e⟩
  | unbind => obtain ⟨m, e⟩ := unbindAnswer_shape h; exact ⟨_, _, _, _, _, _, _, _, _, _, e⟩

theorem cueFault_shape (c : Cue) (code : Code) (s : State) : ∃ x y z, cueFault c code s =
    { s with cues := otherBatches c.batch s.cues, counters := x, urgent := y, further := z } := by
  unfold cueFault
  obtain ⟨u, v, e⟩ := offerUrgent_shape
    (.cueFault c.number c.batch code (inBatch c.batch s.cues).length c.command.op c.late)
    { s with cues := otherBatches c.batch s.cues }
  obtain ⟨x, y, z, e'⟩ := countEvent_shape .cueFault (offerUrgent
    (.cueFault c.number c.batch code (inBatch c.batch s.cues).length c.command.op c.late)
    { s with cues := otherBatches c.batch s.cues })
  exact ⟨x, y, z, by rw [e', e]⟩

/-- A property kept by taking the head cue out, by applying its command and by a cue fault is kept by the due pass. -/
theorem duePass_keeps (P : State → Prop) (htake : ∀ c rest s, s.cues = c :: rest → P s → P { s with cues := rest })
    (hdone : ∀ d s t n w, applyDeferred d s = .done t n w → P s → P t)
    (hfault : ∀ c code s, P s → P (cueFault c code s)) (k : Nat) (s : State) (h : P s) : P (duePass k s) := by
  induction k generalizing s with
  | zero => exact h
  | succ k ih =>
    unfold duePass
    split
    · exact h
    · rename_i c rest hc
      split
      · apply ih
        have hp := htake c rest s hc h
        unfold applyCue
        split
        · exact hfault _ _ _ hp
        · rename_i hd; exact hdone _ _ _ _ _ hd hp
      · exact h

/-- What a due pass can change. -/
theorem duePass_shape (k : Nat) (s : State) : ∃ a b c e f g i x y z q, duePass k s =
    { s with feeds := a, lists := b, pool := c, master := e, invert := f, dips := g, delays := i, counters := x,
             urgent := y, further := z, cues := q } := by
  refine duePass_keeps (fun t => ∃ a b c e f g i x y z q, t =
    { s with feeds := a, lists := b, pool := c, master := e, invert := f, dips := g, delays := i, counters := x,
             urgent := y, further := z, cues := q }) ?_ ?_ ?_ k s ⟨_, _, _, _, _, _, _, _, _, _, _, rfl⟩
  · rintro c rest t - ⟨a, b, c, e, f, g, i, x, y, z, q, rfl⟩
    exact ⟨_, _, _, _, _, _, _, _, _, _, _, rfl⟩
  · rintro d t v n w hd ⟨a, b, c, e, f, g, i, x, y, z, q, rfl⟩
    obtain ⟨_, _, _, _, _, _, _, _, _, _, h⟩ := applyDeferred_shape hd
    exact ⟨_, _, _, _, _, _, _, _, _, _, _, h⟩
  · rintro c code t ⟨a, b, c, e, f, g, i, x, y, z, q, rfl⟩
    obtain ⟨_, _, _, h⟩ := cueFault_shape ‹Cue› code
      { s with feeds := a, lists := b, pool := c, master := e, invert := f, dips := g, delays := i, counters := x,
               urgent := y, further := z, cues := q }
    exact ⟨_, _, _, _, _, _, _, _, _, _, _, h⟩

end Sys2Proof.Machine
end

