-- ==== Sys2Proof/Laws/Events.lean ====
section
/-! SUPPORT. What each event's operation can change, and what each outcome of `exec` comes to: the settled state, or the
operation's result. -/
namespace Sys2Proof.Machine

-- the period

theorem requestSample_shape (k : Nat) (s : State) : ∃ f x y z,
    (requestSample k s).1 = { s with feeds := f, counters := x, urgent := y, further := z } := by
  unfold requestSample; simp only
  split
  · exact ⟨s.feeds, s.counters, s.urgent, s.further, rfl⟩
  · split
    · exact ⟨s.feeds, s.counters, s.urgent, s.further, rfl⟩
    · obtain ⟨x, y, z, e⟩ := countEvents_shape (requestEvents s (s.feed k)) (s.setFeed k (requestStep s (s.feed k)))
      exact ⟨_, x, y, z, e⟩

theorem sumEntries_shape (l : List MixEntry) (s : State) (acc : Int) : ∃ f x y z,
    (sumEntries l s acc).1 = { s with feeds := f, counters := x, urgent := y, further := z } := by
  induction l generalizing s acc with
  | nil => exact ⟨s.feeds, s.counters, s.urgent, s.further, rfl⟩
  | cons e es ih =>
    obtain ⟨f, x, y, z, h⟩ := requestSample_shape e.feed s
    obtain ⟨f', x', y', z', h'⟩ := ih (requestSample e.feed s).1 (acc + (requestSample e.feed s).2 * e.applied)
    exact ⟨f', x', y', z', by rw [sumEntries, h', h]⟩

theorem markClip_shape (c : Nat) (b : Bool) (s : State) : ∃ o x y z,
    markClip c b s = { s with outClips := o, counters := x, urgent := y, further := z } := by
  unfold markClip; split
  · obtain ⟨x, y, z, e⟩ := countEvent_shape .outputClip
      { s with outClips := Tab.put zeroInit s.outClips c (bump16 (s.clipCount c)) }
    exact ⟨_, x, y, z, e⟩
  · exact ⟨s.outClips, s.counters, s.urgent, s.further, rfl⟩

theorem computeChannel_shape (c : Nat) (s : State) : ∃ f x y z o l m w u, computeChannel c s =
    { s with feeds := f, counters := x, urgent := y, further := z, outClips := o, lists := l, summed := m, work := w,
             lines := u } := by
  unfold computeChannel; split
  · unfold overrideChannel; split
    · obtain ⟨f, x, y, z, h⟩ := requestSample_shape s.ovCurrent.monitor s
      obtain ⟨o, x', y', z', h'⟩ := markClip_shape c
        (saturates (leveled (requestSample s.ovCurrent.monitor s).2 s.master)) (requestSample s.ovCurrent.monitor s).1
      simp only
      rw [h', h]
      exact ⟨f, x', y', z', o, s.lists, s.summed, _, _, rfl⟩
    · exact ⟨s.feeds, s.counters, s.urgent, s.further, s.outClips, s.lists, s.summed, _, _, rfl⟩
  · unfold sumChannel
    obtain ⟨f, x, y, z, h⟩ := sumEntries_shape (s.list c) s 0
    simp only
    obtain ⟨o, x', y', z', h'⟩ := markClip_shape c (listClips (sumEntries (s.list c) s 0).2 s.master)
      (readList c (sumEntries (s.list c) s 0).1)
    rw [h', h]
    exact ⟨f, x', y', z', o, _, _, _, _, rfl⟩

theorem closePeriod_shape (s : State) : ∃ x y z, closePeriod s =
    { s with
      phase := .between, closeDue := closeOwes s, lists := closeLists s, summed := [],
      feeds := Tab.update feedInit 128 closeFeed s.feeds, lines := closeLines s, work := [],
      dips := Tab.update dipInit 64 (fun _ d => dipStep d) s.dips,
      servoCount := if s.servoCount + 1 < s.servoN then s.servoCount + 1 else s.servoCount,
      counters := x, urgent := y, further := z } := by
  unfold closePeriod
  generalize Tab.update feedInit 128 closeFeed s.feeds = feeds
  generalize Tab.update dipInit 64 (fun _ d => dipStep d) s.dips = dips
  generalize closeLists s = lists
  generalize closeLines s = lines
  generalize closeOwes s = owes
  generalize (closeUnderruns s).map (fun _ => Event.feedUnderrun) = es
  generalize (if s.servoCount + 1 < s.servoN then s.servoCount + 1 else s.servoCount) = count
  obtain ⟨x, y, z, e⟩ := countEvents_shape es
    { s with phase := .between, closeDue := owes, lists := lists, summed := [], feeds := feeds, lines := lines,
             work := [], dips := dips, servoCount := count }
  exact ⟨x, y, z, e⟩

theorem startPeriod_shape (s : State) : ∃ a b c e f g i x y z q, startPeriod s =
    { s with count := s.count + 1#32, phase := .computing, work := [], ovCurrent := s.ovPending, feeds := a, lists := b,
             pool := c, master := e, invert := f, dips := g, delays := i, counters := x, urgent := y, further := z,
             cues := q } := by
  obtain ⟨x, y, z, h⟩ := countEvent_shape .outputPeriod
    { s with count := s.count + 1#32, phase := .computing, work := [] }
  obtain ⟨_, _, _, _, _, _, _, _, _, _, _, h'⟩ := duePass_shape
    (countEvent .outputPeriod { s with count := s.count + 1#32, phase := .computing, work := [] }).cues.length
    (countEvent .outputPeriod { s with count := s.count + 1#32, phase := .computing, work := [] })
  unfold startPeriod
  simp only
  rw [h', h]
  exact ⟨_, _, _, _, _, _, _, _, _, _, _, rfl⟩

-- arrivals

theorem audioArrival_shape (id : Word) (seq : Nat) (l : List Int) (s : State) : ∃ f x y z,
    audioArrival id seq l s = { s with feeds := f, counters := x, urgent := y, further := z } := by
  unfold audioArrival; split
  · obtain ⟨x, y, z, e⟩ := countEvent_shape .lookupMiss s; exact ⟨s.feeds, x, y, z, e⟩
  · simp only; split
    · exact ⟨s.feeds, s.counters, s.urgent, s.further, rfl⟩
    · rename_i k _ _
      split
      · obtain ⟨x, y, z, e⟩ := countEvents_shape (acceptEvents (s.feed k) seq l) (s.setFeed k (acceptBurst (s.feed k) seq l))
        exact ⟨_, x, y, z, e⟩
      · obtain ⟨x, y, z, e⟩ := countEvent_shape .staleBurst
          (s.setFeed k { s.feed k with stales := bump16 (s.feed k).stales })
        exact ⟨_, x, y, z, e⟩

theorem handOn_shape (bytes : List Byte) (s : State) : ∃ f x y z i j,
    handOn bytes s = { s with feeds := f, counters := x, urgent := y, further := z, inbound := i, through := j } := by
  unfold handOn; split
  · obtain ⟨x, y, z, e⟩ := countEvent_shape .checkFail s; exact ⟨s.feeds, x, y, z, s.inbound, s.through, e⟩
  · rename_i id seq l _
    obtain ⟨f, x, y, z, e⟩ := audioArrival_shape id seq l s; exact ⟨f, x, y, z, s.inbound, s.through, e⟩
  · split
    · unfold inboundArrival; split
      · exact ⟨s.feeds, s.counters, s.urgent, s.further, _, s.through, rfl⟩
      · obtain ⟨x, y, z, e⟩ := countEvent_shape .cmdDropped s; exact ⟨s.feeds, x, y, z, s.inbound, s.through, e⟩
    · unfold throughArrival; split
      · exact ⟨s.feeds, s.counters, s.urgent, s.further, s.inbound, _, rfl⟩
      · obtain ⟨x, y, z, e⟩ := countEvent_shape .fwdDropped s; exact ⟨s.feeds, x, y, z, s.inbound, s.through, e⟩

theorem relayArrival_shape (bytes : List Byte) (s : State) : ∃ x y z r,
    relayArrival bytes s = { s with counters := x, urgent := y, further := z, relay := r } := by
  unfold relayArrival; split
  · exact ⟨s.counters, s.urgent, s.further, _, rfl⟩
  · obtain ⟨x, y, z, e⟩ := countEvent_shape .relayDropped s; exact ⟨x, y, z, s.relay, e⟩

theorem chooseItem_shape (s : State) : ∃ l r y z t q,
    chooseItem s = { s with lane := l, replies := r, urgent := y, further := z, turn := t, relay := q } := by
  unfold chooseItem; split
  · exact ⟨_, s.replies, _, _, s.turn, s.relay, rfl⟩
  · exact ⟨s.lane, s.replies, s.urgent, s.further, s.turn, s.relay, rfl⟩
  · exact ⟨_, _, s.urgent, s.further, _, s.relay, rfl⟩
  · exact ⟨_, s.replies, s.urgent, s.further, _, _, rfl⟩
  · split
    · exact ⟨_, _, s.urgent, s.further, _, s.relay, rfl⟩
    · exact ⟨_, s.replies, s.urgent, s.further, _, _, rfl⟩

-- the walker

/-- The end of a job is the job's withdrawal followed by a job start, if one is due. -/
theorem endJob_eq (s : State) : endJob s = startIfDue (jobEnded s) := rfl

theorem endWithReport_eq (r : JobReport) (s : State) : endWithReport r s =
    if s.placeFree then startIfDue (jobEnded { s with replies := s.replies ++ [.report r] })
    else { jobEnded s with walker := .holding r } := by
  unfold endWithReport endJob jobEnded; rfl

/-- What the walker's steps can change. -/
def walkerTouches (s t : State) : Prop := ∃ d f l p j w q r x y z, t =
  { s with dir := d, feeds := f, lists := l, pool := p, jobs := j, walker := w,
           arbiter := q, replies := r, counters := x, urgent := y, further := z }

theorem endJob_touches (s : State) : walkerTouches s (endJob s) := by
  rw [endJob_eq]
  obtain ⟨f, j, w, q, e⟩ := startIfDue_shape (jobEnded s)
  exact ⟨s.dir, f, s.lists, s.pool, j, w, q, s.replies, s.counters, s.urgent, s.further, e⟩

theorem endWithReport_touches (r : JobReport) (s : State) : walkerTouches s (endWithReport r s) := by
  rw [endWithReport_eq]; split
  · obtain ⟨f, j, w, q, e⟩ := startIfDue_shape (jobEnded { s with replies := s.replies ++ [.report r] })
    exact ⟨s.dir, f, s.lists, s.pool, j, w, q, _, s.counters, s.urgent, s.further, e⟩
  · exact ⟨s.dir, s.feeds, s.lists, s.pool, s.jobs, _, _, s.replies, s.counters, s.urgent, s.further, rfl⟩

theorem walkerTouches_trans {s t u : State} (h : walkerTouches s t) (k : walkerTouches t u) : walkerTouches s u := by
  obtain ⟨_, _, _, _, _, _, _, _, _, _, _, rfl⟩ := h
  obtain ⟨_, _, _, _, _, _, _, _, _, _, _, rfl⟩ := k
  exact ⟨_, _, _, _, _, _, _, _, _, _, _, rfl⟩

theorem endRecode_touches (j : RecodeJob) (a b c : Nat) (d : Bool) (s : State) :
    walkerTouches s (endRecode j a b c d s) := by
  unfold endRecode; split
  · exact endWithReport_touches _ _
  · exact endJob_touches _

theorem recodeNext_touches (j : RecodeJob) (f a b c : Nat) (s : State) : walkerTouches s (recodeNext j f a b c s) := by
  unfold recodeNext; split
  · exact endRecode_touches _ _ _ _ _ _
  · exact ⟨s.dir, s.feeds, s.lists, s.pool, s.jobs, _, s.arbiter, s.replies, s.counters, s.urgent, s.further, rfl⟩

theorem purgeOn_touches (slot c : Nat) (s : State) : walkerTouches s (purgeOn slot c s) := by
  have hr : walkerTouches s (releaseRoute c slot s) := by
    unfold releaseRoute; split
    · exact ⟨s.dir, s.feeds, _, _, s.jobs, s.walker, s.arbiter, s.replies, s.counters, s.urgent, s.further, rfl⟩
    · exact ⟨s.dir, s.feeds, s.lists, s.pool, s.jobs, s.walker, s.arbiter, s.replies, s.counters, s.urgent,
        s.further, rfl⟩
  have hf : ∀ t, walkerTouches t (freeSlot slot t) := by
    intro t; unfold freeSlot; split
    · exact ⟨_, _, t.lists, t.pool, t.jobs, t.walker, t.arbiter, t.replies, t.counters, t.urgent, t.further, rfl⟩
    · exact ⟨t.dir, _, t.lists, t.pool, t.jobs, t.walker, t.arbiter, t.replies, t.counters, t.urgent,
        t.further, rfl⟩
  unfold purgeOn; simp only; split
  · exact walkerTouches_trans (walkerTouches_trans hr (hf _)) (endJob_touches _)
  · refine walkerTouches_trans hr ?_
    generalize releaseRoute c slot s = t
    exact ⟨t.dir, t.feeds, t.lists, t.pool, t.jobs, _, t.arbiter, t.replies, t.counters, t.urgent,
      t.further, rfl⟩

theorem recodeOn_touches (j : RecodeJob) (f r c k : Nat) (s : State) : walkerTouches s (recodeOn j f r c k s) := by
  unfold recodeOn; split
  · exact endRecode_touches _ _ _ _ _ _
  · simp only; split
    · obtain ⟨x, y, z, e⟩ := countEvent_shape .filtered s
      exact walkerTouches_trans ⟨s.dir, s.feeds, s.lists, s.pool, s.jobs, s.walker, s.arbiter, s.replies, x, y,
        z, e⟩ (recodeNext_touches _ _ _ _ _ _)
    · exact walkerTouches_trans ⟨s.dir, s.feeds, _, s.pool, s.jobs, s.walker, s.arbiter, s.replies,
        s.counters, s.urgent, s.further, rfl⟩ (recodeNext_touches _ _ _ _ _ _)

theorem scanOn_touches (j : ScanJob) (f r : Nat) (s : State) : walkerTouches s (scanOn j f r s) := by
  unfold scanOn; split
  · exact endWithReport_touches _ _
  · simp only; split
    · exact endWithReport_touches _ _
    · split
      · exact endWithReport_touches _ _
      · exact ⟨s.dir, s.feeds, s.lists, s.pool, s.jobs, _, s.arbiter, s.replies, s.counters, s.urgent,
          s.further, rfl⟩

-- what exec comes to

/-- A command of a burst is not carried out, is refused, or is carried out with its answer's state. -/
theorem carryOut_cases (r : Ready) (body : Exec → State → Answer) (s t : State) (h : carryOut r body s = .next t) :
    t = settle s ∨ ∃ x, atReady r (settle s) = some x ∧
      ((∃ code, body x (settle s) = .refuse code ∧ t = endBurst x (some code) (settle s)) ∨
        ∃ v n w, body x (settle s) = .done v n w ∧ t = proceed (x.did n w) v) := by
  unfold carryOut at h
  simp only at h
  split at h
  · cases h; exact .inl rfl
  · rename_i x hx
    cases h
    refine .inr ⟨x, hx, ?_⟩
    unfold finish; split
    · exact .inl ⟨_, ‹_›, rfl⟩
    · exact .inr ⟨_, _, _, ‹_›, rfl⟩

/-- A burst that has ended stands at no edit. -/
theorem endBurst_atEdit (x : Exec) (c : Option Code) (s : State) : (endBurst x c s).atEdit = false := rfl

/-- An immediate edit is not reached, waits for its grant, is refused at its edit step, or is carried out with its
answer's state, its burst then raising the request of an edit that follows; the port then falls FREE. -/
theorem carryEdit_cases (r : Ready) (body : State → Answer) (s t : State) (h : carryEdit r body s = .next t) :
    t = settle s ∨ ∃ x, atReady r (settle s) = some x ∧
      let v := requestEdit (settle s)
      ((granted v.arbiter .command = false ∧ t = v) ∨ (granted v.arbiter .command = true ∧
        ((∃ code, body v = .refuse code ∧ t = releasePort (endBurst x (some code) v)) ∨
          ∃ u n w, body v = .done u n w ∧ let p := proceed (x.did n w) u
            t = releasePort (if p.atEdit then requestPort .command p else p)))) := by
  unfold carryEdit at h
  simp only at h
  split at h
  · cases h; exact .inl rfl
  · rename_i x hx
    refine .inr ⟨x, hx, ?_⟩
    split at h
    · rename_i hg
      cases h
      refine .inr ⟨hg, ?_⟩
      cases hb : body (requestEdit (settle s)) with
      | refuse c => exact .inl ⟨c, rfl, by simp only [finishEdit, finish, endBurst_atEdit]; rfl⟩
      | done u n w => exact .inr ⟨u, n, w, rfl, rfl⟩
    · rename_i hg; cases h; exact .inl ⟨by simpa using hg, rfl⟩

theorem atReady_proc {r : Ready} {s : State} {x : Exec} (h : atReady r s = some x) : s.proc.isSome = true := by
  unfold atReady at h
  split at h
  · cases h
  · rename_i hp; rw [hp]; rfl

end Sys2Proof.Machine
end

