-- ==== Sys2Proof/Laws/Steps.lean ====
section
/-! SUPPORT. What a step of the part can do, said once: `Did s t` lists the moves, each whole, and every outcome of `exec`
and of `step` is a sequence of them. A property that every move keeps is kept by every step. -/
namespace Sys2Proof.Machine

/-- One move of the part. -/
inductive Did : State → State → Prop
  | goOn (s : State) (x : Exec) (h : s.proc.isSome = true) : Did s (proceed x s)
  | stop (s : State) (x : Exec) (c : Option Code) (h : s.proc.isSome = true) : Did s (endBurst x c s)
  | take (s : State) (h : takeDue s = true) : Did s (takeBurst s)
  | start (s : State) : Did s (startIfDue s)
  | post (s : State) : Did s (postIfDue s)
  | ended (s : State) (w : CloseWork) (h : w ∈ s.closeDue) : Did s (doEnd w { s with closeDue := s.closeDue.erase w })
  | request (s : State) (p : Party) : Did s (requestPort p s)
  | release (s : State) : Did s (releasePort s)
  | data (s : State) (w : Word) : Did s (dataWrite w s)
  | softReset (s : State) (h : s.closeDue = []) : Did s (softReset s)
  | clearFeedLink (s : State) : Did s (clearFeedLink s)
  | feedLinkDown (s : State) : Did s { s with feedUp := .down, lane := none }
  | speakerLinkUp (s : State) : Did s { s with speakerUp := .up }
  | speakerLinkDown (s : State) :
      Did s { s with speakerUp := .down, speakerPartial := [], forwardLane := .idle, gapOpen := false }
  | powerOn (s : State) (a : BitVec 4) : Did s (powerOn a s)
  | arrival (s : State) (bytes : List Byte) : Did s (handOn bytes { s with feedPartial := [] })
  | reply (s : State) (bytes : List Byte) : Did s (relayArrival bytes { s with speakerPartial := [] })
  | replyFailed (s : State) : Did s { s with speakerPartial := [] }
  | periodStart (s : State) (h : s.closeDue = []) : Did s (startPeriod s)
  | compute (s : State) (c : Nat) (h : c < 64) : Did s (computeChannel c s)
  | passOver (s : State) (c : Nat) (h : c < 64) : Did s (s.setWork c .passed)
  | frame (s : State) : Did s (frameSend s)
  | foreign (s : State) (b : List Byte) (rest : List (List Byte)) (h : s.through = b :: rest) :
      Did s { s with forwardLane := .foreign b, through := rest, gapOpen := false }
  | close (s : State) (h : s.closeDue = []) : Did s (closePeriod s)
  | purge (s : State) (slot c : Nat) (hw : s.walker = .running (.purge slot c)) (h : s.closeDue = []) :
      Did s (purgeOn slot c s)
  | recode (s : State) (j : RecodeJob) (f r c k : Nat) (hw : s.walker = .running (.recode j f r c k)) :
      Did s (recodeOn j f r c k s)
  | scan (s : State) (j : ScanJob) (f r : Nat) (hw : s.walker = .running (.scan j f r)) : Did s (scanOn j f r s)
  | choose (s : State) : Did s (chooseItem s)
  | laneFree (s : State) : Did s { s with lane := none }
  | bind {a b c d e s t n w} (h : bindAnswer a b c d e s = .done t n w) : Did s t
  | unbind {a b s t n w} (h : unbindAnswer a b s = .done t n w) (hd : s.closeDue = []) : Did s t
  | setMask {a s t n w} (h : setMaskAnswer a s = .done t n w) : Did s t
  | setRate {a b c d e s t n w} (h : setRateAnswer a b c d e s = .done t n w) : Did s t
  | setServo {r a b c d e f s t n w} (h : setServoAnswer r a b c d e f s = .done t n w) : Did s t
  | setGain {a b c d s t n w} (h : setGainAnswer a b c d s = .done t n w) : Did s t
  | clearOutput {a b s t n w} (h : clearOutputAnswer a b s = .done t n w) : Did s t
  | setFilter {a s t n w} (h : setFilterAnswer a s = .done t n w) : Did s t
  | setMaster {a s t n w} (h : setMasterAnswer a s = .done t n w) : Did s t
  | setInvert {a b s t n w} (h : setInvertAnswer a b s = .done t n w) : Did s t
  | setOverride {a b c d e f s t n w} (h : setOverrideAnswer a b c d e f s = .done t n w) : Did s t
  | cue {r a b c d s t n w} (h : atAnswer r a b c d s = .done t n w) : Did s t
  | cancelBatch {r a s t n w} (h : cancelBatchAnswer r a s = .done t n w) : Did s t
  | flushCues {r s t n w} (h : flushCuesAnswer r s = .done t n w) : Did s t
  | jobRecode (s : State) (j : RecodeJob) (h : s.jobs.length < Config.jobPlaces) :
      Did s { s with jobs := s.jobs ++ [.recode j] }
  | jobScan (s : State) (j : ScanJob) (h : s.jobs.length < Config.jobPlaces) :
      Did s { s with jobs := s.jobs ++ [.scan j] }
  | setArb {a b c s t n w} (h : setArbAnswer a b c s = .done t n w) : Did s t
  | setActive {a s t n w} (h : setActiveAnswer a s = .done t n w) : Did s t
  | setDelay {a b s t n w} (h : setDelayAnswer a b s = .done t n w) : Did s t
  | setTable {a s t n w} (h : setTableAnswer a s = .done t n w) : Did s t
  | setRow {a s t n w} (h : setRowAnswer a s = .done t n w) : Did s t
  | setColumn {a s t n w} (h : setColumnAnswer a s = .done t n w) : Did s t
  | read {r a s t n w} (h : readAnswer r a s = .done t n w) : Did s t
  | patchBegin {s t n w} (h : patchBeginAnswer s = .done t n w) : Did s t
  | patchEnd {s t n w} (h : patchEndAnswer s = .done t n w) : Did s t
  | setRelay {a s t n w} (h : setRelayAnswer a s = .done t n w) : Did s t
  | counterSelect {a b s t n w} (h : counterSelectAnswer a b s = .done t n w) : Did s t
  | counterLoad {a b c s t n w} (h : counterLoadAnswer a b c s = .done t n w) : Did s t

/-- Moves one after the other. -/
abbrev Dids : State → State → Prop := Relation.ReflTransGen Did

theorem Dids.one {s t : State} (h : Did s t) : Dids s t := Relation.ReflTransGen.single h

/-- What a close owes is done by moves. -/
theorem closeRest_dids (s : State) : Dids s (closeRest s) := by
  refine closeRest_induction (fun t => Dids s t) ?_ s (Dids.one (Did.start s))
  intro w l t h
  have e : Did { t with closeDue := w :: l } { doEnd w t with closeDue := l } := by
    have k := Did.ended { t with closeDue := w :: l } w (by simp)
    have e1 : (w :: l).erase w = l := by simp
    simp only [e1] at k
    rw [← doEnd_closeDue]
    exact k
  have k := Did.start { doEnd w t with closeDue := l }
  rw [startIfDue_closeDue] at k
  exact (h.tail e).tail k

theorem takeIfDue_dids (n : Nat) (s : State) : Dids s (takeIfDue n s) := by
  induction n generalizing s with
  | zero => exact Relation.ReflTransGen.refl
  | succ n ih =>
    unfold takeIfDue; split
    · rename_i h; exact (Dids.one (Did.take s h)).trans (ih _)
    · exact Relation.ReflTransGen.refl

theorem settle_dids (s : State) : Dids s (settle s) :=
  ((closeRest_dids s).tail (Did.post _)).trans (takeIfDue_dids _ _)

/-- A command of a burst is moves, when its answers are moves that keep the processor's burst. -/
theorem carryOut_dids {r : Ready} {body : Exec → State → Answer} {s t : State} (h : carryOut r body s = .next t)
    (hb : ∀ x v n w, body x (settle s) = .done v n w → Dids (settle s) v ∧ v.proc = (settle s).proc) : Dids s t := by
  rcases carryOut_cases _ _ _ _ h with rfl | ⟨x, hx, ⟨code, -, rfl⟩ | ⟨v, n, w, hv, rfl⟩⟩
  · exact settle_dids s
  · exact (settle_dids s).tail (Did.stop _ _ _ (atReady_proc hx))
  · obtain ⟨hd, hp⟩ := hb x v n w hv
    exact ((settle_dids s).trans hd).tail (Did.goOn _ _ (by rw [hp]; exact atReady_proc hx))

theorem carryEdit_dids {r : Ready} {body : State → Answer} {s t : State} (h : carryEdit r body s = .next t)
    (hb : ∀ u v n w, body u = .done v n w → Did u v ∧ v.proc = u.proc) : Dids s t := by
  have hv : Dids s (requestEdit (settle s)) := by
    unfold requestEdit; split
    · exact settle_dids s
    · exact (settle_dids s).tail (Did.request _ _)
  rcases carryEdit_cases _ _ _ _ h with rfl | ⟨x, hx, hc⟩
  · exact settle_dids s
  have hp : (requestEdit (settle s)).proc.isSome = true := by
    obtain ⟨_, e⟩ := requestEdit_shape (settle s); rw [e]; exact atReady_proc hx
  rcases hc with ⟨-, rfl⟩ | ⟨-, ⟨code, -, rfl⟩ | ⟨u, n, w, hu, rfl⟩⟩
  · exact hv
  · exact (hv.tail (Did.stop _ _ _ hp)).tail (Did.release _)
  · obtain ⟨hd, he⟩ := hb _ u n w hu
    have k := (hv.tail hd).tail (Did.goOn _ (x.did n w) (by rw [he]; exact hp))
    refine Relation.ReflTransGen.tail ?_ (Did.release _)
    split
    · exact k.tail (Did.request _ _)
    · exact k

/-- The edit that a feed-link reset finds granted is one command's move, or none. -/
theorem editMade_dids (s : State) : Dids s (editMade s) := by
  unfold editMade; split
  · rename_i a b c d _ _
    cases h : setGainAnswer a b c d s with
    | refuse _ => exact Relation.ReflTransGen.refl
    | done t n w => exact Dids.one (Did.setGain h)
  · rename_i a b _ _
    cases h : clearOutputAnswer a b s with
    | refuse _ => exact Relation.ReflTransGen.refl
    | done t n w => exact Dids.one (Did.clearOutput h)
  · exact Relation.ReflTransGen.refl

theorem feedLinkReset_dids (s : State) : Dids s (feedLinkReset s) := by
  unfold feedLinkReset; split
  · exact ((editMade_dids s).tail (Did.clearFeedLink _)).tail (Did.release _)
  · exact Dids.one (Did.clearFeedLink s)

theorem takeEnd_dids (w : CloseWork) (s : State) : Dids s (takeEnd w s) := by
  unfold takeEnd; simp only; split
  · rename_i h; exact (Dids.one (Did.start s)).tail (Did.ended _ w h)
  · exact Dids.one (Did.start s)

/-- Whatever an event comes to, it comes to by moves. -/
theorem exec_dids {c : Instr} {s t : State} (h : exec c s = .next t) : Dids s t := by
  have hs := settle_dids s
  cases c with
  | powerOnReset a => cases h; exact Dids.one (Did.powerOn s a)
  | feedLinkReset =>
    simp only [exec, execFeedLinkReset] at h; cases h
    split
    · exact hs.trans (feedLinkReset_dids _)
    · exact hs
  | feedLinkDown => cases h; exact hs.tail (Did.feedLinkDown _)
  | speakerLinkUp => cases h; exact hs.tail (Did.speakerLinkUp _)
  | speakerLinkDown =>
    simp only [exec, execSpeakerLinkDown] at h; cases h
    split
    · exact hs.tail (Did.speakerLinkDown _)
    · exact (hs.tail (Did.close _ (settle_closeDue s))).tail (Did.speakerLinkDown _)
  | feedBurstReceived b =>
    simp only [exec, execFeedBurstReceived] at h; cases h
    split
    · exact hs.tail (Did.arrival _ _)
    · exact hs
  | amplifierReplyReceived b =>
    simp only [exec, execAmplifierReplyReceived] at h; cases h
    split
    · split
      · exact hs.tail (Did.reply _ _)
      · exact hs.tail (Did.replyFailed _)
    · exact hs
  | periodStart =>
    simp only [exec, execPeriodStart] at h; cases h
    split
    · exact hs.tail (Did.periodStart _ (settle_closeDue s))
    · exact hs
  | channelCompute c =>
    simp only [exec, execChannelCompute] at h
    split at h
    · cases h
    · rename_i hc; cases h
      split
      · split
        · exact hs.tail (Did.compute _ _ (by omega))
        · exact hs.tail (Did.passOver _ _ (by omega))
      · exact hs
  | frameEvent =>
    simp only [exec, execFrameEvent] at h; cases h
    split
    · exact hs.tail (Did.frame _)
    · exact hs
  | foreignBurstSend =>
    simp only [exec, execForeignBurstSend] at h; cases h
    split
    · exact hs
    · split
      · exact hs.tail (Did.foreign _ _ _ ‹_›)
      · exact hs
  | periodClose =>
    simp only [exec, execPeriodClose] at h; cases h
    split
    · exact hs.tail (Did.close _ (settle_closeDue s))
    · exact hs
  | rampEnd c f => cases h; exact takeEnd_dids _ s
  | autoRelease c f => cases h; exact takeEnd_dids _ s
  | fadeCompletion f => cases h; exact takeEnd_dids _ s
  | dipDelayMove c => cases h; exact takeEnd_dids _ s
  | dipRiseEnd c => cases h; exact takeEnd_dids _ s
  | servoExpiry => cases h; exact takeEnd_dids _ s
  | burstTake =>
    simp only [exec, execBurstTake] at h; cases h
    split
    · exact (closeRest_dids s).tail (Did.take _ ‹_›)
    · exact closeRest_dids s
  | tableWrite w =>
    simp only [exec, execTableWrite] at h
    split at h <;> cases h
    · exact hs
    · obtain ⟨_, _, _, _, _, _, _, _, _, e⟩ := dataWrite_shape w (settle s)
      refine (hs.tail (Did.data _ w)).tail (Did.goOn _ _ ?_)
      rw [e]; exact atReady_proc ‹_›
  | bind a b c d e =>
    exact carryOut_dids h fun x v n w k => ⟨Dids.one (Did.bind k), by obtain ⟨_, _, q⟩ := bindAnswer_shape k; rw [q]⟩
  | unbind a b =>
    exact carryOut_dids h fun x v n w k =>
      ⟨Dids.one (Did.unbind k (settle_closeDue s)), by obtain ⟨_, q⟩ := unbindAnswer_shape k; rw [q]⟩
  | setMask a => exact carryOut_dids h fun x v n w k => ⟨Dids.one (Did.setMask k), by rw [setMaskAnswer_shape k]⟩
  | setRate a b c d e =>
    exact carryOut_dids h fun x v n w k => ⟨Dids.one (Did.setRate k), by obtain ⟨_, q⟩ := setRateAnswer_shape k; rw [q]⟩
  | setServo a b c d e f =>
    exact carryOut_dids h fun x v n w k =>
      ⟨Dids.one (Did.setServo k), by obtain ⟨_, _, _, q⟩ := setServoAnswer_shape k; rw [q]⟩
  | setGain a b c d =>
    exact carryEdit_dids h fun u v n w k =>
      ⟨Did.setGain k, by obtain ⟨_, _, _, _, _, q⟩ := setGainAnswer_shape k; rw [q]⟩
  | clearOutput a b =>
    exact carryEdit_dids h fun u v n w k =>
      ⟨Did.clearOutput k, by obtain ⟨_, _, _, _, q⟩ := clearOutputAnswer_shape k; rw [q]⟩
  | setFilter a =>
    exact carryOut_dids h fun x v n w k => ⟨Dids.one (Did.setFilter k), by obtain ⟨_, q⟩ := setFilterAnswer_shape k; rw [q]⟩
  | readOutput a b =>
    exact carryOut_dids h fun x v n w k => by rw [readOutputAnswer_shape k]; exact ⟨Relation.ReflTransGen.refl, rfl⟩
  | setMaster a =>
    exact carryOut_dids h fun x v n w k => ⟨Dids.one (Did.setMaster k), by obtain ⟨_, q⟩ := setMasterAnswer_shape k; rw [q]⟩
  | setInvert a b =>
    exact carryOut_dids h fun x v n w k => ⟨Dids.one (Did.setInvert k), by obtain ⟨_, q⟩ := setInvertAnswer_shape k; rw [q]⟩
  | setOverride a b c d e f =>
    exact carryOut_dids h fun x v n w k =>
      ⟨Dids.one (Did.setOverride k), by obtain ⟨_, q⟩ := setOverrideAnswer_shape k; rw [q]⟩
  | atCue a b c d =>
    exact carryOut_dids h fun x v n w k =>
      ⟨Dids.one (Did.cue k), by obtain ⟨_, _, _, _, _, _, _, q⟩ := atAnswer_shape k; rw [q]⟩
  | cancelBatch a =>
    exact carryOut_dids h fun x v n w k => ⟨Dids.one (Did.cancelBatch k), by rw [cancelBatchAnswer_shape k]⟩
  | flushCues =>
    exact carryOut_dids h fun x v n w k => ⟨Dids.one (Did.flushCues k), by rw [flushCuesAnswer_shape k]⟩
  | jobRecode a b c d e f =>
    exact carryOut_dids h fun x v n w k => by
      obtain ⟨hl, j, q⟩ := jobRecodeAnswer_shape k
      rw [q, startIfDue_proc]; exact ⟨(Dids.one (Did.jobRecode _ j hl)).tail (Did.start _), rfl⟩
  | jobScan a b c d =>
    exact carryOut_dids h fun x v n w k => by
      obtain ⟨hl, j, q⟩ := jobScanAnswer_shape k
      rw [q, startIfDue_proc]; exact ⟨(Dids.one (Did.jobScan _ j hl)).tail (Did.start _), rfl⟩
  | setArb a b c =>
    exact carryOut_dids h fun x v n w k => ⟨Dids.one (Did.setArb k), by obtain ⟨_, _, _, q⟩ := setArbAnswer_shape k; rw [q]⟩
  | setActive a =>
    exact carryOut_dids h fun x v n w k => ⟨Dids.one (Did.setActive k), by obtain ⟨_, q⟩ := setActiveAnswer_shape k; rw [q]⟩
  | setDelay a b =>
    exact carryOut_dids h fun x v n w k => ⟨Dids.one (Did.setDelay k), by obtain ⟨_, _, q⟩ := setDelayAnswer_shape k; rw [q]⟩
  | setTable a =>
    exact carryOut_dids h fun x v n w k => ⟨Dids.one (Did.setTable k), by obtain ⟨_, _, q⟩ := setTableAnswer_shape k; rw [q]⟩
  | setRow a =>
    exact carryOut_dids h fun x v n w k => ⟨Dids.one (Did.setRow k), by obtain ⟨_, q⟩ := setRowAnswer_shape k; rw [q]⟩
  | setColumn a =>
    exact carryOut_dids h fun x v n w k => ⟨Dids.one (Did.setColumn k), by obtain ⟨_, q⟩ := setColumnAnswer_shape k; rw [q]⟩
  | read a =>
    exact carryOut_dids h fun x v n w k => ⟨Dids.one (Did.read k), by obtain ⟨_, _, q⟩ := readAnswer_shape k; rw [q]⟩
  | patchBegin =>
    exact carryOut_dids h fun x v n w k => ⟨Dids.one (Did.patchBegin k), by obtain ⟨_, q⟩ := patchBeginAnswer_shape k; rw [q]⟩
  | patchEnd =>
    exact carryOut_dids h fun x v n w k => ⟨Dids.one (Did.patchEnd k), by obtain ⟨_, _, q⟩ := patchEndAnswer_shape k; rw [q]⟩
  | nop =>
    simp only [exec, execNop] at h
    exact carryOut_dids h fun x v n w k => by cases k; exact ⟨Relation.ReflTransGen.refl, rfl⟩
  | readFeed a =>
    exact carryOut_dids h fun x v n w k => by rw [readFeedAnswer_shape k]; exact ⟨Relation.ReflTransGen.refl, rfl⟩
  | resetPart =>
    simp only [exec, execResetPart] at h
    split at h <;> cases h
    · exact hs
    · exact (hs.tail (Did.softReset _ (settle_closeDue s))).tail
        (Did.stop _ _ _ (by show (settle s).proc.isSome = true; exact atReady_proc ‹_›))
  | setRelay a =>
    exact carryOut_dids h fun x v n w k => ⟨Dids.one (Did.setRelay k), by obtain ⟨_, q⟩ := setRelayAnswer_shape k; rw [q]⟩
  | counterSelect a b =>
    exact carryOut_dids h fun x v n w k =>
      ⟨Dids.one (Did.counterSelect k), by obtain ⟨_, q⟩ := counterSelectAnswer_shape k; rw [q]; rfl⟩
  | counterLoad a b c =>
    exact carryOut_dids h fun x v n w k =>
      ⟨Dids.one (Did.counterLoad k), by obtain ⟨_, q⟩ := counterLoadAnswer_shape k; rw [q]; rfl⟩
  | counterRead a =>
    exact carryOut_dids h fun x v n w k => by rw [counterReadAnswer_shape k]; exact ⟨Relation.ReflTransGen.refl, rfl⟩
  | jobStart => cases h; exact Dids.one (Did.start s)
  | purgeStep =>
    simp only [exec, execPurgeStep] at h; cases h
    split
    · split
      · exact (hs.tail (Did.purge _ _ _ ‹_› (settle_closeDue s))).tail (Did.release _)
      · exact hs
    all_goals exact hs
  | recodeStep =>
    simp only [exec, execRecodeStep] at h; cases h
    split
    · split
      · exact (hs.tail (Did.recode _ _ _ _ _ _ ‹_›)).tail (Did.release _)
      · exact hs
    all_goals exact hs
  | scanStep =>
    simp only [exec, execScanStep] at h; cases h
    split
    · split
      · exact (hs.tail (Did.scan _ _ _ _ ‹_›)).tail (Did.release _)
      · exact hs
    all_goals exact hs
  | heldReportPost => cases h; exact (closeRest_dids s).tail (Did.post _)
  | returnLaneChoice =>
    simp only [exec, execReturnLaneChoice] at h; cases h
    split
    · exact hs.tail (Did.choose _)
    · exact hs
  | returnSendEnd => cases h; exact hs.tail (Did.laneFree _)

/-- A property that every move keeps is kept by every step, and by taking a command off the queue if it does not speak of
the queue. -/
theorem step_keeps (P : State → Prop) (hq : ∀ s l, P s → P { s with pending := l }) (h : ∀ s t, Did s t → P s → P t)
    {s t : State} (hs : P s) (ht : step s = .next t) : P t := by
  have key : ∀ u v, Dids u v → P u → P v := by
    intro u v huv hu
    induction huv with
    | refl => exact hu
    | tail _ hd ih => exact h _ _ hd ih
  unfold step at ht
  split at ht
  · cases ht; exact hs
  · exact key _ _ (exec_dids ht) (hq _ _ hs)

end Sys2Proof.Machine
end

