-- ==== Sys2Proof/Laws/Effects.lean ====
section
/-! SUPPORT. What a command at hand comes to from its answer, what counting, a sample request, an accepted burst, a take and a close do, each said once. -/
namespace Sys2Proof.Machine

/-- A command at hand whose answer is done completes with that answer. -/
theorem completes_of_carryOut {i : Instr} {r : Ready} {body : Exec → State → Answer} {s t : State} {x : Exec}
    {notes : Notes} {words : List Word} (h : atHand i s x) (hr : Instr.ready i = some r)
    (he : exec i s = carryOut r body s) (hb : body x (settle s) = .done t notes words) :
    completes i s x t notes words := by
  unfold atHand at h; rw [hr] at h
  exact completes_of_proceed (he.trans (carryOut_done h hb))

/-- A command at hand whose answer is a refusal is refused with its code. -/
theorem refuses_of_carryOut {i : Instr} {r : Ready} {body : Exec → State → Answer} {s : State} {x : Exec}
    {code : Code} (h : atHand i s x) (hr : Instr.ready i = some r) (he : exec i s = carryOut r body s)
    (hb : body x (settle s) = .refuse code) : refuses i s x (settle s) code := by
  unfold atHand at h; rw [hr] at h
  exact refuses_of_endBurst (he.trans (carryOut_refused h hb))

/-- The flow test changes the flow alone. -/
theorem flowTest_eq (f : Feed) : flowTest f = { f with flow := if (f.flow = some .priming ∨ f.flow = some .starved) ∧ (f.threshold : Int) ≤ f.fill then some .running else f.flow } := by
  unfold flowTest; split <;> rfl

/-- After the word that carries something out no command is under way. -/
theorem look_ready_atRest {x y : Exec} {r : Ready} (h : look x = .ready r y) : y.parser.underWay = false := by
  have hp : ∀ f, (parserAtRest f).underWay = false := by intro f; cases f <;> rfl
  have hn : ∀ w (z v : Exec), takeName w z = .ready r v → v.parser.underWay = false := by
    intro w z v hv
    unfold takeName at hv; split at hv
    · cases hv
    · split at hv <;> cases hv; exact hp _
  have ho : ∀ w (z v : Exec), takeOp w z = .ready r v → v.parser.underWay = false := by
    intro w z v hv
    unfold takeOp at hv; split at hv
    · unfold takeArgument at hv; split at hv
      · cases hv
      · split at hv <;> cases hv; exact hp _
    · unfold takeCueWord at hv; split at hv
      · split at hv
        · cases hv
        · split at hv <;> cases hv
      · simp only at hv; split at hv
        · cases hv
        · split at hv <;> cases hv; exact hp _
    · exact hn _ _ _ hv
    · exact hn _ _ _ hv
    · exact hn _ _ _ hv
  have hd : ∀ w (z v : Exec), takeData w z = .ready r v → v.parser.underWay = false := by
    intro w z v hv
    unfold takeData at hv; split at hv <;> cases hv; exact hp _
  unfold look at h
  split at h
  · cases h
  · simp only at h; split at h
    · cases h
    · exact ho _ _ _ h
    · exact ho _ _ _ h
    · exact hd _ _ _ h
    · exact hd _ _ _ h

/-- A burst at hand has no command under way. -/
theorem atReady_atRest {r : Ready} {s : State} {x : Exec} (h : atReady r s = some x) : x.parser.underWay = false := by
  unfold atReady at h
  split at h
  · cases h
  · split at h
    · split at h <;> cases h; exact look_ready_atRest ‹_›
    all_goals cases h

/-- Counting at one counter reads and writes the counters and the urgent slot alone. -/
theorem bumpCounter_local (e : Event) (k : Nat) (s t : State) (hc : t.counters = s.counters) (hu : t.urgent = s.urgent)
    (hf : t.further = s.further) : bumpCounter e t k =
      { t with counters := (bumpCounter e s k).counters, urgent := (bumpCounter e s k).urgent,
               further := (bumpCounter e s k).further } := by
  obtain ⟨c, u, n, h⟩ := bumpCounter_shape e t k
  have key : (bumpCounter e t k).counters = (bumpCounter e s k).counters ∧
      (bumpCounter e t k).urgent = (bumpCounter e s k).urgent ∧
      (bumpCounter e t k).further = (bumpCounter e s k).further := by
    have hk : t.counter k = s.counter k := by unfold State.counter; rw [hc]
    unfold bumpCounter; simp only [hk]
    split
    · split
      · unfold offerUrgent
        simp only [setCounter_urgent, hu]
        split
        · exact ⟨by simp [State.setCounter, hc], rfl, rfl⟩
        · exact ⟨by simp [State.setCounter, hc], by simp, by simp [hf]⟩
      · exact ⟨by simp [State.setCounter, hc], hu, hf⟩
    · exact ⟨hc, hu, hf⟩
  rw [← key.1, ← key.2.1, ← key.2.2, h]

/-- Counting one event reads and writes the counters and the urgent slot alone. -/
theorem countEvent_local (e : Event) (s t : State) (hc : t.counters = s.counters) (hu : t.urgent = s.urgent)
    (hf : t.further = s.further) : countEvent e t =
      { t with counters := (countEvent e s).counters, urgent := (countEvent e s).urgent,
               further := (countEvent e s).further } := by
  have key : ∀ (l : List Nat) (s t : State), t.counters = s.counters → t.urgent = s.urgent → t.further = s.further →
      l.foldl (bumpCounter e) t =
        { t with counters := (l.foldl (bumpCounter e) s).counters, urgent := (l.foldl (bumpCounter e) s).urgent,
                 further := (l.foldl (bumpCounter e) s).further } := by
    intro l; induction l with
    | nil => intro s t hc hu hf; simp only [List.foldl_nil, ← hc, ← hu, ← hf]
    | cons k l ih =>
      intro s t hc hu hf
      have b := bumpCounter_local e k s t hc hu hf
      rw [List.foldl_cons, List.foldl_cons]
      refine (ih (bumpCounter e s k) (bumpCounter e t k) (by rw [b]) (by rw [b]) (by rw [b])).trans ?_
      rw [b]
  unfold countEvent; split
  · simp only [← hc, ← hu, ← hf]
  · exact key _ s t hc hu hf

/-- Counting a list of events reads and writes the counters and the urgent slot alone. -/
theorem countEvents_local (es : List Event) (s t : State) (hc : t.counters = s.counters) (hu : t.urgent = s.urgent)
    (hf : t.further = s.further) : countEvents es t =
      { t with counters := (countEvents es s).counters, urgent := (countEvents es s).urgent,
               further := (countEvents es s).further } := by
  induction es generalizing s t with
  | nil => simp only [countEvents, List.foldl_nil, ← hc, ← hu, ← hf]
  | cons e es ih =>
    have b := countEvent_local e s t hc hu hf
    rw [countEvents_cons, countEvents_cons]
    refine (ih (countEvent e s) (countEvent e t) (by rw [b]) (by rw [b]) (by rw [b])).trans ?_
    rw [b]

/-- A granted edit whose answer is done completes with that answer at its edit step. -/
theorem editCompletes_of_carryEdit {i : Instr} {r : Ready} {body : State → Answer} {s t : State} {x : Exec}
    {notes : Notes} {words : List Word} (h : editAtHand i s x) (hr : Instr.ready i = some r)
    (he : exec i s = carryEdit r body s) (hb : body (requestEdit (settle s)) = .done t notes words) :
    editCompletes i s x t notes words := by
  obtain ⟨h, hg⟩ := h
  unfold atHand at h; rw [hr] at h
  exact ⟨_, proceed_goes _ _, he.trans (carryEdit_done h hg hb)⟩

/-- A granted edit whose answer is a refusal is refused at its edit step. -/
theorem editRefuses_of_carryEdit {i : Instr} {r : Ready} {body : State → Answer} {s : State} {x : Exec} {code : Code}
    (h : editAtHand i s x) (hr : Instr.ready i = some r) (he : exec i s = carryEdit r body s)
    (hb : body (requestEdit (settle s)) = .refuse code) : editRefuses i s x (requestEdit (settle s)) code := by
  obtain ⟨h, hg⟩ := h
  unfold atHand at h; rw [hr] at h
  exact he.trans (carryEdit_refused h hg hb)

/-- One more sample written raises the fill by one. -/
theorem fill_succ (w i : Count) (h1 : -2 ≤ (w - i).toInt) (h2 : (w - i).toInt ≤ 47) : (w + 1#32 - i).toInt = (w - i).toInt + 1 := by
  have : w + 1#32 - i = (w - i) + 1#32 := by ring_nf
  rw [this]
  generalize w - i = d at *
  rw [BitVec.toInt_add]
  simp only [Int.bmod]
  have : (1#32).toInt = 1 := by decide
  rw [this]
  omega

/-- What the samples of an accepted burst write: the ring places from W onwards, W and the fill, and whether any is discarded. -/
theorem writeSamples_spec (l : List Int) : ∀ (f : Feed), -2 ≤ f.fill → f.fill ≤ 48 → l.length ≤ 32 →
    let n := min l.length (48 - f.fill).toNat
    ∃ ring, (writeSamples l f).1 = { f with ring := ring, written := f.written + BitVec.ofNat 32 n } ∧
      (writeSamples l f).2 = decide (n < l.length) ∧
      (writeSamples l f).1.fill = f.fill + n ∧
      (∀ k < n, Tab.get silence ring ((f.written + BitVec.ofNat 32 k).toNat % 64) = l.getD k 0) ∧
      (∀ place, (∀ k < n, place ≠ (f.written + BitVec.ofNat 32 k).toNat % 64) → Tab.get silence ring place = f.ringAt place) := by
  induction l with
  | nil =>
    intro f h1 h2 _
    refine ⟨f.ring, ?_, ?_, ?_, ?_, ?_⟩ <;> simp [writeSamples, Feed.ringAt]
  | cons x xs ih =>
    intro f h1 h2 h3
    simp only [List.length_cons] at h3
    by_cases hf : f.fill ≤ 47
    · let g : Feed := { f with ring := Tab.put silence f.ring (f.written.toNat % 64) x, written := f.written + 1#32 }
      have hg : g.fill = f.fill + 1 := fill_succ f.written f.index h1 hf
      have hw : writeSamples (x :: xs) f = writeSamples xs g := by simp only [writeSamples]; rw [if_pos hf]
      obtain ⟨ring, e1, e2, e3, e4, e5⟩ := ih g (by omega) (by omega) (by omega)
      have hn : min (x :: xs).length (48 - f.fill).toNat = min xs.length (48 - g.fill).toNat + 1 := by
        rw [hg]; simp only [List.length_cons]; omega
      simp only [hn, hw]
      generalize hm : min xs.length (48 - g.fill).toNat = n at *
      have hnle : n ≤ 31 := by omega
      have hplus : ∀ k, g.written + BitVec.ofNat 32 k = f.written + BitVec.ofNat 32 (k + 1) := by
        intro k; show f.written + 1#32 + _ = _
        rw [BitVec.ofNat_add]; ring
      refine ⟨ring, ?_, ?_, ?_, ?_, ?_⟩
      · rw [e1, hplus]
      · rw [e2]; simp
      · rw [e3, hg]; push_cast; ring
      · intro k hk
        cases k with
        | zero =>
          simp only [List.getD_cons_zero]
          rw [e5]
          · show Tab.get silence (Tab.put silence f.ring (f.written.toNat % 64) x) _ = x
            rw [Tab.get_put]; simp
          · intro k hk'
            rw [hplus]
            simp only [BitVec.toNat_add, BitVec.toNat_ofNat]
            omega
        | succ k =>
          have := e4 k (by omega)
          rw [hplus] at this; rw [this]; simp
      · intro place hp
        rw [e5]
        · show Tab.get silence (Tab.put silence f.ring (f.written.toNat % 64) x) _ = _
          rw [Tab.get_put, if_neg]
          · rfl
          · have := hp 0 (by omega); simpa using this
        · intro k hk; rw [hplus]; exact hp (k+1) (by omega)
    · have h48 : f.fill = 48 := by omega
      have hw : writeSamples (x :: xs) f = (f, true) := by simp only [writeSamples]; rw [if_neg hf]
      refine ⟨f.ring, ?_, ?_, ?_, ?_, ?_⟩ <;> simp [hw, h48, Feed.ringAt]

/-- The feed records after a sample request. -/
theorem requestSample_feed (k : Nat) (s : State) (j : Nat) : (requestSample k s).1.feed j = if j = k then (if (s.feed k).bound = true ∧ (s.feed k).step = none then requestStep s (s.feed k) else s.feed k) else s.feed j := by
  unfold requestSample; simp only
  split
  · rename_i h; by_cases hj : j = k
    · subst hj; simp at h; simp [h]
    · simp [hj]
  · rename_i h
    split
    · rename_i t ht; by_cases hj : j = k
      · subst hj; simp [ht]
      · simp [hj]
    · rename_i ht
      obtain ⟨x, y, z, e⟩ := countEvents_shape (requestEvents s (s.feed k)) (s.setFeed k (requestStep s (s.feed k)))
      simp only; rw [e]
      show (s.setFeed k (requestStep s (s.feed k))).feed j = _
      unfold State.setFeed State.feed
      simp only [Tab.get_put]
      by_cases hj : j = k
      · subst hj; simp at h; simp only [if_true]; rw [if_pos]; exact ⟨h, ht⟩
      · simp [hj]

/-- A feed's step keeps its lifecycle and leaves the step taken. -/
theorem requestStep_keeps (s : State) (f : Feed) : (requestStep s f).lifecycle = f.lifecycle ∧ (requestStep s f).step.isSome = true := by
  unfold requestStep; split
  · exact ⟨rfl, rfl⟩
  · split <;> simp [stepped, starvedFeed]

/-- After a job start that is due no job start is due. -/
theorem startIfDue_rests (s : State) : startDue (startIfDue s) = false := by
  unfold startIfDue
  split
  · rename_i h
    cases hj : s.jobs with
    | nil => simp [startDue, hj] at h
    | cons j rest =>
      rw [startJob_cons s j rest hj]
      unfold startDue
      obtain ⟨f, l, e⟩ := placePurge_shape (requestPort .walker { s with jobs := rest, walker := .running (freshJob j) })
      rw [e]; simp
  · rename_i h; simpa using h

/-- Without a job start due nothing starts. -/
theorem startIfDue_of_not (s : State) (h : startDue s = false) : startIfDue s = s := by unfold startIfDue; rw [if_neg (by simp [h])]

/-- A report held with a place free: what the posting leads to, its next job started when one is queued (R124, R118). -/
theorem postIfDue_of_holding {s : State} {r : JobReport} (h : s.walker = .holding r) (p : s.placeFree = true) :
    postIfDue s = startIfDue { s with replies := s.replies ++ [.report r], walker := .idle } := by
  simp [postIfDue, postDue, postHeld, h, p]

/-- Without a report due nothing is posted. -/
theorem postIfDue_of_not (s : State) (h : postDue s = false) : postIfDue s = s := by unfold postIfDue; rw [if_neg (by simp [h])]

/-- An IDLE walker holds no report, whatever job starts. -/
theorem postDue_of_idle (v : State) (h : v.walker = .idle) : postDue (startIfDue v) = false := by
  unfold startIfDue; split
  · rename_i q
    cases hj : v.jobs with
    | nil => simp [startDue, hj] at q
    | cons j rest =>
      rw [startJob_cons _ j rest hj]
      obtain ⟨f, l, e⟩ := placePurge_shape (requestPort .walker { v with jobs := rest, walker := .running (freshJob j) })
      rw [e]; simp [postDue]
  · simp [postDue, h]

/-- After a posting neither a job start nor a posting is due. -/
theorem postIfDue_rests (s : State) (h : startDue s = false) : startDue (postIfDue s) = false ∧ postDue (postIfDue s) = false := by
  unfold postIfDue; split
  · unfold postHeld; split
    · rename_i r hr
      refine ⟨startIfDue_rests _, ?_⟩
      exact postDue_of_idle _ rfl
    · rename_i q; simp [postDue, q] at *
    · rename_i q; simp [postDue, q] at *
  · rename_i q; exact ⟨h, by simpa using q⟩

/-- A take uses one reply-queue place and leaves the walker as it was. -/
theorem takeBurst_more (s : State) (h : takeDue s = true) : (takeBurst s).replies.length + (takeBurst s).reserved = s.replies.length + 1 ∧
   (takeBurst s).inbound.length + 1 = s.inbound.length ∧ (takeBurst s).jobs = s.jobs ∧ (takeBurst s).walker = s.walker := by
  unfold takeDue at h
  simp at h
  unfold takeBurst
  split
  · rename_i q; simp [q] at h
  · rename_i b rest q
    have hp := proceed_places (burstStart b) { s with inbound := rest }
    obtain ⟨p, r, e⟩ := proceed_shape (burstStart b) { s with inbound := rest }
    refine ⟨hp, ?_, ?_, ?_⟩
    · rw [e, q]; rfl
    · rw [e]
    · rw [e]

/-- After enough takes none is due. -/
theorem takeIfDue_rests (n : Nat) : ∀ s : State, s.inbound.length ≤ n → startDue s = false → postDue s = false →
   startDue (takeIfDue n s) = false ∧ postDue (takeIfDue n s) = false ∧ takeDue (takeIfDue n s) = false ∧ (takeIfDue n s).closeDue = s.closeDue := by
  induction n with
  | zero =>
    intro s h h1 h2
    refine ⟨h1, h2, ?_, rfl⟩
    have : s.inbound = [] := by simpa using h
    simp [takeIfDue, takeDue, this]
  | succ n ih =>
    intro s h h1 h2
    unfold takeIfDue; split
    · rename_i hd
      obtain ⟨a, b, c, d⟩ := takeBurst_more s hd
      have e1 : startDue (takeBurst s) = false := by unfold startDue at h1 ⊢; rw [c, d]; exact h1
      have e2 : postDue (takeBurst s) = false := by
        unfold postDue at h2 ⊢; rw [d]
        cases hw : s.walker with
        | holding r =>
          rw [hw] at h2; simp only at h2 ⊢
          have : s.proc = none := by simp [takeDue] at hd; exact hd.1.1
          unfold State.placeFree at h2 ⊢
          simp [State.reserved, this] at h2
          rw [a]; simp; omega
        | idle => rfl
        | running j => rfl
      obtain ⟨q1, q2, q3, q4⟩ := ih (takeBurst s) (by omega) e1 e2
      refine ⟨q1, q2, q3, q4.trans ?_⟩
      obtain ⟨i, p, r, e⟩ := takeBurst_shape s; rw [e]
    · rename_i q; exact ⟨h1, h2, by simpa using q, rfl⟩

/-- Nothing is due at once. -/
theorem quiet_iff (s : State) : s.quiet = true ↔ s.closeDue = [] ∧ startDue s = false ∧ postDue s = false ∧ takeDue s = false := by
  simp [State.quiet, and_assoc]

/-- A feed's step reads the coefficient banks alone. -/
theorem requestStep_coef (s t : State) (f : Feed) (h : t.coef = s.coef) : requestStep t f = requestStep s f ∧ requestEvents t f = requestEvents s f := by
  have hc : ∀ b r k, t.coefWord b r k = s.coefWord b r k := by intro b r k; unfold State.coefWord; rw [h]
  have hs : filterScaled t f = filterScaled s f := by
    unfold filterScaled filterSum tapCoef; simp only [hc]
  constructor
  · unfold requestStep; rw [hs]
  · unfold requestEvents; rw [hs]

/-- The value of a sample request. -/
theorem requestSample_val (k : Nat) (s : State) : (requestSample k s).2 = if (s.feed k).bound = true then (match (s.feed k).step with | some t => t.sample | none => ((requestStep s (s.feed k)).step.map StepTaken.sample).getD 0) else 0 := by
  unfold requestSample; simp only
  by_cases h : (s.feed k).bound = true
  · rw [if_neg (by simp [h]), if_pos h]; split <;> rename_i q <;> simp [q]
  · rw [if_pos (by simpa using h), if_neg h]

/-- Counting two lists of events in turn. -/
theorem countEvents_append (a b : List Event) (s : State) : countEvents (a ++ b) s = countEvents b (countEvents a s) := by
  unfold countEvents; rw [List.foldl_append]

/-- A list after the close. -/
theorem closePeriod_list (u : State) (c : Nat) (h : c < 64) : (closePeriod u).list c = (listAtClose u c).map rampStep := by
  obtain ⟨x, y, z, e⟩ := closePeriod_shape u
  rw [e]; unfold State.list closeLists; simp only [Tab.get_update]; rw [if_pos h]

/-- A feed record after the close. -/
theorem closePeriod_feed (u : State) (k : Nat) : (closePeriod u).feed k = if k < 128 then closeFeed k (u.feed k) else u.feed k := by
  obtain ⟨x, y, z, e⟩ := closePeriod_shape u
  rw [e]; unfold State.feed; simp only [Tab.get_update]

/-- A delay line after the close. -/
theorem closePeriod_line (u : State) (c : Nat) (h : c < 64) : (closePeriod u).line c = if wasComputed u c then u.line c else writeLine u.count 0 (u.line c) := by
  obtain ⟨x, y, z, e⟩ := closePeriod_shape u
  rw [e]; unfold State.line closeLines; simp only [Tab.get_update]; rw [if_pos h]

/-- A dip after the close. -/
theorem closePeriod_dip (u : State) (c : Nat) (h : c < 64) : (closePeriod u).dip c = dipStep (u.dip c) := by
  obtain ⟨x, y, z, e⟩ := closePeriod_shape u
  rw [e]; unfold State.dip; simp only [Tab.get_update]; rw [if_pos h]

/-- What the close owes. -/
theorem closePeriod_due (u : State) : (closePeriod u).closeDue = closeOwes u := by
  obtain ⟨x, y, z, e⟩ := closePeriod_shape u; rw [e]

/-- The servo counter after the close. -/
theorem closePeriod_servo (u : State) : (closePeriod u).servoCount = if u.servoCount + 1 < u.servoN then u.servoCount + 1 else u.servoCount := by
  obtain ⟨x, y, z, e⟩ := closePeriod_shape u; rw [e]

/-- The members of what a close owes, by kind. -/
theorem mem_closeOwes (u : State) (w : CloseWork) : w ∈ closeOwes u ↔ (∃ c < 64, w ∈ listEnds u c) ∨ (∃ k ∈ closeFades u, w = .fadeCompletion k) ∨ (∃ c < 64, w ∈ dipEnds u c) ∨ (¬ (u.servoCount + 1 < u.servoN) ∧ w = .servoExpiry) := by
  unfold closeOwes
  simp only [List.mem_append, List.mem_flatMap, List.mem_range, List.mem_map]
  constructor
  · rintro (((h | ⟨k, h, rfl⟩) | h) | h)
    · exact .inl h
    · exact .inr (.inl ⟨k, h, rfl⟩)
    · exact .inr (.inr (.inl h))
    · split at h
      · simp at h
      · rename_i q; exact .inr (.inr (.inr ⟨q, by simpa using h⟩))
  · rintro (h | ⟨k, h, rfl⟩ | h | ⟨h, rfl⟩)
    · exact .inl (.inl (.inl h))
    · exact .inl (.inl (.inr ⟨k, h, rfl⟩))
    · exact .inl (.inr h)
    · right; rw [if_neg h]; simp

/-- The ends of ramps that a close owes on a list. -/
theorem mem_listEnds (u : State) (c : Nat) (w : CloseWork) : w ∈ listEnds u c ↔ ∃ e ∈ u.list c, (e.readSince = true ∨ u.isSummed c = false) ∧ e.remaining = 1 ∧ w = if e.code = 0 then .autoRelease c e.feed else .rampEnd c e.feed := by
  unfold listEnds listAtClose rampSteps readEntries
  cases hs : u.isSummed c
  · simp only [Bool.false_eq_true, if_false, List.mem_map, List.mem_filter]
    constructor
    · rintro ⟨e, ⟨⟨d, hd, rfl⟩, h⟩, rfl⟩
      simp at h
      exact ⟨d, hd, .inr trivial, h.2, rfl⟩
    · rintro ⟨e, h1, h2, h3, rfl⟩
      exact ⟨{ e with readSince := true }, ⟨⟨e, h1, rfl⟩, by simp [h3]⟩, rfl⟩
  · simp only [if_true, List.mem_map, List.mem_filter]
    constructor
    · rintro ⟨e, ⟨hd, h⟩, rfl⟩
      simp at h
      exact ⟨e, hd, .inl h.1.1, h.2, rfl⟩
    · rintro ⟨e, h1, h2, h3, rfl⟩
      simp at h2
      exact ⟨e, ⟨h1, by simp [h3, h2]⟩, rfl⟩

/-- The ends of dips that a close owes on a channel. -/
theorem mem_dipEnds (u : State) (c : Nat) (w : CloseWork) : w ∈ dipEnds u c ↔ (∃ l p, u.dip c = .falling l p ∧ l ≤ 1 ∧ w = .dipDelayMove c) ∨ (∃ l, u.dip c = .rising l ∧ 31 ≤ l ∧ w = .dipRiseEnd c) := by
  unfold dipEnds
  cases u.dip c with
  | still => simp
  | falling l p =>
    simp only
    by_cases h : 1 < l
    · rw [if_pos h]; simp; omega
    · rw [if_neg h]; simp; omega
  | rising l =>
    simp only
    by_cases h : l + 1 < 32
    · rw [if_pos h]; simp; omega
    · rw [if_neg h]; simp; omega

end Sys2Proof.Machine
end

