-- ==== Sys2Proof/Laws/FeedMoves.lean ====
section
/-! SUPPORT. What the moves of the part can do to a feed record, said once. -/
namespace Sys2Proof.Machine

/-- One change of a feed record: what each command, arrival, period step and end of a life does to it. -/
inductive FeedDid : Feed → Feed → Prop
  | bound {f : Feed} (id : Word) (pos nominal bank : Nat) (h : f.lifecycle = .free) (hn : 2 ^ 22 ≤ nominal ∧ nominal ≤ 2 ^ 25) (hb : bank ≤ 3) : FeedDid f (boundFeed id pos nominal bank)
  | unbound {f : Feed} (c : Nat) (h : f.lifecycle = .live) : FeedDid f { f with lifecycle := .fading, purgePending := some false, fade := some (fadeStart c) }
  | rated {f : Feed} (n b t : Nat) (h : f.bound = true) (hn : 2 ^ 22 ≤ n ∧ n ≤ 2 ^ 25) (hb : b ≤ 3) (ht : 1 ≤ t ∧ t ≤ 48) : FeedDid f (flowTest { f with nominal := n, bank := b, threshold := t })
  | settings {f : Feed} (on : Bool) (a b c : Word) : FeedDid f (servoSettings on a b c f)
  | accepted {f : Feed} (seq : Nat) (l : List Int) (h : l.length ≤ 32) (hb : f.bound = true) : FeedDid f (acceptBurst f seq l)
  | stale {f : Feed} : FeedDid f { f with stales := bump16 f.stales }
  | requested {f : Feed} (s : State) (h : f.bound = true) (hs : f.step = none) : FeedDid f (requestStep s f)
  | closed {f : Feed} : FeedDid f (closeFeed 0 f)
  | purging {f : Feed} : FeedDid f (purgingFeed f)
  | freed {f : Feed} : FeedDid f freeFeed
  | pended {f : Feed} : FeedDid f { f with fade := f.fade.map (fun d => { d with current := 0, remaining := 0 }), purgePending := some true }
  | served {f : Feed} : FeedDid f (servoFeed 0 f)

/-- Changes of a feed record one after the other. -/
abbrev FeedDids := Relation.ReflTransGen FeedDid

/-- Three bytes make a sample. -/
theorem samplesOf_len : ∀ l : List Byte, (samplesOf l).length = l.length / 3
  | [] => rfl
  | [_] => by simp [samplesOf]
  | [_, _] => by simp [samplesOf]
  | a :: b :: c :: r => by
    simp only [samplesOf, List.length_cons, samplesOf_len r]; omega

/-- A received audio burst carries at most 32 samples. -/
theorem receive_audio {bytes : List Byte} {id : Word} {seq : Nat} {l : List Int} (h : receive bytes = .audio id seq l) : l.length ≤ 32 := by
  unfold receive at h
  split at h
  · cases h
  · split at h
    · cases h
    · split at h
      · split at h
        · rename_i ha
          cases h
          unfold audioBodyAgrees at ha
          simp only [decide_eq_true_eq] at ha
          rw [samplesOf_len]
          have : (bodyOf bytes).length ≤ bodyLength bytes := by unfold bodyOf; simp
          simp only [List.length_drop]; omega
        · cases h
      · split at h
        · split at h <;> cases h
        · cases h

/-- What `setFeed` can do to the feed records. -/
theorem setFeed_feeds (s : State) (k : Nat) (f : Feed) (h : FeedDids (s.feed k) f) (j : Nat) : FeedDids (s.feed j) ((s.setFeed k f).feed j) := by
  have : (s.setFeed k f).feed j = if j = k then f else s.feed j := by unfold State.setFeed State.feed; simp only [Tab.get_put]
  rw [this]; split
  · rename_i e; subst e; exact h
  · exact .refl

/-- What `appendPurge` can do to the feed records. -/
theorem appendPurge_feeds (slot : Nat) (s : State) (j : Nat) : FeedDids (s.feed j) ((appendPurge slot s).feed j) :=
  setFeed_feeds s slot _ (.single .purging) j

/-- What `startIfDue` can do to the feed records. -/
theorem startIfDue_feeds (s : State) (j : Nat) : FeedDids (s.feed j) ((startIfDue s).feed j) := by
  unfold startIfDue startJob; split
  · split
    · exact .refl
    · unfold placePurge; split
      · exact appendPurge_feeds _ _ _
      · exact .refl
  · exact .refl

/-- What `postIfDue` can do to the feed records. -/
theorem postIfDue_feeds (s : State) (j : Nat) : FeedDids (s.feed j) ((postIfDue s).feed j) := by
  unfold postIfDue postHeld; split
  · split
    · exact startIfDue_feeds { s with replies := s.replies ++ [.report ‹_›], walker := .idle } j
    · exact .refl
    · exact .refl
  · exact .refl

/-- What `endJob` can do to the feed records. -/
theorem endJob_feeds (s : State) (j : Nat) : FeedDids (s.feed j) ((endJob s).feed j) := by
  rw [endJob_eq]; exact startIfDue_feeds (jobEnded s) j

/-- What `endWithReport` can do to the feed records. -/
theorem endWithReport_feeds (r : JobReport) (s : State) (j : Nat) : FeedDids (s.feed j) ((endWithReport r s).feed j) := by
  rw [endWithReport_eq]; split
  · exact startIfDue_feeds (jobEnded { s with replies := s.replies ++ [.report r] }) j
  · exact .refl

/-- What `endRecode` can do to the feed records. -/
theorem endRecode_feeds (r : RecodeJob) (a b c : Nat) (d : Bool) (s : State) (j : Nat) : FeedDids (s.feed j) ((endRecode r a b c d s).feed j) := by
  unfold endRecode; split
  · exact endWithReport_feeds _ _ _
  · exact endJob_feeds _ _

/-- What `recodeNext` can do to the feed records. -/
theorem recodeNext_feeds (r : RecodeJob) (f a b c : Nat) (s : State) (j : Nat) : FeedDids (s.feed j) ((recodeNext r f a b c s).feed j) := by
  unfold recodeNext; split
  · exact endRecode_feeds _ _ _ _ _ _ _
  · exact .refl

/-- The feed records after `countEvent`. -/
theorem countEvent_feed (e : Event) (s : State) (j : Nat) : (countEvent e s).feed j = s.feed j := by
  obtain ⟨_, _, _, h⟩ := countEvent_shape e s; rw [h]; rfl

/-- The feed records after `countEvents`. -/
theorem countEvents_feed (e : List Event) (s : State) (j : Nat) : (countEvents e s).feed j = s.feed j := by
  obtain ⟨_, _, _, h⟩ := countEvents_shape e s; rw [h]; rfl

/-- What `recodeOn` can do to the feed records. -/
theorem recodeOn_feeds (r : RecodeJob) (f a b c : Nat) (s : State) (j : Nat) : FeedDids (s.feed j) ((recodeOn r f a b c s).feed j) := by
  unfold recodeOn; split
  · exact endRecode_feeds _ _ _ _ _ _ _
  · simp only; split
    · have := recodeNext_feeds r (‹MixEntry›.feed + 1) (a - 1) b (c + 1) (countEvent .filtered s) j
      rw [countEvent_feed] at this; exact this
    · have e : ∀ p q m n, (retarget p q m n s).feed j = s.feed j := fun _ _ _ _ => rfl
      rw [← e]; exact recodeNext_feeds _ _ _ _ _ _ _

/-- What `scanOn` can do to the feed records. -/
theorem scanOn_feeds (r : ScanJob) (f a : Nat) (s : State) (j : Nat) : FeedDids (s.feed j) ((scanOn r f a s).feed j) := by
  unfold scanOn; split
  · exact endWithReport_feeds _ _ _
  · simp only; split
    · exact endWithReport_feeds _ _ _
    · split
      · exact endWithReport_feeds _ _ _
      · exact .refl

/-- What `purgeOn` can do to the feed records. -/
theorem purgeOn_feeds (slot c : Nat) (s : State) (j : Nat) : FeedDids (s.feed j) ((purgeOn slot c s).feed j) := by
  have hr : ∀ j, (releaseRoute c slot s).feed j = s.feed j := by intro j; unfold releaseRoute; split <;> rfl
  unfold purgeOn; simp only; split
  · refine Relation.ReflTransGen.trans ?_ (endJob_feeds _ _)
    rw [← hr]
    unfold freeSlot; split
    · exact setFeed_feeds ((releaseRoute c slot s).setDirEntry _ none) slot freeFeed (.single .freed) j
    · exact setFeed_feeds _ slot freeFeed (.single .freed) j
  · show FeedDids _ ((releaseRoute c slot s).feed j); rw [hr]

/-- What `doEnd` can do to the feed records. -/
theorem doEnd_feeds (w : CloseWork) (s : State) (j : Nat) : FeedDids (s.feed j) ((doEnd w s).feed j) := by
  cases w with
  | fadeCompletion f =>
    unfold doEnd fadeFinish; simp only; split
    · exact appendPurge_feeds _ _ _
    · exact setFeed_feeds _ _ _ (.single .pended) _
  | servoExpiry =>
    have : (doEnd .servoExpiry s).feed j = if j < 128 then servoFeed j (s.feed j) else s.feed j := by
      simp only [doEnd, servoExpire]; unfold State.feed; simp only [Tab.get_update]
    rw [this]; split
    · exact .single .served
    · exact .refl
  | rampEnd c f => exact .refl
  | autoRelease c f => unfold doEnd releaseRoute; simp only; split <;> exact .refl
  | dipDelayMove c => unfold doEnd dipMove; simp only; split <;> exact .refl
  | dipRiseEnd c => unfold doEnd dipEnd; simp only; split <;> exact .refl

/-- What `requestSample` can do to the feed records. -/
theorem requestSample_feeds (k : Nat) (s : State) (j : Nat) : FeedDids (s.feed j) ((requestSample k s).1.feed j) := by
  rw [requestSample_feed]; split
  · rename_i e; subst e; split
    · rename_i h; exact .single (.requested s h.1 h.2)
    · exact .refl
  · exact .refl

/-- What `sumEntries` can do to the feed records. -/
theorem sumEntries_feeds (l : List MixEntry) : ∀ (s : State) (a : Int) (j : Nat), FeedDids (s.feed j) ((sumEntries l s a).1.feed j) := by
  induction l with
  | nil => intro s a j; exact .refl
  | cons e es ih => intro s a j; unfold sumEntries; exact (requestSample_feeds _ _ _).trans (ih _ _ _)

/-- The feed records after `markClip`. -/
theorem markClip_feed (c : Nat) (b : Bool) (s : State) (j : Nat) : (markClip c b s).feed j = s.feed j := by
  obtain ⟨_, _, _, _, h⟩ := markClip_shape c b s; rw [h]; rfl

/-- What `computeChannel` can do to the feed records. -/
theorem computeChannel_feeds (c : Nat) (s : State) (j : Nat) : FeedDids (s.feed j) ((computeChannel c s).feed j) := by
  unfold computeChannel; split
  · unfold overrideChannel; split
    · simp only
      have := requestSample_feeds s.ovCurrent.monitor s j
      have e : ∀ v X, (lineEvent c v X).feed j = X.feed j := fun _ _ => rfl
      rw [e, markClip_feed]; exact this
    · exact .refl
  · unfold sumChannel; simp only
    have := sumEntries_feeds (s.list c) s 0 j
    have e : ∀ v X, (lineEvent c v X).feed j = X.feed j := fun _ _ => rfl
    rw [e, markClip_feed]; exact this

/-- A clamped step lies in its range. -/
theorem nominalOf_range (a b : Word) : 2 ^ 22 ≤ nominalOf a b ∧ nominalOf a b ≤ 2 ^ 25 := by
  unfold nominalOf clampNat; omega

/-- The feed records after `applyInterval`. -/
theorem applyInterval_feed (a : Word) (s : State) (j : Nat) : (applyInterval a s).feed j = s.feed j := by
  obtain ⟨_, _, h⟩ := applyInterval_shape a s; rw [h]; rfl

/-- What `unbindAnswer` can do to the feed records. -/
theorem unbindAnswer_feeds {a b : Word} {s t : State} {n w} (h : unbindAnswer a b s = .done t n w) (j : Nat) : FeedDids (s.feed j) (t.feed j) := by
  unfold unbindAnswer at h; split at h
  · cases h
  · split at h
    · cases h
    · rename_i hl; cases h
      exact setFeed_feeds _ _ _ (.single (.unbound _ (by simpa using hl))) _

/-- What `audioArrival` can do to the feed records. -/
theorem audioArrival_feeds (id : Word) (seq : Nat) (l : List Int) (hl : l.length ≤ 32) (s : State) (j : Nat) : FeedDids (s.feed j) ((audioArrival id seq l s).feed j) := by
  unfold audioArrival; split
  · rw [countEvent_feed]
  · simp only; split
    · exact .refl
    · rename_i k _ hb
      split
      · rw [countEvents_feed]; exact setFeed_feeds _ _ _ (.single (.accepted _ _ hl (by simpa using hb))) _
      · rw [countEvent_feed]; exact setFeed_feeds _ _ _ (.single .stale) _

/-- What `applyDeferred` can do to the feed records. -/
theorem applyDeferred_feeds {d : Deferred} {s t : State} {n w} (h : applyDeferred d s = .done t n w) (j : Nat) : FeedDids (s.feed j) (t.feed j) := by
  cases d with
  | setGain => obtain ⟨l, p, x, y, z, e⟩ := setGainAnswer_shape h; rw [e]; exact .refl
  | clearOutput => obtain ⟨l, x, y, z, e⟩ := clearOutputAnswer_shape h; rw [e]; exact .refl
  | setMaster => obtain ⟨m, e⟩ := setMasterAnswer_shape h; rw [e]; exact .refl
  | setInvert => obtain ⟨m, e⟩ := setInvertAnswer_shape h; rw [e]; exact .refl
  | setDelay => obtain ⟨m, m', e⟩ := setDelayAnswer_shape h; rw [e]; exact .refl
  | unbind => exact unbindAnswer_feeds h j

/-- What `duePass` can do to the feed records. -/
theorem duePass_feeds (n : Nat) (s : State) (j : Nat) : FeedDids (s.feed j) ((duePass n s).feed j) := by
  refine duePass_keeps (fun t => FeedDids (s.feed j) (t.feed j)) ?_ ?_ ?_ n s .refl
  · intro c rest t _ h; exact h
  · intro d t v n w hd h; exact h.trans (applyDeferred_feeds hd j)
  · intro c code t h; obtain ⟨_, _, _, e⟩ := cueFault_shape c code t; rw [e]; exact h

/-- What `startPeriod` can do to the feed records. -/
theorem startPeriod_feeds (s : State) (j : Nat) : FeedDids (s.feed j) ((startPeriod s).feed j) := by
  unfold startPeriod; simp only
  have e : ∀ u : State, State.feed { u with ovCurrent := u.ovPending } j = u.feed j := fun _ => rfl
  rw [e]
  have h0 : s.feed j = (countEvent .outputPeriod { s with count := s.count + 1#32, phase := .computing, work := [] }).feed j := by rw [countEvent_feed]; rfl
  rw [h0]
  generalize countEvent .outputPeriod { s with count := s.count + 1#32, phase := .computing, work := [] } = X
  exact duePass_feeds _ X j

/-- Every move of the part changes a feed record by the listed changes only. -/
theorem did_feeds {s t : State} (h : Did s t) (j : Nat) : FeedDids (s.feed j) (t.feed j) := by
  cases h with
  | goOn _ x h => obtain ⟨_, _, e⟩ := proceed_shape x s; rw [e]; exact .refl
  | stop => exact .refl
  | take h => obtain ⟨_, _, _, e⟩ := takeBurst_shape s; rw [e]; exact .refl
  | start => exact startIfDue_feeds _ _
  | post => exact postIfDue_feeds _ _
  | ended _ w h => exact doEnd_feeds w { s with closeDue := s.closeDue.erase w } j
  | request _ p => obtain ⟨_, e⟩ := requestPort_shape p s; rw [e]; exact .refl
  | release => exact .refl
  | data _ w => obtain ⟨_, _, _, _, _, _, _, _, _, e⟩ := dataWrite_shape w s; rw [e]; exact .refl
  | softReset => exact .single (show FeedDid (s.feed j) freeFeed from .freed)
  | clearFeedLink => exact .refl
  | feedLinkDown => exact .refl
  | speakerLinkUp => exact .refl
  | speakerLinkDown => exact .refl
  | powerOn => exact .single (show FeedDid (s.feed j) freeFeed from .freed)
  | arrival _ b =>
    unfold handOn; split
    · rw [countEvent_feed]; exact .refl
    · rename_i hr; exact audioArrival_feeds _ _ _ (receive_audio hr) { s with feedPartial := [] } j
    · split
      · unfold inboundArrival; split
        · exact .refl
        · rw [countEvent_feed]; exact .refl
      · unfold throughArrival; split
        · exact .refl
        · rw [countEvent_feed]; exact .refl
  | reply _ b => obtain ⟨_, _, _, _, e⟩ := relayArrival_shape b { s with speakerPartial := [] }; rw [e]; exact .refl
  | replyFailed => exact .refl
  | periodStart => exact startPeriod_feeds _ _
  | compute _ c => exact computeChannel_feeds _ _ _
  | passOver => exact .refl
  | frame => exact .refl
  | foreign => exact .refl
  | close => rw [closePeriod_feed]; split
             · exact .single .closed
             · exact .refl
  | purge _ slot c => exact purgeOn_feeds _ _ _ _
  | recode _ j f r c k => exact recodeOn_feeds _ _ _ _ _ _ _
  | scan _ j f r => exact scanOn_feeds _ _ _ _ _
  | choose => obtain ⟨_, _, _, _, _, _, e⟩ := chooseItem_shape s; rw [e]; exact .refl
  | laneFree => exact .refl
  | bind k =>
    unfold bindAnswer at k; split at k
    · cases k
    · split at k
      · cases k
      · split at k
        · cases k
        · split at k
          · cases k
          · rename_i h1 h2 _ _ way _
            cases k
            refine setFeed_feeds (s.setDirEntry _ _) _ _ (.single (.bound _ _ _ _ (by simpa using h2) (nominalOf_range _ _) (by omega))) j
  | unbind k => exact unbindAnswer_feeds k j
  | setMask k => rw [setMaskAnswer_shape k]; exact .refl
  | setRate k =>
    unfold setRateAnswer at k; split at k
    · cases k
    · split at k
      · cases k
      · rename_i h1 h2; cases k
        exact setFeed_feeds _ _ _ (.single (.rated _ _ _ (by simpa using h2) (nominalOf_range _ _) (by omega) (by unfold clampNat; omega))) j
  | setServo k =>
    unfold setServoAnswer servoDone at k
    split at k
    · cases k
    · split at k
      · cases k; rw [applyInterval_feed]
      · split at k
        · cases k
        · split at k
          · cases k
          · cases k; rw [applyInterval_feed]; exact setFeed_feeds _ _ _ (.single (.settings _ _ _ _)) j
  | setGain k => obtain ⟨_, _, _, _, _, q⟩ := setGainAnswer_shape k; rw [q]; exact .refl
  | clearOutput k => obtain ⟨_, _, _, _, q⟩ := clearOutputAnswer_shape k; rw [q]; exact .refl
  | setFilter k => obtain ⟨_, q⟩ := setFilterAnswer_shape k; rw [q]; exact .refl
  | setMaster k => obtain ⟨_, q⟩ := setMasterAnswer_shape k; rw [q]; exact .refl
  | setInvert k => obtain ⟨_, q⟩ := setInvertAnswer_shape k; rw [q]; exact .refl
  | setOverride k => obtain ⟨_, q⟩ := setOverrideAnswer_shape k; rw [q]; exact .refl
  | cue k => obtain ⟨_, _, _, _, _, _, _, q⟩ := atAnswer_shape k; rw [q]; exact .refl
  | cancelBatch k => rw [cancelBatchAnswer_shape k]; exact .refl
  | flushCues k => rw [flushCuesAnswer_shape k]; exact .refl
  | jobRecode => exact .refl
  | jobScan => exact .refl
  | setArb k => obtain ⟨_, _, _, q⟩ := setArbAnswer_shape k; rw [q]; exact .refl
  | setActive k => obtain ⟨_, q⟩ := setActiveAnswer_shape k; rw [q]; exact .refl
  | setDelay k => obtain ⟨_, _, q⟩ := setDelayAnswer_shape k; rw [q]; exact .refl
  | setTable k => obtain ⟨_, _, q⟩ := setTableAnswer_shape k; rw [q]; exact .refl
  | setRow k => obtain ⟨_, q⟩ := setRowAnswer_shape k; rw [q]; exact .refl
  | setColumn k => obtain ⟨_, q⟩ := setColumnAnswer_shape k; rw [q]; exact .refl
  | read k => obtain ⟨_, _, q⟩ := readAnswer_shape k; rw [q]; exact .refl
  | patchBegin k => obtain ⟨_, q⟩ := patchBeginAnswer_shape k; rw [q]; exact .refl
  | patchEnd k => obtain ⟨_, _, q⟩ := patchEndAnswer_shape k; rw [q]; exact .refl
  | setRelay k => obtain ⟨_, q⟩ := setRelayAnswer_shape k; rw [q]; exact .refl
  | counterSelect k => obtain ⟨_, q⟩ := counterSelectAnswer_shape k; rw [q]; exact .refl
  | counterLoad k => obtain ⟨_, q⟩ := counterLoadAnswer_shape k; rw [q]; exact .refl

end Sys2Proof.Machine
end

