-- ==== Sys2Proof/Laws/MixMoves.lean ====
section
/-! SUPPORT. What the moves of the part can do to the mix map, said once. -/
namespace Sys2Proof.Machine

/-- One change of a mix entry. -/
inductive EntryDid (s : State) : MixEntry → MixEntry → Prop
  | same (e) : EntryDid s e e
  | started (e) (code ramp : Nat) (h : code < 256 ∨ ∃ t c d, d ∈ s.list c ∧ code = s.recode t d.code) : EntryDid s e (rampStart s code ramp e)
  | read (e) : EntryDid s e { e with readSince := true }
  | final (e) : EntryDid s e (rampFinal e)

/-- Two states with the same lists, pool, gain law and recode tables. -/
structure SameMix (s t : State) : Prop where
  lists : t.lists = s.lists
  pool : t.pool = s.pool
  law : t.gainLaw = s.gainLaw
  ra : t.recodeA = s.recodeA
  rb : t.recodeB = s.recodeB

/-- One change of the mix map and of the tables it is read through. -/
inductive MixDid : State → State → Prop
  | keep {s t : State} (h : SameMix s t) : MixDid s t
  | map (s : State) (c : Nat) (g : MixEntry → MixEntry) (hg : ∀ e ∈ s.list c, EntryDid s e (g e)) : MixDid s (s.setList c ((s.list c).map g))
  | insert (s : State) (c k code ramp : Nat) (hc : c < 64) (hn : entryFor k (s.list c) = none) (hp : s.pool ≠ 0) (h : code < 256) : MixDid s (insertRoute c k code ramp s)
  | remove (s : State) (c f : Nat) : MixDid s (releaseRoute c f s)
  | close (s : State) : MixDid s { s with lists := closeLists s }
  | reset (s : State) : MixDid s { s with lists := [], pool := 1024 }
  | power (s : State) : MixDid s { s with lists := [], pool := 1024, gainLaw := [], recodeA := [], recodeB := [] }
  | data (s : State) (w : Word) : MixDid s (dataWrite w s)

/-- Changes of the mix map one after the other. -/
abbrev MixDids := Relation.ReflTransGen MixDid

/-- A change that leaves the mix map. -/
theorem mixKept {s t : State} (h : SameMix s t) : MixDids s t := .single (.keep h)

/-- Changes, then one that leaves the mix map. -/
theorem mixThenKept {s u t : State} (h : MixDids s u) (k : SameMix u t) : MixDids s t := h.tail (.keep k)

/-- A change that leaves the mix map, then others. -/
theorem mixKeptThen {s u t : State} (k : SameMix s u) (h : MixDids u t) : MixDids s t := Relation.ReflTransGen.trans (mixKept k) h

/-- `countEvent` leaves the mix map. -/
theorem countEvent_sameMix (e : Event) (s : State) : SameMix s (countEvent e s) := by
  obtain ⟨_, _, _, h⟩ := countEvent_shape e s; rw [h]; exact ⟨rfl, rfl, rfl, rfl, rfl⟩

/-- `countEvents` leaves the mix map. -/
theorem countEvents_sameMix (e : List Event) (s : State) : SameMix s (countEvents e s) := by
  obtain ⟨_, _, _, h⟩ := countEvents_shape e s; rw [h]; exact ⟨rfl, rfl, rfl, rfl, rfl⟩

/-- `startIfDue` leaves the mix map. -/
theorem startIfDue_sameMix (s : State) : SameMix s (startIfDue s) := by
  obtain ⟨_, _, _, _, e⟩ := startIfDue_shape s; rw [e]; exact ⟨rfl, rfl, rfl, rfl, rfl⟩

theorem SameMix.trans {s t u : State} (a : SameMix s t) (b : SameMix t u) : SameMix s u :=
  ⟨b.lists.trans a.lists, b.pool.trans a.pool, b.law.trans a.law, b.ra.trans a.ra, b.rb.trans a.rb⟩

/-- `endJob` leaves the mix map. -/
theorem endJob_sameMix (s : State) : SameMix s (endJob s) := by
  rw [endJob_eq]; exact SameMix.trans (show SameMix s (jobEnded s) from ⟨rfl, rfl, rfl, rfl, rfl⟩) (startIfDue_sameMix _)

/-- `endWithReport` leaves the mix map. -/
theorem endWithReport_sameMix (r : JobReport) (s : State) : SameMix s (endWithReport r s) := by
  rw [endWithReport_eq]; split
  · exact SameMix.trans (show SameMix s (jobEnded { s with replies := s.replies ++ [.report r] }) from ⟨rfl, rfl, rfl, rfl, rfl⟩) (startIfDue_sameMix _)
  · exact ⟨rfl, rfl, rfl, rfl, rfl⟩

/-- `endRecode` leaves the mix map. -/
theorem endRecode_sameMix (r : RecodeJob) (a b c : Nat) (d : Bool) (s : State) : SameMix s (endRecode r a b c d s) := by
  unfold endRecode; split
  · exact endWithReport_sameMix _ _
  · exact endJob_sameMix _

/-- `recodeNext` leaves the mix map. -/
theorem recodeNext_sameMix (r : RecodeJob) (f a b c : Nat) (s : State) : SameMix s (recodeNext r f a b c s) := by
  unfold recodeNext; split
  · exact endRecode_sameMix _ _ _ _ _ _
  · exact ⟨rfl, rfl, rfl, rfl, rfl⟩

/-- What `retarget` can do to the mix map. -/
theorem retarget_mix (c k code ramp : Nat) (s : State) (h : code < 256 ∨ ∃ t c d, d ∈ s.list c ∧ code = s.recode t d.code) : MixDid s (retarget c k code ramp s) := by
  unfold retarget changeEntry
  refine .map s c _ ?_
  intro e he
  split
  · exact .started e code ramp h
  · exact .same e

/-- What `setGainAnswer` can do to the mix map. -/
theorem setGainAnswer_mix {a b c d : Word} {s t : State} {n w} (h : setGainAnswer a b c d s = .done t n w) : MixDids s t := by
  unfold setGainAnswer at h; simp only at h
  split at h
  · cases h
  · rename_i hr
    split at h
    · cases h
    · split at h
      · split at h
        · cases h; exact mixKept (countEvent_sameMix _ _)
        · cases h; exact .single (retarget_mix _ _ _ _ _ (.inl (by omega)))
      · rename_i hn
        split at h
        · cases h; exact mixKept (countEvent_sameMix _ _)
        · split at h
          · cases h
          · cases h; exact .single (.insert _ _ _ _ _ (by omega) hn ‹_› (by omega))

/-- What `clearOutputAnswer` can do to the mix map. -/
theorem clearOutputAnswer_mix {a b : Word} {s t : State} {n w} (h : clearOutputAnswer a b s = .done t n w) : MixDids s t := by
  unfold clearOutputAnswer at h; simp only at h
  split at h
  · cases h
  · simp only [Answer.done.injEq] at h
    obtain ⟨h, -, -⟩ := h
    rw [← h]
    refine mixThenKept (.single (.map s a.toNat (fun e => if clearFilters s e then e else rampStart s 0 (rampCode b) e) ?_)) (countEvents_sameMix _ _)
    intro e he; split
    · exact .same e
    · exact .started e 0 _ (.inl (by omega))

/-- What `applyDeferred` can do to the mix map. -/
theorem applyDeferred_mix {d : Deferred} {s t : State} {n w} (h : applyDeferred d s = .done t n w) : MixDids s t := by
  cases d with
  | setGain => exact setGainAnswer_mix h
  | clearOutput => exact clearOutputAnswer_mix h
  | setMaster => obtain ⟨m, e⟩ := setMasterAnswer_shape h; rw [e]; exact mixKept ⟨rfl, rfl, rfl, rfl, rfl⟩
  | setInvert => obtain ⟨m, e⟩ := setInvertAnswer_shape h; rw [e]; exact mixKept ⟨rfl, rfl, rfl, rfl, rfl⟩
  | setDelay => obtain ⟨m, m', e⟩ := setDelayAnswer_shape h; rw [e]; exact mixKept ⟨rfl, rfl, rfl, rfl, rfl⟩
  | unbind => obtain ⟨m, e⟩ := unbindAnswer_shape h; rw [e]; exact mixKept ⟨rfl, rfl, rfl, rfl, rfl⟩

/-- What `duePass` can do to the mix map. -/
theorem duePass_mix (n : Nat) (s : State) : MixDids s (duePass n s) := by
  refine duePass_keeps (fun t => MixDids s t) ?_ ?_ ?_ n s .refl
  · intro c rest t _ h; exact mixThenKept h ⟨rfl, rfl, rfl, rfl, rfl⟩
  · intro d t v n w hd h; exact h.trans (applyDeferred_mix hd)
  · intro c code t h; obtain ⟨_, _, _, e⟩ := cueFault_shape c code t; rw [e]; exact mixThenKept h ⟨rfl, rfl, rfl, rfl, rfl⟩

/-- What `doEnd` can do to the mix map. -/
theorem doEnd_mix (w : CloseWork) (s : State) : MixDids s (doEnd w s) := by
  cases w with
  | fadeCompletion f => unfold doEnd fadeFinish; simp only; split <;> exact mixKept ⟨rfl, rfl, rfl, rfl, rfl⟩
  | servoExpiry => simp only [doEnd, servoExpire]; exact mixKept ⟨rfl, rfl, rfl, rfl, rfl⟩
  | rampEnd c f =>
    unfold doEnd rampFinish changeEntry; simp only
    refine .single (.map s c _ ?_)
    intro e he; split
    · exact .final e
    · exact .same e
  | autoRelease c f => exact .single (.remove _ _ _)
  | dipDelayMove c => unfold doEnd dipMove; simp only; split <;> exact mixKept ⟨rfl, rfl, rfl, rfl, rfl⟩
  | dipRiseEnd c => unfold doEnd dipEnd; simp only; split <;> exact mixKept ⟨rfl, rfl, rfl, rfl, rfl⟩

/-- What `recodeOn` can do to the mix map. -/
theorem recodeOn_mix (r : RecodeJob) (f a b c : Nat) (s : State) : MixDids s (recodeOn r f a b c s) := by
  unfold recodeOn; split
  · exact mixKept (endRecode_sameMix _ _ _ _ _ _)
  · rename_i e he
    simp only; split
    · exact mixKept ((countEvent_sameMix _ _).trans (recodeNext_sameMix _ _ _ _ _ _))
    · refine mixThenKept (.single (retarget_mix _ _ _ _ _ (.inr ⟨r.table, r.output, e, List.mem_of_find?_eq_some he, rfl⟩))) (recodeNext_sameMix _ _ _ _ _ _)

/-- A SCAN step leaves the mix map. -/
theorem scanOn_same (r : ScanJob) (f a : Nat) (s : State) : SameMix s (scanOn r f a s) := by
  unfold scanOn; split
  · exact endWithReport_sameMix _ _
  · simp only; split
    · exact endWithReport_sameMix _ _
    · split
      · exact endWithReport_sameMix _ _
      · exact ⟨rfl, rfl, rfl, rfl, rfl⟩

/-- What `purgeOn` can do to the mix map. -/
theorem purgeOn_mix (slot c : Nat) (s : State) : MixDids s (purgeOn slot c s) := by
  refine Relation.ReflTransGen.trans (.single (.remove s c slot)) ?_
  unfold purgeOn; simp only; split
  · refine mixKept (SameMix.trans ?_ (endJob_sameMix _))
    unfold freeSlot; split <;> exact ⟨rfl, rfl, rfl, rfl, rfl⟩
  · exact mixKept ⟨rfl, rfl, rfl, rfl, rfl⟩

/-- What `computeChannel` can do to the mix map. -/
theorem computeChannel_mix (c : Nat) (s : State) : MixDids s (computeChannel c s) := by
  have hl : ∀ c v X, SameMix X (lineEvent c v X) := fun _ _ _ => ⟨rfl, rfl, rfl, rfl, rfl⟩
  have hm : ∀ c b X, SameMix X (markClip c b X) := by
    intro c b X; obtain ⟨_, _, _, _, e⟩ := markClip_shape c b X; rw [e]; exact ⟨rfl, rfl, rfl, rfl, rfl⟩
  unfold computeChannel; split
  · unfold overrideChannel; split
    · simp only
      refine mixKept (SameMix.trans (SameMix.trans ?_ (hm _ _ _)) (hl _ _ _))
      obtain ⟨_, _, _, _, e⟩ := requestSample_shape s.ovCurrent.monitor s
      rw [e]; exact ⟨rfl, rfl, rfl, rfl, rfl⟩
    · exact mixKept (hl _ _ _)
  · unfold sumChannel; simp only
    refine mixThenKept ?_ (SameMix.trans (hm _ _ _) (hl _ _ _))
    obtain ⟨_, _, _, _, e⟩ := sumEntries_shape (s.list c) s 0
    have hR : SameMix s (sumEntries (s.list c) s 0).1 := by rw [e]; exact ⟨rfl, rfl, rfl, rfl, rfl⟩
    generalize (sumEntries (s.list c) s 0).1 = R at *
    refine mixKeptThen hR ?_
    have : MixDid R (R.setList c ((R.list c).map fun e => { e with readSince := true })) := .map R c _ (fun e _ => .read e)
    exact mixThenKept (.single this) ⟨rfl, rfl, rfl, rfl, rfl⟩

/-- Every move of the part changes the mix map by the listed changes only. -/
theorem did_mix {s t : State} (h : Did s t) : MixDids s t := by
  cases h with
  | goOn _ x h => obtain ⟨_, _, e⟩ := proceed_shape x s; rw [e]; exact mixKept ⟨rfl, rfl, rfl, rfl, rfl⟩
  | stop => exact mixKept ⟨rfl, rfl, rfl, rfl, rfl⟩
  | take h => obtain ⟨_, _, _, e⟩ := takeBurst_shape s; rw [e]; exact mixKept ⟨rfl, rfl, rfl, rfl, rfl⟩
  | start => exact mixKept (startIfDue_sameMix _)
  | post => obtain ⟨_, _, _, _, _, e⟩ := postIfDue_shape s; rw [e]; exact mixKept ⟨rfl, rfl, rfl, rfl, rfl⟩
  | ended _ w h => exact mixKeptThen (show SameMix s { s with closeDue := s.closeDue.erase w } from ⟨rfl, rfl, rfl, rfl, rfl⟩) (doEnd_mix w _)
  | request _ p => obtain ⟨_, e⟩ := requestPort_shape p s; rw [e]; exact mixKept ⟨rfl, rfl, rfl, rfl, rfl⟩
  | release => exact mixKept ⟨rfl, rfl, rfl, rfl, rfl⟩
  | data _ w => exact .single (.data _ _)
  | softReset => exact mixThenKept (.single (.reset s)) ⟨rfl, rfl, rfl, rfl, rfl⟩
  | clearFeedLink => exact mixKept ⟨rfl, rfl, rfl, rfl, rfl⟩
  | feedLinkDown => exact mixKept ⟨rfl, rfl, rfl, rfl, rfl⟩
  | speakerLinkUp => exact mixKept ⟨rfl, rfl, rfl, rfl, rfl⟩
  | speakerLinkDown => exact mixKept ⟨rfl, rfl, rfl, rfl, rfl⟩
  | powerOn => exact mixThenKept (.single (.power s)) ⟨rfl, rfl, rfl, rfl, rfl⟩
  | arrival _ b => obtain ⟨_, _, _, _, _, _, e⟩ := handOn_shape b { s with feedPartial := [] }; rw [e]; exact mixKept ⟨rfl, rfl, rfl, rfl, rfl⟩
  | reply _ b => obtain ⟨_, _, _, _, e⟩ := relayArrival_shape b { s with speakerPartial := [] }; rw [e]; exact mixKept ⟨rfl, rfl, rfl, rfl, rfl⟩
  | replyFailed => exact mixKept ⟨rfl, rfl, rfl, rfl, rfl⟩
  | periodStart =>
    unfold startPeriod; simp only
    have h0 : SameMix s (countEvent .outputPeriod { s with count := s.count + 1#32, phase := .computing, work := [] }) := SameMix.trans (show SameMix s { s with count := s.count + 1#32, phase := .computing, work := [] } from ⟨rfl, rfl, rfl, rfl, rfl⟩) (countEvent_sameMix _ _)
    generalize countEvent .outputPeriod { s with count := s.count + 1#32, phase := .computing, work := [] } = X at *
    exact mixKeptThen h0 (mixThenKept (duePass_mix _ X) ⟨rfl, rfl, rfl, rfl, rfl⟩)
  | compute _ c => exact computeChannel_mix c s
  | passOver => exact mixKept ⟨rfl, rfl, rfl, rfl, rfl⟩
  | frame => exact mixKept (by simp only [frameSend]; exact ⟨rfl, rfl, rfl, rfl, rfl⟩)
  | foreign => exact mixKept ⟨rfl, rfl, rfl, rfl, rfl⟩
  | close =>
    obtain ⟨x, y, z, e⟩ := closePeriod_shape s
    rw [e]; exact mixThenKept (.single (.close s)) ⟨rfl, rfl, rfl, rfl, rfl⟩
  | purge _ slot c => exact purgeOn_mix _ _ _
  | recode _ j f r c k => exact recodeOn_mix _ _ _ _ _ _
  | scan _ j f r => exact mixKept (scanOn_same _ _ _ _)
  | choose => obtain ⟨_, _, _, _, _, _, e⟩ := chooseItem_shape s; rw [e]; exact mixKept ⟨rfl, rfl, rfl, rfl, rfl⟩
  | laneFree => exact mixKept ⟨rfl, rfl, rfl, rfl, rfl⟩
  | bind k => obtain ⟨_, _, q⟩ := bindAnswer_shape k; rw [q]; exact mixKept ⟨rfl, rfl, rfl, rfl, rfl⟩
  | unbind k => obtain ⟨_, q⟩ := unbindAnswer_shape k; rw [q]; exact mixKept ⟨rfl, rfl, rfl, rfl, rfl⟩
  | setMask k => rw [setMaskAnswer_shape k]; exact mixKept ⟨rfl, rfl, rfl, rfl, rfl⟩
  | setRate k => obtain ⟨_, q⟩ := setRateAnswer_shape k; rw [q]; exact mixKept ⟨rfl, rfl, rfl, rfl, rfl⟩
  | setServo k => obtain ⟨_, _, _, q⟩ := setServoAnswer_shape k; rw [q]; exact mixKept ⟨rfl, rfl, rfl, rfl, rfl⟩
  | setGain k => exact setGainAnswer_mix k
  | clearOutput k => exact clearOutputAnswer_mix k
  | setFilter k => obtain ⟨_, q⟩ := setFilterAnswer_shape k; rw [q]; exact mixKept ⟨rfl, rfl, rfl, rfl, rfl⟩
  | setMaster k => obtain ⟨_, q⟩ := setMasterAnswer_shape k; rw [q]; exact mixKept ⟨rfl, rfl, rfl, rfl, rfl⟩
  | setInvert k => obtain ⟨_, q⟩ := setInvertAnswer_shape k; rw [q]; exact mixKept ⟨rfl, rfl, rfl, rfl, rfl⟩
  | setOverride k => obtain ⟨_, q⟩ := setOverrideAnswer_shape k; rw [q]; exact mixKept ⟨rfl, rfl, rfl, rfl, rfl⟩
  | cue k => obtain ⟨_, _, _, _, _, _, _, q⟩ := atAnswer_shape k; rw [q]; exact mixKept ⟨rfl, rfl, rfl, rfl, rfl⟩
  | cancelBatch k => rw [cancelBatchAnswer_shape k]; exact mixKept ⟨rfl, rfl, rfl, rfl, rfl⟩
  | flushCues k => rw [flushCuesAnswer_shape k]; exact mixKept ⟨rfl, rfl, rfl, rfl, rfl⟩
  | jobRecode => exact mixKept ⟨rfl, rfl, rfl, rfl, rfl⟩
  | jobScan => exact mixKept ⟨rfl, rfl, rfl, rfl, rfl⟩
  | setArb k => obtain ⟨_, _, _, q⟩ := setArbAnswer_shape k; rw [q]; exact mixKept ⟨rfl, rfl, rfl, rfl, rfl⟩
  | setActive k => obtain ⟨_, q⟩ := setActiveAnswer_shape k; rw [q]; exact mixKept ⟨rfl, rfl, rfl, rfl, rfl⟩
  | setDelay k => obtain ⟨_, _, q⟩ := setDelayAnswer_shape k; rw [q]; exact mixKept ⟨rfl, rfl, rfl, rfl, rfl⟩
  | setTable k => obtain ⟨_, _, q⟩ := setTableAnswer_shape k; rw [q]; exact mixKept ⟨rfl, rfl, rfl, rfl, rfl⟩
  | setRow k => obtain ⟨_, q⟩ := setRowAnswer_shape k; rw [q]; exact mixKept ⟨rfl, rfl, rfl, rfl, rfl⟩
  | setColumn k => obtain ⟨_, q⟩ := setColumnAnswer_shape k; rw [q]; exact mixKept ⟨rfl, rfl, rfl, rfl, rfl⟩
  | read k => obtain ⟨_, _, q⟩ := readAnswer_shape k; rw [q]; exact mixKept ⟨rfl, rfl, rfl, rfl, rfl⟩
  | patchBegin k => obtain ⟨_, q⟩ := patchBeginAnswer_shape k; rw [q]; exact mixKept ⟨rfl, rfl, rfl, rfl, rfl⟩
  | patchEnd k => obtain ⟨_, _, q⟩ := patchEndAnswer_shape k; rw [q]; exact mixKept ⟨rfl, rfl, rfl, rfl, rfl⟩
  | setRelay k => obtain ⟨_, q⟩ := setRelayAnswer_shape k; rw [q]; exact mixKept ⟨rfl, rfl, rfl, rfl, rfl⟩
  | counterSelect k => obtain ⟨_, q⟩ := counterSelectAnswer_shape k; rw [q]; exact mixKept ⟨rfl, rfl, rfl, rfl, rfl⟩
  | counterLoad k => obtain ⟨_, q⟩ := counterLoadAnswer_shape k; rw [q]; exact mixKept ⟨rfl, rfl, rfl, rfl, rfl⟩

/-- A property of states that every change of the mix map keeps is kept by every step. -/
theorem lift_mix (P : State → Prop) (h : ∀ s t, MixDid s t → P s → P t) (hq : ∀ s l, P s → P { s with pending := l }) : ∀ s t : State, P s → step s = .next t → P t := by
  intro s t hs ht
  refine step_keeps P hq ?_ hs ht
  intro u v huv hu
  have := did_mix huv
  clear huv
  induction this with
  | refl => exact hu
  | tail _ hd ih => exact h _ _ hd ih

end Sys2Proof.Machine
end

