-- ==== Sys2Proof/Laws/PerInstr.lean ====
section
/-! SUPPORT. Per-instruction laws. Spelling: a command that a burst spells is spelled by a name other than AT with as many
argument words as the catalogue gives that name, and its OP word reads back as the name (R153, R184). -/

/-- The spelling of a command agrees with the catalogue. -/
def Sys2Proof.Laws.Spelling.Statement (i : Sys2Proof.Instr) : Prop :=
  match i.spelled with
  | some (op, args) => args.length = op.arity ∧ op ≠ .atCue ∧ Sys2Proof.opOfWord op.word = some op
  | none => True

namespace Sys2Proof.Laws.Spelling

theorem powerOnReset (straps : BitVec 4) : Statement (.powerOnReset straps) := trivial
theorem feedLinkReset : Statement (.feedLinkReset) := trivial
theorem feedLinkDown : Statement (.feedLinkDown) := trivial
theorem speakerLinkUp : Statement (.speakerLinkUp) := trivial
theorem speakerLinkDown : Statement (.speakerLinkDown) := trivial
theorem feedBurstReceived (bytes : List Byte) : Statement (.feedBurstReceived bytes) := trivial
theorem amplifierReplyReceived (bytes : List Byte) : Statement (.amplifierReplyReceived bytes) := trivial
theorem periodStart : Statement (.periodStart) := trivial
theorem channelCompute (channel : Nat) : Statement (.channelCompute channel) := trivial
theorem frameEvent : Statement (.frameEvent) := trivial
theorem foreignBurstSend : Statement (.foreignBurstSend) := trivial
theorem periodClose : Statement (.periodClose) := trivial
theorem rampEnd (output feed : Nat) : Statement (.rampEnd output feed) := trivial
theorem autoRelease (output feed : Nat) : Statement (.autoRelease output feed) := trivial
theorem fadeCompletion (feed : Nat) : Statement (.fadeCompletion feed) := trivial
theorem dipDelayMove (channel : Nat) : Statement (.dipDelayMove channel) := trivial
theorem dipRiseEnd (channel : Nat) : Statement (.dipRiseEnd channel) := trivial
theorem servoExpiry : Statement (.servoExpiry) := trivial
theorem burstTake : Statement (.burstTake) := trivial
theorem tableWrite (data : Word) : Statement (.tableWrite data) := trivial
theorem bind (streamId slot bank stepHigh stepLow : Word) : Statement (.bind streamId slot bank stepHigh stepLow) := ⟨rfl, by decide, by decide⟩
theorem unbind (slot fadeCode : Word) : Statement (.unbind slot fadeCode) := ⟨rfl, by decide, by decide⟩
theorem setMask (mask : Word) : Statement (.setMask mask) := ⟨rfl, by decide, by decide⟩
theorem setRate (slot stepHigh stepLow bank threshold : Word) : Statement (.setRate slot stepHigh stepLow bank threshold) := ⟨rfl, by decide, by decide⟩
theorem setServo (mode slot target gain limit interval : Word) : Statement (.setServo mode slot target gain limit interval) := ⟨rfl, by decide, by decide⟩
theorem setGain (output slot code ramp : Word) : Statement (.setGain output slot code ramp) := ⟨rfl, by decide, by decide⟩
theorem clearOutput (output ramp : Word) : Statement (.clearOutput output ramp) := ⟨rfl, by decide, by decide⟩
theorem setFilter (mode : Word) : Statement (.setFilter mode) := ⟨rfl, by decide, by decide⟩
theorem readOutput (output firstFeed : Word) : Statement (.readOutput output firstFeed) := ⟨rfl, by decide, by decide⟩
theorem setMaster (level : Word) : Statement (.setMaster level) := ⟨rfl, by decide, by decide⟩
theorem setInvert (output mode : Word) : Statement (.setInvert output mode) := ⟨rfl, by decide, by decide⟩
theorem setOverride (mode monitor mask1 mask2 mask3 mask4 : Word) : Statement (.setOverride mode monitor mask1 mask2 mask3 mask4) := ⟨rfl, by decide, by decide⟩
theorem atCue (dueHigh dueLow batch : Word) (deferred : Deferred) : Statement (.atCue dueHigh dueLow batch deferred) := trivial
theorem cancelBatch (batch : Word) : Statement (.cancelBatch batch) := ⟨rfl, by decide, by decide⟩
theorem flushCues : Statement (.flushCues) := ⟨rfl, by decide, by decide⟩
theorem jobRecode (output firstFeed count table ramp notify : Word) : Statement (.jobRecode output firstFeed count table ramp notify) := ⟨rfl, by decide, by decide⟩
theorem jobScan (output firstFeed count table : Word) : Statement (.jobScan output firstFeed count table) := ⟨rfl, by decide, by decide⟩
theorem setArb (limiting cmdBurst walkBurst : Word) : Statement (.setArb limiting cmdBurst walkBurst) := ⟨rfl, by decide, by decide⟩
theorem setActive (count : Word) : Statement (.setActive count) := ⟨rfl, by decide, by decide⟩
theorem setDelay (output delay : Word) : Statement (.setDelay output delay) := ⟨rfl, by decide, by decide⟩
theorem setTable (table : Word) : Statement (.setTable table) := ⟨rfl, by decide, by decide⟩
theorem setRow (row : Word) : Statement (.setRow row) := ⟨rfl, by decide, by decide⟩
theorem setColumn (column : Word) : Statement (.setColumn column) := ⟨rfl, by decide, by decide⟩
theorem read (steps : Word) : Statement (.read steps) := ⟨rfl, by decide, by decide⟩
theorem patchBegin : Statement (.patchBegin) := ⟨rfl, by decide, by decide⟩
theorem patchEnd : Statement (.patchEnd) := ⟨rfl, by decide, by decide⟩
theorem nop : Statement (.nop) := ⟨rfl, by decide, by decide⟩
theorem readFeed (slot : Word) : Statement (.readFeed slot) := ⟨rfl, by decide, by decide⟩
theorem resetPart : Statement (.resetPart) := ⟨rfl, by decide, by decide⟩
theorem setRelay (mode : Word) : Statement (.setRelay mode) := ⟨rfl, by decide, by decide⟩
theorem counterSelect (counter event : Word) : Statement (.counterSelect counter event) := ⟨rfl, by decide, by decide⟩
theorem counterLoad (counter valueHigh valueLow : Word) : Statement (.counterLoad counter valueHigh valueLow) := ⟨rfl, by decide, by decide⟩
theorem counterRead (counter : Word) : Statement (.counterRead counter) := ⟨rfl, by decide, by decide⟩
theorem jobStart : Statement (.jobStart) := trivial
theorem purgeStep : Statement (.purgeStep) := trivial
theorem recodeStep : Statement (.recodeStep) := trivial
theorem scanStep : Statement (.scanStep) := trivial
theorem heldReportPost : Statement (.heldReportPost) := trivial
theorem returnLaneChoice : Statement (.returnLaneChoice) := trivial
theorem returnSendEnd : Statement (.returnSendEnd) := trivial

end Sys2Proof.Laws.Spelling
end

