-- ==== Sys2Proof/Laws/PlaceMoves.lean ====
section
/-! SUPPORT. What the moves of the part can do to the feed directory, the lifecycles, the PURGE jobs and the ends that a close owes, said once. -/
namespace Sys2Proof.Machine

/-- A feed record that keeps its directory place and stream id, and its lifecycle but for UNBIND's start of a fade. -/
structure KeepsPlace (f g : Feed) : Prop where
  pos : g.dirPos = f.dirPos
  sid : g.streamId = f.streamId
  life : (f.lifecycle = .live ∧ g.lifecycle = .fading ∧ g.purgePending = some false) ∨
    (g.lifecycle = f.lifecycle ∧ g.purgePending = f.purgePending ∧ (f.fade = none → g.fade = none) ∧
      ((∀ d, f.fade = some d → d.remaining = 0) → g.fade = f.fade))

theorem KeepsPlace.refl (f : Feed) : KeepsPlace f f := ⟨rfl, rfl, .inr ⟨rfl, rfl, fun h => h, fun _ => rfl⟩⟩

/-- A record with the same place, lifecycle and fade fields. -/
theorem KeepsPlace.same {f g : Feed} (a : g.dirPos = f.dirPos) (b : g.streamId = f.streamId) (c : g.lifecycle = f.lifecycle) (d : g.purgePending = f.purgePending) (e : g.fade = f.fade) : KeepsPlace f g :=
  ⟨a, b, .inr ⟨c, d, fun h => by rw [e, h], fun _ => e⟩⟩

theorem KeepsPlace.trans {f g h : Feed} (a : KeepsPlace f g) (b : KeepsPlace g h) : KeepsPlace f h := by
  refine ⟨b.pos.trans a.pos, b.sid.trans a.sid, ?_⟩
  rcases a.life with ⟨a1, a2, a3⟩ | ⟨a1, a2, a3, a4⟩ <;> rcases b.life with ⟨b1, b2, b3⟩ | ⟨b1, b2, b3, b4⟩
  · rw [a2] at b1; cases b1
  · exact .inl ⟨a1, by rw [b1, a2], by rw [b2, a3]⟩
  · exact .inl ⟨by rw [← a1, b1], b2, b3⟩
  · refine .inr ⟨b1.trans a1, b2.trans a2, fun q => b3 (a3 q), fun q => ?_⟩
    have e := a4 q
    rw [b4 (by rw [e]; exact q), e]

theorem KeepsPlace.flow (f : Feed) : KeepsPlace f (flowTest f) := by unfold flowTest; split <;> exact KeepsPlace.same rfl rfl rfl rfl rfl

theorem KeepsPlace.write (l : List Int) : ∀ f : Feed, KeepsPlace f (writeSamples l f).1 := by
  induction l with
  | nil => intro f; exact KeepsPlace.refl f
  | cons x xs ih => intro f; unfold writeSamples; split
                    · exact KeepsPlace.trans (g := { f with ring := Tab.put silence f.ring (f.written.toNat % 64) x, written := f.written + 1#32 }) (KeepsPlace.same rfl rfl rfl rfl rfl) (ih _)
                    · exact KeepsPlace.refl f

theorem KeepsPlace.accept (f : Feed) (q : Nat) (l : List Int) : KeepsPlace f (acceptBurst f q l) := by
  unfold acceptBurst; simp only
  refine KeepsPlace.trans ?_ (KeepsPlace.flow _)
  refine KeepsPlace.trans (KeepsPlace.trans ?_ (KeepsPlace.write l { f with gaps := if seqDistance f q = 0 then f.gaps else bump16 f.gaps, lastSeq := some q })) ?_
  · exact KeepsPlace.same rfl rfl rfl rfl rfl
  · exact KeepsPlace.same rfl rfl rfl rfl rfl

theorem KeepsPlace.request (s : State) (f : Feed) : KeepsPlace f (requestStep s f) := by
  unfold requestStep advance; repeat' split
  all_goals exact KeepsPlace.same rfl rfl rfl rfl rfl

theorem KeepsPlace.close (f : Feed) : KeepsPlace f (closeFeed 0 f) := by
  have h1 : KeepsPlace f (closeStep f) := by
    unfold closeStep advance; repeat' split
    all_goals exact KeepsPlace.same rfl rfl rfl rfl rfl
  have h2 : ∀ f, KeepsPlace f (fadeStep f) := by
    intro f; unfold fadeStep; split
    · split
      · rename_i d hd h
        refine ⟨rfl, rfl, .inr ⟨rfl, rfl, fun q => (by rw [q] at hd; cases hd), fun q => ?_⟩⟩
        have := q d hd
        unfold fadeSteps at h; split at h
        · rename_i x y e1 e2; rw [e1] at hd; cases hd; simp [this] at h
        · cases h
      · exact KeepsPlace.refl f
    · exact KeepsPlace.refl f
  unfold closeFeed; exact KeepsPlace.trans (KeepsPlace.trans h1 (h2 _)) (KeepsPlace.same rfl rfl rfl rfl rfl)

theorem KeepsPlace.servo (f : Feed) : KeepsPlace f (servoFeed 0 f) := by unfold servoFeed; split <;> exact KeepsPlace.same rfl rfl rfl rfl rfl

theorem KeepsPlace.set (s : State) (k : Nat) (f : Feed) (h : KeepsPlace (s.feed k) f) (j : Nat) : KeepsPlace (s.feed j) ((s.setFeed k f).feed j) := by
  have : (s.setFeed k f).feed j = if j = k then f else s.feed j := by unfold State.setFeed State.feed; simp only [Tab.get_put]
  rw [this]; split
  · rename_i e; subst e; exact h
  · exact KeepsPlace.refl _

/-- Two states with the same directory, mask, number of PURGE jobs and ends owed, each feed record keeping its place. -/
structure Keeps (s t : State) : Prop where
  dir : t.dir = s.dir
  mask : t.mask = s.mask
  feeds : ∀ k, KeepsPlace (s.feed k) (t.feed k)
  jobs : ∀ k, t.purgeJobs k = s.purgeJobs k
  due : t.closeDue = s.closeDue

theorem Keeps.refl (s : State) : Keeps s s := ⟨rfl, rfl, fun _ => KeepsPlace.refl _, fun _ => rfl, rfl⟩

theorem Keeps.trans {s t u : State} (a : Keeps s t) (b : Keeps t u) : Keeps s u :=
  ⟨b.dir.trans a.dir, b.mask.trans a.mask, fun k => (a.feeds k).trans (b.feeds k), fun k => (b.jobs k).trans (a.jobs k), b.due.trans a.due⟩

/-- A state with the same directory, feeds, jobs, walker and ends owed. -/
theorem Keeps.same {s t : State} (a : t.dir = s.dir) (b : t.mask = s.mask) (c : t.feeds = s.feeds) (d : t.jobs = s.jobs) (e : t.walker = s.walker) (f : t.closeDue = s.closeDue) : Keeps s t :=
  ⟨a, b, fun k => by unfold State.feed; rw [c]; exact KeepsPlace.refl _, fun k => by unfold State.purgeJobs; rw [d, e], f⟩

/-- One change of the feed directory, the lifecycles, the PURGE jobs or the ends owed. -/
inductive PlaceDid : State → State → Prop
  | keep {s t : State} (h : Keeps s t) : PlaceDid s t
  | append (s : State) (slot : Nat) (h : (s.feed slot).lifecycle = .fading ∧ (s.feed slot).purgePending = some true) : PlaceDid s (appendPurge slot s)
  | finish (s : State) (f : Nat) (h : .fadeCompletion f ∈ s.closeDue) : PlaceDid s (fadeFinish f { s with closeDue := s.closeDue.erase (.fadeCompletion f) })
  | erase (s : State) (w : CloseWork) : PlaceDid s { s with closeDue := s.closeDue.erase w }
  | close (s : State) (h : s.closeDue = []) : PlaceDid s (closePeriod s)
  | freed (s : State) (slot c : Nat) (hw : s.walker = .running (.purge slot c)) (h : s.closeDue = []) : PlaceDid s { freeSlot slot s with walker := .idle }
  | bind {a b c d e s t n w} (h : bindAnswer a b c d e s = .done t n w) : PlaceDid s t
  | mask {a s t n w} (h : setMaskAnswer a s = .done t n w) : PlaceDid s t
  | empty (s : State) {t : State} (hd : t.dir = []) (hf : t.feeds = []) (hj : t.jobs = []) (hw : t.walker = .idle) (h : t.closeDue = []) : PlaceDid s t

/-- Such changes one after the other. -/
abbrev PlaceDids := Relation.ReflTransGen PlaceDid

/-- A change that keeps the places. -/
theorem placeKept {s t : State} (h : Keeps s t) : PlaceDids s t := .single (.keep h)

/-- What `startIfDue` can do to the places, the lifecycles and the PURGE jobs. -/
theorem startIfDue_place (s : State) : PlaceDids s (startIfDue s) := by
  unfold startIfDue startJob; split
  · rename_i hd
    split
    · exact .refl
    · rename_i j rest hj
      have hi : s.walker = .idle := by unfold startDue at hd; simp at hd; exact hd.1
      have k : Keeps s (requestPort .walker { s with jobs := rest, walker := .running (freshJob j) }) := by
        refine ⟨rfl, rfl, fun _ => KeepsPlace.refl _, fun k => ?_, rfl⟩
        unfold State.purgeJobs; rw [hj, hi]; simp only [requestPort_jobs, requestPort_walker]
        cases j with
        | purge q => simp only [freshJob, List.count_cons, beq_iff_eq, Job.purge.injEq]; omega
        | recode q => simp [freshJob]
        | scan q => simp [freshJob]
      unfold placePurge; split
      · rename_i slot hp
        refine (placeKept k).trans (.single (.append _ slot ?_))
        have := List.find?_some hp
        simpa using this
      · exact placeKept k
  · exact .refl

/-- The walker runs no PURGE job. -/
def notPurge : Walker → Prop
  | .running (.purge _ _) => False
  | .running (.recode _ _ _ _ _) => True
  | .running (.scan _ _ _) => True
  | .idle => True
  | .holding _ => True

/-- The walker goes on between jobs that are no PURGE jobs. -/
theorem Keeps.walk {s t : State} (a : t.dir = s.dir) (b : t.mask = s.mask) (c : t.feeds = s.feeds) (d : t.jobs = s.jobs) (e : notPurge s.walker) (e' : notPurge t.walker) (f : t.closeDue = s.closeDue) : Keeps s t := by
  refine ⟨a, b, fun k => by unfold State.feed; rw [c]; exact KeepsPlace.refl _, fun k => ?_, f⟩
  have h : ∀ X : State, notPurge X.walker → X.purgeJobs k = X.jobs.count (.purge k) := by
    intro X h; unfold State.purgeJobs; split <;> simp_all [notPurge]
  rw [h _ e, h _ e', d]

/-- What `endJob` can do to the places, the lifecycles and the PURGE jobs. -/
theorem endJob_place (s : State) (h : notPurge s.walker) : PlaceDids s (endJob s) := by
  rw [endJob_eq]; refine Relation.ReflTransGen.trans (placeKept ?_) (startIfDue_place (jobEnded s))
  exact Keeps.walk rfl rfl rfl rfl h True.intro rfl

/-- What `endWithReport` can do to the places, the lifecycles and the PURGE jobs. -/
theorem endWithReport_place (r : JobReport) (s : State) (h : notPurge s.walker) : PlaceDids s (endWithReport r s) := by
  rw [endWithReport_eq]; split
  · refine Relation.ReflTransGen.trans (placeKept ?_) (startIfDue_place (jobEnded { s with replies := s.replies ++ [.report r] }))
    exact Keeps.walk rfl rfl rfl rfl h True.intro rfl
  · exact placeKept (Keeps.walk rfl rfl rfl rfl h (by exact True.intro) rfl)

/-- What `endRecode` can do to the places, the lifecycles and the PURGE jobs. -/
theorem endRecode_place (r : RecodeJob) (a b c : Nat) (d : Bool) (s : State) (h : notPurge s.walker) : PlaceDids s (endRecode r a b c d s) := by
  unfold endRecode; split
  · exact endWithReport_place _ _ h
  · exact endJob_place _ h

/-- What `recodeNext` can do to the places, the lifecycles and the PURGE jobs. -/
theorem recodeNext_place (r : RecodeJob) (f a b c : Nat) (s : State) (h : notPurge s.walker) : PlaceDids s (recodeNext r f a b c s) := by
  unfold recodeNext; split
  · exact endRecode_place _ _ _ _ _ _ h
  · exact placeKept (Keeps.walk rfl rfl rfl rfl h (by exact True.intro) rfl)

/-- What `countEvent` can do to the places, the lifecycles and the PURGE jobs. -/
theorem countEvent_place (e : Event) (s : State) : Keeps s (countEvent e s) := by
  obtain ⟨x, y, z, h⟩ := countEvent_shape e s; rw [h]; exact Keeps.same rfl rfl rfl rfl rfl rfl

/-- What `countEvents` can do to the places, the lifecycles and the PURGE jobs. -/
theorem countEvents_place (e : List Event) (s : State) : Keeps s (countEvents e s) := by
  obtain ⟨x, y, z, h⟩ := countEvents_shape e s; rw [h]; exact Keeps.same rfl rfl rfl rfl rfl rfl

/-- What `setFeed` can do to the places, the lifecycles and the PURGE jobs. -/
theorem setFeed_place (s : State) (k : Nat) (f : Feed) (h : KeepsPlace (s.feed k) f) : Keeps s (s.setFeed k f) :=
  ⟨rfl, rfl, KeepsPlace.set s k f h, fun _ => rfl, rfl⟩

/-- What `requestSample` can do to the places, the lifecycles and the PURGE jobs. -/
theorem requestSample_place (k : Nat) (s : State) : Keeps s (requestSample k s).1 := by
  unfold requestSample; simp only
  split
  · exact Keeps.refl s
  · split
    · exact Keeps.refl s
    · exact (setFeed_place s k _ (KeepsPlace.request s _)).trans (countEvents_place _ _)

/-- What `sumEntries` can do to the places, the lifecycles and the PURGE jobs. -/
theorem sumEntries_place (l : List MixEntry) : ∀ (s : State) (a : Int), Keeps s (sumEntries l s a).1 := by
  induction l with
  | nil => intro s a; exact Keeps.refl s
  | cons e es ih => intro s a; unfold sumEntries; exact (requestSample_place _ _).trans (ih _ _)

/-- What `markClip` can do to the places, the lifecycles and the PURGE jobs. -/
theorem markClip_place (c : Nat) (b : Bool) (s : State) : Keeps s (markClip c b s) := by
  obtain ⟨_, _, _, _, h⟩ := markClip_shape c b s; rw [h]; exact Keeps.same rfl rfl rfl rfl rfl rfl

/-- What `computeChannel` can do to the places, the lifecycles and the PURGE jobs. -/
theorem computeChannel_place (c : Nat) (s : State) : Keeps s (computeChannel c s) := by
  have e : ∀ v X, Keeps X (lineEvent c v X) := fun _ _ => Keeps.same rfl rfl rfl rfl rfl rfl
  unfold computeChannel; split
  · unfold overrideChannel; split
    · simp only
      exact ((requestSample_place _ _).trans (markClip_place _ _ _)).trans (e _ _)
    · exact e _ _
  · unfold sumChannel; simp only
    have e2 : ∀ X, Keeps X (readList c X) := fun _ => Keeps.same rfl rfl rfl rfl rfl rfl
    exact (((sumEntries_place _ _ _).trans (e2 _)).trans (markClip_place _ _ _)).trans (e _ _)

/-- What `unbindAnswer` can do to the places, the lifecycles and the PURGE jobs. -/
theorem unbindAnswer_place {a b : Word} {s t : State} {n w} (h : unbindAnswer a b s = .done t n w) : Keeps s t := by
  unfold unbindAnswer at h; split at h
  · cases h
  · split at h
    · cases h
    · rename_i hl; cases h
      exact setFeed_place _ _ _ ⟨rfl, rfl, .inl ⟨by simpa using hl, rfl, rfl⟩⟩

/-- What `applyDeferred` can do to the places, the lifecycles and the PURGE jobs. -/
theorem applyDeferred_place {d : Deferred} {s t : State} {n w} (h : applyDeferred d s = .done t n w) : Keeps s t := by
  cases d with
  | setGain => obtain ⟨l, p, x, y, z, e⟩ := setGainAnswer_shape h; rw [e]; exact Keeps.same rfl rfl rfl rfl rfl rfl
  | clearOutput => obtain ⟨l, x, y, z, e⟩ := clearOutputAnswer_shape h; rw [e]; exact Keeps.same rfl rfl rfl rfl rfl rfl
  | setMaster => obtain ⟨m, e⟩ := setMasterAnswer_shape h; rw [e]; exact Keeps.same rfl rfl rfl rfl rfl rfl
  | setInvert => obtain ⟨m, e⟩ := setInvertAnswer_shape h; rw [e]; exact Keeps.same rfl rfl rfl rfl rfl rfl
  | setDelay => obtain ⟨m, m', e⟩ := setDelayAnswer_shape h; rw [e]; exact Keeps.same rfl rfl rfl rfl rfl rfl
  | unbind => exact unbindAnswer_place h

/-- What `duePass` can do to the places, the lifecycles and the PURGE jobs. -/
theorem duePass_place (n : Nat) (s : State) : Keeps s (duePass n s) := by
  refine duePass_keeps (fun t => Keeps s t) ?_ ?_ ?_ n s (Keeps.refl s)
  · intro c rest t _ h; exact h.trans (Keeps.same rfl rfl rfl rfl rfl rfl)
  · intro d t v n w hd h; exact h.trans (applyDeferred_place hd)
  · intro c code t h; obtain ⟨_, _, _, e⟩ := cueFault_shape c code t; rw [e]; exact h.trans (Keeps.same rfl rfl rfl rfl rfl rfl)

/-- What `startPeriod` can do to the places, the lifecycles and the PURGE jobs. -/
theorem startPeriod_place (s : State) : Keeps s (startPeriod s) := by
  unfold startPeriod; simp only
  have h0 := (Keeps.same (s := s) (t := { s with count := s.count + 1#32, phase := .computing, work := [] }) rfl rfl rfl rfl rfl rfl).trans (countEvent_place .outputPeriod _)
  generalize countEvent .outputPeriod { s with count := s.count + 1#32, phase := .computing, work := [] } = X at *
  exact (h0.trans (duePass_place _ _)).trans (Keeps.same rfl rfl rfl rfl rfl rfl)

/-- What `servoExpire` can do to the places, the lifecycles and the PURGE jobs. -/
theorem servoExpire_place (s : State) : Keeps s (servoExpire s) := by
  have e : ∀ k, (servoExpire s).feed k = if k < 128 then servoFeed k (s.feed k) else s.feed k := by
    intro k; unfold servoExpire State.feed; simp only [Tab.get_update]
  have e2 : ∃ F, servoExpire s = { s with servoCount := 0, feeds := F } := ⟨_, rfl⟩
  have h : ∀ k, KeepsPlace (s.feed k) ((servoExpire s).feed k) := by
    intro k; rw [e]; split
    · exact KeepsPlace.servo _
    · exact KeepsPlace.refl _
  obtain ⟨F, e2⟩ := e2
  clear e; rw [e2] at h ⊢
  exact ⟨rfl, rfl, h, fun _ => rfl, rfl⟩

/-- What `audioArrival` can do to the places, the lifecycles and the PURGE jobs. -/
theorem audioArrival_place (id : Word) (q : Nat) (l : List Int) (s : State) : Keeps s (audioArrival id q l s) := by
  unfold audioArrival; split
  · exact countEvent_place _ _
  · simp only; split
    · exact Keeps.refl _
    · rename_i k _ _
      split
      · refine Keeps.trans (t := s.setFeed k (acceptBurst (s.feed k) q l)) ?_ (countEvents_place _ _)
        exact setFeed_place _ _ _ (KeepsPlace.accept _ _ _)
      · refine Keeps.trans (t := s.setFeed k { s.feed k with stales := bump16 (s.feed k).stales }) ?_ (countEvent_place _ _)
        exact setFeed_place _ _ _ (KeepsPlace.same rfl rfl rfl rfl rfl)

/-- Every move of the part changes the directory, the lifecycles, the PURGE jobs and the ends owed by the listed changes only. -/
theorem did_place {s t : State} (h : Did s t) : PlaceDids s t := by
  cases h with
  | goOn _ x h => obtain ⟨_, _, e⟩ := proceed_shape x s; rw [e]; exact placeKept (Keeps.same rfl rfl rfl rfl rfl rfl)
  | stop => exact placeKept (Keeps.same rfl rfl rfl rfl rfl rfl)
  | take h => obtain ⟨_, _, _, e⟩ := takeBurst_shape s; rw [e]; exact placeKept (Keeps.same rfl rfl rfl rfl rfl rfl)
  | start => exact startIfDue_place _
  | post =>
    unfold postIfDue postHeld; split
    · split
      · rename_i r hw
        refine Relation.ReflTransGen.trans (placeKept ?_) (startIfDue_place { s with replies := s.replies ++ [.report r], walker := .idle })
        exact Keeps.walk rfl rfl rfl rfl (by rw [hw]; trivial) True.intro rfl
      · exact .refl
      · exact .refl
    · exact .refl
  | ended _ w h =>
    cases w with
    | fadeCompletion f => exact .single (.finish s f h)
    | servoExpiry => exact Relation.ReflTransGen.trans (.single (.erase s .servoExpiry)) (placeKept (servoExpire_place _))
    | rampEnd c f => exact Relation.ReflTransGen.trans (.single (.erase s (.rampEnd c f))) (placeKept (Keeps.same rfl rfl rfl rfl rfl rfl))
    | autoRelease c f =>
      refine Relation.ReflTransGen.trans (.single (.erase s (.autoRelease c f))) (placeKept ?_)
      unfold doEnd releaseRoute; simp only; split <;> exact Keeps.same rfl rfl rfl rfl rfl rfl
    | dipDelayMove c =>
      refine Relation.ReflTransGen.trans (.single (.erase s (.dipDelayMove c))) (placeKept ?_)
      unfold doEnd dipMove; simp only; split <;> exact Keeps.same rfl rfl rfl rfl rfl rfl
    | dipRiseEnd c =>
      refine Relation.ReflTransGen.trans (.single (.erase s (.dipRiseEnd c))) (placeKept ?_)
      unfold doEnd dipEnd; simp only; split <;> exact Keeps.same rfl rfl rfl rfl rfl rfl
  | request _ p => obtain ⟨_, e⟩ := requestPort_shape p s; rw [e]; exact placeKept (Keeps.same rfl rfl rfl rfl rfl rfl)
  | release => exact placeKept (Keeps.same rfl rfl rfl rfl rfl rfl)
  | data _ w => obtain ⟨_, _, _, _, _, _, _, _, _, e⟩ := dataWrite_shape w s; rw [e]; exact placeKept (Keeps.same rfl rfl rfl rfl rfl rfl)
  | softReset => exact .single (.empty s rfl rfl rfl rfl (by show s.closeDue = []; assumption))
  | clearFeedLink => exact placeKept (Keeps.same rfl rfl rfl rfl rfl rfl)
  | feedLinkDown => exact placeKept (Keeps.same rfl rfl rfl rfl rfl rfl)
  | speakerLinkUp => exact placeKept (Keeps.same rfl rfl rfl rfl rfl rfl)
  | speakerLinkDown => exact placeKept (Keeps.same rfl rfl rfl rfl rfl rfl)
  | powerOn => exact .single (.empty s rfl rfl rfl rfl rfl)
  | arrival _ b =>
    unfold handOn; split
    · exact placeKept ((Keeps.same (s := s) (t := { s with feedPartial := [] }) rfl rfl rfl rfl rfl rfl).trans (countEvent_place _ _))
    · rename_i id q l _
      refine placeKept ((Keeps.same (s := s) (t := { s with feedPartial := [] }) rfl rfl rfl rfl rfl rfl).trans ?_)
      exact audioArrival_place id q l _
    · split
      · unfold inboundArrival; split
        · exact placeKept (Keeps.same rfl rfl rfl rfl rfl rfl)
        · exact placeKept ((Keeps.same (s := s) (t := { s with feedPartial := [] }) rfl rfl rfl rfl rfl rfl).trans (countEvent_place _ _))
      · unfold throughArrival; split
        · exact placeKept (Keeps.same rfl rfl rfl rfl rfl rfl)
        · exact placeKept ((Keeps.same (s := s) (t := { s with feedPartial := [] }) rfl rfl rfl rfl rfl rfl).trans (countEvent_place _ _))
  | reply _ b => obtain ⟨_, _, _, _, e⟩ := relayArrival_shape b { s with speakerPartial := [] }; rw [e]; exact placeKept (Keeps.same rfl rfl rfl rfl rfl rfl)
  | replyFailed => exact placeKept (Keeps.same rfl rfl rfl rfl rfl rfl)
  | periodStart => exact placeKept (startPeriod_place s)
  | compute _ c => exact placeKept (computeChannel_place c s)
  | passOver => exact placeKept (Keeps.same rfl rfl rfl rfl rfl rfl)
  | frame => exact placeKept (by simp only [frameSend]; exact Keeps.same rfl rfl rfl rfl rfl rfl)
  | foreign => exact placeKept (Keeps.same rfl rfl rfl rfl rfl rfl)
  | close => exact .single (.close s (by assumption))
  | purge _ slot c hw hd =>
    have hk : Keeps s (releaseRoute c slot s) ∧ (releaseRoute c slot s).walker = s.walker := by unfold releaseRoute; split <;> exact ⟨Keeps.same rfl rfl rfl rfl rfl rfl, rfl⟩
    unfold purgeOn; simp only; split
    · rw [endJob_eq]
      refine Relation.ReflTransGen.trans (Relation.ReflTransGen.trans ((placeKept hk.1).tail (.freed _ slot c (hk.2.trans hw) (hk.1.due.trans hd))) ?_) (startIfDue_place (jobEnded (freeSlot slot (releaseRoute c slot s))))
      exact placeKept (Keeps.same rfl rfl rfl rfl rfl rfl)
    · refine (placeKept hk.1).trans (placeKept ⟨rfl, rfl, fun _ => KeepsPlace.refl _, fun k => ?_, rfl⟩)
      unfold State.purgeJobs; rw [hk.2.trans hw]
  | recode _ j f r c k hw =>
    have hn : notPurge s.walker := by rw [hw]; trivial
    unfold recodeOn; split
    · exact endRecode_place _ _ _ _ _ _ hn
    · simp only; split
      · refine (placeKept (countEvent_place .filtered s)).trans (recodeNext_place _ _ _ _ _ _ ?_)
        obtain ⟨x, y, z, e⟩ := countEvent_shape .filtered s; rw [e]; exact hn
      · rename_i e _ _
        exact (placeKept (Keeps.same (s := s) (t := retarget j.output e.feed (s.recode j.table e.code) j.ramp s) rfl rfl rfl rfl rfl rfl)).trans (recodeNext_place _ _ _ _ _ _ hn)
  | scan _ j f r hw =>
    have hn : notPurge s.walker := by rw [hw]; trivial
    unfold scanOn; split
    · exact endWithReport_place _ _ hn
    · simp only; split
      · exact endWithReport_place _ _ hn
      · split
        · exact endWithReport_place _ _ hn
        · exact placeKept (Keeps.walk rfl rfl rfl rfl hn (by exact True.intro) rfl)
  | choose => obtain ⟨_, _, _, _, _, _, e⟩ := chooseItem_shape s; rw [e]; exact placeKept (Keeps.same rfl rfl rfl rfl rfl rfl)
  | laneFree => exact placeKept (Keeps.same rfl rfl rfl rfl rfl rfl)
  | bind k => exact .single (.bind k)
  | unbind k => exact placeKept (unbindAnswer_place k)
  | setMask k => exact .single (.mask k)
  | setRate k =>
    unfold setRateAnswer at k; split at k
    · cases k
    · split at k
      · cases k
      · cases k; refine placeKept (setFeed_place _ _ _ (KeepsPlace.trans ?_ (KeepsPlace.flow _))); exact KeepsPlace.same rfl rfl rfl rfl rfl
  | setServo k =>
    have hi : ∀ w (X : State), Keeps X (applyInterval w X) := by
      intro w X; obtain ⟨_, _, h⟩ := applyInterval_shape w X; rw [h]; exact Keeps.same rfl rfl rfl rfl rfl rfl
    unfold setServoAnswer servoDone at k
    split at k
    · cases k
    · split at k
      · cases k; exact placeKept (hi _ _)
      · split at k
        · cases k
        · split at k
          · cases k
          · cases k; refine placeKept (Keeps.trans ?_ (hi _ _)); exact setFeed_place _ _ _ (KeepsPlace.same rfl rfl rfl rfl rfl)
  | setGain k => obtain ⟨_, _, _, _, _, q⟩ := setGainAnswer_shape k; rw [q]; exact placeKept (Keeps.same rfl rfl rfl rfl rfl rfl)
  | clearOutput k => obtain ⟨_, _, _, _, q⟩ := clearOutputAnswer_shape k; rw [q]; exact placeKept (Keeps.same rfl rfl rfl rfl rfl rfl)
  | setFilter k => obtain ⟨_, q⟩ := setFilterAnswer_shape k; rw [q]; exact placeKept (Keeps.same rfl rfl rfl rfl rfl rfl)
  | setMaster k => obtain ⟨_, q⟩ := setMasterAnswer_shape k; rw [q]; exact placeKept (Keeps.same rfl rfl rfl rfl rfl rfl)
  | setInvert k => obtain ⟨_, q⟩ := setInvertAnswer_shape k; rw [q]; exact placeKept (Keeps.same rfl rfl rfl rfl rfl rfl)
  | setOverride k => obtain ⟨_, q⟩ := setOverrideAnswer_shape k; rw [q]; exact placeKept (Keeps.same rfl rfl rfl rfl rfl rfl)
  | cue k => obtain ⟨_, _, _, _, _, _, _, q⟩ := atAnswer_shape k; rw [q]; exact placeKept (Keeps.same rfl rfl rfl rfl rfl rfl)
  | cancelBatch k => rw [cancelBatchAnswer_shape k]; exact placeKept (Keeps.same rfl rfl rfl rfl rfl rfl)
  | flushCues k => rw [flushCuesAnswer_shape k]; exact placeKept (Keeps.same rfl rfl rfl rfl rfl rfl)
  | jobRecode _ j hl =>
    refine placeKept ⟨rfl, rfl, fun _ => KeepsPlace.refl _, fun k => ?_, rfl⟩
    unfold State.purgeJobs; simp [List.count_append]
  | jobScan _ j hl =>
    refine placeKept ⟨rfl, rfl, fun _ => KeepsPlace.refl _, fun k => ?_, rfl⟩
    unfold State.purgeJobs; simp [List.count_append]
  | setArb k => obtain ⟨_, _, _, q⟩ := setArbAnswer_shape k; rw [q]; exact placeKept (Keeps.same rfl rfl rfl rfl rfl rfl)
  | setActive k => obtain ⟨_, q⟩ := setActiveAnswer_shape k; rw [q]; exact placeKept (Keeps.same rfl rfl rfl rfl rfl rfl)
  | setDelay k => obtain ⟨_, _, q⟩ := setDelayAnswer_shape k; rw [q]; exact placeKept (Keeps.same rfl rfl rfl rfl rfl rfl)
  | setTable k => obtain ⟨_, _, q⟩ := setTableAnswer_shape k; rw [q]; exact placeKept (Keeps.same rfl rfl rfl rfl rfl rfl)
  | setRow k => obtain ⟨_, q⟩ := setRowAnswer_shape k; rw [q]; exact placeKept (Keeps.same rfl rfl rfl rfl rfl rfl)
  | setColumn k => obtain ⟨_, q⟩ := setColumnAnswer_shape k; rw [q]; exact placeKept (Keeps.same rfl rfl rfl rfl rfl rfl)
  | read k => obtain ⟨_, _, q⟩ := readAnswer_shape k; rw [q]; exact placeKept (Keeps.same rfl rfl rfl rfl rfl rfl)
  | patchBegin k => obtain ⟨_, q⟩ := patchBeginAnswer_shape k; rw [q]; exact placeKept (Keeps.same rfl rfl rfl rfl rfl rfl)
  | patchEnd k => obtain ⟨_, _, q⟩ := patchEndAnswer_shape k; rw [q]; exact placeKept (Keeps.same rfl rfl rfl rfl rfl rfl)
  | setRelay k => obtain ⟨_, q⟩ := setRelayAnswer_shape k; rw [q]; exact placeKept (Keeps.same rfl rfl rfl rfl rfl rfl)
  | counterSelect k => obtain ⟨_, q⟩ := counterSelectAnswer_shape k; rw [q]; exact placeKept (Keeps.same rfl rfl rfl rfl rfl rfl)
  | counterLoad k => obtain ⟨_, q⟩ := counterLoadAnswer_shape k; rw [q]; exact placeKept (Keeps.same rfl rfl rfl rfl rfl rfl)

/-- A property of states that those changes keep is kept by every step. -/
theorem lift_place (P : State → Prop) (h : ∀ s t, PlaceDid s t → P s → P t) (hq : ∀ s l, P s → P { s with pending := l }) : ∀ s t : State, P s → step s = .next t → P t := by
  intro s t hs ht
  refine step_keeps P hq ?_ hs ht
  intro u v huv hu
  have := did_place huv
  clear huv
  induction this with
  | refl => exact hu
  | tail _ hd ih => exact h _ _ hd ih

end Sys2Proof.Machine
end

