-- ==== Sys2Proof/Tests/Slice0.lean ====
section
/-! SUPPORT. Small tests. Expected values come from the worked examples and tables of spec/, named at each test; the check
word's value over the nine digits is the published one of the cyclic check that R183 describes. -/
namespace Sys2Proof.Tests

open Sys2Proof.Machine

-- One theorem after the other: many kernel evaluations side by side would each hold a thread.
set_option Elab.async false

/-- A field of the state that an event leads to. -/
def after {α : Type} (s : State) (i : Instr) (f : State → α) : Option α :=
  match exec i s with
  | .next t => some (f t)
  | .fault _ => none
  | .refused _ => none

/-- The part executing a burst of words with tag 0301h, its words taken as far as nothing is carried out. -/
def executing (words : List Word) (s : State) : State := proceed (burstStart { tag := 0x301#16, words := words }) s

/-- A burst of one command in bulk OP words. -/
def command (op : Op) (args : List Word) : List Word := 0#16 :: op.word :: args

/-- The part at one command, from a state. -/
def atCommand (op : Op) (args : List Word) (s : State) : State := executing (command op args) s

/-- The part right after reset with a LIVE feed record in a slot. -/
def withFeed (slot : Nat) (f : Feed) (s : State) : State := s.setFeed slot { f with lifecycle := .live }

/-- The last reply's stop code, stop index, commands executed, notes and read words. -/
def lastReply (s : State) : Option (Option Code × Nat × Nat × Notes × List Word) :=
  match s.replies.getLast? with
  | some (.reply r) => some (r.stop, r.index, r.executed, r.notes, r.reads)
  | some (.report _) => none
  | none => none

-- ill-formed events, one for each check of WellFormed
theorem test_illFormed_channelCompute : (Instr.channelCompute 64).wellFormed = false := by decide
theorem test_illFormed_rampEnd_list : (Instr.rampEnd 64 0).wellFormed = false := by decide
theorem test_illFormed_rampEnd_feed : (Instr.rampEnd 0 128).wellFormed = false := by decide
theorem test_illFormed_autoRelease_list : (Instr.autoRelease 64 0).wellFormed = false := by decide
theorem test_illFormed_autoRelease_feed : (Instr.autoRelease 0 128).wellFormed = false := by decide
theorem test_illFormed_fadeCompletion : (Instr.fadeCompletion 128).wellFormed = false := by decide
theorem test_illFormed_dipDelayMove : (Instr.dipDelayMove 64).wellFormed = false := by decide
theorem test_illFormed_dipRiseEnd : (Instr.dipRiseEnd 64).wellFormed = false := by decide

-- words, markers and the check word (R183, R184)
theorem test_opWord_setGain : opOfWord 0x0140#16 = some .setGain := by decide
theorem test_opWord_counterRead : opOfWord 0x01B3#16 = some .counterRead := by decide
theorem test_opWord_unknown : opOfWord 0x0113#16 = none := by decide
theorem test_marker_single_data : framingOf 0xC001#16 = .singleData := by decide
theorem test_marker_bulk_op : framingOf 0x0000#16 = .bulkOp := by decide
theorem test_checkWord_digits :
    checkWord [0x31#8, 0x32#8, 0x33#8, 0x34#8, 0x35#8, 0x36#8, 0x37#8, 0x38#8, 0x39#8] = 0x29B1#16 := by
  decide +kernel

-- set indices (spec/01, worked example; spec/07, retirement example)
theorem test_setIndex_1234 : setIndex 0xFFFF#16 0x1234#16 = 1 := by decide
theorem test_setIndex_8421 : setIndex 0xFFFF#16 0x8421#16 = 0 := by decide
theorem test_setIndex_masked : setIndex 0x00FF#16 0x1234#16 = 21 := by decide
theorem test_setIndex_3C00 : setIndex 0xFFFF#16 0x3C00#16 = 15 := by decide
theorem test_setIndex_5A00 : setIndex 0xFFFF#16 0x5A00#16 = 6 := by decide

-- the complete sample of spec/02: bank 1 turned round, rows 24 and 25
def sampleFeed : Feed :=
  { freeFeed with
    lifecycle := .live, flow := some .running, index := 1000#32, frac := 6307840, written := 1010#32, bank := 1,
    nominal := 16760456, trim := 1120, ring := [(39, -600000), (40, 1000000)] }
def sampleState : State :=
  { State.reset with
    coef := [(coefPos 1 24 0, 20480#16), (coefPos 1 24 1, 12288#16), (coefPos 1 25 0, 19968#16),
      (coefPos 1 25 1, 12800#16)],
    feeds := [(3, sampleFeed)] }
theorem test_sample_value : (requestSample 3 sampleState).2 = 398438 := by decide +kernel
theorem test_sample_advance :
    (((requestSample 3 sampleState).1.feed 3).index, ((requestSample 3 sampleState).1.feed 3).frac) =
      (1001#32, 6292200) := by decide +kernel
theorem test_sample_bank0 : (requestSample 3 { sampleState with feeds := [(3, { sampleFeed with bank := 0 })] }).2 = 1563 := by
  decide +kernel
theorem test_sample_faded :
    (requestSample 3 { sampleState with feeds := [(3, { sampleFeed with
      lifecycle := .fading, fade := some ⟨3145728, 3, -1048576⟩ })] }).2 = 298829 := by decide +kernel
-- the largest advance (spec/02)
theorem test_largest_advance :
    (let g := advance { freeFeed with nominal := 33554432, trim := 16384, frac := 16770000, index := 500#32 }
     (g.index, g.frac)) = (503#32, 9168) := by decide

-- servo updates (spec/03, both worked examples)
def servoCase (written : Count) (trim : Int) (gain : Nat) : Feed :=
  { freeFeed with
    lifecycle := .live, flow := some .running, written := written, trim := trim, gain := gain }
theorem test_servo_rise : (servoFeed 3 (servoCase 19#32 1000 40)).trim = 1120 := by decide
theorem test_servo_saturates : (servoFeed 20 (servoCase 21#32 16300 32)).trim = 16384 := by decide
theorem test_servo_held : (servoFeed 3 { servoCase 0#32 1200 40 with flow := some .starved }).trim = 1200 := by decide

-- the bursts of slot 5 (spec/01, worked example, rows 6 and 7)
def burstFeed : Feed :=
  { freeFeed with
    lifecycle := .live, flow := some .running, written := 48#32, index := 10#32, lastSeq := some 201, stales := 1 }
theorem test_burst_overrun :
    (let g := acceptBurst burstFeed 204 (List.replicate 16 7)
     (g.written, g.fill, g.gaps, g.overruns, g.lastSeq)) = (58#32, 48, 1, 1, some 204) := by decide +kernel
theorem test_burst_stale : seqDistance burstFeed 201 = 255 := by decide
theorem test_burst_jump : seqDistance { burstFeed with lastSeq := some 204 } 60 = 111 := by decide

-- ramps (spec/05)
theorem test_ramp_increment :
    (rampStart State.reset 200 12 (freshEntry 0)).increment = 803 := by decide +kernel
theorem test_ramp_down :
    (rampStart State.reset 0 12 { freshEntry 0 with current := 3289600 }).increment = -803 := by decide +kernel
theorem test_gainLaw_200 : State.reset.law 200 = 12850 := by decide

-- channel values (spec/05)
theorem test_channel_value : listValue 5243008192 200 false = 500013 := by decide
theorem test_channel_inverted : listValue 5243008192 200 true = -500013 := by decide
theorem test_channel_clips : (listValue (16384 * 8398438) 200 false, listClips (16384 * 8398438) 200) = (8388607, true) := by
  decide
theorem test_channel_level_unity : listClips (-8388608 * 16384) 128 = false := by decide
theorem test_override_value : satSample (leveled 398438 200) = 622559 := by decide

-- dips (spec/08)
theorem test_dip_truncates : (dipScale (.rising 31) 500013, dipScale (.rising 31) (-500013)) = (484387, -484387) := by
  decide
theorem test_dip_turns_back : dipChange 340 200 (.rising 8) = .falling 8 200 := by decide

-- the frame with a conflict (spec/08, worked example)
def frameState : State :=
  { State.reset with
    active := 6, slotMap := [(3, 2), (4, 7), (5, 4), (40, 3)], phase := .computing,
    work := [(0, .computed 10), (1, .computed 11), (2, .computed 12), (3, .computed 13), (4, .computed 14),
      (5, .computed 15)] }
theorem test_frame_samples : frameSamples frameState = [10, 11, 12, 0, 15, 0] := by decide +kernel
theorem test_frame_conflicts :
    (List.range 6).map (slotConflict frameState) = [false, false, true, true, false, false] := by decide +kernel

-- arbiter decisions (spec/07, worked example with SET ARB(1, 2, 1))
theorem test_weigh_walker_yields :
    weigh { arbiterReset with cmdBurst := 2, walkBurst := 1, owner := .walker, run := 1 } = .command := by decide
theorem test_weigh_command_yields :
    weigh { arbiterReset with cmdBurst := 2, walkBurst := 1, owner := .command, run := 2 } = .walker := by decide

/-- The arbiter at the end of an edit step, with the requests that stand then. -/
def weighed (a : Arbiter) (cmd walk : Bool) : Arbiter :=
  grantIfFree { a with port := .free, cmdRequest := cmd, walkRequest := walk }
/-- The parties granted and the run lengths, from the walker's lone request on, as requests stand at each step's end. -/
def grantsOf (a : Arbiter) : List (Bool × Bool) → List (Party × Nat)
  | [] => []
  | (cmd, walk) :: r => let b := weighed a cmd walk; (b.owner, b.run) :: grantsOf b r
theorem test_worked_example_grants :
    grantsOf { arbiterReset with cmdBurst := 2, walkBurst := 1 }
      [(false, true), (true, true), (true, true), (true, true), (true, true), (true, true), (false, true), (false, true),
        (false, true), (false, true)] =
      [(.walker, 1), (.command, 1), (.command, 2), (.walker, 1), (.command, 1), (.command, 2), (.walker, 1), (.walker, 2),
        (.walker, 3), (.walker, 4)] := by decide

-- JOB RECODE and then SET GAIN in one burst: the walker's lone request is granted first, and the edit waits (R118, R130)
theorem test_job_then_edit :
    (afterEvents [.jobRecode 6#16 0#16 128#16 0#16 3#16 1#16, .setGain 6#16 4#16 90#16 2#16]
      (executing [0#16, Op.jobRecode.word, 6#16, 0#16, 128#16, 0#16, 3#16, 1#16, Op.setGain.word, 6#16, 4#16, 90#16, 2#16]
        State.reset)).map (fun t => t.arbiter) =
      some { arbiterReset with port := .busy, owner := .walker, run := 1, cmdRequest := true, walkRequest := true } := by
  decide +kernel

/-- What a feed-link reset leaves of lists 6 and 7, the burst, the port, the command request and the pool, after events. -/
def resetLeaves (events : List Instr) (s : State) : Option (List Nat × List Nat × Bool × Port × Bool × Nat) :=
  (afterEvents (events ++ [.feedLinkReset]) s).map fun t =>
    ((t.list 6).map MixEntry.feed, (t.list 7).map MixEntry.feed, t.proc.isSome, t.arbiter.port, t.arbiter.cmdRequest, t.pool)

-- a feed-link reset before the last argument word of an edit is taken: the edit is not made (R169)
theorem test_reset_before_last_word :
    resetLeaves [.nop]
      (executing [0#16, Op.nop.word, Op.setGain.word, 6#16, 4#16, 90#16, 2#16] (withFeed 4 freeFeed State.reset)) =
      some ([], [], false, .free, false, 1024) := by decide +kernel
theorem test_reset_after_take :
    resetLeaves [.burstTake]
      { withFeed 4 freeFeed State.reset with inbound := [⟨1#16, command .setGain [6#16, 4#16, 90#16, 2#16]⟩] } =
      some ([], [], false, .free, false, 1024) := by decide +kernel
-- a feed-link reset while an edit waits: the request is withdrawn (R170)
theorem test_reset_before_grant :
    resetLeaves [.setGain 6#16 4#16 90#16 2#16]
      { atCommand .setGain [6#16, 4#16, 90#16, 2#16] (withFeed 4 freeFeed State.reset) with
        walker := .running (.purge 9 0),
        arbiter := { arbiterReset with port := .busy, owner := .walker, run := 1, walkRequest := true } } =
      some ([], [], false, .busy, false, 1024) := by decide +kernel
-- a feed-link reset after the grant of an edit, here of the second of two in a row: it is made and stays (R131, R170)
theorem test_reset_after_grant :
    resetLeaves [.setGain 6#16 4#16 90#16 2#16]
      (executing [0#16, Op.setGain.word, 6#16, 4#16, 90#16, 2#16, Op.setGain.word, 7#16, 4#16, 90#16, 2#16]
        (withFeed 4 freeFeed State.reset)) =
      some ([4], [4], false, .free, false, 1022) := by decide +kernel

-- a held report is posted into the last free place, and the job queued behind it starts
theorem test_held_report_posted :
    let first := List.replicate 7 (ReturnItem.report (.scan 2#16 0 0 0 true none))
    let s := { State.reset with
      walker := .holding (.scan 1#16 0 0 0 true none), jobs := [.purge 127], replies := first }
    after s .heldReportPost (fun t => (t.replies, t.walker, t.jobs)) =
      some (first ++ [.report (.scan 1#16 0 0 0 true none)], .running (.purge 127 0), []) := by decide +kernel

-- a DATA word between two edits: no request stands at the first step's end (log entry 26)
theorem test_data_between_edits :
    let edit := [Op.setGain.word, 6#16, 4#16, 90#16, 2#16].flatMap fun w => [0x8000#16, w]
    after (executing (edit ++ [0xC000#16, 7#16] ++ edit) (withFeed 4 freeFeed State.reset)) (.setGain 6#16 4#16 90#16 2#16)
      (fun t => (t.arbiter.port, t.arbiter.cmdRequest, (atReady (.data 7#16) t).isSome)) = some (.free, false, true) := by
  decide +kernel

-- bursts through the parser (spec/09)
theorem test_arg_missing_by_data :
    lastReply (executing [0x8000#16, 0x0150#16, 0xC000#16, 0x0100#16] State.reset) =
      some (some .argMissing, 1, 0, noNotes, []) := by decide +kernel
theorem test_setMaster_level :
    after (atCommand .setMaster [300#16] State.reset) (.setMaster 300#16) (fun t => t.master) = some 255 := by
  decide +kernel
theorem test_setMaster_note :
    (after (atCommand .setMaster [300#16] State.reset) (.setMaster 300#16) lastReply).getD none =
      some (none, 0, 1, { noNotes with clamped := true }, []) := by decide +kernel
theorem test_reset_part_keeps_reads :
    ((after (executing [0#16, 0x0193#16, 1#16, 0x01AF#16] State.reset) (.read 1#16)
      (fun t => (after t .resetPart lastReply).getD none)).getD none) = some (none, 0, 2, noNotes, [0#16]) := by
  decide +kernel

/-! Witnesses: for every statement with hypotheses, a state and operands that meet them together, clause by clause, at
boundary values. -/

/-- The words of a burst of one command, or of one DATA word. -/
def wordsOfInstr (i : Instr) : List Word :=
  match i with
  | .tableWrite w => [0x4000#16, w]
  | .atCue high low batch d => [0#16, Op.atCue.word, high, low, batch, d.op.word] ++ d.args
  | i => match i.spelled with
    | some (op, args) => command op args
    | none => []

/-- The part at one command, in a burst that has placed n read words before. -/
def facing (i : Instr) (n : Nat) (s : State) : State :=
  proceed { burstStart { tag := 0x301#16, words := wordsOfInstr i } with reads := List.replicate n 0#16 } s

/-- The command is at hand, and what its clause asks of the burst and of the settled state holds. -/
def faces (i : Instr) (n : Nat) (s : State) (cond : Exec → State → Bool) : Bool :=
  match (Instr.ready i).bind (fun r => atReady r (settle (facing i n s))) with
  | some x => cond x (settle (facing i n s))
  | none => false

/-- Such a command is at hand in the sense of the statements. -/
theorem faces_atHand (i : Instr) (n : Nat) (s : State) (cond : Exec → State → Bool) (h : faces i n s cond = true) :
    ∃ x, atHand i (facing i n s) x ∧ cond x (settle (facing i n s)) = true := by
  unfold faces at h; unfold atHand
  split at h
  · exact ⟨_, ‹_›, h⟩
  · cases h

/-- The command is an edit at hand with its grant, and its clause's conditions hold. -/
def edits (i : Instr) (s : State) (cond : State → Bool) : Bool :=
  faces i 0 s fun _ u => granted (requestEdit u).arbiter .command && cond (requestEdit u)

theorem edits_editAtHand (i : Instr) (s : State) (cond : State → Bool) (h : edits i s cond = true) :
    ∃ x, editAtHand i (facing i 0 s) x ∧ cond (requestEdit (settle (facing i 0 s))) = true := by
  obtain ⟨x, hx, hc⟩ := faces_atHand _ _ _ _ h
  simp only [Bool.and_eq_true] at hc
  exact ⟨x, ⟨hx, hc.1⟩, hc.2⟩

/-- A LIVE feed that waits for samples, and one that runs with a fill. -/
def liveFeed : Feed :=
  { freeFeed with lifecycle := .live, flow := some .priming, streamId := some 0x1234#16, dirPos := some 4 }
def runningFeed (fill : Nat) : Feed := { liveFeed with flow := some .running, written := BitVec.ofNat 32 fill }
def fadingFeed (remaining : Nat) : Feed :=
  { liveFeed with lifecycle := .fading, flow := some .running, purgePending := some false, fade := some ⟨100, remaining, -1⟩ }
def liveAt (slot : Nat) : State := { State.reset with feeds := [(slot, liveFeed)], dir := [(4, some ⟨0x1234#16, slot⟩)] }

/-- A mix entry at its target, or with ramp steps left. -/
def entryOf (feed code remaining : Nat) : MixEntry := ⟨feed, code, 12850, 3289600, remaining, 0, true⟩
def listed (entries : List MixEntry) (s : State) : State :=
  { s with lists := [(63, entries)], pool := 1024 - entries.length }

theorem witness_EventsCompleteAndKeepQueue :
    (exec .nop State.reset matches .next _) ∧ (Instr.channelCompute 63).wellFormed = true := by decide +kernel

/-- The part at a command of its burst, with the port BUSY with a party's step. -/
def held (p : Party) (i : Instr) (s : State) : State :=
  let t := facing i 0 s
  { t with arbiter := { t.arbiter with port := .busy, owner := p, run := 1 } }

/-- The command is at hand there, and what its clause asks of the settled state holds. -/
def heldAt (p : Party) (i : Instr) (s : State) (cond : State → Bool) : Bool :=
  let u := settle (held p i s)
  ((Instr.ready i).bind fun r => atReady r u).isSome && decide (u.arbiter.port = .busy ∧ u.arbiter.owner = p) && cond u

theorem witness_CommandWaitsForItsTurn :
    (Instr.ready .nop).isSome = true ∧ atReady (.command .nop []) (settle State.reset) = none ∧
      (Instr.setGain 0#16 0#16 1#16 0#16).spelled.isSome = true ∧ Op.usesPort .setGain = true ∧
      heldAt .walker (.setGain 0#16 0#16 1#16 0#16) State.reset (fun _ => true) = true ∧
      heldAt .command (.setGain 0#16 0#16 1#16 0#16) State.reset (fun _ => true) = true ∧
      faces (.setGain 0#16 0#16 1#16 0#16) 0 State.reset (fun _ u =>
        decide (u.arbiter.port = .free ∧ u.arbiter.walkRequest = false)) = true := by decide +kernel

theorem witness_SettledStateIsAtRest : State.reset.quiet = true := by decide +kernel

theorem witness_LinkEvents :
    (settle State.reset).feedUp = .down ∧ (settle { State.reset with feedUp := .up }).feedUp = .up ∧
      granted (settle State.reset).arbiter .command = false ∧ Op.usesPort (Deferred.clearOutput 63#16 0#16).op = true ∧
      heldAt .command (.clearOutput 63#16 0#16) State.reset (fun u => decide (u.feedUp = .down) &&
        match applyDeferred (.clearOutput 63#16 0#16) u with
        | .done _ _ _ => true
        | .refuse _ => false) = true ∧
      heldAt .command (.clearOutput 64#16 0#16) State.reset (fun u =>
        decide (u.feedUp = .down ∧ applyDeferred (.clearOutput 64#16 0#16) u = .refuse .range)) = true ∧
      (settle State.reset).phase = .between ∧ (settle { State.reset with phase := .framed }).phase ≠ .between := by
  decide +kernel

def bindOf (slot bank : Word) : Instr := .bind 0x1234#16 slot bank 0x40#16 0#16
def ways (n : Nat) : State :=
  { State.reset with dir := (List.range n).map fun w => (4 + w, some ⟨BitVec.ofNat 16 w, w⟩) }

theorem witness_BindTestsAndPlacesFeed :
    faces (bindOf 128#16 3#16) 0 State.reset (fun _ _ => true) = true ∧
      faces (bindOf 127#16 4#16) 0 State.reset (fun _ _ => true) = true ∧
      faces (bindOf 127#16 3#16) 0 (liveAt 127) (fun _ u => decide ((u.feed 127).lifecycle ≠ .free)) = true ∧
      faces (bindOf 0#16 0#16) 0 { State.reset with dir := [(7, some ⟨0x1234#16, 5⟩)] }
        (fun _ u => decide (setIndex u.mask 0x1234#16 * 4 + 3 = 7 ∧
          (u.dirEntry 7).map DirEntry.streamId = some 0x1234#16)) = true ∧
      faces (bindOf 127#16 3#16) 0 (ways 4) (fun _ u => decide ((u.feed 127).lifecycle = .free ∧
        ∀ w : Nat, w < 4 → u.dirEntry (4 + w) ≠ none ∧ (u.dirEntry (4 + w)).map DirEntry.streamId ≠ some 0x1234#16)) = true ∧
      faces (bindOf 127#16 3#16) 0 (ways 3) (fun _ u => decide (u.dirEntry 7 = none ∧ ∀ w : Nat, w < 3 →
        u.dirEntry (4 + w) ≠ none ∧ (u.dirEntry (4 + w)).map DirEntry.streamId ≠ some 0x1234#16)) = true ∧
      faces (bindOf 0#16 0#16) 0 State.reset (fun _ u => decide (u.dirEntry 4 = none)) = true := by decide +kernel

theorem witness_UnbindStartsFade :
    faces (.unbind 128#16 0#16) 0 State.reset (fun _ _ => true) = true ∧
      faces (.unbind 127#16 0#16) 0 State.reset (fun _ u => decide ((u.feed 127).lifecycle ≠ .live)) = true ∧
      faces (.unbind 127#16 13#16) 0 (liveAt 127) (fun _ u => decide ((u.feed 127).lifecycle = .live)) = true := by
  decide +kernel

theorem witness_SetMaskNeedsEmptyDirectory :
    faces (.setMask 0#16) 0 { State.reset with dir := [(127, some ⟨0#16, 0⟩)] }
        (fun _ u => decide (u.dirEntry 127 ≠ none)) = true ∧
      faces (.setMask 0#16) 0 State.reset (fun _ u => decide (∀ p : Nat, p < 128 → u.dirEntry p = none)) = true := by
  decide +kernel

def rateOf (slot bank : Word) : Instr := .setRate slot 0x200#16 1#16 bank 49#16

theorem witness_SetRateReplacesRate :
    faces (rateOf 128#16 3#16) 0 State.reset (fun _ _ => true) = true ∧
      faces (rateOf 127#16 4#16) 0 State.reset (fun _ _ => true) = true ∧
      faces (rateOf 127#16 3#16) 0 State.reset (fun _ u => decide ((u.feed 127).lifecycle = .free)) = true ∧
      faces (rateOf 127#16 3#16) 0 (liveAt 127) (fun _ u => decide ((u.feed 127).lifecycle = .live)) = true := by
  decide +kernel

def servoOf (mode slot : Word) : Instr := .setServo mode slot 45#16 256#16 0#16 15#16

theorem witness_SetServoSetsFeedAndInterval :
    faces (servoOf 3#16 0#16) 0 State.reset (fun _ _ => true) = true ∧
      faces (servoOf 1#16 128#16) 0 State.reset (fun _ _ => true) = true ∧
      faces (servoOf 1#16 127#16) 0 State.reset (fun _ u => decide ((u.feed 127).lifecycle = .free)) = true ∧
      faces (servoOf 2#16 128#16) 63 State.reset (fun x _ => decide (64 - x.reads.length < 2)) = true ∧
      faces (servoOf 1#16 127#16) 62 (liveAt 127)
        (fun x u => decide (2 ≤ 64 - x.reads.length ∧ (u.feed 127).lifecycle = .live)) = true := by decide +kernel

theorem witness_ReadFeedPlacesRecord :
    faces (.readFeed 128#16) 0 State.reset (fun _ _ => true) = true ∧
      faces (.readFeed 127#16) 36 State.reset (fun x _ => decide (28 ≤ 64 - x.reads.length)) = true ∧
      faces (.readFeed 127#16) 37 State.reset (fun x _ => decide (64 - x.reads.length < 28)) = true := by decide +kernel

theorem witness_BuiltBurstsAreReceived :
    (15 ≤ 15 ∧ (List.replicate 512 0#16).length ≤ 512) ∧
      (255 < 256 ∧ 1 ≤ (List.replicate 32 (-8388608 : Int)).length ∧ (List.replicate 32 (-8388608 : Int)).length ≤ 32 ∧
        ∀ v ∈ List.replicate 32 (-8388608 : Int), -8388608 ≤ v ∧ v ≤ 8388607) ∧
      1 ≤ [0#8].length ∧ [0#8].length < 65536 := by decide +kernel

/-- A command burst of one NOP for an address, an audio burst of one sample, an amplifier reply. -/
def commandBytes (address : Byte) : List Byte := envelope 2 ([address] ++ wordBytes 7#16 ++ wordBytes 0#16 ++ wordBytes 0x100#16)
def audioBytes (id : Word) (seq : Byte) : List Byte := envelope 1 (wordBytes id ++ [seq, 1#8] ++ sampleBytes 5)
def bothUp : State := { State.reset with feedUp := .up, speakerUp := .up }
def busyExec : Exec := { burstStart { tag := 1#16, words := wordsOfInstr .nop } with framing := .bulkOp, rest := [0x100#16] }

/-- The tests of R184 and R185 as the statement BurstArrivals spells them. -/
def lengthOf (bytes : List Byte) : Nat := (bytes.getD 1 0#8 ++ bytes.getD 2 0#8).toNat
def isFramed (bytes : List Byte) : Bool :=
  decide (bytes.length = lengthOf bytes + 5 ∧ checkWord (bytes.take (lengthOf bytes + 3)) =
    bytes.getD (lengthOf bytes + 3) 0#8 ++ bytes.getD (lengthOf bytes + 3 + 1) 0#8)
def isAudio (bytes : List Byte) : Bool :=
  let count := (bytes.getD 6 0#8).toNat
  decide ((bytes.getD 0 0#8).toNat = 1 ∧ 1 ≤ count ∧ count ≤ 32 ∧ lengthOf bytes = 4 + 3 * count)
def isCommand (bytes : List Byte) : Bool :=
  decide ((bytes.getD 0 0#8).toNat = 2 ∧ lengthOf bytes % 2 = 1 ∧ 3 ≤ lengthOf bytes ∧
    (lengthOf bytes - 3) / 2 ≤ 512 ∧ (bytes.getD 3 0#8).toNat ≤ 15)
/-- Well framed, and failing a test of the body alone. -/
def badBody (bytes : List Byte) : Bool := isFramed bytes && !isAudio bytes && !isCommand bytes

theorem witness_BurstArrivals_framing :
    isFramed [] = false ∧ isFramed (commandBytes 0#8 ++ [0#8]) = false ∧
      isFramed ((commandBytes 0#8).set 11 0#8) = false ∧ badBody (envelope 3 [1#8]) = true ∧
      badBody (envelope 1 [0#8, 0#8, 0#8, 0#8]) = true ∧ badBody (envelope 1 [0#8, 0#8, 0#8, 33#8]) = true ∧
      badBody (envelope 2 [0#8, 0#8]) = true ∧ badBody (envelope 2 [0#8]) = true ∧
      badBody (envelope 2 [0#8, 0#8, 0#8, 0#8]) = true ∧ badBody (commandBytes 16#8) = true := by decide +kernel

-- 512 words and 513 words, by the length field
theorem witness_BurstArrivals_512_words :
    isCommand [2#8, 4#8, 3#8, 0#8] = true ∧ isCommand [2#8, 4#8, 5#8, 0#8] = false := by decide

theorem witness_BurstArrivals :
    (settle State.reset).feedUp = .down ∧ (settle bothUp).feedUp = .up ∧
      (isFramed (audioBytes 0x1234#16 1#8) ∧ isAudio (audioBytes 0x1234#16 1#8)) ∧
      isAudio (envelope 1 ([0#8, 0#8, 0#8, 32#8] ++ List.replicate 96 0#8)) ∧
      (isFramed (commandBytes 0#8) ∧ isCommand (commandBytes 0#8)) ∧
      (isFramed (commandBytes 15#8) ∧ isCommand (commandBytes 15#8)) ∧ isCommand (envelope 2 [0#8, 0#8, 0#8]) ∧
      (settle bothUp).address.toNat = 0 ∧
      (settle { bothUp with proc := some busyExec, inbound := List.replicate 3 ⟨1#16, []⟩ }).inbound.length = 3 ∧
      (settle { bothUp with proc := some busyExec, inbound := List.replicate 4 ⟨1#16, []⟩ }).inbound.length = 4 ∧
      (settle { bothUp with through := List.replicate 3 [] }).through.length < 4 ∧
      4 ≤ (settle { bothUp with through := List.replicate 4 [] }).through.length ∧
      (settle State.reset).speakerUp = .down ∧ (settle bothUp).speakerUp = .up ∧
      (isFramed (envelope 3 [1#8]) ∧ lengthOf (envelope 3 [1#8]) = 1) ∧
      (isFramed (envelope 3 []) ∧ lengthOf (envelope 3 []) = 0) ∧
      (settle { bothUp with relay := List.replicate 3 [] }).relay.length < 4 ∧
      4 ≤ (settle { bothUp with relay := List.replicate 4 [] }).relay.length := by decide +kernel

def audioAt (way : Nat) (f : Feed) : State :=
  { bothUp with dir := [(4 + way, some ⟨0x1234#16, 127⟩)], feeds := [(127, f)] }

theorem witness_AudioArrival :
    receive (audioBytes 0x1234#16 127#8) = .audio 0x1234#16 127 [5] ∧
      receive (audioBytes 0x1234#16 128#8) = .audio 0x1234#16 128 [5] ∧ (settle bothUp).feedUp = .up ∧
      (∀ w < 4, (settle bothUp).dirEntry (4 + w) = none) ∧
      (settle (audioAt 3 liveFeed)).dirEntry 7 = some ⟨0x1234#16, 127⟩ ∧
      (∀ w < 3, (settle (audioAt 3 liveFeed)).dirEntry (4 + w) = none) ∧
      (settle (audioAt 0 liveFeed)).dirEntry 4 = some ⟨0x1234#16, 127⟩ ∧
      ((settle (audioAt 3 { liveFeed with lifecycle := .purging })).feed 127).lifecycle = .purging ∧
      (let f := (settle (audioAt 3 { runningFeed 48 with lastSeq := some 255 })).feed 127
       f.lifecycle = .live ∧ f.fill = 48 ∧ seqDistance f 127 = 127 ∧ seqDistance f 128 = 128) ∧
      ((settle (audioAt 3 { liveFeed with index := 2#32 })).feed 127).fill = -2 := by decide +kernel

theorem witness_AcceptedBurstFillsRing :
    (List.replicate 32 (1 : Int)).length ≤ 32 ∧ (runningFeed 48).fill = 48 ∧
      ({ liveFeed with index := 2#32 } : Feed).fill = -2 := by decide +kernel

theorem witness_SampleArithmetic :
    (State.reset.feed 0).lifecycle = .free ∧
      (let f := ({ State.reset with feeds := [(0, runningFeed 1)] } : State).feed 0
       f.lifecycle = .live ∧ f.step = none ∧ f.flow = some .running ∧ 1 ≤ f.fill) ∧
      (let f := ({ State.reset with feeds := [(0, runningFeed 0)] } : State).feed 0
       f.lifecycle = .live ∧ f.step = none ∧ f.flow = some .running ∧ f.fill ≤ 0) ∧
      (let f := ((liveAt 0).feed 0)
       f.lifecycle = .live ∧ f.step = none ∧ f.flow ≠ some .running) := by decide +kernel

def gainOf (output slot code ramp : Word) : Instr := .setGain output slot code ramp
def entryAt (code : Nat) (s : State) : State := listed [entryOf 126 1 0, entryOf 127 code 0] s

theorem witness_SetGainEditsRoute :
    edits (gainOf 64#16 127#16 255#16 12#16) State.reset (fun _ => true) = true ∧
      edits (gainOf 63#16 128#16 255#16 12#16) State.reset (fun _ => true) = true ∧
      edits (gainOf 63#16 127#16 256#16 12#16) State.reset (fun _ => true) = true ∧
      edits (gainOf 63#16 127#16 255#16 12#16) State.reset (fun g => decide ((g.feed 127).lifecycle ≠ .live)) = true ∧
      edits (gainOf 63#16 127#16 1#16 13#16) { liveAt 127 with pool := 0 } (fun g => decide
        ((g.feed 127).lifecycle = .live ∧ (g.list 63).find? (fun e => e.feed == 127) = none ∧ g.pool = 0)) = true ∧
      edits (gainOf 63#16 127#16 0#16 12#16) (liveAt 127) (fun g => decide
        ((g.feed 127).lifecycle = .live ∧ (g.list 63).find? (fun e => e.feed == 127) = none)) = true ∧
      edits (gainOf 63#16 127#16 255#16 12#16) (entryAt 255 (liveAt 127)) (fun g => decide
        ((g.list 63).find? (fun e => e.feed == 127) = some (entryOf 127 255 0) ∧ g.filter = true)) = true ∧
      edits (gainOf 63#16 127#16 255#16 12#16) (entryAt 254 (liveAt 127)) (fun g => decide
        ((g.list 63).find? (fun e => e.feed == 127) = some (entryOf 127 254 0))) = true ∧
      edits (gainOf 63#16 127#16 255#16 12#16) { entryAt 255 (liveAt 127) with filter := false } (fun g => decide
        ((g.list 63).find? (fun e => e.feed == 127) = some (entryOf 127 255 0) ∧ g.filter = false)) = true ∧
      edits (gainOf 63#16 1#16 255#16 12#16) (listed [entryOf 0 1 0, entryOf 2 1 0] (liveAt 1)) (fun g => decide
        (g.list 63 = [entryOf 0 1 0] ++ [entryOf 2 1 0] ∧ g.pool ≠ 0 ∧ (g.feed 1).lifecycle = .live)) = true := by
  decide +kernel

theorem witness_ClearOutputRetargets :
    edits (.clearOutput 64#16 13#16) State.reset (fun _ => true) = true ∧
      edits (.clearOutput 63#16 13#16) (entryAt 0 State.reset) (fun g => decide (g.list 63 ≠ [])) = true := by
  decide +kernel

theorem witness_SettingCommands :
    faces (.setFilter 2#16) 0 State.reset (fun _ _ => true) = true ∧
      faces (.setFilter 1#16) 0 State.reset (fun _ _ => true) = true ∧
      faces (.setMaster 256#16) 0 State.reset (fun _ _ => true) = true ∧
      faces (.setInvert 64#16 1#16) 0 State.reset (fun _ _ => true) = true ∧
      faces (.setInvert 63#16 2#16) 0 State.reset (fun _ _ => true) = true ∧
      faces (.setInvert 63#16 1#16) 0 State.reset (fun _ _ => true) = true ∧
      faces (.setActive 65#16) 0 State.reset (fun _ _ => true) = true ∧
      faces (.setRelay 2#16) 0 State.reset (fun _ _ => true) = true ∧
      faces (.setRelay 0#16) 0 State.reset (fun _ _ => true) = true ∧
      faces (.setRelay 1#16) 0 State.reset (fun _ _ => true) = true := by decide +kernel

theorem witness_SetOverrideWritesPending :
    faces (.setOverride 2#16 0#16 0#16 0#16 0#16 0#16) 0 State.reset (fun _ _ => true) = true ∧
      faces (.setOverride 1#16 128#16 0#16 0#16 0#16 0#16) 0 State.reset (fun _ _ => true) = true ∧
      faces (.setOverride 0#16 128#16 0#16 0#16 0#16 0#16) 0 State.reset (fun _ _ => true) = true ∧
      faces (.setOverride 1#16 127#16 1#16 0#16 0#16 0x8000#16) 0 State.reset (fun _ _ => true) = true := by
  decide +kernel

theorem witness_ReadOutputPlacesUnits :
    faces (.readOutput 64#16 127#16) 0 State.reset (fun _ _ => true) = true ∧
      faces (.readOutput 63#16 128#16) 0 State.reset (fun _ _ => true) = true ∧
      faces (.readOutput 63#16 127#16) 60 State.reset (fun x _ => decide (64 - x.reads.length < 5)) = true ∧
      faces (.readOutput 63#16 127#16) 59 (entryAt 1 State.reset) (fun x _ => decide (5 ≤ 64 - x.reads.length)) = true := by
  decide +kernel

def computing (s : State) : State := { s with phase := .computing, speakerUp := .up }
def underOverride (mask : BitVec 64) (s : State) : State := { s with ovCurrent := { on := true, monitor := 0, mask := mask } }

theorem witness_ChannelFromList :
    let u := settle (computing (entryAt 1 (liveAt 127)))
    u.phase = .computing ∧ u.workOf 63 = .waiting ∧ 63 < u.active ∧ u.ovCurrent.on = false ∧
      (u.list 63).Pairwise (fun a b => a.feed < b.feed) := by decide +kernel

theorem witness_ChannelUnderOverride :
    (let u := settle (computing { State.reset with active := 63 })
     u.phase = .computing ∧ u.workOf 63 = .waiting ∧ u.active ≤ 63) ∧
      (let u := settle (underOverride 0#64 (computing State.reset))
       u.phase = .computing ∧ u.workOf 63 = .waiting ∧ 63 < u.active ∧ u.ovCurrent.on = true) := by decide +kernel

theorem witness_FrameAndForeignBurst :
    (settle State.reset).phase ≠ .computing ∧ (settle (computing State.reset)).workOf 0 = .waiting ∧
      (let u := settle frameState
       u.phase = .computing ∧ (∀ c < u.active, u.workOf c ≠ .waiting) ∧ (∀ c < u.active, u.slotOf c ≠ 3) ∧
         u.slotOf 2 = 2 ∧ u.slotOf 3 = 2 ∧ ∀ d < 2, u.slotOf d ≠ 2) ∧
      (let u := settle { bothUp with gapOpen := true, through := [[1#8]] }
       u.speakerUp = .up ∧ u.gapOpen = true ∧ u.through = [1#8] :: []) ∧
      (settle State.reset).speakerUp = .down ∧ (settle bothUp).gapOpen = false ∧ (settle bothUp).through = [] := by
  decide +kernel

theorem witness_SetDelayStartsDip :
    faces (.setDelay 64#16 0#16) 0 State.reset (fun _ _ => true) = true ∧
      faces (.setDelay 63#16 1024#16) 0 State.reset (fun _ _ => true) = true := by decide +kernel

def dipState (c : Nat) (d : Dip) (due : List CloseWork) : State := { State.reset with dips := [(c, d)], closeDue := due }

theorem witness_DipEnds :
    (let u := startIfDue (dipState 63 (.falling 1 1023) [.dipDelayMove 63])
     .dipDelayMove 63 ∈ u.closeDue ∧ u.dip 63 = .falling 1 1023) ∧
      (let u := startIfDue (dipState 63 (.rising 31) [.dipRiseEnd 63])
       .dipRiseEnd 63 ∈ u.closeDue ∧ u.dip 63 = .rising 31) ∧
      .dipDelayMove 63 ∉ (startIfDue State.reset).closeDue ∧ .dipRiseEnd 63 ∉ (startIfDue State.reset).closeDue := by
  decide +kernel

theorem witness_PeriodStart :
    (settle bothUp).speakerUp = .up ∧ (settle bothUp).phase = .between ∧ (settle State.reset).speakerUp = .down ∧
      (settle (computing State.reset)).phase ≠ .between := by decide +kernel

def cueOf (due : Count) (d : Deferred) : Cue := ⟨1#16, 255, due, false, d⟩

theorem witness_DuePassAppliesCues :
    State.reset.cues = [] ∧ 2 ^ 31 ≤ (0#32 - 0x80000000#32).toNat ∧ (0#32 - 0x80000001#32).toNat < 2 ^ 31 ∧
      (match applyDeferred (.setMaster 1#16) { State.reset with cues := [] } with
       | .done t _ _ => decide (t.cues = [])
       | .refuse _ => false) = true ∧
      applyDeferred (.setGain 64#16 0#16 0#16 0#16) State.reset = .refuse .range := by decide +kernel

theorem witness_CuedCommandIsTheImmediateOne :
    (Instr.setMaster 1#16).spelled = some ((Deferred.setMaster 1#16).op, (Deferred.setMaster 1#16).args) ∧
      faces (.setMaster 1#16) 0 State.reset (fun _ u => match applyDeferred (.setMaster 1#16) u with
        | .done _ _ _ => true
        | .refuse _ => false) = true ∧
      faces (.setInvert 64#16 0#16) 0 State.reset (fun _ u =>
        decide (applyDeferred (.setInvert 64#16 0#16) u = .refuse .range)) = true ∧
      edits (.clearOutput 63#16 0#16) State.reset (fun g => match applyDeferred (.clearOutput 63#16 0#16) g with
        | .done _ _ _ => true
        | .refuse _ => false) = true ∧
      edits (.clearOutput 64#16 0#16) State.reset (fun g =>
        decide (applyDeferred (.clearOutput 64#16 0#16) g = .refuse .range)) = true := by decide +kernel

def atOf (due : Count) (batch : Word) : Instr := .atCue (due.extractLsb' 16 16) (due.extractLsb' 0 16) batch (.setMaster 1#16)
def withCues (n : Nat) (due : Count) : State := { State.reset with cues := List.replicate n (cueOf due (.setMaster 1#16)) }

theorem witness_AtAcceptsCue :
    faces (atOf 5#32 256#16) 0 State.reset (fun _ _ => true) = true ∧
      faces (atOf 5#32 255#16) 0 (withCues 64 5#32) (fun _ u => decide (64 ≤ u.cues.length)) = true ∧
      faces (atOf 4#32 255#16) 0 (withCues 63 5#32) (fun _ u => decide (u.cues.length < 64 ∧
        ∃ t ∈ u.cues.getLast?, 1 ≤ (t.due - 4#32).toNat ∧ (t.due - 4#32).toNat < 2 ^ 31)) = true ∧
      faces (atOf 0x80000005#32 255#16) 0 (withCues 1 5#32) (fun _ u => decide
        (∃ h ∈ u.cues.head?, 2 ^ 31 ≤ (0x80000005#32 - h.due).toNat)) = true ∧
      faces (atOf 0x80000004#32 255#16) 64 (withCues 63 5#32) (fun x u => decide (64 - x.reads.length < 1 ∧ u.cues.length < 64 ∧
        (∀ t ∈ u.cues.getLast?, ¬(1 ≤ (t.due - 0x80000004#32).toNat ∧ (t.due - 0x80000004#32).toNat < 2 ^ 31)) ∧
        ∀ h ∈ u.cues.head?, (0x80000004#32 - h.due).toNat < 2 ^ 31)) = true := by decide +kernel

theorem witness_CancelAndFlushCues :
    faces (.cancelBatch 256#16) 0 State.reset (fun _ _ => true) = true ∧
      faces (.cancelBatch 255#16) 63 (withCues 2 5#32) (fun x _ => decide (1 ≤ 64 - x.reads.length)) = true ∧
      faces .flushCues 64 (withCues 2 5#32) (fun x _ => decide (64 - x.reads.length < 1)) = true := by decide +kernel

theorem witness_PeriodClose :
    (settle { State.reset with phase := .framed }).phase = .framed ∧ (settle State.reset).phase ≠ .framed ∧
      (let f := runningFeed 1
       f.bound = true ∧ f.step = none ∧ f.flow = some .running ∧ 1 ≤ f.fill) ∧
      (runningFeed 0).fill ≤ 0 ∧ liveFeed.flow ≠ some .running ∧ freeFeed.bound = false ∧
      (let f := { fadingFeed 2 with step := some ⟨0, true⟩ }
       f.lifecycle = .fading ∧ f.fade = some ⟨100, 2, -1⟩ ∧ f.step = some ⟨0, true⟩) ∧
      (let f := { fadingFeed 1 with step := some ⟨0, true⟩ }
       f.lifecycle = .fading ∧ f.fade = some ⟨100, 1, -1⟩) ∧
      frameState.workOf 5 = .computed 15 ∧ frameState.workOf 63 = .waiting := by decide +kernel

def owing (due : List CloseWork) (s : State) : State := { s with closeDue := due }

theorem witness_RampEndAndAutoRelease :
    .rampEnd 63 127 ∈ (startIfDue (owing [.rampEnd 63 127] (entryAt 1 State.reset))).closeDue ∧
      (let u := startIfDue (owing [.autoRelease 63 127] (entryAt 0 State.reset))
       .autoRelease 63 127 ∈ u.closeDue ∧ ∃ e ∈ u.list 63, e.feed = 127) ∧
      (let u := startIfDue (owing [.autoRelease 63 127] State.reset)
       .autoRelease 63 127 ∈ u.closeDue ∧ ∀ e ∈ u.list 63, e.feed ≠ 127) ∧
      .rampEnd 63 127 ∉ (startIfDue State.reset).closeDue ∧ .autoRelease 63 127 ∉ (startIfDue State.reset).closeDue := by
  decide +kernel

def scanJob : ScanJob := ⟨63, 127, 1, .a, 9#16⟩
def recodeJob (notify : Bool) : RecodeJob := ⟨63, 127, 1, .a, 12, notify, 9#16⟩
def fullJobs (s : State) : State :=
  { s with jobs := List.replicate 8 (.scan scanJob), walker := .running (.scan scanJob 0 1) }

theorem witness_FadeCompletionAndServoExpiry :
    (let u := startIfDue (owing [.fadeCompletion 127] { State.reset with feeds := [(127, fadingFeed 1)] })
     .fadeCompletion 127 ∈ u.closeDue ∧ u.jobs.length < 8) ∧
      (let u := startIfDue (owing [.fadeCompletion 127] (fullJobs { State.reset with feeds := [(127, fadingFeed 1)] }))
       .fadeCompletion 127 ∈ u.closeDue ∧ 8 ≤ u.jobs.length ∧ (u.feed 127).fade = some ⟨100, 1, -1⟩) ∧
      .fadeCompletion 127 ∉ (startIfDue State.reset).closeDue ∧ .servoExpiry ∉ (startIfDue State.reset).closeDue ∧
      .servoExpiry ∈ (startIfDue (owing [.servoExpiry] State.reset)).closeDue := by decide +kernel

theorem witness_JobCommandsQueueJobs :
    faces (.jobRecode 63#16 127#16 129#16 1#16 12#16 1#16) 0 State.reset (fun _ _ => true) = true ∧
      faces (.jobRecode 63#16 127#16 128#16 1#16 12#16 2#16) 0 State.reset (fun _ _ => true) = true ∧
      faces (.jobRecode 63#16 127#16 128#16 1#16 13#16 1#16) 0 (fullJobs State.reset)
        (fun _ u => decide (8 ≤ u.jobs.length)) = true ∧
      faces (.jobRecode 63#16 127#16 128#16 1#16 13#16 1#16) 0 State.reset (fun _ u => decide (u.jobs.length < 8)) = true ∧
      faces (.jobScan 64#16 127#16 128#16 1#16) 0 State.reset (fun _ _ => true) = true ∧
      faces (.jobScan 63#16 127#16 1#16 1#16) 0 (fullJobs State.reset) (fun _ u => decide (8 ≤ u.jobs.length)) = true ∧
      faces (.jobScan 63#16 127#16 1#16 0#16) 0 State.reset (fun _ u => decide (u.jobs.length < 8)) = true := by
  decide +kernel

def pendingFeed : Feed := { fadingFeed 0 with purgePending := some true }

theorem witness_JobStart :
    (fullJobs State.reset).walker ≠ .idle ∧ State.reset.jobs = [] ∧
      (let s := { State.reset with jobs := [.purge 127] }
       s.walker = .idle ∧ s.jobs = .purge 127 :: [] ∧ ∀ k < 128, (s.feed k).lifecycle ≠ .fading) ∧
      (let s := { State.reset with jobs := [.purge 3], feeds := [(127, pendingFeed)] }
       s.walker = .idle ∧ s.jobs = .purge 3 :: [] ∧ (s.feed 127).lifecycle = .fading ∧
         (s.feed 127).purgePending = some true ∧ ∀ m < 127, (s.feed m).lifecycle ≠ .fading) := by decide +kernel

def walking (r : Running) (s : State) : State :=
  { s with walker := .running r, arbiter := { s.arbiter with port := .busy, owner := .walker, walkRequest := true } }

theorem witness_PurgeStep :
    (let u := settle { State.reset with walker := .running (.purge 127 0) }
     u.walker = .running (.purge 127 0) ∧ granted u.arbiter .walker = false) ∧
      (let u := settle (walking (.purge 127 62) (entryAt 1 State.reset))
       u.walker = .running (.purge 127 62) ∧ granted u.arbiter .walker = true) ∧
      (let u := settle (walking (.purge 127 63) (entryAt 1 (liveAt 127)))
       u.walker = .running (.purge 127 63) ∧ granted u.arbiter .walker = true ∧ (u.feed 127).dirPos = some 4) := by
  decide +kernel

theorem witness_RecodeStep :
    (let u := settle (walking (.recode (recodeJob true) 127 1 0 0) State.reset)
     u.walker = .running (.recode (recodeJob true) 127 1 0 0) ∧ granted u.arbiter .walker = true ∧
       (u.list 63).find? (fun e => decide (127 ≤ e.feed)) = none) ∧
      (let u := settle (walking (.recode (recodeJob false) 127 1 0 0) (entryAt 255 State.reset))
       granted u.arbiter .walker = true ∧ (u.list 63).find? (fun e => decide (127 ≤ e.feed)) = some (entryOf 127 255 0) ∧
         u.recode .a 255 = 255 ∧ u.filter = true) ∧
      (let u := settle (walking (.recode (recodeJob false) 127 1 0 0) { entryAt 255 State.reset with recodeA := [(255, 0)] })
       granted u.arbiter .walker = true ∧ (u.list 63).find? (fun e => decide (127 ≤ e.feed)) = some (entryOf 127 255 0) ∧
         u.recode .a 255 = 0) := by decide +kernel

theorem witness_ScanStep :
    granted (settle State.reset).arbiter .walker = false ∧ (settle State.reset).walker = .idle ∧
      (let u := settle (walking (.scan scanJob 127 1) State.reset)
       granted u.arbiter .walker = true ∧ (∀ slot c, u.walker ≠ .running (.purge slot c)) ∧
         ∀ j f remaining changed filtered, u.walker ≠ .running (.recode j f remaining changed filtered)) ∧
      (let u := settle (walking (.purge 127 0) State.reset)
       granted u.arbiter .walker = true ∧ ∀ j f remaining, u.walker ≠ .running (.scan j f remaining)) ∧
      (let u := settle (walking (.scan scanJob 127 1) State.reset)
       u.walker = .running (.scan scanJob 127 1) ∧ granted u.arbiter .walker = true ∧
         (u.list 63).find? (fun e => decide (127 ≤ e.feed)) = none) ∧
      (let u := settle (walking (.scan scanJob 127 1) (entryAt 255 State.reset))
       (u.list 63).find? (fun e => decide (127 ≤ e.feed)) = some (entryOf 127 255 0) ∧ u.recode .a 255 ≠ 0) ∧
      (let u := settle (walking (.scan scanJob 127 2) (entryAt 0 State.reset))
       (u.list 63).find? (fun e => decide (127 ≤ e.feed)) = some (entryOf 127 0 0) ∧ u.recode .a 0 = 0) := by
  have h : (settle (walking (.scan scanJob 127 1) State.reset)).walker = .running (.scan scanJob 127 1) := by
    decide +kernel
  have k : (settle (walking (.purge 127 0) State.reset)).walker = .running (.purge 127 0) := by decide +kernel
  refine ⟨by decide +kernel, by decide +kernel, ⟨by decide +kernel, ?_, ?_⟩, ⟨by decide +kernel, ?_⟩, ?_⟩
  · rw [h]; intro _ _ e; cases e
  · rw [h]; intro _ _ _ _ _ e; cases e
  · rw [k]; intro _ _ _ e; cases e
  · decide +kernel

def sevenReplies : List ReturnItem := List.replicate 7 (.report (.scan 1#16 0 0 0 true none))

theorem witness_HeldReportAndBurstTake :
    (let u := closeRest { State.reset with walker := .holding (.scan 1#16 0 0 0 true none), replies := sevenReplies }
     u.walker = .holding (.scan 1#16 0 0 0 true none) ∧ u.placeFree = true ∧ u.jobs = []) ∧
      (let u := closeRest { State.reset with
         walker := .holding (.scan 1#16 0 0 0 true none), replies := sevenReplies, jobs := [.purge 127] }
       u.walker = .holding (.scan 1#16 0 0 0 true none) ∧ u.placeFree = true ∧ u.jobs ≠ []) ∧
      (closeRest { State.reset with
        walker := .holding (.scan 1#16 0 0 0 true none), replies := sevenReplies ++ [.report (.scan 1#16 0 0 0 true none)] }).placeFree = false ∧
      (let u := closeRest { State.reset with inbound := [⟨1#16, [0#16, 0x100#16]⟩], replies := sevenReplies }
       u.proc = none ∧ u.inbound = ⟨1#16, [0#16, 0x100#16]⟩ :: [] ∧ u.replies.length < 8) ∧
      (closeRest State.reset).inbound = [] := by decide +kernel

theorem witness_ArbiterGrantsByRuns :
    faces (.setArb 2#16 0#16 0#16) 0 State.reset (fun _ _ => true) = true ∧
      faces (.setArb 1#16 256#16 0#16) 0 State.reset (fun _ _ => true) = true ∧
      State.reset.arbiter.port = .free ∧ State.reset.arbiter.walkRequest = false ∧
      State.reset.arbiter.cmdRequest = false ∧ (walking (.purge 0 0) State.reset).arbiter.port = .busy ∧
      (let a := { arbiterReset with cmdRequest := true, walkRequest := true, run := 7 }
       a.owner = .command ∧ a.run < a.cmdBurst) ∧
      (let a := { arbiterReset with cmdRequest := true, walkRequest := true, run := 8 }
       ¬(a.limiting = false ∨ (a.owner = .command ∧ a.run < a.cmdBurst) ∨ (a.owner = .walker ∧ a.walkBurst ≤ a.run))) := by
  decide +kernel

theorem witness_PointerCommands :
    faces (.setTable 9#16) 0 State.reset (fun _ _ => true) = true ∧
      faces (.setTable 8#16) 0 State.reset (fun _ _ => true) = true ∧
      faces (.setRow 65#16) 0 State.reset (fun _ u => decide (u.pointer.table < 4)) = true ∧
      faces (.setRow 3#16) 0 { State.reset with pointer := ⟨8, 0, 0⟩ } (fun _ u => decide (7 ≤ u.pointer.table)) = true ∧
      faces (.setColumn 16#16) 0 State.reset (fun _ _ => true) = true ∧
      faces (.setColumn 15#16) 0 State.reset (fun _ _ => true) = true ∧
      faces .patchBegin 0 State.reset (fun _ _ => true) = true ∧
      faces .patchEnd 0 State.reset (fun _ u => decide (u.patch = none)) = true ∧
      faces .patchEnd 0 { State.reset with patch := some 16 } (fun _ u => decide (u.patch = some 16)) = true := by
  decide +kernel

theorem witness_ReadSteps :
    faces (.read 0#16) 0 State.reset (fun _ u => decide (u.pointer.column ≤ 16)) = true ∧
      faces (.read 65#16) 0 State.reset (fun _ u => decide (u.pointer.column ≤ 16)) = true ∧
      faces (.read 64#16) 1 { State.reset with pointer := ⟨8, 3, 16⟩ } (fun _ u => decide (u.pointer.column ≤ 16)) = true := by
  decide +kernel

def pointed (table row column : Nat) : State := { State.reset with pointer := ⟨table, row, column⟩ }

theorem witness_TableWrite :
    faces (.tableWrite 7#16) 0 (pointed 0 64 16) (fun _ u => decide (u.pointer.column = 16)) = true ∧
      faces (.tableWrite 7#16) 0 (pointed 3 64 15) (fun _ u => decide (u.pointer.column < 16 ∧ u.pointer.table < 4)) = true ∧
      faces (.tableWrite 7#16) 0 (pointed 4 0 0) (fun _ u => decide (u.pointer.table = 4 ∧ u.pointer.column = 0)) = true ∧
      faces (.tableWrite 32768#16) 0 (pointed 4 15 15) (fun _ u => decide (u.pointer.table = 4 ∧ u.pointer.column < 16)) = true ∧
      faces (.tableWrite 256#16) 0 (pointed 5 15 15) (fun _ u => decide (u.pointer.table = 5)) = true ∧
      faces (.tableWrite 256#16) 0 (pointed 6 15 15) (fun _ u => decide (u.pointer.table = 6)) = true ∧
      faces (.tableWrite 64#16) 0 (pointed 7 3 15) (fun _ u => decide (u.pointer.table = 7)) = true ∧
      faces (.tableWrite 1024#16) 0 (pointed 8 3 15) (fun _ u => decide (u.pointer.table = 8)) = true := by
  decide +kernel

theorem witness_ResetPart : faces .resetPart 0 (liveAt 127) (fun _ _ => true) = true := by decide +kernel

theorem witness_CounterCommands :
    faces (.counterSelect 4#16 15#16) 0 State.reset (fun _ _ => true) = true ∧
      faces (.counterSelect 3#16 16#16) 0 State.reset (fun _ _ => true) = true ∧
      faces (.counterSelect 3#16 15#16) 0 State.reset (fun _ _ => decide (Event.outputPeriod.index = 15)) = true ∧
      faces (.counterLoad 4#16 0#16 0#16) 0 State.reset (fun _ _ => true) = true ∧
      faces (.counterLoad 3#16 0x7FFF#16 0xFFFF#16) 0 State.reset (fun _ _ => true) = true ∧
      faces (.counterRead 4#16) 0 State.reset (fun _ _ => true) = true ∧
      faces (.counterRead 3#16) 61 State.reset (fun x _ => decide (3 ≤ 64 - x.reads.length)) = true ∧
      faces (.counterRead 3#16) 62 State.reset (fun x _ => decide (64 - x.reads.length < 3)) = true := by decide +kernel

def alertState : State := { State.reset with counters := [(3, ⟨.checkFail, 0x7FFFFFFF#32⟩)] }

theorem witness_EventsCountAndAlert :
    (List.range 4).filter (fun k => decide ((State.reset.counter k).select = .checkFail ∧
        (State.reset.counter k).value = 0x7FFFFFFF#32)) = [] ∧
      (List.range 4).filter (fun k => decide ((alertState.counter k).select = .checkFail ∧
        (alertState.counter k).value = 0x7FFFFFFF#32)) = [3] ∧ alertState.urgent = none ∧
      ({ alertState with urgent := some (.alert 0 .filtered 0#32), further := 255 } : State).further ≤ 255 := by
  decide +kernel

def replyItem : ReturnItem := .report (.scan 1#16 0 0 0 true none)

theorem witness_ReturnLaneChoosesItem :
    (settle State.reset).feedUp = .down ∧ (settle { bothUp with lane := some [] }).lane ≠ none ∧
      (settle bothUp).urgent = none ∧ (settle bothUp).replies = [] ∧ (settle bothUp).relay = [] ∧
      (let u := settle { bothUp with urgent := some (.alert 0 .filtered 0#32) }
       u.feedUp = .up ∧ u.lane = none ∧ u.urgent = some (.alert 0 .filtered 0#32)) ∧
      (let u := settle { bothUp with replies := [replyItem] }
       u.lane = none ∧ u.urgent = none ∧ u.replies = replyItem :: [] ∧ u.relay = []) ∧
      (let u := settle { bothUp with relay := [[1#8]] }
       u.lane = none ∧ u.urgent = none ∧ u.replies = [] ∧ u.relay = [1#8] :: []) ∧
      (let u := settle { bothUp with replies := [replyItem], relay := [[1#8]], turn := .relay }
       u.lane = none ∧ u.replies = replyItem :: [] ∧ u.relay = [1#8] :: [] ∧ u.relayMode = .roundRobin ∧ u.turn = .relay) := by
  decide +kernel

/-- A burst at its start, and one under a BULK_OP marker. -/
def startExec : Exec := burstStart { tag := 1#16, words := [] }
def bulkExec : Exec := { startExec with framing := .bulkOp, parser := .bulkOp }
def dataExec : Exec := { startExec with framing := .bulkData, parser := .bulkData }

/-- OP words behind markers of their own; behind one marker with more = 0; and a command that both kinds share. -/
theorem witness_OpWords_single : OpWords .marker [0x8000#16, 0x0150#16, 0xBFFF#16, 7#16] [0x0150#16, 7#16] .marker :=
  .single _ _ _ _ _ (by decide) (by decide) (.single _ _ _ _ _ (by decide) (by decide) (.none _))
theorem witness_OpWords_bulk : OpWords .marker [0x3FFF#16, 0x0150#16, 7#16] [0x0150#16, 7#16] .bulkOp :=
  .bulk _ _ _ _ _ (by decide) (by decide) (.word _ _ _ _ (.none _))
theorem witness_OpWords_mixed : OpWords .marker [0x8000#16, 0x0150#16, 0#16, 7#16] [0x0150#16, 7#16] .bulkOp :=
  .single _ _ _ _ _ (by decide) (by decide) (.bulk _ _ _ _ _ (by decide) (by decide) (.none _))

theorem witness_data_goes (s : State) (w : Word) : ∃ t, burstGoes { dataExec with rest := [w] } s t :=
  ⟨_, _, .here _, rfl⟩
theorem witness_data_ends (s : State) : ∃ t, burstGoes { dataExec with rest := [] } s t := ⟨_, _, .here _, rfl⟩

theorem witness_ParserReachesCommands :
    (dataExec.framing = .bulkData ∧ dataExec.parser = .bulkData) ∧
    (startExec.framing = .marker ∧ startExec.parser = .wordWait) ∧ (bulkExec.framing = .bulkOp ∧ bulkExec.parser = .bulkOp) ∧
      Op.setOverride ≠ .atCue ∧ (List.replicate 6 0#16).length = Op.setOverride.arity ∧ [7#16].length = Op.setMaster.arity ∧
      Op.setGain.usesPort = true ∧ Op.setMaster.usesPort = false ∧
      (deferredOf .setGain [0#16, 0#16, 0#16, 0#16]).isSome = true ∧ (0xC000#16).getLsbD 14 = true ∧
      (0x4000#16).getLsbD 14 = true ∧ Op.nop.deferrable = false := by
  decide +kernel

theorem witness_no_command (op : Op) : 0xFFFF#16 ≠ op.word := by cases op <;> decide
theorem witness_not_deferrable (op : Op) (h : op.deferrable = true) : Op.nop.word ≠ op.word := by
  cases op <;> first | decide | cases h
theorem witness_cutShort_name : cutShort (Op.setOverride.word :: List.replicate 5 0#16) :=
  .inl ⟨.setOverride, _, by decide, rfl, by decide⟩
theorem witness_cutShort_at : cutShort [Op.atCue.word, 0#16, 0#16, 0#16] := .inr (.inl ⟨_, rfl, by decide⟩)
theorem witness_cutShort_deferred : cutShort [Op.atCue.word, 0#16, 0#16, 0#16, Op.setMaster.word] :=
  .inr (.inr ⟨_, _, _, .setMaster, [], by decide, by decide, rfl⟩)

theorem witness_NopOnlyCounts : faces .nop 0 State.reset (fun x _ => decide (x.rest = [] ∧ x.executed = 0)) = true := by
  decide +kernel

/-- A state away from reset that keeps every law: a LIVE feed, a PURGING one with its job, an entry, a cue, a dip. -/
def purgingOne : Feed := { freeFeed with lifecycle := .purging, streamId := some 0x1235#16, dirPos := some 0 }
def lawful : State :=
  { State.reset with
    feeds := [(0, liveFeed), (1, purgingOne)], dir := [(0, some ⟨0x1235#16, 1⟩), (4, some ⟨0x1234#16, 0⟩)],
    lists := [(63, [entryOf 0 200 0])], pool := 1023, jobs := [.purge 1], dips := [(5, .falling 32 7)],
    cues := [cueOf 5#32 (.setMaster 1#16)], pointer := ⟨8, 3, 16⟩, patch := some 16, pending := [.speakerLinkUp] }

theorem lawful_feed (k : Nat) : lawful.feed k = if k = 0 then liveFeed else if k = 1 then purgingOne else freeFeed := by
  match k with
  | 0 => rfl
  | 1 => rfl
  | k + 2 => simp only [if_neg (show k + 2 ≠ 0 by omega), if_neg (show k + 2 ≠ 1 by omega)]; rfl

theorem lawful_list (c : Nat) : lawful.list c = if c = 63 then [entryOf 0 200 0] else [] := by
  simp only [State.list, lawful, Tab.get, eq_comm (a := 63)]; rfl

theorem lawful_dir (p : Nat) : lawful.dirEntry p =
    if p = 0 then some ⟨0x1235#16, 1⟩ else if p = 4 then some ⟨0x1234#16, 0⟩ else none := by
  simp only [State.dirEntry, lawful, Tab.get, eq_comm (a := 0), eq_comm (a := 4)]; rfl

theorem witness_steps_from_lawful : ∃ t, step lawful = .next t := ⟨_, rfl⟩

theorem witness_FeedAndSampleLawsKept : lawful.feedsLawful ∧ lawful.samplesLawful := by
  refine ⟨fun k => ?_, fun c p => ?_, fun c x h => (by cases h), fun c => ?_⟩
  · rw [lawful_feed]; repeat' split
    all_goals (unfold feedLaw; decide)
  · show isSample 0; unfold isSample; decide
  · show dipLaw (Tab.get dipInit [(5, .falling 32 7)] c)
    simp only [Tab.get]; split
    · unfold dipLaw; decide
    · exact True.intro

theorem witness_MixLawKept : lawful.mixLawful := by
  refine ⟨by decide +kernel, fun c => ?_, fun c h => ?_⟩
  · rw [lawful_list]; split
    · simp
    · exact List.Pairwise.nil
  · rw [lawful_list, if_neg (by omega)]

theorem witness_GainLawKept : lawful.gainsLawful := by
  refine ⟨fun c h => ?_, rfl, fun t c h => ?_, fun c e h => ?_⟩
  · show c * 16384 / 255 ≤ 32767; omega
  · cases t <;> exact h
  · rw [lawful_list] at h; split at h
    · simp only [List.mem_singleton] at h; subst h
      exact ⟨by decide, by decide, by decide, by decide, .inr (.inr rfl)⟩
    · cases h

/-- The law of the edit port with an edit that waits while the walker's step is granted. -/
def contended : State :=
  { requestEdit (facing (.clearOutput 63#16 0#16) 0 (walking (.purge 1 0) State.reset)) with pending := [.purgeStep] }

theorem witness_CueQueuePointerAndPortLawsKept :
    lawful.cuesLawful ∧ lawful.queuesLawful ∧ lawful.pointerLawful ∧ lawful.portLawful ∧ contended.portLawful := by
  refine ⟨⟨by decide, by simp [lawful]⟩, by unfold State.queuesLawful; decide, ⟨by decide, by decide, by decide, ?_⟩, ?_, ?_⟩
  · intro c h; cases h; decide
  · refine ⟨by decide, ⟨fun h => (by cases h), fun ⟨j, h⟩ => (by cases h)⟩, by decide, by decide, by decide, ?_⟩
    decide
  · have hw : contended.walker = .running (.purge 1 0) := by decide +kernel
    have ha : contended.arbiter = { arbiterReset with
      port := .busy, owner := .walker, cmdRequest := true, walkRequest := true } := by decide +kernel
    have he : contended.atEdit = true := by decide +kernel
    unfold State.portLawful; rw [hw, ha, he]
    exact ⟨by decide, ⟨fun _ => ⟨_, rfl⟩, fun _ => rfl⟩, by decide, by decide, by decide, by decide⟩

theorem witness_contended_steps : ∃ t, step contended = .next t := ⟨_, rfl⟩

theorem witness_DirectoryLawKept : lawful.directoryLawful := by
  refine ⟨fun k h => ?_, fun k h => ?_, fun p e h => ?_, fun p q e d hp hq h => ?_, fun k h => by cases h⟩
  · rw [lawful_feed] at h ⊢; repeat' split at h
    · cases h
    · cases h
    · rw [if_neg ‹_›, if_neg ‹_›]; rfl
  · rw [lawful_feed] at h ⊢
    by_cases h0 : k = 0
    · subst h0; exact ⟨by decide, 4, 0x1234#16, rfl, rfl, rfl⟩
    · by_cases h1 : k = 1
      · subst h1; exact ⟨by decide, 0, 0x1235#16, rfl, rfl, rfl⟩
      · rw [if_neg h0, if_neg h1] at h; exact absurd rfl h
  · rw [lawful_dir] at h; repeat' split at h
    · cases h; subst p; decide +kernel
    · cases h; subst p; decide +kernel
    · cases h
  · rw [lawful_dir] at hp hq
    repeat' split at hp
    all_goals repeat' split at hq
    all_goals first
      | omega
      | (cases hp; cases hq; simp at h)
      | (cases hp; done)
      | cases hq

theorem witness_PurgeLawKept : lawful.purgesLawful := by
  refine ⟨fun k => ?_, fun k d h => ?_, fun k h => ?_, fun k => Nat.zero_le 1, fun k h => (by cases h)⟩
  · rw [lawful_feed]
    by_cases h0 : k = 0
    · subst h0; decide
    · by_cases h1 : k = 1
      · subst h1; decide
      · rw [if_neg h0, if_neg h1]
        show List.count (Job.purge k) [.purge 1] + 0 = 0
        simp [Ne.symm h1]
  · rw [lawful_feed] at h; repeat' split at h
    all_goals cases h
  · rw [lawful_feed]; repeat' split
    all_goals exact ⟨rfl, rfl⟩

theorem witness_CanonicalFormKept : lawful.canonical = true := by decide +kernel

end Sys2Proof.Tests
end

section
/-! PROOFS. BIND (R8, R9): its two searches through the ways of the id's set, its answer test by test, and the
statement about it. -/
namespace Sys2Proof.Machine

/-- A lookup is a hit when a way of the id's set holds the id (R5). -/
theorem lookup_isSome_iff (s : State) (id : Word) : (lookup s id).isSome ↔
    ∃ way < 4, (s.dirEntry (wayPos s id way)).map DirEntry.streamId = some id := by
  have ways : [0, 1, 2, 3] = List.range 4 := rfl
  simp only [lookup, ways, List.findSome?_isSome_iff, List.mem_range]
  refine exists_congr fun way => and_congr_right fun _ => ?_
  cases s.dirEntry (wayPos s id way) <;> simp

/-- No way is found when the four ways of the id's set are valid (R8). -/
theorem freeWay_eq_none_iff (s : State) (id : Word) :
    freeWay s id = none ↔ ∀ way < 4, s.dirEntry (wayPos s id way) ≠ none := by
  have ways : [0, 1, 2, 3] = List.range 4 := rfl
  simp [freeWay, ways]

/-- The way found is the lowest-numbered invalid one of the id's set (R9). -/
theorem freeWay_eq_some_iff (s : State) (id : Word) (way : Nat) : freeWay s id = some way ↔
    way < 4 ∧ s.dirEntry (wayPos s id way) = none ∧ ∀ w < way, s.dirEntry (wayPos s id w) ≠ none := by
  have ways : [0, 1, 2, 3] = List.range 4 := rfl
  simp [freeWay, ways, List.find?_range_eq_some, Option.isSome_iff_ne_none, and_left_comm]

section
variable {id slot bank high low : Word} {s : State} {way : Nat}

/-- The first test of R8. -/
theorem bindAnswer_range (above : 127 < slot.toNat ∨ 3 < bank.toNat) :
    bindAnswer id slot bank high low s = .refuse .range :=
  if_pos above

variable (ranged : ¬(127 < slot.toNat ∨ 3 < bank.toNat))
include ranged

/-- The second test of R8. -/
theorem bindAnswer_slotBusy (busy : (s.feed slot.toNat).lifecycle ≠ .free) :
    bindAnswer id slot bank high low s = .refuse .slotBusy := by
  simp only [bindAnswer, if_neg ranged, if_pos busy]

variable (isFree : (s.feed slot.toNat).lifecycle = .free)
include isFree

/-- The third test of R8. -/
theorem bindAnswer_duplicate (hit : (lookup s id).isSome) :
    bindAnswer id slot bank high low s = .refuse .duplicate := by
  simp only [bindAnswer, if_neg ranged, if_neg (not_not.2 isFree), if_pos hit]

variable (miss : ¬(lookup s id).isSome)
include miss

/-- The last test of R8. -/
theorem bindAnswer_setFull (full : freeWay s id = none) :
    bindAnswer id slot bank high low s = .refuse .setFull := by
  simp only [bindAnswer, if_neg ranged, if_neg (not_not.2 isFree), if_neg miss, full]

/-- Past the tests BIND places the entry and the feed (R9). -/
theorem bindAnswer_done (found : freeWay s id = some way) :
    bindAnswer id slot bank high low s =
      .done ((s.setDirEntry (wayPos s id way) (some { streamId := id, slot := slot.toNat })).setFeed slot.toNat
          (boundFeed id (wayPos s id way) (nominalOf high low) bank.toNat))
        (clampedIf (nominalClamps high low)) [] := by
  simp only [bindAnswer, if_neg ranged, if_neg (not_not.2 isFree), if_neg miss, found]

end

/-- Settles O7: each case of the statement is one answer of BIND, its searches said way by way. -/
theorem bindTestsAndPlacesFeed : Obligations.BindTestsAndPlacesFeed := by
  intro id slot bank high low s x hand u m first holds ranged isFree
  have refused {code : Code} (h : bindAnswer id slot bank high low u = .refuse code) :
      refuses (.bind id slot bank high low) s x u code := refuses_of_carryOut hand rfl rfl h
  have above_iff : 127 < slot.toNat ∨ 3 < bank.toNat ↔ ¬ranged := by simp only [ranged]; omega
  have within (r : ranged) : ¬(127 < slot.toNat ∨ 3 < bank.toNat) := fun h => above_iff.1 h r
  have hit_iff : (lookup u id).isSome ↔ ∃ w < 4, holds w := lookup_isSome_iff u id
  have miss (absent : ∀ w < 4, ¬holds w) : ¬(lookup u id).isSome := by simpa [hit_iff] using absent
  refine ⟨fun outside => ?range, fun r busy => ?slotBusy, fun r free hit => ?duplicate,
    fun r free absent valid => ?setFull, fun way r free absent isWay invalid lower => ?placed⟩
  case range => exact refused (bindAnswer_range (above_iff.2 outside))
  case slotBusy => exact refused (bindAnswer_slotBusy (within r) busy)
  case duplicate => exact refused (bindAnswer_duplicate (within r) free (hit_iff.2 hit))
  case setFull =>
    have full : freeWay u id = none := (freeWay_eq_none_iff u id).2 valid
    exact refused (bindAnswer_setFull (within r) free (miss absent) full)
  case placed =>
    have found : freeWay u id = some way := (freeWay_eq_some_iff u id way).2 ⟨isWay, invalid, lower⟩
    exact completes_of_carryOut hand rfl rfl (bindAnswer_done (within r) free (miss absent) found)

end Sys2Proof.Machine
end

section
/-! PROOFS. SET OVERRIDE (R88 to R90): the mask that its four words give, its answer test by test, and the statement
about it. -/
namespace Sys2Proof.Machine

/-- Word k of the mask gives channels 16(k-1)..16(k-1)+15: the words stand one above the other, word 1 lowest (R88). -/
theorem maskOf_getLsbD (m1 m2 m3 m4 : Word) {c : Nat} (inWord : c < 16) :
    (maskOf m1 m2 m3 m4).getLsbD c = m1.getLsbD c ∧ (maskOf m1 m2 m3 m4).getLsbD (16 + c) = m2.getLsbD c ∧
      (maskOf m1 m2 m3 m4).getLsbD (32 + c) = m3.getLsbD c ∧ (maskOf m1 m2 m3 m4).getLsbD (48 + c) = m4.getLsbD c := by
  simp (disch := omega) only [maskOf, BitVec.getLsbD_append, if_pos, if_neg, Nat.add_sub_cancel_left, and_self]

section
variable {mode monitor m1 m2 m3 m4 : Word} {s : State}

/-- The two tests of R89. -/
theorem setOverrideAnswer_range (outside : 1 < mode.toNat ∨ (mode.toNat = 1 ∧ 127 < monitor.toNat)) :
    setOverrideAnswer mode monitor m1 m2 m3 m4 s = .refuse .range :=
  if_pos outside

/-- Mode 0 passes the tests whatever the other words are, and clears the pending copy (R89, R90). -/
theorem setOverrideAnswer_off (off : mode.toNat = 0) :
    setOverrideAnswer mode monitor m1 m2 m3 m4 s = .done { s with ovPending := overrideOff } noNotes [] :=
  have inRange : ¬(1 < mode.toNat ∨ (mode.toNat = 1 ∧ 127 < monitor.toNat)) := by omega
  have notOn : mode.toNat ≠ 1 := by omega
  (if_neg inRange).trans (if_neg notOn)

/-- Mode 1 with a monitor of the part replaces the whole pending copy (R90). -/
theorem setOverrideAnswer_on (on : mode.toNat = 1) (isFeed : monitor.toNat ≤ 127) :
    setOverrideAnswer mode monitor m1 m2 m3 m4 s =
      .done { s with ovPending := { on := true, monitor := monitor.toNat, mask := maskOf m1 m2 m3 m4 } } noNotes [] :=
  have inRange : ¬(1 < mode.toNat ∨ (mode.toNat = 1 ∧ 127 < monitor.toNat)) := by omega
  (if_neg inRange).trans (if_pos on)

end

/-- Settles O22: each case of the statement is one answer of SET OVERRIDE, with the mask of its four words. -/
theorem setOverrideWritesPending : Obligations.SetOverrideWritesPending := by
  intro mode monitor m1 m2 m3 m4 s x hand i u
  refine ⟨fun outside => ?range, fun off => ?off, fun on isFeed => ⟨maskOf m1 m2 m3 m4, ?mask, ?on⟩⟩
  case range => exact refuses_of_carryOut hand rfl rfl (setOverrideAnswer_range outside)
  case off => exact completes_of_carryOut hand rfl rfl (setOverrideAnswer_off off)
  case mask => exact fun c inWord => maskOf_getLsbD m1 m2 m3 m4 inWord
  case on => exact completes_of_carryOut hand rfl rfl (setOverrideAnswer_on on isFeed)

end Sys2Proof.Machine
end

section
/-! PROOFS. NOP (R166): the reply of a burst at rest with no word left, and the statement about NOP. -/
namespace Sys2Proof.Machine

/-- A command that sets no note leaves the notes of the burst as they are (R156). -/
@[simp] theorem Notes.merge_noNotes (n : Notes) : n.merge noNotes = n := by
  simp [Notes.merge, noNotes]

/-- With no word left and no command under way the parser finds the burst complete (R154). -/
theorem look_finished {x : Exec} (noWord : x.rest = []) (atRest : x.parser.underWay = false) :
    look x = .finished false := by
  simp [look, noWord, atRest]

/-- Such a burst ends there with stop code OK (R153, R156). -/
theorem proceed_ends {x : Exec} {s : State} (noWord : x.rest = []) (atRest : x.parser.underWay = false) :
    proceed x s = burstEnded x none s := by
  have stays : runAhead x.rest.length x = x := by rw [noWord]; rfl
  simp only [proceed, stays, look_finished noWord atRest]
  exact endBurst_eq x none s

/-- NOP at hand answers with the settled state itself, no note and no read word, and the burst goes on (R166). -/
theorem exec_nop {s : State} {x : Exec} (hand : atHand .nop s x) :
    exec .nop s = .next (proceed (x.did noNotes []) (settle s)) :=
  carryOut_done (body := fun _ u => .done u noNotes []) hand rfl

/-- Settles O52: NOP is a command carried out that leaves the settled state; with no word left its burst, which then has
no command under way, ends with the one command counted. -/
theorem nopOnlyCounts : Obligations.NopOnlyCounts := by
  intro s x hand u
  refine ⟨completes_of_proceed (exec_nop hand), fun noWord first => ?_⟩
  have atRest : x.parser.underWay = false := atReady_atRest (r := .command .nop []) hand
  calc exec .nop s
    _ = .next (proceed (x.did noNotes []) u) := exec_nop hand
    _ = .next (burstEnded (x.did noNotes []) none u) := congrArg Host.Outcome.next (proceed_ends noWord atRest)
    _ = _ := by simp [burstEnded, Exec.did, first]

end Sys2Proof.Machine
end

section
/-! PROOFS. The laws of the mix map (R57, R58) and of gains and ramps (R74, R78), kept by every change of the mix map. -/
namespace Sys2Proof.Machine

/-- Replacing one of the first n numbers replaces its part of their sum. -/
theorem sum_range_replace (f g : Nat → Nat) (n c : Nat) (inRange : c < n) (others : ∀ d, d ≠ c → g d = f d) :
    ((List.range n).map g).sum + f c = ((List.range n).map f).sum + g c := by
  induction n with
  | zero => omega
  | succ n ih =>
    simp only [List.range_succ, List.map_append, List.sum_append, List.map_singleton, List.sum_singleton]
    rcases Nat.lt_succ_iff_lt_or_eq.1 inRange with below | rfl
    · have := ih below
      have := others n (by omega)
      omega
    · have same : (List.range c).map g = (List.range c).map f :=
        List.map_congr_left fun d hd => others d (by have := List.mem_range.1 hd; omega)
      rw [same]; omega

/-- The entries of the 64 lists, counted together (R57). -/
def State.routed (s : State) : Nat := ((List.range 64).map fun c => (s.list c).length).sum

theorem mixLawful_iff (s : State) : s.mixLawful ↔ s.routed + s.pool = 1024 ∧
    (∀ c, (s.list c).Pairwise fun a b => a.feed < b.feed) ∧ ∀ c, 64 ≤ c → s.list c = [] := Iff.rfl

/-- Replacing a list of the part replaces its part of the count. -/
theorem routed_setList (s : State) (c : Nat) (l : List MixEntry) (isList : c < 64) :
    (s.setList c l).routed + (s.list c).length = s.routed + l.length := by
  have h := sum_range_replace (fun d => (s.list d).length) (fun d => ((s.setList c l).list d).length) 64 c isList
    fun d hd => by rw [setList_list_other s c l d hd]
  simp only [setList_list_same] at h
  exact h

/-- States with the same lists and pool keep the law together. -/
theorem mixLawful_congr {s t : State} (lists : t.lists = s.lists) (pool : t.pool = s.pool) (h : s.mixLawful) :
    t.mixLawful := by
  simpa only [State.mixLawful, State.list, lists, pool] using h

/-- The whole pool and empty lists keep the law. -/
theorem mixLawful_empty {s : State} (lists : s.lists = []) (pool : s.pool = 1024) : s.mixLawful := by
  simp [State.mixLawful, State.list, lists, pool, listInit]

/-- Only an entry's ramp changes: its feed slot stays. -/
theorem EntryDid.feed_eq {s : State} {d e : MixEntry} (h : EntryDid s d e) : e.feed = d.feed := by
  cases h <;> rfl

/-- Changing the entries of a list one by one, each keeping its feed slot, keeps the list ascending. -/
theorem ascending_map {l : List MixEntry} {g : MixEntry → MixEntry} (hg : ∀ e ∈ l, (g e).feed = e.feed)
    (h : l.Pairwise fun a b => a.feed < b.feed) : (l.map g).Pairwise fun a b => a.feed < b.feed := by
  refine List.pairwise_map.2 (h.imp_of_mem fun ha hb hab => ?_)
  rw [hg _ ha, hg _ hb]; exact hab

theorem insertEntry_length (e : MixEntry) (l : List MixEntry) : (insertEntry e l).length = l.length + 1 := by
  induction l with
  | nil => rfl
  | cons x xs ih => unfold insertEntry; split <;> simp [ih]

theorem mem_insertEntry {e d : MixEntry} {l : List MixEntry} : d ∈ insertEntry e l ↔ d = e ∨ d ∈ l := by
  induction l with
  | nil => simp [insertEntry]
  | cons x xs ih => unfold insertEntry; split <;> simp [ih, or_left_comm]

/-- An entry for a feed that the list does not hold is inserted in order (R58). -/
theorem ascending_insertEntry {e : MixEntry} {l : List MixEntry} (fresh : ∀ d ∈ l, d.feed ≠ e.feed)
    (h : l.Pairwise fun a b => a.feed < b.feed) : (insertEntry e l).Pairwise fun a b => a.feed < b.feed := by
  induction l with
  | nil => simp [insertEntry]
  | cons x xs ih =>
    obtain ⟨above, rest⟩ := List.pairwise_cons.1 h
    unfold insertEntry; split
    case isTrue lower =>
      refine List.pairwise_cons.2 ⟨fun d hd => ?_, h⟩
      rcases List.mem_cons.1 hd with rfl | hd
      · exact lower
      · exact lower.trans (above d hd)
    case isFalse higher =>
      refine List.pairwise_cons.2 ⟨fun d hd => ?_, ih (fun d hd => fresh d (List.mem_cons_of_mem _ hd)) rest⟩
      rcases mem_insertEntry.1 hd with rfl | hd
      · have := fresh x List.mem_cons_self; omega
      · exact above d hd

/-- No entry for a feed is found exactly when the list holds none. -/
theorem entryFor_eq_none_iff {k : Nat} {l : List MixEntry} : entryFor k l = none ↔ ∀ e ∈ l, e.feed ≠ k := by
  simp [entryFor]

theorem entryFor_isSome_iff {k : Nat} {l : List MixEntry} : (entryFor k l).isSome ↔ ∃ e ∈ l, e.feed = k := by
  simp [entryFor]

/-- An ascending list loses one entry when the entry for a feed that it holds is removed. -/
theorem removeEntry_length {k : Nat} {l : List MixEntry} (h : l.Pairwise fun a b => a.feed < b.feed)
    (held : ∃ e ∈ l, e.feed = k) : (removeEntry k l).length + 1 = l.length := by
  unfold removeEntry
  induction l with
  | nil => simp at held
  | cons x xs ih =>
    obtain ⟨above, rest⟩ := List.pairwise_cons.1 h
    by_cases here : x.feed = k
    · have others : xs.filter (fun e => e.feed != k) = xs :=
        List.filter_eq_self.2 fun e he => by have := above e he; simp; omega
      simp [here, others]
    · have later : ∃ e ∈ xs, e.feed = k := by simpa [here] using held
      have := ih rest later
      simp [here, this]

/-- A list that is empty or one of the part's 64. -/
theorem isList_of_mem {s : State} (beyond : ∀ c, 64 ≤ c → s.list c = []) {c : Nat} {e : MixEntry} (h : e ∈ s.list c) :
    c < 64 := by
  by_contra hc
  simp [beyond c (by omega)] at h

/-- A list of the part replaced by an ascending one, with the pool giving or taking the difference. -/
theorem mixLawful_setList {s : State} {c pool : Nat} {l : List MixEntry} (h : s.mixLawful) (isList : c < 64)
    (ascending : l.Pairwise fun a b => a.feed < b.feed) (balance : l.length + pool = (s.list c).length + s.pool) :
    ({ s.setList c l with pool := pool } : State).mixLawful := by
  obtain ⟨total, sorted, beyond⟩ := h
  have counted : (s.setList c l).routed + (s.list c).length = s.routed + l.length := routed_setList s c l isList
  refine ⟨?_, fun d => ?_, fun d hd => ?_⟩
  · change (s.setList c l).routed + pool = 1024
    change s.routed + s.pool = 1024 at total
    omega
  · change ((s.setList c l).list d).Pairwise _
    rw [setList_list]; split
    · exact ascending
    · exact sorted d
  · change (s.setList c l).list d = []
    rw [setList_list, if_neg (by omega)]; exact beyond d hd

theorem closeLists_get (s : State) (c : Nat) :
    Tab.get listInit (closeLists s) c = if c < 64 then (listAtClose s c).map rampStep else s.list c :=
  Tab.get_update ..

theorem listAtClose_eq_map (s : State) (c : Nat) :
    listAtClose s c = (s.list c).map fun e => if s.isSummed c then e else { e with readSince := true } := by
  unfold listAtClose readEntries
  cases s.isSummed c <;> simp

theorem rampStep_feed (e : MixEntry) : (rampStep e).feed = e.feed := by unfold rampStep; split <;> rfl

/-- Every change of the mix map keeps its law. -/
theorem mixDid_keeps_mixLawful {s t : State} (h : MixDid s t) (law : s.mixLawful) : t.mixLawful := by
  obtain ⟨total, sorted, beyond⟩ := law
  cases h with
  | keep same => exact mixLawful_congr same.lists same.pool ⟨total, sorted, beyond⟩
  | map c g hg =>
    by_cases isList : c < 64
    · exact mixLawful_setList ⟨total, sorted, beyond⟩ isList
        (ascending_map (fun e he => (hg e he).feed_eq) (sorted c)) (by simp)
    · have none : s.list c = [] := beyond c (by omega)
      have same : ∀ d, (s.setList c ((s.list c).map g)).list d = s.list d := fun d => by
        rw [setList_list]; split
        · next hd => rw [hd, none]; rfl
        · rfl
      simpa only [State.mixLawful, same, setList_pool] using And.intro total ⟨sorted, beyond⟩
  | insert c k code ramp isList absent pool =>
    refine mixLawful_setList ⟨total, sorted, beyond⟩ isList
      (ascending_insertEntry (entryFor_eq_none_iff.1 absent) (sorted c)) ?_
    rw [insertEntry_length]; omega
  | remove c f =>
    unfold releaseRoute; split
    case isTrue held =>
      obtain ⟨e, he, hf⟩ := entryFor_isSome_iff.1 held
      have := removeEntry_length (sorted c) ⟨e, he, hf⟩
      exact mixLawful_setList ⟨total, sorted, beyond⟩ (isList_of_mem beyond he) ((sorted c).filter _) (by omega)
    case isFalse => exact ⟨total, sorted, beyond⟩
  | close =>
    have lists : ∀ c, ({ s with lists := closeLists s } : State).list c =
        if c < 64 then (listAtClose s c).map rampStep else s.list c := closeLists_get s
    have sameLength : ∀ c, (({ s with lists := closeLists s } : State).list c).length = (s.list c).length := fun c => by
      rw [lists]; split <;> simp [listAtClose_eq_map]
    refine ⟨?_, fun c => ?_, fun c hc => ?_⟩
    · simpa only [sameLength] using total
    · rw [lists, listAtClose_eq_map, List.map_map]; split
      · exact ascending_map (fun e _ => by rw [Function.comp_apply, rampStep_feed]; split <;> rfl) (sorted c)
      · exact sorted c
    · rw [lists, if_neg (by omega)]; exact beyond c hc
  | reset => exact mixLawful_empty rfl rfl
  | power => exact mixLawful_empty rfl rfl
  | data w =>
    obtain ⟨_, _, _, _, _, _, _, _, _, eq⟩ := dataWrite_shape w s
    rw [eq]; exact ⟨total, sorted, beyond⟩

/-- Settles O54: the law of the mix map is kept by every change of the mix map, and so by every step. -/
theorem mixLawKept : Obligations.MixLawKept :=
  lift_mix State.mixLawful (fun _ _ => mixDid_keeps_mixLawful) fun _ _ h => h

/-- What a write through the load pointer stores (R159): nothing, a coefficient, a value within the range of its table,
or a delay change. -/
theorem writeEntry_cases (table row column : Nat) (w : Word) (s : State) :
    writeEntry table row column w s = s ∨
      (∃ p, writeEntry table row column w s = { s with coef := Tab.put coefInit s.coef p w }) ∨
      (∃ p v, p ≠ 0 ∧ v ≤ 32767 ∧
        writeEntry table row column w s = { s with gainLaw := Tab.put gainLawInit s.gainLaw p v }) ∨
      (∃ p v, v ≤ 255 ∧ writeEntry table row column w s = { s with recodeA := Tab.put identityInit s.recodeA p v }) ∨
      (∃ p v, v ≤ 255 ∧ writeEntry table row column w s = { s with recodeB := Tab.put identityInit s.recodeB p v }) ∨
      (∃ p v, writeEntry table row column w s = { s with slotMap := Tab.put identityInit s.slotMap p v }) ∨
      ∃ p v, writeEntry table row column w s = delayChange p v s := by
  unfold writeEntry; dsimp only
  split
  · exact .inr (.inl ⟨_, rfl⟩)
  split
  · split
    · exact .inl rfl
    · exact .inr (.inr (.inl ⟨_, _, by assumption, Nat.min_le_right .., rfl⟩))
  · exact .inr (.inr (.inr (.inl ⟨_, _, Nat.min_le_right .., rfl⟩)))
  · exact .inr (.inr (.inr (.inr (.inl ⟨_, _, Nat.min_le_right .., rfl⟩))))
  · exact .inr (.inr (.inr (.inr (.inr (.inl ⟨_, _, rfl⟩)))))
  · exact .inr (.inr (.inr (.inr (.inr (.inr ⟨_, _, rfl⟩)))))

/-- A DATA word stores its word or discards it, and moves the pointer and the latch alone besides. -/
theorem dataWrite_cases (w : Word) (s : State) : ∃ t p l, dataWrite w s = { t with pointer := p, latch := l } ∧
    (t = s ∨ t = writeEntry s.pointer.table s.pointer.row s.pointer.column w s) := by
  unfold dataWrite; dsimp only
  by_cases atEnd : s.pointer.column = 16
  · rw [if_pos atEnd]; split <;> exact ⟨s, _, _, rfl, .inl rfl⟩
  · rw [if_neg atEnd]; split <;> exact ⟨writeEntry s.pointer.table s.pointer.row s.pointer.column w s, _, _, rfl, .inr rfl⟩

/-- A quotient truncated toward zero, multiplied back, leads toward the number without passing it. -/
theorem tdiv_mul_toward (x : Int) {n : Int} (pos : 0 < n) :
    (0 ≤ x.tdiv n ∧ x.tdiv n * n ≤ x) ∨ (x.tdiv n ≤ 0 ∧ x ≤ x.tdiv n * n) := by
  rcases Int.le_total 0 x with up | down
  · refine .inl ⟨Int.tdiv_nonneg up pos.le, ?_⟩
    rw [Int.tdiv_eq_ediv_of_nonneg up]; exact Int.ediv_mul_le x pos.ne'
  · have neg : x.tdiv n = -((-x) / n) := by
      rw [← Int.tdiv_eq_ediv_of_nonneg (by omega : 0 ≤ -x), Int.neg_tdiv, Int.neg_neg]
    have low : 0 ≤ (-x) / n := Int.ediv_nonneg (by omega) pos.le
    have mul := Int.ediv_mul_le (-x) pos.ne'
    refine .inr ⟨by omega, ?_⟩
    rw [neg, Int.neg_mul]; omega

/-- A ramp started toward a gain of the gain law keeps the entry's law (R76, R78). -/
theorem entryLaw_rampStart {s : State} {e : MixEntry} {code : Nat} (ramp : Nat) (gain : s.law code ≤ 32767)
    (low : 0 ≤ e.current) (high : e.current ≤ 8388352) : entryLaw (rampStart s code ramp e) := by
  have toward := tdiv_mul_toward ((s.law code : Int) * 256 - e.current) (n := 2 ^ ramp) (by positivity)
  refine ⟨low, high, gain, ?_⟩
  simp only [rampStart, Nat.cast_pow, Nat.cast_ofNat]
  rcases toward with up | down
  · exact .inl up
  · exact .inr (.inl down)

/-- A ramp step that is not the last keeps the entry's law (R77, R78). -/
theorem entryLaw_rampStep {e : MixEntry} (h : entryLaw e) : entryLaw (rampStep e) := by
  obtain ⟨low, high, target, toward⟩ := h
  unfold rampStep; split
  case isFalse => exact ⟨low, high, target, toward⟩
  case isTrue steps =>
    have more : 1 < e.remaining := of_decide_eq_true (Bool.and_eq_true_iff.1 steps).2
    obtain ⟨n, hn⟩ : ∃ n, e.remaining = n + 1 := ⟨e.remaining - 1, by omega⟩
    have split : e.increment * (e.remaining : Int) = e.increment * (n : Int) + e.increment := by rw [hn]; push_cast; ring
    have fewer : e.remaining - 1 = n := by omega
    have top : (e.target : Int) * 256 ≤ 8388352 := by omega
    simp only [entryLaw, fewer]
    rcases toward with ⟨up, within⟩ | ⟨down, within⟩ | done
    · have := mul_nonneg up (Int.natCast_nonneg n)
      exact ⟨by omega, by omega, target, .inl ⟨up, by omega⟩⟩
    · have := mul_nonpos_of_nonpos_of_nonneg down (Int.natCast_nonneg n)
      exact ⟨by omega, by omega, target, .inr (.inl ⟨down, by omega⟩)⟩
    · omega

theorem rampStep_code (e : MixEntry) : (rampStep e).code = e.code := by unfold rampStep; split <;> rfl

theorem entryLaw_rampFinal {e : MixEntry} (h : entryLaw e) : entryLaw (rampFinal e) := by
  obtain ⟨_, _, target, _⟩ := h
  exact ⟨by simp [rampFinal], by simp [rampFinal]; omega, target, .inr (.inr rfl)⟩

/-- The law of one entry of a list. -/
def MixEntry.lawful (e : MixEntry) : Prop := e.code < 256 ∧ entryLaw e

/-- States with the same lists, gain law and recode tables keep the law together. -/
theorem gainsLawful_congr {s t : State} (lists : t.lists = s.lists) (gainLaw : t.gainLaw = s.gainLaw)
    (recodeA : t.recodeA = s.recodeA) (recodeB : t.recodeB = s.recodeB) (h : s.gainsLawful) : t.gainsLawful := by
  have recode : t.recode = s.recode := by funext r c; cases r <;> simp only [State.recode, recodeA, recodeB]
  simpa only [State.gainsLawful, State.list, State.law, recode, lists, gainLaw] using h

theorem gainsLawful_iff (s : State) : s.gainsLawful ↔ (∀ c, c < 256 → s.law c ≤ 32767) ∧ s.law 0 = 0 ∧
    (∀ t c, c < 256 → s.recode t c < 256) ∧ ∀ c, ∀ e ∈ s.list c, e.lawful := Iff.rfl

/-- Every change of an entry keeps its law, with the gain law and the recode tables in their ranges. -/
theorem EntryDid.lawful {s : State} (law : s.gainsLawful) {c : Nat} {d e : MixEntry} (held : d ∈ s.list c)
    (h : EntryDid s d e) : e.lawful := by
  obtain ⟨gains, _, codes, entries⟩ := law
  have before : d.lawful := entries c d held
  cases h with
  | same => exact before
  | started code ramp hc =>
    have small : code < 256 := by
      rcases hc with small | ⟨t, b, f, hf, rfl⟩
      · exact small
      · exact codes t _ (entries b f hf).1
    obtain ⟨low, high, _⟩ := before.2
    exact ⟨small, entryLaw_rampStart ramp (gains code small) low high⟩
  | read => exact before
  | final => exact ⟨before.1, entryLaw_rampFinal before.2⟩

/-- A list replaced by one of lawful entries. -/
theorem gainsLawful_setList {s : State} {c pool : Nat} {l : List MixEntry} (law : s.gainsLawful)
    (entries : ∀ e ∈ l, e.lawful) : ({ s.setList c l with pool := pool } : State).gainsLawful := by
  obtain ⟨gains, zero, codes, before⟩ := law
  refine ⟨gains, zero, fun t => by cases t <;> [exact codes .a; exact codes .b], fun d e he => ?_⟩
  change e ∈ (s.setList c l).list d at he
  rw [setList_list] at he
  split at he
  · exact entries e he
  · exact before d e he

/-- A write through the load pointer keeps the law of gains: each table takes values of its range, and the gain law's
entry for code 0 is not written (R75). -/
theorem gainsLawful_writeEntry {s : State} (table row column : Nat) (w : Word) (law : s.gainsLawful) :
    (writeEntry table row column w s).gainsLawful := by
  obtain ⟨gains, zero, codes, entries⟩ := law
  rcases writeEntry_cases table row column w s with eq | ⟨p, eq⟩ | ⟨p, v, hp, hv, eq⟩ | ⟨p, v, hv, eq⟩ | ⟨p, v, hv, eq⟩ |
    ⟨p, v, eq⟩ | ⟨p, v, eq⟩ <;> rw [eq]
  case inr.inr.inl =>
    refine ⟨fun c hc => ?_, ?_, fun t => by cases t <;> [exact codes .a; exact codes .b], entries⟩
    · have := gains c hc
      simp only [State.law, Tab.get_put] at this ⊢; split <;> omega
    · simp only [State.law, Tab.get_put, if_neg hp.symm]; exact zero
  case inr.inr.inr.inl =>
    refine ⟨gains, zero, fun t c hc => ?_, entries⟩
    cases t
    · have := codes .a c hc
      simp only [State.recode, Tab.get_put] at this ⊢; split <;> omega
    · exact codes .b c hc
  case inr.inr.inr.inr.inl =>
    refine ⟨gains, zero, fun t c hc => ?_, entries⟩
    cases t
    · exact codes .a c hc
    · have := codes .b c hc
      simp only [State.recode, Tab.get_put] at this ⊢; split <;> omega
  all_goals exact ⟨gains, zero, fun t => by cases t <;> [exact codes .a; exact codes .b], entries⟩

/-- The power-on gain law and recode tables lie in their ranges (R74, R126). -/
theorem gainLawInit_le {c : Nat} (h : c < 256) : gainLawInit c ≤ 32767 := by
  unfold gainLawInit; omega

/-- Every change of the mix map keeps the law of gains. -/
theorem mixDid_keeps_gainsLawful {s t : State} (h : MixDid s t) (law : s.gainsLawful) : t.gainsLawful := by
  obtain ⟨gains, zero, codes, entries⟩ := (gainsLawful_iff s).1 law
  cases h with
  | keep same =>
    exact gainsLawful_congr same.lists same.law same.ra same.rb law
  | map c g hg =>
    refine gainsLawful_setList law fun e he => ?_
    obtain ⟨d, hd, rfl⟩ := List.mem_map.1 he
    exact (hg d hd).lawful law hd
  | insert c k code ramp isList absent pool small =>
    refine gainsLawful_setList law fun e he => ?_
    rcases mem_insertEntry.1 he with rfl | he
    · exact ⟨small, entryLaw_rampStart ramp (gains code small) le_rfl (by simp [freshEntry])⟩
    · exact entries c e he
  | remove c f =>
    unfold releaseRoute; split
    · exact gainsLawful_setList law fun e he => entries c e (List.mem_of_mem_filter he)
    · exact law
  | close =>
    refine ⟨gains, zero, fun t => by cases t <;> [exact codes .a; exact codes .b], fun c e he => ?_⟩
    change e ∈ Tab.get listInit (closeLists s) c at he
    rw [closeLists_get] at he
    split at he
    · rw [listAtClose_eq_map, List.map_map] at he
      obtain ⟨d, hd, rfl⟩ := List.mem_map.1 he
      have read : (if s.isSummed c then d else { d with readSince := true } : MixEntry).lawful := by
        split <;> exact entries c d hd
      exact ⟨(rampStep_code _).trans_lt read.1, entryLaw_rampStep read.2⟩
    · exact entries c e he
  | reset =>
    exact ⟨gains, zero, fun t => by cases t <;> [exact codes .a; exact codes .b], fun c e he => by cases he⟩
  | power =>
    exact ⟨fun c => gainLawInit_le, rfl, fun t c hc => by cases t <;> exact hc, fun c e he => by cases he⟩
  | data w =>
    obtain ⟨t, p, l, eq, rfl | rfl⟩ := dataWrite_cases w s <;> rw [eq]
    · exact gainsLawful_congr rfl rfl rfl rfl law
    · exact gainsLawful_congr rfl rfl rfl rfl (gainsLawful_writeEntry _ _ _ w law)

/-- Settles O55: the law of gains and ramps is kept by every change of the mix map and of the tables it is read through,
and so by every step. -/
theorem gainLawKept : Obligations.GainLawKept :=
  lift_mix State.gainsLawful (fun _ _ => mixDid_keeps_gainsLawful) fun _ _ =>
    gainsLawful_congr rfl rfl rfl rfl

end Sys2Proof.Machine
end

section
/-! PROOFS. The law of the feed records (R1, R23, R49), kept by every change of a feed record. -/
namespace Sys2Proof.Machine

/-- The position moved on by fewer than 4 places lowers a fill in range by as many (R1, R36). -/
theorem fill_lowered (written index : Count) {q : Int} (low : 0 ≤ q) (high : q ≤ 3)
    (before : -2 ≤ (written - index).toInt) (within : (written - index).toInt ≤ 48) :
    (written - (index + BitVec.ofInt 32 q)).toInt = (written - index).toInt - q := by
  have regroup : written - (index + BitVec.ofInt 32 q) = (written - index) - BitVec.ofInt 32 q := by ring_nf
  rw [regroup, BitVec.toInt_sub, BitVec.toInt_ofInt]
  simp only [Int.bmod]
  omega

/-- The effective step moves the position by 0 to 3 places, with the limits of step and trim (R36, R40, R49). -/
theorem step_places {f : Feed} (h : feedLaw f) :
    0 ≤ ((f.frac : Int) + f.nominal + f.trim) / 2 ^ 24 ∧ ((f.frac : Int) + f.nominal + f.trim) / 2 ^ 24 ≤ 3 := by
  obtain ⟨_, _, frac, stepLow, stepHigh, limit, trimLow, trimHigh, _⟩ := h
  omega

/-- The position advance of a feed with input keeps its law: the fill falls by at most 3 (R23, R36). -/
theorem feedLaw_advance {f : Feed} (h : feedLaw f) (input : 1 ≤ f.fill) : feedLaw (advance f) := by
  have places := step_places h
  obtain ⟨fillLow, fillHigh, frac, others⟩ := h
  have fill : (advance f).fill = f.fill - ((f.frac : Int) + f.nominal + f.trim) / 2 ^ 24 :=
    fill_lowered f.written f.index places.1 places.2 fillLow fillHigh
  exact ⟨by omega, by omega, by simp only [advance]; omega, others⟩

/-- The flow test changes no field of the law. -/
theorem feedLaw_flowTest {f : Feed} (h : feedLaw f) : feedLaw (flowTest f) := by
  rw [flowTest_eq]; exact h

/-- The limit saturates the trim on both sides (R49). -/
theorem satInt_limit (limit : Nat) (x : Int) : -(limit : Int) ≤ satInt (-limit) limit x ∧ satInt (-limit) limit x ≤ limit := by
  unfold satInt; omega

theorem clampNat_range {low high : Nat} (n : Nat) (h : low ≤ high) : low ≤ clampNat low high n ∧ clampNat low high n ≤ high := by
  unfold clampNat; omega

theorem feedLaw_freeFeed : feedLaw freeFeed := by
  simp [feedLaw, freeFeed, Feed.fill]

/-- An accepted burst raises the fill to at most 48 (R19, R23). -/
theorem feedLaw_acceptBurst {f : Feed} (seq : Nat) {samples : List Int} (fits : samples.length ≤ 32) (h : feedLaw f) :
    feedLaw (acceptBurst f seq samples) := by
  obtain ⟨fillLow, fillHigh, others⟩ := h
  obtain ⟨ring, eq, -, fill, -⟩ := writeSamples_spec samples
    { f with gaps := if seqDistance f seq = 0 then f.gaps else bump16 f.gaps, lastSeq := some seq } fillLow fillHigh fits
  refine feedLaw_flowTest ?_
  rw [eq] at fill ⊢
  change _ = f.fill + ((min samples.length (48 - f.fill).toNat : Nat) : Int) at fill
  exact ⟨le_of_le_of_eq (by omega) fill.symm, le_of_eq_of_le fill (by omega), others⟩

/-- The period step of a sample request keeps the law (R28). -/
theorem feedLaw_requestStep {f : Feed} (s : State) (h : feedLaw f) : feedLaw (requestStep s f) := by
  unfold requestStep; split
  case isTrue playing =>
    have input : 1 ≤ f.fill := (of_decide_eq_true playing).2
    exact feedLaw_advance (f := { f with clips := if saturates (filterScaled s f) then bump16 f.clips else f.clips }) h input
  case isFalse => split <;> exact h

/-- The step of a close keeps the law (R29). -/
theorem feedLaw_closeStep {f : Feed} (h : feedLaw f) : feedLaw (closeStep f) := by
  unfold closeStep; split
  · exact h
  split
  case isTrue playing => exact feedLaw_advance h (of_decide_eq_true playing).2
  case isFalse => split <;> exact h

theorem feedLaw_fadeStep {f : Feed} (h : feedLaw f) : feedLaw (fadeStep f) := by
  unfold fadeStep; split
  · split <;> exact h
  · exact h

/-- Every change of a feed record keeps its law. -/
theorem feedDid_keeps_feedLaw {f g : Feed} (did : FeedDid f g) (h : feedLaw f) : feedLaw g := by
  cases did with
  | bound id pos nominal bank isFree step isBank =>
    exact ⟨by simp [boundFeed, freeFeed, Feed.fill], by simp [boundFeed, freeFeed, Feed.fill], by simp [boundFeed, freeFeed],
      step.1, step.2, by simp [boundFeed, freeFeed], by simp [boundFeed, freeFeed], by simp [boundFeed, freeFeed],
      by simp [boundFeed, freeFeed], by simp [boundFeed, freeFeed], by simp [boundFeed, freeFeed],
      by simp [boundFeed, freeFeed], by simp [boundFeed, freeFeed], isBank⟩
  | unbound => exact h
  | rated nominal bank threshold isBound step isBank inRange =>
    obtain ⟨fillLow, fillHigh, frac, _, _, limit, trimLow, trimHigh, targetLow, targetHigh, gain, _⟩ := h
    exact feedLaw_flowTest ⟨fillLow, fillHigh, frac, step.1, step.2, limit, trimLow, trimHigh, targetLow, targetHigh, gain,
      inRange.1, inRange.2, isBank⟩
  | settings on target gain limit =>
    obtain ⟨fillLow, fillHigh, frac, stepLow, stepHigh, _, _, _, _, _, _, rest⟩ := h
    have trim := satInt_limit limit.toNat f.trim
    have inRange := clampNat_range target.toNat (show 2 ≤ 44 by omega)
    exact ⟨fillLow, fillHigh, frac, stepLow, stepHigh, by simp only [servoSettings]; omega, trim.1, trim.2, inRange.1,
      inRange.2, (clampNat_range gain.toNat (Nat.zero_le 255)).2, rest⟩
  | accepted seq samples fits => exact feedLaw_acceptBurst seq fits h
  | stale => exact h
  | requested s => exact feedLaw_requestStep s h
  | closed => exact feedLaw_fadeStep (feedLaw_closeStep h)
  | purging => exact h
  | freed => exact feedLaw_freeFeed
  | pended => exact h
  | served =>
    unfold servoFeed; split
    · obtain ⟨fillLow, fillHigh, frac, stepLow, stepHigh, limit, _, _, rest⟩ := h
      have trim := satInt_limit f.limit (f.trim + (f.fill - f.target) * f.gain)
      exact ⟨fillLow, fillHigh, frac, stepLow, stepHigh, limit, trim.1, trim.2, rest⟩
    · exact h

/-- A property of one feed record that every change keeps is kept by changes one after the other. -/
theorem feedDids_keep {P : Feed → Prop} (keep : ∀ f g, FeedDid f g → P f → P g) {f g : Feed} (did : FeedDids f g)
    (h : P f) : P g := by
  induction did with
  | refl => exact h
  | tail _ last ih => exact keep _ _ last ih

/-- Every move of the part keeps the law of the feed records. -/
theorem did_keeps_feedsLawful {s t : State} (did : Did s t) (h : s.feedsLawful) : t.feedsLawful :=
  fun k => feedDids_keep (fun _ _ => feedDid_keeps_feedLaw) (did_feeds did k) (h k)

/-- Every step keeps the law of the feed records. -/
theorem step_keeps_feedsLawful {s t : State} (h : s.feedsLawful) (stepped : step s = .next t) : t.feedsLawful :=
  step_keeps State.feedsLawful (fun _ _ h => h) (fun _ _ => did_keeps_feedsLawful) h stepped

/-- Writing samples keeps the canonical form of a ring. -/
theorem writeSamples_ring_wf (samples : List Int) (f : Feed) (h : Tab.wf silence f.ring = true) :
    Tab.wf silence (writeSamples samples f).1.ring = true := by
  induction samples generalizing f with
  | nil => exact h
  | cons x xs ih =>
    unfold writeSamples; split
    · exact ih _ (Tab.wf_put _ _ _ _ h)
    · exact h

/-- Every change of a feed record keeps the canonical form of its ring. -/
theorem feedDid_keeps_ring {f g : Feed} (did : FeedDid f g) (h : Tab.wf silence f.ring = true) :
    Tab.wf silence g.ring = true := by
  cases did with
  | bound => exact Tab.wf_nil _
  | rated => rw [flowTest_eq]; exact h
  | accepted seq samples =>
    simp only [acceptBurst, flowTest_eq]
    exact writeSamples_ring_wf samples _ h
  | requested s => unfold requestStep; split <;> [exact h; (split <;> exact h)]
  | closed =>
    have stepped : (closeStep f).ring = f.ring := by
      unfold closeStep; split <;> [rfl; (split <;> [rfl; (split <;> rfl)])]
    have faded : (closeFeed 0 f).ring = (closeStep f).ring := by
      unfold closeFeed fadeStep; split <;> [(split <;> rfl); rfl]
    rw [faded, stepped]; exact h
  | freed => exact Tab.wf_nil _
  | served => unfold servoFeed; split <;> exact h
  | unbound | settings | stale | purging | pended => exact h

end Sys2Proof.Machine
end

section
/-! PROOFS. The law of what leaves on the speaker link (R140): delay lines, frame samples and dips, kept by every move. -/
namespace Sys2Proof.Machine

theorem isSample_zero : isSample 0 := by unfold isSample; omega

theorem isSample_satSample (x : Int) : isSample (satSample x) := by
  unfold isSample satSample satInt sampleMin sampleMax; omega

/-- The polarity stage keeps the sample range: the least sample turns into the greatest (R82). -/
theorem isSample_polarity (on : Bool) {z : Int} (h : isSample z) : isSample (polarity on z) := by
  unfold isSample polarity sampleMin sampleMax at *
  split <;> [(split <;> omega); exact h]

/-- A sample scaled by at most 32 parts of 32 is a sample (R145). -/
theorem isSample_scaled {x : Int} {level : Nat} (h : isSample x) (small : level ≤ 32) :
    isSample ((x * level).tdiv 32) := by
  obtain ⟨low, high⟩ := h
  have scaledLow : -8388608 * 32 ≤ x * level := by nlinarith
  have scaledHigh : x * level ≤ 8388607 * 32 := by nlinarith
  have toward := tdiv_mul_toward (x * level) (n := 32) (by decide)
  unfold isSample; omega

theorem isSample_dipScale {d : Dip} {x : Int} (law : dipLaw d) (h : isSample x) : isSample (dipScale d x) := by
  cases d with
  | still => exact h
  | falling level pending => exact isSample_scaled h law
  | rising level => exact isSample_scaled h law

/-- A line with a sample written holds samples. -/
theorem isSample_writeLine {count : Count} {v : Int} {line : Tab Int} (value : isSample v)
    (h : ∀ p, isSample (Tab.get silence line p)) (p : Nat) : isSample (Tab.get silence (writeLine count v line) p) := by
  unfold writeLine
  rw [Tab.get_put]; split
  · exact value
  · exact h p

theorem dipLaw_dipChange {d : Dip} (readDelay v : Nat) (h : dipLaw d) : dipLaw (dipChange readDelay v d) := by
  cases d with
  | still => simp only [dipChange]; split <;> simp [dipLaw]
  | falling level pending => exact h
  | rising level => simp only [dipChange]; split <;> exact h

theorem dipLaw_dipStep {d : Dip} (h : dipLaw d) : dipLaw (dipStep d) := by
  cases d with
  | still => exact h
  | falling level pending =>
    simp only [dipStep]
    split <;> simp only [dipLaw] at h ⊢ <;> omega
  | rising level =>
    simp only [dipStep]
    split <;> simp only [dipLaw] at h ⊢ <;> omega

/-- States with the same lines, work and dips keep the law together. -/
theorem samplesLawful_congr {s t : State} (lines : t.lines = s.lines) (work : t.work = s.work) (dips : t.dips = s.dips)
    (h : s.samplesLawful) : t.samplesLawful := by
  simpa only [State.samplesLawful, State.line, State.workOf, State.dip, lines, work, dips] using h

/-- No channel come to, and lines and dips as they are. -/
theorem samplesLawful_noWork {t : State} (lines : ∀ c p, isSample (Tab.get silence (t.line c) p)) (work : t.work = [])
    (dips : ∀ c, dipLaw (t.dip c)) : t.samplesLawful :=
  ⟨lines, fun c x hx => by simp [State.workOf, work, workInit] at hx, dips⟩

/-- A dip replaced by a lawful one keeps the law of samples. -/
theorem samplesLawful_setDip {s : State} (c : Nat) {d : Dip} (dip : dipLaw d) (h : s.samplesLawful) :
    (s.setDip c d).samplesLawful := by
  obtain ⟨lines, work, dips⟩ := h
  refine ⟨lines, work, fun b => ?_⟩
  rw [setDip_dip]; split
  · exact dip
  · exact dips b

theorem samplesLawful_delayChange {s : State} (c v : Nat) (h : s.samplesLawful) : (delayChange c v s).samplesLawful :=
  samplesLawful_setDip c (dipLaw_dipChange _ v (h.2.2 c)) h

theorem samplesLawful_setWork {s : State} (c : Nat) {w : ChannelWork} (value : ∀ x, w = .computed x → isSample x)
    (h : s.samplesLawful) : (s.setWork c w).samplesLawful := by
  obtain ⟨lines, work, dips⟩ := h
  refine ⟨lines, fun b x hx => ?_, dips⟩
  rw [setWork_workOf] at hx; split at hx
  · exact value x hx
  · exact work b x hx

/-- The line event of a sample keeps the law: the delayed sample scaled by the dip is a sample (R142, R145). -/
theorem samplesLawful_lineEvent {s : State} (c : Nat) {v : Int} (value : isSample v) (h : s.samplesLawful) :
    (lineEvent c v s).samplesLawful := by
  have written : ∀ p, isSample (Tab.get silence (writeLine s.count v (s.line c)) p) := isSample_writeLine value (h.1 c)
  obtain ⟨lines, work, dips⟩ := samplesLawful_setWork c (w := .computed (dipScale (s.dip c)
    (delayedSample s.count (s.readDelay c) (writeLine s.count v (s.line c)))))
    (fun x hx => by cases hx; exact isSample_dipScale (h.2.2 c) (written _)) h
  refine ⟨fun b p => ?_, work, dips⟩
  have line : (lineEvent c v s).line b = if b = c then writeLine s.count v (s.line c) else s.line b := Tab.get_put ..
  rw [line]; split
  · exact written p
  · exact h.1 b p

/-- A computed channel writes a sample, from its list or under the override (R82, R93). -/
theorem samplesLawful_computeChannel {s : State} (c : Nat) (h : s.samplesLawful) : (computeChannel c s).samplesLawful := by
  have mark : ∀ (b : Bool) (t : State), t.samplesLawful → (markClip c b t).samplesLawful := fun b t ht => by
    obtain ⟨_, _, _, _, eq⟩ := markClip_shape c b t; rw [eq]; exact ht
  unfold computeChannel; split
  · unfold overrideChannel; split
    · obtain ⟨_, _, _, _, eq⟩ := requestSample_shape s.ovCurrent.monitor s
      refine samplesLawful_lineEvent c (isSample_satSample _) (mark _ _ ?_)
      rw [eq]; exact h
    · exact samplesLawful_lineEvent c isSample_zero h
  · obtain ⟨_, _, _, _, eq⟩ := sumEntries_shape (s.list c) s 0
    refine samplesLawful_lineEvent c (isSample_polarity _ (isSample_satSample _)) (mark _ _ ?_)
    rw [eq]; exact h

/-- The ends of a close keep the law: a dip's fall ends at level 0, its rise in no dip (R144). -/
theorem samplesLawful_doEnd {s : State} (w : CloseWork) (h : s.samplesLawful) : (doEnd w s).samplesLawful := by
  cases w with
  | rampEnd c f => exact samplesLawful_congr rfl rfl rfl h
  | autoRelease c f => dsimp only [doEnd, releaseRoute]; split <;> exact samplesLawful_congr rfl rfl rfl h
  | fadeCompletion f => dsimp only [doEnd, fadeFinish]; split <;> exact samplesLawful_congr rfl rfl rfl h
  | dipDelayMove c =>
    dsimp only [doEnd, dipMove]; split
    · exact samplesLawful_setDip c (d := .rising 0) (Nat.zero_le 32) h
    · exact h
    · exact h
  | dipRiseEnd c =>
    dsimp only [doEnd, dipEnd]; split
    · exact samplesLawful_setDip c (d := .still) trivial h
    · exact h
    · exact h
  | servoExpiry =>
    exact samplesLawful_congr (by rw [doEnd, servoExpire]) (by rw [doEnd, servoExpire]) (by rw [doEnd, servoExpire]) h

theorem samplesLawful_setDelayAnswer {output delay : Word} {s t : State} {n : Notes} {w : List Word}
    (done : setDelayAnswer output delay s = .done t n w) (h : s.samplesLawful) : t.samplesLawful := by
  unfold setDelayAnswer at done
  split at done <;> cases done
  exact samplesLawful_delayChange _ _ h

/-- Of the cued commands SET DELAY alone changes a dip. -/
theorem samplesLawful_applyDeferred {d : Deferred} {s t : State} {n : Notes} {w : List Word}
    (done : applyDeferred d s = .done t n w) (h : s.samplesLawful) : t.samplesLawful := by
  cases d with
  | setGain => obtain ⟨_, _, _, _, _, eq⟩ := setGainAnswer_shape done; rw [eq]; exact h
  | clearOutput => obtain ⟨_, _, _, _, eq⟩ := clearOutputAnswer_shape done; rw [eq]; exact h
  | setMaster => obtain ⟨_, eq⟩ := setMasterAnswer_shape done; rw [eq]; exact h
  | setInvert => obtain ⟨_, eq⟩ := setInvertAnswer_shape done; rw [eq]; exact h
  | setDelay => exact samplesLawful_setDelayAnswer done h
  | unbind => obtain ⟨_, eq⟩ := unbindAnswer_shape done; rw [eq]; exact h

theorem samplesLawful_startPeriod {s : State} (h : s.samplesLawful) : (startPeriod s).samplesLawful := by
  obtain ⟨lines, _, dips⟩ := h
  have begun : ({ s with count := s.count + 1#32, phase := .computing, work := [] } : State).samplesLawful :=
    samplesLawful_noWork lines rfl dips
  unfold startPeriod; dsimp only
  obtain ⟨_, _, _, eq⟩ := countEvent_shape .outputPeriod { s with count := s.count + 1#32, phase := .computing, work := [] }
  rw [eq]
  exact duePass_keeps State.samplesLawful (fun _ _ _ _ h => h) (fun _ _ _ _ _ => samplesLawful_applyDeferred)
    (fun c code u hu => by obtain ⟨_, _, _, eq⟩ := cueFault_shape c code u; rw [eq]; exact hu) _ _ begun

/-- The frame event passes channels over and forms no sample (R139). -/
theorem samplesLawful_frameSend {s : State} (h : s.samplesLawful) : (frameSend s).samplesLawful := by
  obtain ⟨lines, work, dips⟩ := h
  refine ⟨lines, fun c x hx => ?_, dips⟩
  have after : (frameSend s).workOf c = if c < 64 then (if s.workOf c = .waiting then .passed else s.workOf c)
      else s.workOf c := by unfold State.workOf frameSend; simp only [Tab.get_update]
  rw [after] at hx
  split at hx
  · split at hx
    · exact absurd hx (by simp)
    · exact work c x hx
  · exact work c x hx

/-- Every delay line after the close; those beyond the part's channels are left. -/
theorem closePeriod_line_all (s : State) (c : Nat) : (closePeriod s).line c =
    if c < 64 ∧ wasComputed s c = false then writeLine s.count 0 (s.line c) else s.line c := by
  obtain ⟨_, _, _, eq⟩ := closePeriod_shape s
  rw [eq]; unfold State.line closeLines; simp only [Tab.get_update]
  cases wasComputed s c <;> simp

/-- Every dip after the close; those beyond the part's channels are left. -/
theorem closePeriod_dip_all (s : State) (c : Nat) :
    (closePeriod s).dip c = if c < 64 then dipStep (s.dip c) else s.dip c := by
  obtain ⟨_, _, _, eq⟩ := closePeriod_shape s
  rw [eq]; unfold State.dip; simp only [Tab.get_update]

/-- The close writes silence, forgets the period's work and moves dips within their levels (R142, R144). -/
theorem samplesLawful_closePeriod {s : State} (h : s.samplesLawful) : (closePeriod s).samplesLawful := by
  obtain ⟨lines, _, dips⟩ := h
  refine samplesLawful_noWork (fun c p => ?_) ?_ fun c => ?_
  · rw [closePeriod_line_all]; split
    · exact isSample_writeLine isSample_zero (lines c) p
    · exact lines c p
  · obtain ⟨_, _, _, eq⟩ := closePeriod_shape s; rw [eq]
  · rw [closePeriod_dip_all]; split
    · exact dipLaw_dipStep (dips c)
    · exact dips c

/-- A DATA word changes dips through the delay table alone (R143). -/
theorem samplesLawful_dataWrite {s : State} (w : Word) (h : s.samplesLawful) : (dataWrite w s).samplesLawful := by
  have written : (writeEntry s.pointer.table s.pointer.row s.pointer.column w s).samplesLawful := by
    rcases writeEntry_cases s.pointer.table s.pointer.row s.pointer.column w s with eq | ⟨_, eq⟩ | ⟨_, _, _, _, eq⟩ |
      ⟨_, _, _, eq⟩ | ⟨_, _, _, eq⟩ | ⟨_, _, eq⟩ | ⟨p, v, eq⟩ <;> rw [eq]
    case inr.inr.inr.inr.inr.inr => exact samplesLawful_delayChange p v h
    all_goals exact h
  obtain ⟨t, p, l, eq, rfl | rfl⟩ := dataWrite_cases w s <;> rw [eq]
  · exact h
  · exact written

/-- Every move of the part keeps the law of samples. -/
theorem did_keeps_samplesLawful {s t : State} (did : Did s t) (h : s.samplesLawful) : t.samplesLawful := by
  cases did with
  | data _ w => exact samplesLawful_dataWrite w h
  | ended _ w => exact samplesLawful_doEnd w h
  | softReset => exact ⟨fun _ _ => isSample_zero, h.2.1, fun _ => trivial⟩
  | powerOn => exact samplesLawful_noWork (fun _ _ => isSample_zero) rfl fun _ => trivial
  | periodStart => exact samplesLawful_startPeriod h
  | compute _ c => exact samplesLawful_computeChannel c h
  | passOver _ c => exact samplesLawful_setWork c (fun _ hx => nomatch hx) h
  | frame => exact samplesLawful_frameSend h
  | close => exact samplesLawful_closePeriod h
  | setDelay done => exact samplesLawful_setDelayAnswer done h
  | stop | release | clearFeedLink | feedLinkDown | speakerLinkUp | speakerLinkDown | replyFailed | foreign | laneFree
  | jobRecode | jobScan => exact h
  | goOn _ x => obtain ⟨_, _, eq⟩ := proceed_shape x s; rw [eq]; exact h
  | take => obtain ⟨_, _, _, eq⟩ := takeBurst_shape s; rw [eq]; exact h
  | start => obtain ⟨_, _, _, _, eq⟩ := startIfDue_shape s; rw [eq]; exact h
  | post => obtain ⟨_, _, _, _, _, eq⟩ := postIfDue_shape s; rw [eq]; exact h
  | request _ p => obtain ⟨_, eq⟩ := requestPort_shape p s; rw [eq]; exact h
  | arrival _ bytes =>
    obtain ⟨_, _, _, _, _, _, eq⟩ := handOn_shape bytes { s with feedPartial := [] }; rw [eq]; exact h
  | reply _ bytes =>
    obtain ⟨_, _, _, _, eq⟩ := relayArrival_shape bytes { s with speakerPartial := [] }; rw [eq]; exact h
  | purge _ slot c => obtain ⟨_, _, _, _, _, _, _, _, _, _, _, eq⟩ := purgeOn_touches slot c s; rw [eq]; exact h
  | recode _ j f r c k => obtain ⟨_, _, _, _, _, _, _, _, _, _, _, eq⟩ := recodeOn_touches j f r c k s; rw [eq]; exact h
  | scan _ j f r => obtain ⟨_, _, _, _, _, _, _, _, _, _, _, eq⟩ := scanOn_touches j f r s; rw [eq]; exact h
  | choose => obtain ⟨_, _, _, _, _, _, eq⟩ := chooseItem_shape s; rw [eq]; exact h
  | bind k => obtain ⟨_, _, eq⟩ := bindAnswer_shape k; rw [eq]; exact h
  | unbind k => obtain ⟨_, eq⟩ := unbindAnswer_shape k; rw [eq]; exact h
  | setMask k => rw [setMaskAnswer_shape k]; exact h
  | setRate k => obtain ⟨_, eq⟩ := setRateAnswer_shape k; rw [eq]; exact h
  | setServo k => obtain ⟨_, _, _, eq⟩ := setServoAnswer_shape k; rw [eq]; exact h
  | setGain k => obtain ⟨_, _, _, _, _, eq⟩ := setGainAnswer_shape k; rw [eq]; exact h
  | clearOutput k => obtain ⟨_, _, _, _, eq⟩ := clearOutputAnswer_shape k; rw [eq]; exact h
  | setFilter k => obtain ⟨_, eq⟩ := setFilterAnswer_shape k; rw [eq]; exact h
  | setMaster k => obtain ⟨_, eq⟩ := setMasterAnswer_shape k; rw [eq]; exact h
  | setInvert k => obtain ⟨_, eq⟩ := setInvertAnswer_shape k; rw [eq]; exact h
  | setOverride k => obtain ⟨_, eq⟩ := setOverrideAnswer_shape k; rw [eq]; exact h
  | cue k => obtain ⟨_, _, _, _, _, _, _, eq⟩ := atAnswer_shape k; rw [eq]; exact h
  | cancelBatch k => rw [cancelBatchAnswer_shape k]; exact h
  | flushCues k => rw [flushCuesAnswer_shape k]; exact h
  | setArb k => obtain ⟨_, _, _, eq⟩ := setArbAnswer_shape k; rw [eq]; exact h
  | setActive k => obtain ⟨_, eq⟩ := setActiveAnswer_shape k; rw [eq]; exact h
  | setTable k => obtain ⟨_, _, eq⟩ := setTableAnswer_shape k; rw [eq]; exact h
  | setRow k => obtain ⟨_, eq⟩ := setRowAnswer_shape k; rw [eq]; exact h
  | setColumn k => obtain ⟨_, eq⟩ := setColumnAnswer_shape k; rw [eq]; exact h
  | read k => obtain ⟨_, _, eq⟩ := readAnswer_shape k; rw [eq]; exact h
  | patchBegin k => obtain ⟨_, eq⟩ := patchBeginAnswer_shape k; rw [eq]; exact h
  | patchEnd k => obtain ⟨_, _, eq⟩ := patchEndAnswer_shape k; rw [eq]; exact h
  | setRelay k => obtain ⟨_, eq⟩ := setRelayAnswer_shape k; rw [eq]; exact h
  | counterSelect k => obtain ⟨_, eq⟩ := counterSelectAnswer_shape k; rw [eq]; exact h
  | counterLoad k => obtain ⟨_, eq⟩ := counterLoadAnswer_shape k; rw [eq]; exact h

/-- Settles O53: every change of a feed record keeps its law, and every move the law of samples. -/
theorem feedAndSampleLawsKept : Obligations.FeedAndSampleLawsKept :=
  ⟨fun _ _ => step_keeps_feedsLawful,
    fun _ _ h => step_keeps State.samplesLawful (fun _ _ h => h) (fun _ _ => did_keeps_samplesLawful) h⟩

end Sys2Proof.Machine
end

section
/-! PROOFS. The canonical form of every table (log entry 16), kept by every move. -/
namespace Sys2Proof.Machine

/-- Every table of the state in its one form, and every delay line; the rings of the feed records apart. -/
structure Canonical (s : State) : Prop where
  dir : Tab.wf dirInit s.dir = true
  feeds : Tab.wf feedInit s.feeds = true
  coef : Tab.wf coefInit s.coef = true
  lists : Tab.wf listInit s.lists = true
  summed : Tab.wf offInit s.summed = true
  gainLaw : Tab.wf gainLawInit s.gainLaw = true
  invert : Tab.wf offInit s.invert = true
  outClips : Tab.wf zeroInit s.outClips = true
  recodeA : Tab.wf identityInit s.recodeA = true
  recodeB : Tab.wf identityInit s.recodeB = true
  slotMap : Tab.wf identityInit s.slotMap = true
  delays : Tab.wf zeroInit s.delays = true
  readDelays : Tab.wf zeroInit s.readDelays = true
  dips : Tab.wf dipInit s.dips = true
  lines : Tab.wf lineInit s.lines = true
  work : Tab.wf workInit s.work = true
  counters : Tab.wf counterInit s.counters = true
  line : ∀ c, Tab.wf silence (s.line c) = true

/-- A property of the values of a table in canonical form is one of what its positions read as, when the default has it. -/
theorem Tab.all_values_iff {α : Type} [DecidableEq α] {d : Nat → α} {m : Tab α} {P : α → Prop} (form : Tab.wf d m = true)
    (default : ∀ k, P (d k)) : (∀ p ∈ m, P p.2) ↔ ∀ k, P (Tab.get d m k) := by
  obtain ⟨rising, -⟩ := (Tab.wf_iff d m).1 form
  constructor
  · intro values k
    by_cases listed : ∃ p ∈ m, p.1 = k
    · obtain ⟨p, hp, rfl⟩ := listed
      rw [Tab.get_of_mem d m rising p hp]; exact values p hp
    · rw [Tab.get_of_absent d m k fun p hp hk => listed ⟨p, hp, hk⟩]; exact default k
  · intro reads p hp
    rw [← Tab.get_of_mem d m rising p hp]; exact reads p.1

/-- The canonical form, table by table and ring by ring. -/
theorem canonical_iff (s : State) : s.canonical = true ↔ Canonical s ∧ ∀ k, Tab.wf silence (s.feed k).ring = true := by
  have rings := fun form : Tab.wf feedInit s.feeds = true =>
    Tab.all_values_iff (P := fun f => Tab.wf silence f.ring = true) form fun _ => Tab.wf_nil _
  have lines := fun form : Tab.wf lineInit s.lines = true =>
    Tab.all_values_iff (P := fun l => Tab.wf silence l = true) form fun _ => Tab.wf_nil _
  simp only [State.canonical, Bool.and_eq_true, List.all_eq_true]
  constructor
  · rintro ⟨⟨⟨⟨⟨⟨⟨⟨⟨⟨⟨⟨⟨⟨⟨⟨⟨⟨dir, feeds⟩, coef⟩, lists⟩, summed⟩, gainLaw⟩, invert⟩, outClips⟩, recodeA⟩, recodeB⟩, slotMap⟩,
      delays⟩, readDelays⟩, dips⟩, lineTable⟩, work⟩, counters⟩, ringForms⟩, lineForms⟩
    exact ⟨⟨dir, feeds, coef, lists, summed, gainLaw, invert, outClips, recodeA, recodeB, slotMap, delays, readDelays,
      dips, lineTable, work, counters, (lines lineTable).1 lineForms⟩, (rings feeds).1 ringForms⟩
  · rintro ⟨h, ringForms⟩
    exact ⟨⟨⟨⟨⟨⟨⟨⟨⟨⟨⟨⟨⟨⟨⟨⟨⟨⟨h.dir, h.feeds⟩, h.coef⟩, h.lists⟩, h.summed⟩, h.gainLaw⟩, h.invert⟩, h.outClips⟩, h.recodeA⟩,
      h.recodeB⟩, h.slotMap⟩, h.delays⟩, h.readDelays⟩, h.dips⟩, h.lines⟩, h.work⟩, h.counters⟩,
      (rings h.feeds).2 ringForms⟩, (lines h.lines).2 h.line⟩

namespace Canonical

section
variable {s : State} (h : Canonical s)
include h

theorem setFeed (k : Nat) (f : Feed) : Canonical (s.setFeed k f) := { h with feeds := Tab.wf_put _ _ _ _ h.feeds }

theorem setDirEntry (p : Nat) (e : Option DirEntry) : Canonical (s.setDirEntry p e) :=
  { h with dir := Tab.wf_put _ _ _ _ h.dir }

theorem setList (c : Nat) (l : List MixEntry) : Canonical (s.setList c l) :=
  { h with lists := Tab.wf_put _ _ _ _ h.lists }

theorem setDip (c : Nat) (d : Dip) : Canonical (s.setDip c d) := { h with dips := Tab.wf_put _ _ _ _ h.dips }

theorem setWork (c : Nat) (w : ChannelWork) : Canonical (s.setWork c w) := { h with work := Tab.wf_put _ _ _ _ h.work }

theorem setCounter (k : Nat) (c : Counter) : Canonical (s.setCounter k c) :=
  { h with counters := Tab.wf_put _ _ _ _ h.counters }

theorem countEvents (es : List Event) : Canonical (countEvents es s) := by
  have form := countEvents_wf es s h.counters
  obtain ⟨_, _, _, eq⟩ := countEvents_shape es s
  rw [eq] at form ⊢; exact { h with counters := form }

theorem countEvent (e : Event) : Canonical (countEvent e s) := h.countEvents [e]

theorem delayChange (c v : Nat) : Canonical (delayChange c v s) :=
  { h.setDip c (dipChange (s.readDelay c) v (s.dip c)) with delays := Tab.wf_put _ _ _ _ h.delays }

-- the walker

theorem appendPurge (slot : Nat) : Canonical (appendPurge slot s) := by
  have purging := h.setFeed slot (purgingFeed (s.feed slot))
  exact { purging with }

theorem startIfDue : Canonical (startIfDue s) := by
  unfold Sys2Proof.Machine.startIfDue; split
  · unfold startJob; split
    · exact h
    · next j rest _ =>
      obtain ⟨_, eq⟩ := requestPort_shape .walker { s with jobs := rest, walker := .running (freshJob j) }
      rw [eq]; unfold placePurge; split
      · exact appendPurge (by exact { h with }) _
      · exact { h with }
  · exact h

theorem endJob : Canonical (endJob s) := startIfDue (by exact { h with })

theorem endWithReport (r : JobReport) : Canonical (endWithReport r s) := by
  unfold Sys2Proof.Machine.endWithReport; split
  · exact endJob (by exact { h with })
  · exact { h with }

theorem endRecode (j : RecodeJob) (remaining changed filtered : Nat) (exhausted : Bool) :
    Canonical (endRecode j remaining changed filtered exhausted s) := by
  unfold Sys2Proof.Machine.endRecode; split
  · exact h.endWithReport _
  · exact h.endJob

theorem recodeNext (j : RecodeJob) (f remaining changed filtered : Nat) :
    Canonical (recodeNext j f remaining changed filtered s) := by
  unfold Sys2Proof.Machine.recodeNext; split
  · exact h.endRecode ..
  · exact { h with }

theorem recodeOn (j : RecodeJob) (f remaining changed filtered : Nat) :
    Canonical (recodeOn j f remaining changed filtered s) := by
  unfold Sys2Proof.Machine.recodeOn; split
  · exact h.endRecode ..
  · dsimp only; split
    · exact (h.countEvent _).recodeNext ..
    · exact recodeNext (h.setList _ _) ..

theorem scanOn (j : ScanJob) (f remaining : Nat) : Canonical (scanOn j f remaining s) := by
  unfold Sys2Proof.Machine.scanOn; split
  · exact h.endWithReport _
  · dsimp only; split
    · exact h.endWithReport _
    · split
      · exact h.endWithReport _
      · exact { h with }

theorem releaseRoute (c feed : Nat) : Canonical (releaseRoute c feed s) := by
  unfold Sys2Proof.Machine.releaseRoute; split
  · exact { h.setList _ _ with }
  · exact h

theorem purgeOn (slot c : Nat) : Canonical (purgeOn slot c s) := by
  have released := h.releaseRoute c slot
  unfold Sys2Proof.Machine.purgeOn; dsimp only; split
  · refine endJob ?_
    unfold freeSlot; split
    · exact (released.setDirEntry _ _).setFeed _ _
    · exact released.setFeed _ _
  · exact { released with }

theorem postIfDue : Canonical (postIfDue s) := by
  unfold Sys2Proof.Machine.postIfDue; split
  · unfold postHeld; split
    · exact startIfDue (by exact { h with })
    · exact h
    · exact h
  · exact h

-- the ends of a close

theorem doEnd (w : CloseWork) : Canonical (doEnd w s) := by
  cases w with
  | rampEnd c f => exact h.setList _ _
  | autoRelease c f => exact h.releaseRoute c f
  | fadeCompletion f =>
    dsimp only [Sys2Proof.Machine.doEnd, fadeFinish]; split
    · exact h.appendPurge f
    · exact h.setFeed _ _
  | dipDelayMove c =>
    dsimp only [Sys2Proof.Machine.doEnd, dipMove]; split
    · have rising := h.setDip c (.rising 0)
      exact { rising with readDelays := Tab.wf_put _ _ _ _ h.readDelays }
    · exact h
    · exact h
  | dipRiseEnd c =>
    dsimp only [Sys2Proof.Machine.doEnd, dipEnd]; split
    · exact h.setDip _ _
    · exact h
    · exact h
  | servoExpiry =>
    rw [Sys2Proof.Machine.doEnd, servoExpire]
    have feeds := Tab.wf_update feedInit 128 servoFeed s.feeds h.feeds
    generalize Tab.update feedInit 128 servoFeed s.feeds = F at feeds ⊢
    exact { h with feeds }

-- the period

theorem requestSample (k : Nat) : Canonical (requestSample k s).1 := by
  unfold Sys2Proof.Machine.requestSample; dsimp only; split
  · exact h
  · split
    · exact h
    · exact (h.setFeed _ _).countEvents _

theorem markClip (c : Nat) (clipped : Bool) : Canonical (markClip c clipped s) := by
  unfold Sys2Proof.Machine.markClip; split
  · exact countEvent (by exact { h with outClips := Tab.wf_put _ _ _ _ h.outClips }) _
  · exact h

theorem lineEvent (c : Nat) (v : Int) : Canonical (lineEvent c v s) where
  __ := h.setWork c (.computed (dipScale (s.dip c) (delayedSample s.count (s.readDelay c) (writeLine s.count v (s.line c)))))
  lines := Tab.wf_put _ _ _ _ h.lines
  line b := by
    have written : (Sys2Proof.Machine.lineEvent c v s).line b =
        if b = c then writeLine s.count v (s.line c) else s.line b := Tab.get_put ..
    rw [written]; split
    · exact Tab.wf_put _ _ _ _ (h.line c)
    · exact h.line b

omit h in
theorem sumEntries (l : List MixEntry) {s : State} (h : Canonical s) (acc : Int) : Canonical (sumEntries l s acc).1 := by
  induction l generalizing s acc with
  | nil => exact h
  | cons e es ih => exact ih (h.requestSample e.feed) _

theorem readList (c : Nat) : Canonical (readList c s) := by
  have read := h.setList c (readEntries (s.list c))
  exact { read with summed := Tab.wf_put _ _ c true h.summed }

theorem computeChannel (c : Nat) : Canonical (computeChannel c s) := by
  unfold Sys2Proof.Machine.computeChannel; split
  · unfold overrideChannel; split
    · exact ((h.requestSample _).markClip _ _).lineEvent _ _
    · exact h.lineEvent _ _
  · exact (((sumEntries _ h _).readList _).markClip _ _).lineEvent _ _

theorem frameSend : Canonical (frameSend s) := by
  unfold Sys2Proof.Machine.frameSend
  have work := Tab.wf_update workInit 64 (fun _ w => if w = .waiting then .passed else w) s.work h.work
  generalize Tab.update workInit 64 (fun _ w => if w = .waiting then .passed else w) s.work = W at work ⊢
  exact { h with work }

theorem closePeriod : Canonical (closePeriod s) := by
  have line : ∀ c, Tab.wf silence ((Sys2Proof.Machine.closePeriod s).line c) = true := fun c => by
    rw [closePeriod_line_all]; split
    · exact Tab.wf_put _ _ _ _ (h.line c)
    · exact h.line c
  have counters : Tab.wf counterInit (Sys2Proof.Machine.closePeriod s).counters = true := countEvents_wf _ _ h.counters
  obtain ⟨_, _, _, eq⟩ := closePeriod_shape s
  have lists : Tab.wf listInit (closeLists s) = true := Tab.wf_update _ _ _ _ h.lists
  have feeds := Tab.wf_update feedInit 128 closeFeed s.feeds h.feeds
  have lines : Tab.wf lineInit (closeLines s) = true := Tab.wf_update _ _ _ _ h.lines
  have dips := Tab.wf_update dipInit 64 (fun _ d => dipStep d) s.dips h.dips
  rw [eq] at line counters ⊢
  generalize closeLists s = L, Tab.update feedInit 128 closeFeed s.feeds = F, closeLines s = N, closeOwes s = O,
    Tab.update dipInit 64 (fun _ d => dipStep d) s.dips = D at line counters lists feeds lines dips ⊢
  exact { h with lists, summed := Tab.wf_nil _, feeds, lines, work := Tab.wf_nil _, dips, line, counters }

-- commands

theorem bindAnswer {a b c d e : Word} {t : State} {n : Notes} {w : List Word}
    (done : bindAnswer a b c d e s = .done t n w) : Canonical t := by
  unfold Sys2Proof.Machine.bindAnswer at done
  split at done; · cases done
  split at done; · cases done
  split at done; · cases done
  split at done <;> cases done
  exact (h.setDirEntry _ _).setFeed _ _

theorem unbindAnswer {a b : Word} {t : State} {n : Notes} {w : List Word}
    (done : unbindAnswer a b s = .done t n w) : Canonical t := by
  unfold Sys2Proof.Machine.unbindAnswer at done
  split at done; · cases done
  split at done <;> cases done
  exact h.setFeed _ _

theorem setRateAnswer {a b c d e : Word} {t : State} {n : Notes} {w : List Word}
    (done : setRateAnswer a b c d e s = .done t n w) : Canonical t := by
  unfold Sys2Proof.Machine.setRateAnswer at done
  split at done; · cases done
  split at done <;> cases done
  exact h.setFeed _ _

theorem applyInterval (a : Word) : Canonical (applyInterval a s) := by
  obtain ⟨_, _, eq⟩ := applyInterval_shape a s; rw [eq]; exact { h with }

theorem setServoAnswer {r : Nat} {a b c d e f : Word} {t : State} {n : Notes} {w : List Word}
    (done : setServoAnswer r a b c d e f s = .done t n w) : Canonical t := by
  unfold Sys2Proof.Machine.setServoAnswer at done
  split at done; · cases done
  split at done; · cases done; exact h.applyInterval _
  split at done; · cases done
  split at done <;> cases done
  exact (h.setFeed _ _).applyInterval _

theorem setGainAnswer {a b c d : Word} {t : State} {n : Notes} {w : List Word}
    (done : setGainAnswer a b c d s = .done t n w) : Canonical t := by
  unfold Sys2Proof.Machine.setGainAnswer at done; dsimp only at done
  split at done; · cases done
  split at done; · cases done
  split at done
  · split at done <;> cases done
    · exact h.countEvent _
    · exact h.setList _ _
  · split at done
    · cases done; exact h.countEvent _
    · split at done <;> cases done
      exact { h.setList _ _ with }

theorem clearOutputAnswer {a b : Word} {t : State} {n : Notes} {w : List Word}
    (done : clearOutputAnswer a b s = .done t n w) : Canonical t := by
  unfold Sys2Proof.Machine.clearOutputAnswer at done; dsimp only at done
  split at done <;> cases done
  exact (h.setList _ _).countEvents _

theorem setInvertAnswer {a b : Word} {t : State} {n : Notes} {w : List Word}
    (done : setInvertAnswer a b s = .done t n w) : Canonical t := by
  unfold Sys2Proof.Machine.setInvertAnswer at done
  split at done <;> cases done
  exact { h with invert := Tab.wf_put _ _ _ _ h.invert }

theorem setDelayAnswer {a b : Word} {t : State} {n : Notes} {w : List Word}
    (done : setDelayAnswer a b s = .done t n w) : Canonical t := by
  unfold Sys2Proof.Machine.setDelayAnswer at done
  split at done <;> cases done
  exact h.delayChange _ _

theorem acceptCue (c : Cue) : Canonical (acceptCue c s) := by
  unfold Sys2Proof.Machine.acceptCue; dsimp only; split
  · exact countEvent (by exact { h with }) _
  · exact { h with }

theorem atAnswer {r : Nat} {a b c : Word} {d : Deferred} {t : State} {n : Notes} {w : List Word}
    (done : atAnswer r a b c d s = .done t n w) : Canonical t := by
  unfold Sys2Proof.Machine.atAnswer at done; dsimp only at done
  split at done; · cases done
  split at done; · cases done
  split at done <;> cases done
  exact h.acceptCue _

theorem applyDeferred {d : Deferred} {t : State} {n : Notes} {w : List Word}
    (done : applyDeferred d s = .done t n w) : Canonical t := by
  cases d with
  | setGain => exact h.setGainAnswer done
  | clearOutput => exact h.clearOutputAnswer done
  | setMaster => obtain ⟨_, eq⟩ := setMasterAnswer_shape done; rw [eq]; exact { h with }
  | setInvert => exact h.setInvertAnswer done
  | setDelay => exact h.setDelayAnswer done
  | unbind => exact h.unbindAnswer done

theorem offerUrgent (r : Urgent) : Canonical (offerUrgent r s) := by
  obtain ⟨_, _, eq⟩ := offerUrgent_shape r s; rw [eq]; exact { h with }

theorem startPeriod : Canonical (startPeriod s) := by
  have passed : Canonical (duePass (Sys2Proof.Machine.countEvent .outputPeriod
      { s with count := s.count + 1#32, phase := .computing, work := [] }).cues.length
      (Sys2Proof.Machine.countEvent .outputPeriod
        { s with count := s.count + 1#32, phase := .computing, work := [] })) := by
    refine duePass_keeps Canonical (fun _ _ _ _ h => { h with }) (fun _ _ _ _ _ done h => h.applyDeferred done)
      (fun c code u h => countEvent (offerUrgent (by exact { h with }) _) _) _ _
      (countEvent (by exact { h with work := Tab.wf_nil _ }) _)
  unfold Sys2Proof.Machine.startPeriod; dsimp only
  generalize duePass _ _ = u at passed ⊢
  exact { passed with }

theorem writeEntry (table row column : Nat) (w : Word) : Canonical (writeEntry table row column w s) := by
  rcases writeEntry_cases table row column w s with eq | ⟨p, eq⟩ | ⟨p, v, _, _, eq⟩ | ⟨p, v, _, eq⟩ | ⟨p, v, _, eq⟩ |
    ⟨p, v, eq⟩ | ⟨p, v, eq⟩ <;> rw [eq]
  · exact h
  · exact { h with coef := Tab.wf_put _ _ _ _ h.coef }
  · exact { h with gainLaw := Tab.wf_put _ _ _ _ h.gainLaw }
  · exact { h with recodeA := Tab.wf_put _ _ _ _ h.recodeA }
  · exact { h with recodeB := Tab.wf_put _ _ _ _ h.recodeB }
  · exact { h with slotMap := Tab.wf_put _ _ _ _ h.slotMap }
  · exact h.delayChange p v

theorem dataWrite (w : Word) : Canonical (dataWrite w s) := by
  obtain ⟨t, p, l, eq, rfl | rfl⟩ := dataWrite_cases w s <;> rw [eq]
  · exact { h with }
  · exact { h.writeEntry _ _ _ w with }

-- arrivals

theorem audioArrival (id : Word) (seq : Nat) (samples : List Int) : Canonical (audioArrival id seq samples s) := by
  unfold Sys2Proof.Machine.audioArrival; split
  · exact h.countEvent _
  · dsimp only; split
    · exact h
    · split
      · exact (h.setFeed _ _).countEvents _
      · exact (h.setFeed _ _).countEvent _

theorem handOn (bytes : List Byte) : Canonical (handOn bytes s) := by
  unfold Sys2Proof.Machine.handOn; split
  · exact h.countEvent _
  · exact h.audioArrival ..
  · split
    · unfold inboundArrival; split
      · exact { h with }
      · exact h.countEvent _
    · unfold throughArrival; split
      · exact { h with }
      · exact h.countEvent _

theorem relayArrival (bytes : List Byte) : Canonical (relayArrival bytes s) := by
  unfold Sys2Proof.Machine.relayArrival; split
  · exact { h with }
  · exact h.countEvent _

end

/-- The power-on tables list no position. -/
theorem powerOn (straps : BitVec 4) (s : State) : Canonical (powerOn straps s) := by constructor <;> intros <;> rfl

end Canonical

/-- Every move of the part keeps the canonical form of the tables and of the delay lines. -/
theorem did_keeps_canonical {s t : State} (did : Did s t) (h : Canonical s) : Canonical t := by
  cases did with
  | goOn _ x => obtain ⟨_, _, eq⟩ := proceed_shape x s; rw [eq]; exact { h with }
  | take => obtain ⟨_, _, _, eq⟩ := takeBurst_shape s; rw [eq]; exact { h with }
  | start => exact h.startIfDue
  | post => exact h.postIfDue
  | ended _ w => exact Canonical.doEnd (by exact { h with }) w
  | request _ p => obtain ⟨_, eq⟩ := requestPort_shape p s; rw [eq]; exact { h with }
  | data _ w => exact h.dataWrite w
  | softReset =>
    exact { h with
      feeds := rfl, dir := rfl, lists := rfl, invert := rfl, outClips := rfl, readDelays := h.delays, dips := rfl,
      lines := rfl, counters := rfl, line := fun _ => rfl }
  | powerOn _ straps => exact Canonical.powerOn straps s
  | arrival _ bytes => exact Canonical.handOn (by exact { h with }) bytes
  | reply _ bytes => exact Canonical.relayArrival (by exact { h with }) bytes
  | periodStart => exact h.startPeriod
  | compute _ c => exact h.computeChannel c
  | passOver _ c => exact h.setWork c _
  | frame => exact h.frameSend
  | close => exact h.closePeriod
  | purge _ slot c => exact h.purgeOn slot c
  | recode _ j f r c k => exact h.recodeOn j f r c k
  | scan _ j f r => exact h.scanOn j f r
  | stop | release | clearFeedLink | feedLinkDown | speakerLinkUp | speakerLinkDown | replyFailed | foreign | laneFree
  | jobRecode | jobScan => exact { h with }
  | choose => obtain ⟨_, _, _, _, _, _, eq⟩ := chooseItem_shape s; rw [eq]; exact { h with }
  | bind k => exact h.bindAnswer k
  | unbind k => exact h.unbindAnswer k
  | setMask k => rw [setMaskAnswer_shape k]; exact { h with }
  | setRate k => exact h.setRateAnswer k
  | setServo k => exact h.setServoAnswer k
  | setGain k => exact h.setGainAnswer k
  | clearOutput k => exact h.clearOutputAnswer k
  | setFilter k => obtain ⟨_, eq⟩ := setFilterAnswer_shape k; rw [eq]; exact { h with }
  | setMaster k => obtain ⟨_, eq⟩ := setMasterAnswer_shape k; rw [eq]; exact { h with }
  | setInvert k => exact h.setInvertAnswer k
  | setOverride k => obtain ⟨_, eq⟩ := setOverrideAnswer_shape k; rw [eq]; exact { h with }
  | cue k => exact h.atAnswer k
  | cancelBatch k => rw [cancelBatchAnswer_shape k]; exact { h with }
  | flushCues k => rw [flushCuesAnswer_shape k]; exact { h with }
  | setArb k => obtain ⟨_, _, _, eq⟩ := setArbAnswer_shape k; rw [eq]; exact { h with }
  | setActive k => obtain ⟨_, eq⟩ := setActiveAnswer_shape k; rw [eq]; exact { h with }
  | setDelay k => exact h.setDelayAnswer k
  | setTable k => obtain ⟨_, _, eq⟩ := setTableAnswer_shape k; rw [eq]; exact { h with }
  | setRow k => obtain ⟨_, eq⟩ := setRowAnswer_shape k; rw [eq]; exact { h with }
  | setColumn k => obtain ⟨_, eq⟩ := setColumnAnswer_shape k; rw [eq]; exact { h with }
  | read k => obtain ⟨_, _, eq⟩ := readAnswer_shape k; rw [eq]; exact { h with }
  | patchBegin k => obtain ⟨_, eq⟩ := patchBeginAnswer_shape k; rw [eq]; exact { h with }
  | patchEnd k => obtain ⟨_, _, eq⟩ := patchEndAnswer_shape k; rw [eq]; exact { h with }
  | setRelay k => obtain ⟨_, eq⟩ := setRelayAnswer_shape k; rw [eq]; exact { h with }
  | counterSelect k => obtain ⟨_, eq⟩ := counterSelectAnswer_shape k; rw [eq]; exact h.setCounter _ _
  | counterLoad k => obtain ⟨_, eq⟩ := counterLoadAnswer_shape k; rw [eq]; exact h.setCounter _ _

/-- Settles O59: every move keeps the tables and the lines in canonical form, and every change of a feed record keeps its
ring in it. -/
theorem canonicalFormKept : Obligations.CanonicalFormKept := by
  intro s t h stepped
  rw [canonical_iff] at h ⊢
  exact step_keeps (fun u => Canonical u ∧ ∀ k, Tab.wf silence (u.feed k).ring = true)
    (fun _ _ ⟨tables, rings⟩ => ⟨{ tables with }, rings⟩)
    (fun _ _ did ⟨tables, rings⟩ => ⟨did_keeps_canonical did tables,
      fun k => feedDids_keep (fun _ _ => feedDid_keeps_ring) (did_feeds did k) (rings k)⟩) h stepped

end Sys2Proof.Machine
end

section
/-! PROOFS. The laws of the cue list (R97), of the queues (R116, R149, R171, R176, R177) and of the load pointer (R158),
kept by every move. -/
namespace Sys2Proof.Machine

-- the queues

theorem queuesLawful_congr {s t : State} (jobs : t.jobs = s.jobs) (replies : t.replies = s.replies)
    (proc : t.proc = s.proc) (inbound : t.inbound = s.inbound) (relay : t.relay = s.relay)
    (through : t.through = s.through) (h : s.queuesLawful) : t.queuesLawful := by
  simpa only [State.queuesLawful, State.reserved, jobs, replies, proc, inbound, relay, through] using h

/-- A queue with room, and one item more. -/
theorem append_length_le {α : Type} {l : List α} {n : Nat} (a : α) (room : l.length < n) : (l ++ [a]).length ≤ n := by
  simpa using room

theorem queuesLawful_countEvent {s : State} (e : Event) (h : s.queuesLawful) : (countEvent e s).queuesLawful := by
  obtain ⟨_, _, _, eq⟩ := countEvent_shape e s; rw [eq]; exact h

/-- A job start takes one job out of the queue and may append one PURGE (R12, R118). -/
theorem startIfDue_jobs_length (s : State) : (startIfDue s).jobs.length ≤ s.jobs.length := by
  unfold startIfDue; split
  · cases jobs : s.jobs with
    | nil => rw [startJob_nil s jobs, jobs]
    | cons j rest =>
      rw [startJob_cons s j rest jobs]
      unfold placePurge; split <;> simp [appendPurge]
  · exact le_rfl

theorem queuesLawful_startIfDue {s : State} (h : s.queuesLawful) : (startIfDue s).queuesLawful := by
  have fewer := startIfDue_jobs_length s
  obtain ⟨_, _, _, _, eq⟩ := startIfDue_shape s
  rw [eq] at fewer ⊢
  exact ⟨fewer.trans h.1, h.2⟩

theorem queuesLawful_endJob {s : State} (h : s.queuesLawful) : (endJob s).queuesLawful :=
  queuesLawful_startIfDue (queuesLawful_congr rfl rfl rfl rfl rfl rfl h)

/-- A report posted into a free place (R124, R171). -/
theorem queuesLawful_posted {s : State} (item : ReturnItem) (place : s.placeFree = true) (h : s.queuesLawful) :
    ({ s with replies := s.replies ++ [item] } : State).queuesLawful := by
  have room : s.replies.length + s.reserved < 8 := of_decide_eq_true place
  obtain ⟨jobs, _, others⟩ := h
  refine ⟨jobs, ?_, others⟩
  change (s.replies ++ [item]).length + s.reserved ≤ 8
  simp; omega

theorem queuesLawful_endWithReport {s : State} (r : JobReport) (h : s.queuesLawful) :
    (endWithReport r s).queuesLawful := by
  unfold endWithReport; split
  · exact queuesLawful_endJob (queuesLawful_posted _ (by assumption) h)
  · exact queuesLawful_congr rfl rfl rfl rfl rfl rfl h

theorem queuesLawful_endRecode {s : State} (j : RecodeJob) (remaining changed filtered : Nat) (exhausted : Bool)
    (h : s.queuesLawful) : (endRecode j remaining changed filtered exhausted s).queuesLawful := by
  unfold endRecode; split
  · exact queuesLawful_endWithReport _ h
  · exact queuesLawful_endJob h

theorem queuesLawful_recodeNext {s : State} (j : RecodeJob) (f remaining changed filtered : Nat) (h : s.queuesLawful) :
    (recodeNext j f remaining changed filtered s).queuesLawful := by
  unfold recodeNext; split
  · exact queuesLawful_endRecode _ _ _ _ _ h
  · exact queuesLawful_congr rfl rfl rfl rfl rfl rfl h

theorem queuesLawful_recodeOn {s : State} (j : RecodeJob) (f remaining changed filtered : Nat) (h : s.queuesLawful) :
    (recodeOn j f remaining changed filtered s).queuesLawful := by
  unfold recodeOn; split
  · exact queuesLawful_endRecode _ _ _ _ _ h
  · dsimp only; split
    · exact queuesLawful_recodeNext _ _ _ _ _ (queuesLawful_countEvent _ h)
    · exact queuesLawful_recodeNext _ _ _ _ _ (queuesLawful_congr rfl rfl rfl rfl rfl rfl h)

theorem queuesLawful_scanOn {s : State} (j : ScanJob) (f remaining : Nat) (h : s.queuesLawful) :
    (scanOn j f remaining s).queuesLawful := by
  unfold scanOn; split
  · exact queuesLawful_endWithReport _ h
  · dsimp only; split
    · exact queuesLawful_endWithReport _ h
    · split
      · exact queuesLawful_endWithReport _ h
      · exact queuesLawful_congr rfl rfl rfl rfl rfl rfl h

theorem queuesLawful_purgeOn {s : State} (slot c : Nat) (h : s.queuesLawful) : (purgeOn slot c s).queuesLawful := by
  have released : (releaseRoute c slot s).queuesLawful := by
    unfold releaseRoute; split
    · exact queuesLawful_congr rfl rfl rfl rfl rfl rfl h
    · exact h
  unfold purgeOn; dsimp only; split
  · refine queuesLawful_endJob ?_
    unfold freeSlot; split <;> exact queuesLawful_congr rfl rfl rfl rfl rfl rfl released
  · exact queuesLawful_congr rfl rfl rfl rfl rfl rfl released

theorem queuesLawful_postIfDue {s : State} (h : s.queuesLawful) : (postIfDue s).queuesLawful := by
  by_cases due : postDue s = true
  · cases walker : s.walker with
    | holding r =>
      have place : s.placeFree = true := by simpa only [postDue, walker] using due
      rw [postIfDue_of_holding walker place]
      exact queuesLawful_startIfDue (queuesLawful_congr rfl rfl rfl rfl rfl rfl (queuesLawful_posted (.report r) place h))
    | idle => simp [postDue, walker] at due
    | running job => simp [postDue, walker] at due
  · rw [postIfDue_of_not s (by simpa using due)]; exact h

/-- The ends of a close append a job only to a queue with room (R11). -/
theorem queuesLawful_doEnd {s : State} (w : CloseWork) (h : s.queuesLawful) : (doEnd w s).queuesLawful := by
  have jobs : (doEnd w s).jobs.length ≤ 8 := by
    cases w with
    | fadeCompletion f =>
      dsimp only [doEnd, fadeFinish]; split
      · next room => exact append_length_le _ room
      · exact h.1
    | rampEnd => exact h.1
    | autoRelease => dsimp only [doEnd, releaseRoute]; split <;> exact h.1
    | dipDelayMove => dsimp only [doEnd, dipMove]; split <;> exact h.1
    | dipRiseEnd => dsimp only [doEnd, dipEnd]; split <;> exact h.1
    | servoExpiry => rw [doEnd, servoExpire]; exact h.1
  obtain ⟨_, _, _, _, _, _, _, eq⟩ := doEnd_shape w s
  rw [eq] at jobs ⊢
  exact ⟨jobs, h.2⟩

/-- A burst that goes on holds one reply-queue place, as the burst in execution did. -/
theorem queuesLawful_proceed {s : State} (x : Exec) (executing : s.proc.isSome = true) (h : s.queuesLawful) :
    (proceed x s).queuesLawful := by
  have places := proceed_places x s
  obtain ⟨jobs, held, others⟩ := h
  have one : s.reserved = 1 := if_pos executing
  obtain ⟨_, _, eq⟩ := proceed_shape x s
  rw [eq] at places ⊢
  exact ⟨jobs, by omega, others⟩

theorem queuesLawful_endBurst {s : State} (x : Exec) (stop : Option Code) (executing : s.proc.isSome = true)
    (h : s.queuesLawful) : (endBurst x stop s).queuesLawful := by
  obtain ⟨jobs, held, others⟩ := h
  have one : s.reserved = 1 := if_pos executing
  exact ⟨jobs, by simp [endBurst, State.reserved]; omega, others⟩

/-- A take reserves a place that was free (R150, R171). -/
theorem queuesLawful_takeBurst {s : State} (due : takeDue s = true) (h : s.queuesLawful) : (takeBurst s).queuesLawful := by
  obtain ⟨places, bursts, jobs, -⟩ := takeBurst_more s due
  have room : s.replies.length + s.reserved < 8 := by
    simp only [takeDue, Bool.and_eq_true, State.placeFree, decide_eq_true_eq] at due
    exact due.2
  obtain ⟨jobsHeld, _, inbound, others⟩ := h
  obtain ⟨_, _, _, eq⟩ := takeBurst_shape s
  rw [eq] at places bursts ⊢
  exact ⟨jobsHeld, by omega, by simp only at bursts ⊢; omega, others⟩

theorem queuesLawful_handOn {s : State} (bytes : List Byte) (h : s.queuesLawful) : (handOn bytes s).queuesLawful := by
  obtain ⟨jobs, places, inbound, relay, through⟩ := h
  unfold handOn; split
  · exact queuesLawful_countEvent _ ⟨jobs, places, inbound, relay, through⟩
  · next id seq samples _ =>
    obtain ⟨_, _, _, _, eq⟩ := audioArrival_shape id seq samples s
    rw [eq]; exact ⟨jobs, places, inbound, relay, through⟩
  · split
    · unfold inboundArrival; split
      · next room => exact ⟨jobs, places, append_length_le _ room, relay, through⟩
      · exact queuesLawful_countEvent _ ⟨jobs, places, inbound, relay, through⟩
    · unfold throughArrival; split
      · next room => exact ⟨jobs, places, inbound, relay, append_length_le _ room⟩
      · exact queuesLawful_countEvent _ ⟨jobs, places, inbound, relay, through⟩

theorem queuesLawful_relayArrival {s : State} (bytes : List Byte) (h : s.queuesLawful) :
    (relayArrival bytes s).queuesLawful := by
  obtain ⟨jobs, places, inbound, relay, through⟩ := h
  unfold relayArrival; split
  · next room => exact ⟨jobs, places, inbound, append_length_le _ room, through⟩
  · exact queuesLawful_countEvent _ ⟨jobs, places, inbound, relay, through⟩

/-- The return lane takes items out of their queues (R174). -/
theorem queuesLawful_chooseItem {s : State} (h : s.queuesLawful) : (chooseItem s).queuesLawful := by
  have shorter (item : ReturnItem) (rest : List ReturnItem) (eq : s.replies = item :: rest) :
      (sendReply item rest s).queuesLawful := by
    obtain ⟨jobs, places, others⟩ := h
    rw [eq, List.length_cons] at places
    exact ⟨jobs, by change rest.length + s.reserved ≤ 8; omega, others⟩
  have relayed (item : List Byte) (rest : List (List Byte)) (eq : s.relay = item :: rest) :
      (sendRelay item rest s).queuesLawful := by
    obtain ⟨jobs, places, inbound, relay, through⟩ := h
    rw [eq, List.length_cons] at relay
    exact ⟨jobs, places, inbound, by change rest.length ≤ 4; omega, through⟩
  unfold chooseItem; split
  · exact queuesLawful_congr rfl rfl rfl rfl rfl rfl h
  · exact h
  · exact shorter _ _ (by assumption)
  · exact relayed _ _ (by assumption)
  · split
    · exact shorter _ _ (by assumption)
    · exact relayed _ _ (by assumption)

-- the cue list

theorem cuesLawful_congr {s t : State} (cues : t.cues = s.cues) (h : s.cuesLawful) : t.cuesLawful := by
  simpa only [State.cuesLawful, cues] using h

/-- Entries taken out of the list leave the others in order. -/
theorem cuesLawful_sublist {s t : State} (fewer : t.cues.Sublist s.cues) (h : s.cuesLawful) : t.cuesLawful :=
  ⟨fewer.length_le.trans h.1, h.2.sublist fewer⟩

/-- A due time that lies less than 2^31 after the head's, and not before the tail's, lies less than 2^31 after that of
every entry between them (R97, R101). -/
theorem due_after_between {head between tail due : Count} (first : (between - head).toNat < 2 ^ 31)
    (second : (tail - between).toNat < 2 ^ 31) (whole : (tail - head).toNat < 2 ^ 31)
    (new : (due - head).toNat < 2 ^ 31) (order : before due tail = false) : (due - between).toNat < 2 ^ 31 := by
  simp only [before, decide_eq_false_iff_not] at order
  bv_omega

/-- The entry of a list in order lies less than 2^31 after the head, and the tail after it. -/
theorem cue_between {cues : List Cue} (sorted : cues.Pairwise fun a b => (b.due - a.due).toNat < 2 ^ 31) {head tail c : Cue}
    (isHead : cues.head? = some head) (isTail : cues.getLast? = some tail) (held : c ∈ cues) :
    (c.due - head.due).toNat < 2 ^ 31 ∧ (tail.due - c.due).toNat < 2 ^ 31 := by
  have here : (c.due - c.due).toNat < 2 ^ 31 := by simp
  constructor
  · cases cues with
    | nil => simp at held
    | cons x xs =>
      obtain rfl : x = head := by simpa using isHead
      rcases List.mem_cons.1 held with rfl | later
      · exact here
      · exact (List.pairwise_cons.1 sorted).1 c later
  · obtain ⟨front, rfl⟩ := List.getLast?_eq_some_iff.1 isTail
    rcases List.mem_append.1 held with earlier | last
    · exact (List.pairwise_append.1 sorted).2.2 c earlier tail (by simp)
    · obtain rfl : c = tail := by simpa using last
      exact here

/-- A cue accepted at the tail keeps the order (R101, R102). -/
theorem cuesLawful_atAnswer {r : Nat} {a b c : Word} {d : Deferred} {s t : State} {n : Notes} {w : List Word}
    (done : atAnswer r a b c d s = .done t n w) (h : s.cuesLawful) : t.cuesLawful := by
  obtain ⟨room, order, k, _, _, _, due, eq⟩ := atAnswer_shape done
  obtain ⟨-, sorted⟩ := h
  rw [eq]
  refine ⟨append_length_le _ room, List.pairwise_append.2 ⟨sorted, List.pairwise_singleton .., fun e held f isNew => ?_⟩⟩
  obtain rfl : f = k := by simpa using isNew
  rw [due]
  have nonempty : s.cues ≠ [] := List.ne_nil_of_mem held
  have isHead := List.head?_eq_some_head nonempty
  have isTail := List.getLast?_eq_some_getLast nonempty
  simp only [outOfOrder, isHead, isTail, Bool.or_eq_false_iff, decide_eq_false_iff_not, not_le] at order
  obtain ⟨first, second⟩ := cue_between sorted isHead isTail held
  exact due_after_between first second (cue_between sorted isHead isTail (List.getLast_mem nonempty)).1 order.2 order.1

theorem countEvent_cues (e : Event) (s : State) : (countEvent e s).cues = s.cues := by
  obtain ⟨_, _, _, eq⟩ := countEvent_shape e s; rw [eq]

theorem offerUrgent_cues (r : Urgent) (s : State) : (offerUrgent r s).cues = s.cues := by
  obtain ⟨_, _, eq⟩ := offerUrgent_shape r s; rw [eq]

/-- A cue fault removes the waiting entries of its batch (R108). -/
theorem cueFault_cues (c : Cue) (code : Code) (s : State) : (cueFault c code s).cues = otherBatches c.batch s.cues := by
  rw [cueFault, countEvent_cues, offerUrgent_cues]

/-- The due pass takes entries out: those applied, and those of a batch that faults (R104, R108). -/
theorem cuesLawful_startPeriod {s : State} (h : s.cuesLawful) : (startPeriod s).cuesLawful := by
  unfold startPeriod; dsimp only
  obtain ⟨_, _, _, eq⟩ := countEvent_shape .outputPeriod { s with count := s.count + 1#32, phase := .computing, work := [] }
  rw [eq]
  refine duePass_keeps State.cuesLawful (fun c rest u eq hu => ?_) (fun d u v n w done hu => ?_) (fun c code u hu => ?_) _ _ h
  · exact cuesLawful_sublist (by rw [eq]; exact List.sublist_cons_self c rest) hu
  · obtain ⟨_, _, _, _, _, _, _, _, _, _, eq⟩ := applyDeferred_shape done
    rw [eq]; exact hu
  · exact cuesLawful_sublist (by rw [cueFault_cues]; exact List.filter_sublist) hu

-- the load pointer

theorem pointerLawful_congr {s t : State} (pointer : t.pointer = s.pointer) (patch : t.patch = s.patch)
    (h : s.pointerLawful) : t.pointerLawful := by
  simpa only [State.pointerLawful, pointer, patch] using h

theorem pointerLawful_reset {s : State} (pointer : s.pointer = pointerReset) (patch : s.patch = none) :
    s.pointerLawful := by
  simp [State.pointerLawful, pointer, patch, pointerReset, tableRows]

theorem pointerLawful_setColumnTo {s : State} {column : Nat} (inRow : column ≤ 16) (h : s.pointerLawful) :
    (setColumnTo column s).pointerLawful := by
  obtain ⟨table, row, _, patch⟩ := h
  exact ⟨table, row, inRow, patch⟩

/-- A read step raises the column to the row end at most (R162). -/
theorem pointerLawful_readStep {s : State} (h : s.pointerLawful) : (readStep s).pointerLawful := by
  have column := h.2.2.1
  unfold readStep; dsimp only; split
  · exact pointerLawful_congr rfl rfl h
  · next moves => exact pointerLawful_setColumnTo (by omega) (pointerLawful_congr rfl rfl h)

theorem pointerLawful_readSteps {s : State} (n : Nat) (h : s.pointerLawful) : (readSteps n s).pointerLawful := by
  induction n generalizing s with
  | zero => exact h
  | succ n ih => exact ih (pointerLawful_readStep h)

theorem pointerLawful_dataWrite {s : State} (w : Word) (h : s.pointerLawful) : (dataWrite w s).pointerLawful := by
  have column := h.2.2.1
  have written : (writeEntry s.pointer.table s.pointer.row s.pointer.column w s).pointerLawful := by
    rcases writeEntry_cases s.pointer.table s.pointer.row s.pointer.column w s with eq | ⟨_, eq⟩ | ⟨_, _, _, _, eq⟩ |
      ⟨_, _, _, eq⟩ | ⟨_, _, _, eq⟩ | ⟨_, _, eq⟩ | ⟨_, _, eq⟩ <;> rw [eq] <;> exact h
  have moved : (if s.pointer.column = 16 then s else setColumnTo (s.pointer.column + 1)
      (writeEntry s.pointer.table s.pointer.row s.pointer.column w s)).pointerLawful := by
    split
    · exact h
    · exact pointerLawful_setColumnTo (by omega) written
  unfold dataWrite; dsimp only; split
  · exact pointerLawful_congr rfl rfl moved
  · exact moved

theorem pointerLawful_setTableAnswer {a : Word} {s t : State} {n : Notes} {w : List Word}
    (done : setTableAnswer a s = .done t n w) : t.pointerLawful := by
  unfold setTableAnswer at done
  split at done <;> cases done
  refine ⟨by dsimp only; omega, ?_, Nat.zero_le _, fun _ patched => by cases patched⟩
  simp only [tableRows]; split <;> [omega; (split <;> omega)]

theorem pointerLawful_setRowAnswer {a : Word} {s t : State} {n : Notes} {w : List Word}
    (done : setRowAnswer a s = .done t n w) (h : s.pointerLawful) : t.pointerLawful := by
  obtain ⟨table, _, _, patch⟩ := h
  unfold setRowAnswer at done
  split at done <;> cases done
  next isRow => exact ⟨table, by simpa using isRow, Nat.zero_le _, patch⟩

theorem pointerLawful_setColumnAnswer {a : Word} {s t : State} {n : Notes} {w : List Word}
    (done : setColumnAnswer a s = .done t n w) (h : s.pointerLawful) : t.pointerLawful := by
  unfold setColumnAnswer at done
  split at done <;> cases done
  exact pointerLawful_setColumnTo (by omega) h

theorem pointerLawful_readAnswer {r : Nat} {a : Word} {s t : State} {n : Notes} {w : List Word}
    (done : readAnswer r a s = .done t n w) (h : s.pointerLawful) : t.pointerLawful := by
  unfold readAnswer at done
  split at done <;> cases done
  exact pointerLawful_readSteps _ h

theorem pointerLawful_patchBeginAnswer {s t : State} {n : Notes} {w : List Word}
    (done : patchBeginAnswer s = .done t n w) (h : s.pointerLawful) : t.pointerLawful := by
  obtain ⟨table, row, column, _⟩ := h
  cases done
  exact ⟨table, row, column, fun c patched => by cases patched; exact column⟩

theorem pointerLawful_patchEndAnswer {s t : State} {n : Notes} {w : List Word}
    (done : patchEndAnswer s = .done t n w) (h : s.pointerLawful) : t.pointerLawful := by
  obtain ⟨table, row, column, patch⟩ := h
  unfold patchEndAnswer at done
  split at done <;> cases done
  · next c patched => exact ⟨table, row, patch c patched, fun _ none => by cases none⟩
  · exact ⟨table, row, column, patch⟩

-- the three laws, move by move

/-- What a move keeps of the cue list, the queues and the load pointer. -/
structure ControlKept (s t : State) : Prop where
  cues : s.cuesLawful → t.cuesLawful
  queues : s.queuesLawful → t.queuesLawful
  pointer : s.pointerLawful → t.pointerLawful

/-- A move that touches none of the three. -/
theorem ControlKept.same {s t : State} (cues : t.cues = s.cues) (jobs : t.jobs = s.jobs) (replies : t.replies = s.replies)
    (proc : t.proc = s.proc) (inbound : t.inbound = s.inbound) (relay : t.relay = s.relay)
    (through : t.through = s.through) (pointer : t.pointer = s.pointer) (patch : t.patch = s.patch) : ControlKept s t :=
  ⟨cuesLawful_congr cues, queuesLawful_congr jobs replies proc inbound relay through, pointerLawful_congr pointer patch⟩

/-- A move of the queues. -/
theorem ControlKept.ofQueues {s t : State} (cues : t.cues = s.cues) (pointer : t.pointer = s.pointer)
    (patch : t.patch = s.patch) (queues : s.queuesLawful → t.queuesLawful) : ControlKept s t :=
  ⟨cuesLawful_congr cues, queues, pointerLawful_congr pointer patch⟩

/-- A move of the load pointer. -/
theorem ControlKept.ofPointer {s t : State} (cues : t.cues = s.cues) (jobs : t.jobs = s.jobs)
    (replies : t.replies = s.replies) (proc : t.proc = s.proc) (inbound : t.inbound = s.inbound)
    (relay : t.relay = s.relay) (through : t.through = s.through) (pointer : s.pointerLawful → t.pointerLawful) :
    ControlKept s t :=
  ⟨cuesLawful_congr cues, queuesLawful_congr jobs replies proc inbound relay through, pointer⟩

/-- A move of the cue list. -/
theorem ControlKept.ofCues {s t : State} (jobs : t.jobs = s.jobs)
    (replies : t.replies = s.replies) (proc : t.proc = s.proc) (inbound : t.inbound = s.inbound)
    (relay : t.relay = s.relay) (through : t.through = s.through) (pointer : t.pointer = s.pointer)
    (patch : t.patch = s.patch) (cues : s.cuesLawful → t.cuesLawful) : ControlKept s t :=
  ⟨cues, queuesLawful_congr jobs replies proc inbound relay through, pointerLawful_congr pointer patch⟩

/-- What every move keeps of the cue list, the queues and the load pointer. -/
theorem did_controlKept {s t : State} (did : Did s t) : ControlKept s t := by
  have same {a b : State} := @ControlKept.same a b
  cases did with
  | goOn _ x executing =>
    have queues := queuesLawful_proceed (s := s) x executing
    obtain ⟨_, _, eq⟩ := proceed_shape x s; rw [eq] at queues ⊢; exact .ofQueues rfl rfl rfl queues
  | stop _ x c executing => exact .ofQueues rfl rfl rfl (queuesLawful_endBurst x c executing)
  | take _ due =>
    have queues := queuesLawful_takeBurst due
    obtain ⟨_, _, _, eq⟩ := takeBurst_shape s; rw [eq] at queues ⊢; exact .ofQueues rfl rfl rfl queues
  | start =>
    have queues := queuesLawful_startIfDue (s := s)
    obtain ⟨_, _, _, _, eq⟩ := startIfDue_shape s; rw [eq] at queues ⊢; exact .ofQueues rfl rfl rfl queues
  | post =>
    have queues := queuesLawful_postIfDue (s := s)
    obtain ⟨_, _, _, _, _, eq⟩ := postIfDue_shape s; rw [eq] at queues ⊢; exact .ofQueues rfl rfl rfl queues
  | ended _ w =>
    have queues := queuesLawful_doEnd (s := { s with closeDue := s.closeDue.erase w }) w
    obtain ⟨_, _, _, _, _, _, _, eq⟩ := doEnd_shape w { s with closeDue := s.closeDue.erase w }
    rw [eq] at queues ⊢; exact .ofQueues rfl rfl rfl queues
  | request _ p => obtain ⟨_, eq⟩ := requestPort_shape p s; rw [eq]; exact same rfl rfl rfl rfl rfl rfl rfl rfl rfl
  | data _ w =>
    have pointer := pointerLawful_dataWrite (s := s) w
    obtain ⟨_, _, _, _, _, _, _, _, _, eq⟩ := dataWrite_shape w s; rw [eq] at pointer ⊢
    exact .ofPointer rfl rfl rfl rfl rfl rfl rfl pointer
  | softReset =>
    exact ⟨fun _ => ⟨Nat.zero_le _, List.Pairwise.nil⟩, fun ⟨_, others⟩ => ⟨Nat.zero_le _, others⟩,
      fun _ => pointerLawful_reset rfl rfl⟩
  | powerOn =>
    exact ⟨fun _ => ⟨Nat.zero_le _, List.Pairwise.nil⟩,
      fun _ => ⟨Nat.zero_le _, Nat.zero_le _, Nat.zero_le _, Nat.zero_le _, Nat.zero_le _⟩,
      fun _ => pointerLawful_reset rfl rfl⟩
  | clearFeedLink =>
    exact .ofQueues rfl rfl rfl fun ⟨jobs, _, _, _, through⟩ =>
      ⟨jobs, Nat.zero_le _, Nat.zero_le _, Nat.zero_le _, through⟩
  | arrival _ bytes =>
    have queues := queuesLawful_handOn (s := { s with feedPartial := [] }) bytes
    obtain ⟨_, _, _, _, _, _, eq⟩ := handOn_shape bytes { s with feedPartial := [] }
    rw [eq] at queues ⊢; exact .ofQueues rfl rfl rfl queues
  | reply _ bytes =>
    have queues := queuesLawful_relayArrival (s := { s with speakerPartial := [] }) bytes
    obtain ⟨_, _, _, _, eq⟩ := relayArrival_shape bytes { s with speakerPartial := [] }
    rw [eq] at queues ⊢; exact .ofQueues rfl rfl rfl queues
  | periodStart =>
    have cues := cuesLawful_startPeriod (s := s)
    obtain ⟨_, _, _, _, _, _, _, _, _, _, _, eq⟩ := startPeriod_shape s; rw [eq] at cues ⊢
    exact .ofCues rfl rfl rfl rfl rfl rfl rfl rfl cues
  | compute _ c =>
    obtain ⟨_, _, _, _, _, _, _, _, _, eq⟩ := computeChannel_shape c s; rw [eq]
    exact same rfl rfl rfl rfl rfl rfl rfl rfl rfl
  | foreign _ bytes rest waiting =>
    exact .ofQueues rfl rfl rfl fun ⟨jobs, places, inbound, relay, through⟩ =>
      ⟨jobs, places, inbound, relay, by rw [waiting, List.length_cons] at through; change rest.length ≤ 4; omega⟩
  | close => obtain ⟨_, _, _, eq⟩ := closePeriod_shape s; rw [eq]; exact same rfl rfl rfl rfl rfl rfl rfl rfl rfl
  | purge _ slot c =>
    have queues := queuesLawful_purgeOn (s := s) slot c
    obtain ⟨_, _, _, _, _, _, _, _, _, _, _, eq⟩ := purgeOn_touches slot c s
    rw [eq] at queues ⊢; exact .ofQueues rfl rfl rfl queues
  | recode _ j f r c k =>
    have queues := queuesLawful_recodeOn (s := s) j f r c k
    obtain ⟨_, _, _, _, _, _, _, _, _, _, _, eq⟩ := recodeOn_touches j f r c k s
    rw [eq] at queues ⊢; exact .ofQueues rfl rfl rfl queues
  | scan _ j f r =>
    have queues := queuesLawful_scanOn (s := s) j f r
    obtain ⟨_, _, _, _, _, _, _, _, _, _, _, eq⟩ := scanOn_touches j f r s
    rw [eq] at queues ⊢; exact .ofQueues rfl rfl rfl queues
  | choose =>
    have queues := queuesLawful_chooseItem (s := s)
    obtain ⟨_, _, _, _, _, _, eq⟩ := chooseItem_shape s; rw [eq] at queues ⊢; exact .ofQueues rfl rfl rfl queues
  | jobRecode _ j room => exact .ofQueues rfl rfl rfl fun ⟨_, others⟩ => ⟨append_length_le _ room, others⟩
  | jobScan _ j room => exact .ofQueues rfl rfl rfl fun ⟨_, others⟩ => ⟨append_length_le _ room, others⟩
  | cue k =>
    have cues := cuesLawful_atAnswer k
    obtain ⟨_, _, _, _, _, _, _, eq⟩ := atAnswer_shape k; rw [eq] at cues ⊢
    exact .ofCues rfl rfl rfl rfl rfl rfl rfl rfl cues
  | cancelBatch k =>
    rw [cancelBatchAnswer_shape k]
    exact .ofCues rfl rfl rfl rfl rfl rfl rfl rfl (cuesLawful_sublist List.filter_sublist)
  | flushCues k =>
    rw [flushCuesAnswer_shape k]
    exact .ofCues rfl rfl rfl rfl rfl rfl rfl rfl (cuesLawful_sublist (List.nil_sublist _))
  | setTable k =>
    have pointer := pointerLawful_setTableAnswer k
    obtain ⟨_, _, eq⟩ := setTableAnswer_shape k; rw [eq] at pointer ⊢
    exact .ofPointer rfl rfl rfl rfl rfl rfl rfl fun _ => pointer
  | setRow k =>
    have pointer := pointerLawful_setRowAnswer k
    obtain ⟨_, eq⟩ := setRowAnswer_shape k; rw [eq] at pointer ⊢
    exact .ofPointer rfl rfl rfl rfl rfl rfl rfl pointer
  | setColumn k =>
    have pointer := pointerLawful_setColumnAnswer k
    obtain ⟨_, eq⟩ := setColumnAnswer_shape k; rw [eq] at pointer ⊢
    exact .ofPointer rfl rfl rfl rfl rfl rfl rfl pointer
  | read k =>
    have pointer := pointerLawful_readAnswer k
    obtain ⟨_, _, eq⟩ := readAnswer_shape k; rw [eq] at pointer ⊢
    exact .ofPointer rfl rfl rfl rfl rfl rfl rfl pointer
  | patchBegin k =>
    have pointer := pointerLawful_patchBeginAnswer k
    obtain ⟨_, eq⟩ := patchBeginAnswer_shape k; rw [eq] at pointer ⊢
    exact .ofPointer rfl rfl rfl rfl rfl rfl rfl pointer
  | patchEnd k =>
    have pointer := pointerLawful_patchEndAnswer k
    obtain ⟨_, _, eq⟩ := patchEndAnswer_shape k; rw [eq] at pointer ⊢
    exact .ofPointer rfl rfl rfl rfl rfl rfl rfl pointer
  | frame => unfold frameSend; exact same rfl rfl rfl rfl rfl rfl rfl rfl rfl
  | release | feedLinkDown | speakerLinkUp | speakerLinkDown | replyFailed | passOver | laneFree =>
    exact same rfl rfl rfl rfl rfl rfl rfl rfl rfl
  | bind k => obtain ⟨_, _, eq⟩ := bindAnswer_shape k; rw [eq]; exact same rfl rfl rfl rfl rfl rfl rfl rfl rfl
  | unbind k => obtain ⟨_, eq⟩ := unbindAnswer_shape k; rw [eq]; exact same rfl rfl rfl rfl rfl rfl rfl rfl rfl
  | setMask k => rw [setMaskAnswer_shape k]; exact same rfl rfl rfl rfl rfl rfl rfl rfl rfl
  | setRate k => obtain ⟨_, eq⟩ := setRateAnswer_shape k; rw [eq]; exact same rfl rfl rfl rfl rfl rfl rfl rfl rfl
  | setServo k =>
    obtain ⟨_, _, _, eq⟩ := setServoAnswer_shape k; rw [eq]; exact same rfl rfl rfl rfl rfl rfl rfl rfl rfl
  | setGain k =>
    obtain ⟨_, _, _, _, _, eq⟩ := setGainAnswer_shape k; rw [eq]; exact same rfl rfl rfl rfl rfl rfl rfl rfl rfl
  | clearOutput k =>
    obtain ⟨_, _, _, _, eq⟩ := clearOutputAnswer_shape k; rw [eq]; exact same rfl rfl rfl rfl rfl rfl rfl rfl rfl
  | setFilter k => obtain ⟨_, eq⟩ := setFilterAnswer_shape k; rw [eq]; exact same rfl rfl rfl rfl rfl rfl rfl rfl rfl
  | setMaster k => obtain ⟨_, eq⟩ := setMasterAnswer_shape k; rw [eq]; exact same rfl rfl rfl rfl rfl rfl rfl rfl rfl
  | setInvert k => obtain ⟨_, eq⟩ := setInvertAnswer_shape k; rw [eq]; exact same rfl rfl rfl rfl rfl rfl rfl rfl rfl
  | setOverride k =>
    obtain ⟨_, eq⟩ := setOverrideAnswer_shape k; rw [eq]; exact same rfl rfl rfl rfl rfl rfl rfl rfl rfl
  | setArb k => obtain ⟨_, _, _, eq⟩ := setArbAnswer_shape k; rw [eq]; exact same rfl rfl rfl rfl rfl rfl rfl rfl rfl
  | setActive k => obtain ⟨_, eq⟩ := setActiveAnswer_shape k; rw [eq]; exact same rfl rfl rfl rfl rfl rfl rfl rfl rfl
  | setDelay k => obtain ⟨_, _, eq⟩ := setDelayAnswer_shape k; rw [eq]; exact same rfl rfl rfl rfl rfl rfl rfl rfl rfl
  | setRelay k => obtain ⟨_, eq⟩ := setRelayAnswer_shape k; rw [eq]; exact same rfl rfl rfl rfl rfl rfl rfl rfl rfl
  | counterSelect k =>
    obtain ⟨_, eq⟩ := counterSelectAnswer_shape k; rw [eq]; exact same rfl rfl rfl rfl rfl rfl rfl rfl rfl
  | counterLoad k =>
    obtain ⟨_, eq⟩ := counterLoadAnswer_shape k; rw [eq]; exact same rfl rfl rfl rfl rfl rfl rfl rfl rfl

theorem step_keeps_cuesLawful {s t : State} (h : s.cuesLawful) (stepped : step s = .next t) : t.cuesLawful :=
  step_keeps State.cuesLawful (fun _ _ h => h) (fun _ _ did => (did_controlKept did).cues) h stepped

theorem step_keeps_queuesLawful {s t : State} (h : s.queuesLawful) (stepped : step s = .next t) : t.queuesLawful :=
  step_keeps State.queuesLawful (fun _ _ h => h) (fun _ _ did => (did_controlKept did).queues) h stepped

theorem step_keeps_pointerLawful {s t : State} (h : s.pointerLawful) (stepped : step s = .next t) : t.pointerLawful :=
  step_keeps State.pointerLawful (fun _ _ h => h) (fun _ _ did => (did_controlKept did).pointer) h stepped

end Sys2Proof.Machine
end

section
/-! PROOFS. The law of the edit port (R119, R129 to R131), kept by every event. The moves of one event do not keep it one
by one: a step of a granted party leaves the port BUSY for a job that has ended or a burst that has gone on, until the
port falls FREE. `portOpen` is what holds before it falls. -/
namespace Sys2Proof.Machine

/-- The ranges of R129. -/
def Arbiter.inRange (a : Arbiter) : Prop :=
  1 ≤ a.cmdBurst ∧ a.cmdBurst ≤ 255 ∧ 1 ≤ a.walkBurst ∧ a.walkBurst ≤ 255 ∧ a.run ≤ 255

/-- The walker runs a job. -/
def State.jobRuns (s : State) : Prop := ∃ job, s.walker = .running job

/-- What the law of the port rests on while a step is under way. -/
structure State.portOpen (s : State) : Prop where
  walk : s.arbiter.walkRequest = true ↔ s.jobRuns
  command : s.arbiter.cmdRequest = true → s.atEdit = true
  range : s.arbiter.inRange

/-- The law of the edit port, part by part. -/
theorem portLawful_iff (s : State) : s.portLawful ↔
    (s.arbiter.port = .free → s.arbiter.cmdRequest = false ∧ s.arbiter.walkRequest = false) ∧
    (s.arbiter.walkRequest = true ↔ s.jobRuns) ∧
    (granted s.arbiter .walker = true → s.arbiter.walkRequest = true) ∧
    (granted s.arbiter .command = true → s.arbiter.cmdRequest = false) ∧
    (s.arbiter.cmdRequest = true ∨ granted s.arbiter .command = true → s.atEdit = true) ∧ s.arbiter.inRange :=
  Iff.rfl

theorem atEdit_congr {s t : State} (proc : t.proc = s.proc) : t.atEdit = s.atEdit := by
  unfold State.atEdit; rw [proc]

/-- States with the same arbiter, walker and burst in execution keep the law together. -/
theorem portLawful_congr {s t : State} (h : s.portLawful) (arbiter : t.arbiter = s.arbiter)
    (walker : t.walker = s.walker) (proc : t.proc = s.proc) : t.portLawful := by
  simpa only [State.portLawful, atEdit_congr proc, arbiter, walker] using h

theorem portOpen_of_portLawful {s : State} (h : s.portLawful) : s.portOpen := by
  obtain ⟨_, walk, _, _, atEdit, range⟩ := (portLawful_iff s).1 h
  exact ⟨walk, fun request => atEdit (.inl request), range⟩

/-- With no command request and no edit granted the law does not speak of the burst in execution. -/
structure State.portIdle (s : State) : Prop where
  law : s.portLawful
  noRequest : s.arbiter.cmdRequest = false
  notGranted : granted s.arbiter .command = false

theorem portIdle_of_not_atEdit {s : State} (h : s.portLawful) (away : s.atEdit = false) : s.portIdle := by
  obtain ⟨_, _, _, _, atEdit, _⟩ := (portLawful_iff s).1 h
  refine ⟨h, Bool.eq_false_iff.2 fun request => ?_, Bool.eq_false_iff.2 fun edit => ?_⟩
  · simp [atEdit (.inl request)] at away
  · simp [atEdit (.inr edit)] at away

/-- So any burst in execution keeps the law then. -/
theorem portLawful_of_portIdle {s t : State} (h : s.portIdle) (arbiter : t.arbiter = s.arbiter)
    (walker : t.walker = s.walker) : t.portLawful := by
  obtain ⟨law, noRequest, notGranted⟩ := h
  obtain ⟨free, walk, walkGrant, cmdGrant, _, range⟩ := (portLawful_iff s).1 law
  rw [portLawful_iff, arbiter]
  refine ⟨free, by simpa only [State.jobRuns, walker] using walk, walkGrant, cmdGrant, fun request => ?_, range⟩
  rcases request with request | request
  · simp [noRequest] at request
  · simp [notGranted] at request

theorem portIdle_congr {s t : State} (h : s.portIdle) (arbiter : t.arbiter = s.arbiter)
    (walker : t.walker = s.walker) : t.portIdle :=
  ⟨portLawful_of_portIdle h arbiter walker, by rw [arbiter]; exact h.noRequest, by rw [arbiter]; exact h.notGranted⟩

/-- A grant counts the run of its party, and leaves the range (R129). -/
theorem inRange_grantTo {a : Arbiter} (p : Party) (h : a.inRange) : (grantTo p a).inRange := by
  obtain ⟨cmdLow, cmdHigh, walkLow, walkHigh, run⟩ := h
  unfold grantTo recordGrant; split
  · exact ⟨cmdLow, cmdHigh, walkLow, walkHigh, Nat.min_le_left ..⟩
  · exact ⟨cmdLow, cmdHigh, walkLow, walkHigh, (by decide : 1 ≤ 255)⟩

@[simp] theorem grantTo_port (p : Party) (a : Arbiter) : (grantTo p a).port = .busy := rfl

@[simp] theorem grantTo_walkRequest (p : Party) (a : Arbiter) : (grantTo p a).walkRequest = a.walkRequest := by
  unfold grantTo recordGrant; split <;> rfl

@[simp] theorem grantTo_owner (p : Party) (a : Arbiter) : (grantTo p a).owner = p := by
  unfold grantTo recordGrant; split <;> simp_all

/-- A command request is met by its grant, and stands through the walker's (R131). -/
@[simp] theorem grantTo_cmdRequest (p : Party) (a : Arbiter) :
    (grantTo p a).cmdRequest = (a.cmdRequest && decide (p = .walker)) := rfl

/-- The party chosen has a request standing (R130). -/
theorem request_of_chosen {a : Arbiter} {p : Party} (h : chosen a = some p) :
    (p = .command → a.cmdRequest = true) ∧ (p = .walker → a.walkRequest = true) := by
  unfold chosen at h
  cases hc : a.cmdRequest <;> cases hw : a.walkRequest <;> simp_all
  all_goals (subst h; simp)

theorem chosen_eq_none_iff {a : Arbiter} : chosen a = none ↔ a.cmdRequest = false ∧ a.walkRequest = false := by
  unfold chosen; cases a.cmdRequest <;> cases a.walkRequest <;> simp

/-- A decision at a FREE port makes the law hold, whatever stood before it (R130). -/
theorem portLawful_grantIfFree {s : State} (free : s.arbiter.port = .free) (h : s.portOpen) :
    ({ s with arbiter := grantIfFree s.arbiter } : State).portLawful := by
  obtain ⟨walk, command, range⟩ := h
  cases party : chosen s.arbiter with
  | none =>
    obtain ⟨noCommand, noWalker⟩ := chosen_eq_none_iff.1 party
    have stays : grantIfFree s.arbiter = s.arbiter := by unfold grantIfFree; rw [free, party]
    rw [stays, portLawful_iff]
    refine ⟨fun _ => ⟨noCommand, noWalker⟩, walk, ?_, ?_, ?_, range⟩ <;> simp [granted, free, noCommand]
  | some p =>
    obtain ⟨byCommand, byWalker⟩ := request_of_chosen party
    have grant : grantIfFree s.arbiter = grantTo p s.arbiter := by unfold grantIfFree; rw [free, party]
    rw [grant, portLawful_iff]
    refine ⟨by simp, ?_, by simpa [granted] using byWalker, ?_, ?_, inRange_grantTo p range⟩
    · show (grantTo p s.arbiter).walkRequest = true ↔ s.jobRuns
      rw [grantTo_walkRequest]; exact walk
    · simp only [granted, grantTo_port, grantTo_owner, true_and, decide_eq_true_eq, grantTo_cmdRequest]
      rintro rfl; simp
    · rintro (request | edit)
      · exact command (by simp only [grantTo_cmdRequest, Bool.and_eq_true] at request; exact request.1)
      · exact command (byCommand (by simpa [granted] using edit))

/-- A step's end makes the law hold (R130). -/
theorem portLawful_releasePort {s : State} (h : s.portOpen) : (releasePort s).portLawful :=
  portLawful_grantIfFree (s := { s with arbiter := { s.arbiter with port := .free } }) rfl ⟨h.walk, h.command, h.range⟩

/-- The walker's request for the first step of a job that runs (R119). -/
theorem portLawful_requestWalker {s : State} (runs : s.jobRuns)
    (edit : granted s.arbiter .command = true → s.arbiter.cmdRequest = false)
    (atEdit : s.arbiter.cmdRequest = true ∨ granted s.arbiter .command = true → s.atEdit = true)
    (range : s.arbiter.inRange) : (requestPort .walker s).portLawful := by
  cases port : s.arbiter.port with
  | free =>
    exact portLawful_grantIfFree (s := { s with arbiter := { s.arbiter with walkRequest := true } }) port
      ⟨iff_of_true rfl runs, fun request => atEdit (.inl request), range⟩
  | busy =>
    have stays : requestPort .walker s = { s with arbiter := { s.arbiter with walkRequest := true } } := by
      simp [requestPort, grantIfFree, port]
    rw [stays, portLawful_iff]
    exact ⟨fun isFree => by simp [port] at isFree, iff_of_true rfl runs, fun _ => rfl, edit, atEdit, range⟩

/-- A job start keeps the law (R118, R119). -/
theorem portLawful_startIfDue {s : State} (h : s.portLawful) : (startIfDue s).portLawful := by
  obtain ⟨free, walk, _, edit, atEdit, range⟩ := (portLawful_iff s).1 h
  unfold startIfDue; split
  · cases jobs : s.jobs with
    | nil => rw [startJob_nil s jobs]; exact h
    | cons j rest =>
      have requested : (requestPort .walker { s with jobs := rest, walker := .running (freshJob j) }).portLawful :=
        portLawful_requestWalker ⟨_, rfl⟩ edit atEdit range
      rw [startJob_cons s j rest jobs]
      obtain ⟨_, _, eq⟩ := placePurge_shape (requestPort .walker { s with jobs := rest, walker := .running (freshJob j) })
      rw [eq]; exact portLawful_congr requested rfl rfl rfl
  · exact h

/-- A job start changes the command side of the arbiter only by a grant to the walker, and leaves the open port open. -/
theorem portOpen_startIfDue {s : State} (h : s.portOpen) (busy : s.arbiter.port = .busy) : (startIfDue s).portOpen := by
  unfold startIfDue; split
  · cases jobs : s.jobs with
    | nil => rw [startJob_nil s jobs]; exact h
    | cons j rest =>
      rw [startJob_cons s j rest jobs]
      obtain ⟨_, _, eq⟩ := placePurge_shape (requestPort .walker { s with jobs := rest, walker := .running (freshJob j) })
      rw [eq]
      refine ⟨?_, ?_, ?_⟩ <;> simp only [requestPort, grantIfFree, busy]
      · simp [State.jobRuns]
      · exact h.command
      · exact h.range
  · exact h

/-- With no command request and no edit granted a job start leaves both so. -/
theorem portIdle_startIfDue {s : State} (h : s.portIdle) : (startIfDue s).portIdle := by
  have law := portLawful_startIfDue h.law
  obtain ⟨-, noRequest, notGranted⟩ := h
  unfold startIfDue at law ⊢; split
  · next due =>
    rw [if_pos due] at law
    cases jobs : s.jobs with
    | nil => rw [startJob_nil s jobs]; exact ⟨by rwa [startJob_nil s jobs] at law, noRequest, notGranted⟩
    | cons j rest =>
      rw [startJob_cons s j rest jobs] at law ⊢
      obtain ⟨_, _, eq⟩ := placePurge_shape (requestPort .walker { s with jobs := rest, walker := .running (freshJob j) })
      rw [eq] at law ⊢
      have lone : chosen { s.arbiter with walkRequest := true } = some .walker := by simp [chosen, noRequest]
      cases port : s.arbiter.port with
      | free =>
        have grant : grantIfFree { s.arbiter with walkRequest := true } =
            grantTo .walker { s.arbiter with walkRequest := true } := by unfold grantIfFree; rw [lone]; simp only [port]
        refine ⟨law, ?_, ?_⟩ <;> simp only [requestPort, grant]
        · simp [noRequest]
        · simp [granted]
      | busy =>
        have stays : grantIfFree { s.arbiter with walkRequest := true } = { s.arbiter with walkRequest := true } := by
          simp only [grantIfFree, port]
        refine ⟨law, ?_, ?_⟩ <;> simp only [requestPort, stays]
        · exact noRequest
        · exact notGranted
  · next due => rw [if_neg due] at law; exact ⟨law, noRequest, notGranted⟩

/-- An end of a close keeps the law: it touches neither arbiter nor walker nor burst. -/
theorem portLawful_doEnd {s : State} (w : CloseWork) (h : s.portLawful) : (doEnd w s).portLawful := by
  obtain ⟨_, _, _, _, _, _, _, eq⟩ := doEnd_shape w s; rw [eq]; exact portLawful_congr h rfl rfl rfl

/-- A walker that holds a report runs no job; it still runs none when the report is posted (R124). -/
theorem portLawful_postIfDue {s : State} (h : s.portLawful) : (postIfDue s).portLawful := by
  by_cases due : postDue s = true
  · cases walker : s.walker with
    | holding r =>
      rw [postIfDue_of_holding walker (by simpa only [postDue, walker] using due)]
      refine portLawful_startIfDue ?_
      have idle : s.jobRuns ↔ ({ s with replies := s.replies ++ [.report r], walker := .idle } : State).jobRuns := by
        simp [State.jobRuns, walker]
      obtain ⟨free, walk, walkGrant, others⟩ := (portLawful_iff s).1 h
      exact (portLawful_iff _).2 ⟨free, walk.trans idle, walkGrant, others⟩
    | idle => simp [postDue, walker] at due
    | running job => simp [postDue, walker] at due
  · rw [postIfDue_of_not s (by simpa using due)]; exact h

/-- A burst is taken by an IDLE processor, which stands at no edit (R150). -/
theorem portLawful_takeBurst {s : State} (due : takeDue s = true) (h : s.portLawful) : (takeBurst s).portLawful := by
  have away : s.atEdit = false := by
    have none : s.proc = none := by simp only [takeDue, Bool.and_eq_true, Option.isNone_iff_eq_none] at due; exact due.1.1
    simp [State.atEdit, none]
  obtain ⟨_, _, _, eq⟩ := takeBurst_shape s
  rw [eq]; exact portLawful_of_portIdle (portIdle_of_not_atEdit h away) rfl rfl

theorem portLawful_closeRest {s : State} (h : s.portLawful) : (closeRest s).portLawful :=
  closeRest_keeps State.portLawful (fun _ => portLawful_startIfDue) (fun w _ => portLawful_doEnd w) s
    (portLawful_congr h rfl rfl rfl)

/-- What happens at once keeps the law. -/
theorem portLawful_settle {s : State} (h : s.portLawful) : (settle s).portLawful :=
  settle_keeps State.portLawful (fun _ h => portLawful_congr h rfl rfl rfl) (fun _ => portLawful_startIfDue)
    (fun w _ => portLawful_doEnd w) (fun _ => portLawful_postIfDue) (fun _ => portLawful_takeBurst) s h

/-- The burst in execution stands at the edit exactly when what its next word carries out is one. -/
theorem atEdit_of_atReady {r : Ready} {s : State} {x : Exec} (h : atReady r s = some x) : s.atEdit = r.isEdit := by
  unfold atReady at h
  cases proc : s.proc with
  | none => simp [proc] at h
  | some y =>
    cases looked : look y with
    | ready q z =>
      rw [proc] at h
      simp only [looked] at h
      split at h
      · next same => simp [State.atEdit, proc, looked, same]
      · cases h
    | quiet | refuse | finished => simp [proc, looked] at h

/-- A command of a burst that is no immediate edit keeps the law, when its answer leaves the command side of the port
alone. -/
theorem portLawful_carryOut {r : Ready} {body : Exec → State → Answer} {s t : State} (noEdit : r.isEdit = false)
    (h : carryOut r body s = .next t) (law : s.portLawful)
    (answer : ∀ x v n w, body x (settle s) = .done v n w → (settle s).portIdle → v.portIdle) : t.portLawful := by
  rcases carryOut_cases r body s t h with rfl | ⟨x, ready, done⟩
  · exact portLawful_settle law
  have idle : (settle s).portIdle :=
    portIdle_of_not_atEdit (portLawful_settle law) ((atEdit_of_atReady ready).trans noEdit)
  rcases done with ⟨code, -, rfl⟩ | ⟨v, n, w, done, rfl⟩
  · exact portLawful_of_portIdle idle rfl rfl
  · obtain ⟨_, _, eq⟩ := proceed_shape (x.did n w) v
    rw [eq]; exact portLawful_of_portIdle (answer x v n w done idle) rfl rfl

/-- The request of an edit that follows at once leaves the port open (R131). -/
theorem portOpen_requestCommand {s : State} (atEdit : s.atEdit = true) (walk : s.arbiter.walkRequest = true ↔ s.jobRuns)
    (range : s.arbiter.inRange) (busy : s.arbiter.port = .busy) : (requestPort .command s).portOpen := by
  have stays : requestPort .command s = { s with arbiter := { s.arbiter with cmdRequest := true } } := by
    simp [requestPort, grantIfFree, busy]
  rw [stays]; exact ⟨walk, fun _ => atEdit, range⟩

/-- The command processor's request at an immediate edit keeps the law (R131). -/
theorem portLawful_requestEdit {s : State} (atEdit : s.atEdit = true) (h : s.portLawful) : (requestEdit s).portLawful := by
  obtain ⟨free, walk, walkGrant, cmdGrant, _, range⟩ := (portLawful_iff s).1 h
  unfold requestEdit; split
  · exact h
  next notGranted =>
    cases port : s.arbiter.port with
    | free =>
      exact portLawful_grantIfFree (s := { s with arbiter := { s.arbiter with cmdRequest := true } }) port
        ⟨walk, fun _ => atEdit, range⟩
    | busy =>
      have stays : requestPort .command s = { s with arbiter := { s.arbiter with cmdRequest := true } } := by
        simp [requestPort, grantIfFree, port]
      rw [stays, portLawful_iff]
      exact ⟨fun isFree => by simp [port] at isFree, walk, walkGrant, fun edit => absurd edit notGranted, fun _ => atEdit,
        range⟩

/-- An immediate edit keeps the law: at its end the port falls FREE, with the request of an edit that follows (R130,
R131). -/
theorem portLawful_carryEdit {r : Ready} {body : State → Answer} {s t : State} (isEdit : r.isEdit = true)
    (h : carryEdit r body s = .next t) (law : s.portLawful)
    (answer : ∀ u v n w, body u = .done v n w → v.arbiter = u.arbiter ∧ v.walker = u.walker) : t.portLawful := by
  rcases carryEdit_cases r body s t h with rfl | ⟨x, ready, step⟩
  · exact portLawful_settle law
  have requested : (requestEdit (settle s)).portLawful :=
    portLawful_requestEdit ((atEdit_of_atReady ready).trans isEdit) (portLawful_settle law)
  obtain ⟨-, walk, -, met, -, range⟩ := (portLawful_iff _).1 requested
  rcases step with ⟨-, rfl⟩ | ⟨edit, ⟨code, -, rfl⟩ | ⟨u, n, w, done, after⟩⟩
  · exact requested
  · exact portLawful_releasePort ⟨walk, fun request => absurd ((met edit).symm.trans request) (by decide), range⟩
  · obtain ⟨arbiter, walker⟩ := answer _ _ _ _ done
    have busy : (requestEdit (settle s)).arbiter.port = .busy := (of_decide_eq_true edit).1
    have same : (proceed (x.did n w) u).arbiter = (requestEdit (settle s)).arbiter ∧
        (proceed (x.did n w) u).walker = (requestEdit (settle s)).walker := by
      obtain ⟨_, _, eq⟩ := proceed_shape (x.did n w) u; rw [eq]; exact ⟨arbiter, walker⟩
    have stillWalk : (proceed (x.did n w) u).arbiter.walkRequest = true ↔ (proceed (x.did n w) u).jobRuns := by
      rw [State.jobRuns, same.1, same.2]; exact walk
    rw [after]
    refine portLawful_releasePort ?_
    split
    · next follows => exact portOpen_requestCommand follows stillWalk (by rwa [same.1]) (by rw [same.1]; exact busy)
    · exact ⟨stillWalk, fun request => by simp [same.1, met edit] at request, by rwa [same.1]⟩

-- the walker's steps

theorem portOpen_congr {s t : State} (h : s.portOpen) (arbiter : t.arbiter = s.arbiter)
    (walker : t.walker = s.walker) (proc : t.proc = s.proc) : t.portOpen := by
  obtain ⟨walk, command, range⟩ := h
  exact ⟨by rwa [State.jobRuns, arbiter, walker], by rwa [arbiter, atEdit_congr proc], by rwa [arbiter]⟩

/-- A job ends with its request withdrawn, and the next one starts, on a port still BUSY (R119). -/
theorem portOpen_endJob {s : State} (h : s.portOpen) (busy : s.arbiter.port = .busy) : (endJob s).portOpen :=
  portOpen_startIfDue (s := jobEnded s) ⟨by simp [jobEnded, State.jobRuns], h.command, h.range⟩ busy

theorem portOpen_endWithReport {s : State} (r : JobReport) (h : s.portOpen) (busy : s.arbiter.port = .busy) :
    (endWithReport r s).portOpen := by
  unfold endWithReport; split
  · exact portOpen_endJob (portOpen_congr h rfl rfl rfl) busy
  · exact ⟨by simp [State.jobRuns], h.command, h.range⟩

theorem portOpen_endRecode {s : State} (j : RecodeJob) (remaining changed filtered : Nat) (exhausted : Bool)
    (h : s.portOpen) (busy : s.arbiter.port = .busy) : (endRecode j remaining changed filtered exhausted s).portOpen := by
  unfold endRecode; split
  · exact portOpen_endWithReport _ h busy
  · exact portOpen_endJob h busy

/-- A job that goes on keeps its request. -/
theorem portOpen_runs {s : State} (job : Running) (h : s.portOpen) (runs : s.jobRuns) :
    ({ s with walker := .running job } : State).portOpen :=
  ⟨by have request := h.walk.2 runs; simp [request, State.jobRuns], h.command, h.range⟩

theorem portOpen_recodeNext {s : State} (j : RecodeJob) (f remaining changed filtered : Nat) (h : s.portOpen)
    (runs : s.jobRuns) (busy : s.arbiter.port = .busy) : (recodeNext j f remaining changed filtered s).portOpen := by
  unfold recodeNext; split
  · exact portOpen_endRecode _ _ _ _ _ h busy
  · exact portOpen_runs _ h runs

theorem portOpen_recodeOn {s : State} (j : RecodeJob) (f remaining changed filtered : Nat) (h : s.portOpen)
    (runs : s.jobRuns) (busy : s.arbiter.port = .busy) : (recodeOn j f remaining changed filtered s).portOpen := by
  unfold recodeOn; split
  · exact portOpen_endRecode _ _ _ _ _ h busy
  · dsimp only; split
    · obtain ⟨_, _, _, eq⟩ := countEvent_shape .filtered s
      rw [eq]; exact portOpen_recodeNext _ _ _ _ _ (portOpen_congr h rfl rfl rfl) runs busy
    · exact portOpen_recodeNext _ _ _ _ _ (portOpen_congr h rfl rfl rfl) runs busy

theorem portOpen_scanOn {s : State} (j : ScanJob) (f remaining : Nat) (h : s.portOpen)
    (runs : s.jobRuns) (busy : s.arbiter.port = .busy) : (scanOn j f remaining s).portOpen := by
  unfold scanOn; split
  · exact portOpen_endWithReport _ h busy
  · dsimp only; split
    · exact portOpen_endWithReport _ h busy
    · split
      · exact portOpen_endWithReport _ h busy
      · exact portOpen_runs _ h runs

theorem portOpen_purgeOn {s : State} (slot c : Nat) (h : s.portOpen) (runs : s.jobRuns) (busy : s.arbiter.port = .busy) :
    (purgeOn slot c s).portOpen := by
  have released : ∃ l p, releaseRoute c slot s = { s with lists := l, pool := p } := by
    unfold releaseRoute; split <;> exact ⟨_, _, rfl⟩
  obtain ⟨_, _, eq⟩ := released
  unfold purgeOn; dsimp only; rw [eq]; split
  · unfold freeSlot; split <;> exact portOpen_endJob (portOpen_congr h rfl rfl rfl) busy
  · exact portOpen_runs _ (portOpen_congr h rfl rfl rfl) runs

/-- The edit that a feed-link reset finds granted leaves arbiter, walker and burst. -/
theorem editMade_port (s : State) : (editMade s).arbiter = s.arbiter ∧ (editMade s).walker = s.walker := by
  unfold editMade; split
  · next a b c d _ _ =>
    cases answer : setGainAnswer a b c d s with
    | refuse => exact ⟨rfl, rfl⟩
    | done t n w => obtain ⟨_, _, _, _, _, eq⟩ := setGainAnswer_shape answer; rw [eq]; exact ⟨rfl, rfl⟩
  · next a b _ _ =>
    cases answer : clearOutputAnswer a b s with
    | refuse => exact ⟨rfl, rfl⟩
    | done t n w => obtain ⟨_, _, _, _, eq⟩ := clearOutputAnswer_shape answer; rw [eq]; exact ⟨rfl, rfl⟩
  · exact ⟨rfl, rfl⟩

/-- A feed-link reset withdraws the command request, and a granted edit's port falls FREE (R169, R170). -/
theorem portLawful_feedLinkReset {s : State} (h : s.portLawful) : (feedLinkReset s).portLawful := by
  obtain ⟨free, walk, walkGrant, _, _, range⟩ := (portLawful_iff s).1 h
  unfold feedLinkReset; split
  · obtain ⟨arbiter, walker⟩ := editMade_port s
    refine portLawful_releasePort ⟨?_, fun request => absurd request (by simp [clearFeedLink]), ?_⟩
    · change (editMade s).arbiter.walkRequest = true ↔ (editMade s).jobRuns
      rwa [State.jobRuns, arbiter, walker]
    · change (editMade s).arbiter.inRange
      rwa [arbiter]
  · next notGranted =>
    exact (portLawful_iff _).2 ⟨fun isFree => ⟨rfl, (free isFree).2⟩, walk, walkGrant, fun _ => rfl,
      fun request => by rcases request with request | edit <;> [(simp [clearFeedLink] at request); exact absurd edit notGranted], range⟩

/-- The arbiter of a reset with an IDLE walker (R133). -/
theorem portLawful_reset {s : State} (arbiter : s.arbiter = arbiterReset) (walker : s.walker = .idle) : s.portLawful := by
  simp [portLawful_iff, arbiter, walker, arbiterReset, State.jobRuns, granted, Arbiter.inRange]

theorem portLawful_closePeriod {s : State} (h : s.portLawful) : (closePeriod s).portLawful := by
  obtain ⟨_, _, _, eq⟩ := closePeriod_shape s; rw [eq]; exact portLawful_congr h rfl rfl rfl

theorem portLawful_takeEnd {s : State} (w : CloseWork) (h : s.portLawful) : (takeEnd w s).portLawful := by
  have started := portLawful_startIfDue h
  unfold takeEnd; dsimp only; split
  · exact portLawful_doEnd w (portLawful_congr started rfl rfl rfl)
  · exact started

/-- The new burst limits lie in their range (R132). -/
theorem portIdle_setArbAnswer {a b c : Word} {s t : State} {n : Notes} {w : List Word}
    (done : setArbAnswer a b c s = .done t n w) (h : s.portIdle) : t.portIdle := by
  obtain ⟨law, noRequest, notGranted⟩ := h
  obtain ⟨free, walk, walkGrant, cmdGrant, atEdit, _, _, _, _, run⟩ := (portLawful_iff s).1 law
  unfold setArbAnswer at done
  split at done <;> cases done
  have cmd := clampNat_range b.toNat (show 1 ≤ 255 by decide)
  have walker := clampNat_range c.toNat (show 1 ≤ 255 by decide)
  exact ⟨(portLawful_iff _).2 ⟨free, walk, walkGrant, cmdGrant, atEdit, cmd.1, cmd.2, walker.1, walker.2, run⟩, noRequest,
    notGranted⟩

/-- Every event keeps the law of the edit port. -/
theorem exec_keeps_portLawful {i : Instr} {s t : State} (h : exec i s = .next t) (law : s.portLawful) : t.portLawful := by
  have settled : (settle s).portLawful := portLawful_settle law
  have same {v u : State} (arbiter : v.arbiter = u.arbiter) (walker : v.walker = u.walker) (proc : v.proc = u.proc)
      (lawful : u.portLawful) : v.portLawful := portLawful_congr lawful arbiter walker proc
  cases i with
  | powerOnReset straps => cases h; exact portLawful_reset rfl rfl
  | feedLinkReset =>
    cases h; split
    · exact portLawful_feedLinkReset settled
    · exact settled
  | feedLinkDown | speakerLinkUp | returnSendEnd => cases h; exact same rfl rfl rfl settled
  | speakerLinkDown =>
    cases h
    refine same (u := if (settle s).phase = .between then settle s else closePeriod (settle s)) rfl rfl rfl ?_
    split
    · exact settled
    · exact portLawful_closePeriod settled
  | feedBurstReceived bytes =>
    cases h; split
    · obtain ⟨_, _, _, _, _, _, eq⟩ := handOn_shape bytes { settle s with feedPartial := [] }
      rw [eq]; exact same rfl rfl rfl settled
    · exact settled
  | amplifierReplyReceived bytes =>
    cases h; split
    · split
      · obtain ⟨_, _, _, _, eq⟩ := relayArrival_shape bytes { settle s with speakerPartial := [] }
        rw [eq]; exact same rfl rfl rfl settled
      · exact same rfl rfl rfl settled
    · exact settled
  | periodStart =>
    cases h; split
    · obtain ⟨_, _, _, _, _, _, _, _, _, _, _, eq⟩ := startPeriod_shape (settle s)
      rw [eq]; exact same rfl rfl rfl settled
    · exact settled
  | channelCompute c =>
    simp only [exec, execChannelCompute] at h
    split at h <;> cases h
    split
    · split
      · obtain ⟨_, _, _, _, _, _, _, _, _, eq⟩ := computeChannel_shape c (settle s)
        rw [eq]; exact same rfl rfl rfl settled
      · exact same rfl rfl rfl settled
    · exact settled
  | frameEvent =>
    cases h; split
    · unfold frameSend; exact same rfl rfl rfl settled
    · exact settled
  | foreignBurstSend =>
    cases h; split
    · exact settled
    · split
      · exact same rfl rfl rfl settled
      · exact settled
  | periodClose =>
    cases h; split
    · exact portLawful_closePeriod settled
    · exact settled
  | rampEnd | autoRelease | fadeCompletion | dipDelayMove | dipRiseEnd | servoExpiry => cases h; exact portLawful_takeEnd _ law
  | burstTake =>
    cases h; split
    · exact portLawful_takeBurst (by assumption) (portLawful_closeRest law)
    · exact portLawful_closeRest law
  | jobStart => cases h; exact portLawful_startIfDue law
  | heldReportPost => cases h; exact portLawful_postIfDue (portLawful_closeRest law)
  | purgeStep =>
    cases h; split
    · next runs => split
                   · next grant =>
                     exact portLawful_releasePort (portOpen_purgeOn _ _ (portOpen_of_portLawful settled) ⟨_, runs⟩
                       (of_decide_eq_true grant).1)
                   · exact settled
    all_goals exact settled
  | recodeStep =>
    cases h; split
    · next runs => split
                   · next grant =>
                     exact portLawful_releasePort (portOpen_recodeOn _ _ _ _ _ (portOpen_of_portLawful settled)
                       ⟨_, runs⟩ (of_decide_eq_true grant).1)
                   · exact settled
    all_goals exact settled
  | scanStep =>
    cases h; split
    · next runs => split
                   · next grant =>
                     exact portLawful_releasePort (portOpen_scanOn _ _ _ (portOpen_of_portLawful settled) ⟨_, runs⟩
                       (of_decide_eq_true grant).1)
                   · exact settled
    all_goals exact settled
  | returnLaneChoice =>
    cases h; split
    · obtain ⟨_, _, _, _, _, _, eq⟩ := chooseItem_shape (settle s)
      rw [eq]; exact same rfl rfl rfl settled
    · exact settled
  | tableWrite data =>
    simp only [exec, execTableWrite] at h
    split at h <;> cases h
    · exact settled
    · next x ready =>
      obtain ⟨_, _, eq⟩ := proceed_shape { x with notes := x.notes.merge (dataNotes data (settle s)) } (dataWrite data (settle s))
      obtain ⟨_, _, _, _, _, _, _, _, _, wrote⟩ := dataWrite_shape data (settle s)
      rw [eq, wrote]
      exact portLawful_of_portIdle (portIdle_of_not_atEdit settled (atEdit_of_atReady ready)) rfl rfl
  | resetPart =>
    simp only [exec, execResetPart] at h
    split at h <;> cases h
    · exact settled
    · exact portLawful_reset rfl rfl
  | setGain a b c d =>
    exact portLawful_carryEdit rfl h law fun u v n w k => by
      obtain ⟨_, _, _, _, _, eq⟩ := setGainAnswer_shape k; rw [eq]; exact ⟨rfl, rfl⟩
  | clearOutput a b =>
    exact portLawful_carryEdit rfl h law fun u v n w k => by
      obtain ⟨_, _, _, _, eq⟩ := clearOutputAnswer_shape k; rw [eq]; exact ⟨rfl, rfl⟩
  | bind a b c d e =>
    exact portLawful_carryOut rfl h law fun x v n w k => by
      obtain ⟨_, _, eq⟩ := bindAnswer_shape k; rw [eq]; exact fun idle => portIdle_congr idle rfl rfl
  | unbind a b =>
    exact portLawful_carryOut rfl h law fun x v n w k => by
      obtain ⟨_, eq⟩ := unbindAnswer_shape k; rw [eq]; exact fun idle => portIdle_congr idle rfl rfl
  | setMask a =>
    exact portLawful_carryOut rfl h law fun x v n w k => by rw [setMaskAnswer_shape k]; exact fun idle => portIdle_congr idle rfl rfl
  | setRate a b c d e =>
    exact portLawful_carryOut rfl h law fun x v n w k => by
      obtain ⟨_, eq⟩ := setRateAnswer_shape k; rw [eq]; exact fun idle => portIdle_congr idle rfl rfl
  | setServo a b c d e f =>
    exact portLawful_carryOut rfl h law fun x v n w k => by
      obtain ⟨_, _, _, eq⟩ := setServoAnswer_shape k; rw [eq]; exact fun idle => portIdle_congr idle rfl rfl
  | setFilter a =>
    exact portLawful_carryOut rfl h law fun x v n w k => by
      obtain ⟨_, eq⟩ := setFilterAnswer_shape k; rw [eq]; exact fun idle => portIdle_congr idle rfl rfl
  | readOutput a b =>
    exact portLawful_carryOut rfl h law fun x v n w k => by rw [readOutputAnswer_shape k]; exact id
  | setMaster a =>
    exact portLawful_carryOut rfl h law fun x v n w k => by
      obtain ⟨_, eq⟩ := setMasterAnswer_shape k; rw [eq]; exact fun idle => portIdle_congr idle rfl rfl
  | setInvert a b =>
    exact portLawful_carryOut rfl h law fun x v n w k => by
      obtain ⟨_, eq⟩ := setInvertAnswer_shape k; rw [eq]; exact fun idle => portIdle_congr idle rfl rfl
  | setOverride a b c d e f =>
    exact portLawful_carryOut rfl h law fun x v n w k => by
      obtain ⟨_, eq⟩ := setOverrideAnswer_shape k; rw [eq]; exact fun idle => portIdle_congr idle rfl rfl
  | atCue a b c d =>
    exact portLawful_carryOut rfl h law fun x v n w k => by
      obtain ⟨_, _, _, _, _, _, _, eq⟩ := atAnswer_shape k; rw [eq]; exact fun idle => portIdle_congr idle rfl rfl
  | cancelBatch a =>
    exact portLawful_carryOut rfl h law fun x v n w k => by
      rw [cancelBatchAnswer_shape k]; exact fun idle => portIdle_congr idle rfl rfl
  | flushCues =>
    exact portLawful_carryOut rfl h law fun x v n w k => by rw [flushCuesAnswer_shape k]; exact fun idle => portIdle_congr idle rfl rfl
  | jobRecode a b c d e f =>
    exact portLawful_carryOut rfl h law fun x v n w k idle => by
      obtain ⟨_, _, eq⟩ := jobRecodeAnswer_shape k; rw [eq]
      exact portIdle_startIfDue (portIdle_congr idle rfl rfl)
  | jobScan a b c d =>
    exact portLawful_carryOut rfl h law fun x v n w k idle => by
      obtain ⟨_, _, eq⟩ := jobScanAnswer_shape k; rw [eq]
      exact portIdle_startIfDue (portIdle_congr idle rfl rfl)
  | setArb a b c => exact portLawful_carryOut rfl h law fun x v n w k => portIdle_setArbAnswer k
  | setActive a =>
    exact portLawful_carryOut rfl h law fun x v n w k => by
      obtain ⟨_, eq⟩ := setActiveAnswer_shape k; rw [eq]; exact fun idle => portIdle_congr idle rfl rfl
  | setDelay a b =>
    exact portLawful_carryOut rfl h law fun x v n w k => by
      obtain ⟨_, _, eq⟩ := setDelayAnswer_shape k; rw [eq]; exact fun idle => portIdle_congr idle rfl rfl
  | setTable a =>
    exact portLawful_carryOut rfl h law fun x v n w k => by
      obtain ⟨_, _, eq⟩ := setTableAnswer_shape k; rw [eq]; exact fun idle => portIdle_congr idle rfl rfl
  | setRow a =>
    exact portLawful_carryOut rfl h law fun x v n w k => by
      obtain ⟨_, eq⟩ := setRowAnswer_shape k; rw [eq]; exact fun idle => portIdle_congr idle rfl rfl
  | setColumn a =>
    exact portLawful_carryOut rfl h law fun x v n w k => by
      obtain ⟨_, eq⟩ := setColumnAnswer_shape k; rw [eq]; exact fun idle => portIdle_congr idle rfl rfl
  | read a =>
    exact portLawful_carryOut rfl h law fun x v n w k => by
      obtain ⟨_, _, eq⟩ := readAnswer_shape k; rw [eq]; exact fun idle => portIdle_congr idle rfl rfl
  | patchBegin =>
    exact portLawful_carryOut rfl h law fun x v n w k => by
      obtain ⟨_, eq⟩ := patchBeginAnswer_shape k; rw [eq]; exact fun idle => portIdle_congr idle rfl rfl
  | patchEnd =>
    exact portLawful_carryOut rfl h law fun x v n w k => by
      obtain ⟨_, _, eq⟩ := patchEndAnswer_shape k; rw [eq]; exact fun idle => portIdle_congr idle rfl rfl
  | nop =>
    simp only [exec, execNop] at h
    exact portLawful_carryOut rfl h law fun x v n w k => by cases k; exact id
  | readFeed a =>
    exact portLawful_carryOut rfl h law fun x v n w k => by rw [readFeedAnswer_shape k]; exact id
  | setRelay a =>
    exact portLawful_carryOut rfl h law fun x v n w k => by
      obtain ⟨_, eq⟩ := setRelayAnswer_shape k; rw [eq]; exact fun idle => portIdle_congr idle rfl rfl
  | counterSelect a b =>
    exact portLawful_carryOut rfl h law fun x v n w k => by
      obtain ⟨_, eq⟩ := counterSelectAnswer_shape k; rw [eq]; exact fun idle => portIdle_congr idle rfl rfl
  | counterLoad a b c =>
    exact portLawful_carryOut rfl h law fun x v n w k => by
      obtain ⟨_, eq⟩ := counterLoadAnswer_shape k; rw [eq]; exact fun idle => portIdle_congr idle rfl rfl
  | counterRead a =>
    exact portLawful_carryOut rfl h law fun x v n w k => by rw [counterReadAnswer_shape k]; exact id

/-- Every step keeps the law of the edit port. -/
theorem step_keeps_portLawful {s t : State} (h : s.portLawful) (stepped : step s = .next t) : t.portLawful := by
  unfold step at stepped
  split at stepped
  · cases stepped; exact h
  · exact exec_keeps_portLawful stepped (portLawful_congr h rfl rfl rfl)

/-- Settles O56: the cue list, the queues and the load pointer move by move, the edit port event by event. -/
theorem cueQueuePointerAndPortLawsKept : Obligations.CueQueuePointerAndPortLawsKept :=
  ⟨fun _ _ => step_keeps_cuesLawful, fun _ _ => step_keeps_queuesLawful, fun _ _ => step_keeps_pointerLawful,
    fun _ _ => step_keeps_portLawful⟩

end Sys2Proof.Machine
end

section
/-! PROOFS. The directory law (R1, R3, R6): every change of the feed directory, the lifecycles or the ends owed keeps
it. -/
namespace Sys2Proof.Machine

/-- A change that keeps the places leaves FREE slots FREE and the others not. -/
theorem KeepsPlace.free_iff {f g : Feed} (h : KeepsPlace f g) : g.lifecycle = .free ↔ f.lifecycle = .free := by
  rcases h.life with ⟨before, after, -⟩ | ⟨same, -⟩
  · simp [before, after]
  · rw [same]

/-- A change that keeps the places makes no feed PURGING and ends no purge. -/
theorem KeepsPlace.purging_iff {f g : Feed} (h : KeepsPlace f g) : g.lifecycle = .purging ↔ f.lifecycle = .purging := by
  rcases h.life with ⟨before, after, -⟩ | ⟨same, -⟩
  · simp [before, after]
  · rw [same]

/-- What the directory law reads of a feed record. -/
structure SamePlace (f g : Feed) : Prop where
  free : g.lifecycle = .free ↔ f.lifecycle = .free
  pos : g.dirPos = f.dirPos
  id : g.streamId = f.streamId

theorem SamePlace.refl (f : Feed) : SamePlace f f := ⟨.rfl, rfl, rfl⟩

theorem KeepsPlace.samePlace {f g : Feed} (h : KeepsPlace f g) : SamePlace f g := ⟨h.free_iff, h.pos, h.sid⟩

theorem SamePlace.set {s : State} {slot : Nat} {f : Feed} (h : SamePlace (s.feed slot) f) (k : Nat) :
    SamePlace (s.feed k) ((s.setFeed slot f).feed k) := by
  rw [setFeed_feed]; split
  · next same => rw [same]; exact h
  · exact .refl _

/-- The directory law rests on the places, the entries, the mask and the ends owed. -/
theorem directoryLawful_of_samePlace {s t : State} (h : s.directoryLawful) (places : ∀ k, SamePlace (s.feed k) (t.feed k))
    (dir : t.dir = s.dir) (mask : t.mask = s.mask)
    (due : ∀ k, .fadeCompletion k ∈ t.closeDue → (s.feed k).lifecycle ≠ .free) : t.directoryLawful := by
  obtain ⟨free, bound, entry, single, -⟩ := h
  have entries : ∀ pos, t.dirEntry pos = s.dirEntry pos := fun pos => by simp only [State.dirEntry, dir]
  refine ⟨fun k isFree => ?_, fun k notFree => ?_, fun pos e at_ => ?_, fun p q e d => ?_, fun k owed => ?_⟩
  · rw [(places k).pos]; exact free k ((places k).free.1 isFree)
  · rw [(places k).pos, (places k).id]
    simpa only [entries] using bound k fun isFree => notFree ((places k).free.2 isFree)
  · obtain ⟨slot, set, notFree, place, id⟩ := entry pos e (by rwa [← entries])
    exact ⟨slot, by rw [mask]; exact set, fun isFree => notFree ((places _).free.1 isFree),
      by rw [(places _).pos]; exact place, by rw [(places _).id]; exact id⟩
  · rw [entries, entries]; exact single p q e d
  · exact fun isFree => due k owed ((places k).free.1 isFree)

/-- A fade completion that a close owes is one of a FADING feed (R39). -/
theorem fading_of_fadeEnds {f : Feed} (h : fadeEnds f = true) :
    f.lifecycle = .fading ∧ ∃ d, f.fade = some d ∧ d.remaining = 1 := by
  unfold fadeEnds at h
  cases fade : f.fade with
  | none => simp [fade] at h
  | some d =>
    simp only [fade, Bool.and_eq_true, decide_eq_true_eq] at h
    obtain ⟨steps, last⟩ := h
    refine ⟨?_, d, rfl, last⟩
    unfold fadeSteps at steps
    split at steps
    · simp only [Bool.and_eq_true, decide_eq_true_eq] at steps; exact steps.2.1
    · cases steps

/-- The period step at the close leaves the lifecycle, the fade and the purge pending flag. -/
theorem closeStep_keeps (f : Feed) : (closeStep f).lifecycle = f.lifecycle ∧ (closeStep f).fade = f.fade ∧
    (closeStep f).purgePending = f.purgePending := by
  unfold closeStep advance; repeat' split
  all_goals exact ⟨rfl, rfl, rfl⟩

theorem fadeCompletion_not_mem_listEnds (s : State) (c k : Nat) : .fadeCompletion k ∉ listEnds s c := fun mem => by
  obtain ⟨e, -, -, -, eq⟩ := (mem_listEnds s c _).1 mem
  split at eq <;> cases eq

theorem fadeCompletion_not_mem_dipEnds (s : State) (c k : Nat) : .fadeCompletion k ∉ dipEnds s c := by
  unfold dipEnds; split <;> (repeat' split) <;> simp

/-- The fade completions that a close owes. -/
theorem fadeCompletion_mem_closeOwes {s : State} {k : Nat} :
    .fadeCompletion k ∈ closeOwes s ↔ k < 128 ∧ fadeEnds (closeStep (s.feed k)) = true := by
  simp [mem_closeOwes, fadeCompletion_not_mem_listEnds, fadeCompletion_not_mem_dipEnds, closeFades]

/-- A fade completion owed by the close is one of a FADING feed with periods to go. -/
theorem fading_of_owed {s : State} {k : Nat} (h : .fadeCompletion k ∈ closeOwes s) :
    (s.feed k).lifecycle = .fading ∧ ∃ d, (s.feed k).fade = some d ∧ d.remaining = 1 := by
  obtain ⟨life, fade, -⟩ := closeStep_keeps (s.feed k)
  rw [← life, ← fade]; exact fading_of_fadeEnds (fadeCompletion_mem_closeOwes.1 h).2

/-- The close keeps the place of every feed. -/
theorem closePeriod_keepsPlace (s : State) (k : Nat) : KeepsPlace (s.feed k) ((closePeriod s).feed k) := by
  rw [closePeriod_feed]; split
  · exact .close _
  · exact .refl _

theorem directoryLawful_appendPurge {s : State} {slot : Nat} (h : s.directoryLawful)
    (notFree : (s.feed slot).lifecycle ≠ .free) : (appendPurge slot s).directoryLawful := by
  have place : SamePlace (s.feed slot) (purgingFeed (s.feed slot)) := ⟨by simp [purgingFeed, notFree], rfl, rfl⟩
  obtain ⟨-, -, -, -, due⟩ := id h
  exact directoryLawful_of_samePlace h (fun k => place.set k) rfl rfl due

theorem directoryLawful_fadeFinish {s : State} {slot : Nat} (h : s.directoryLawful)
    (notFree : (s.feed slot).lifecycle ≠ .free) : (fadeFinish slot s).directoryLawful := by
  unfold fadeFinish; split
  · exact directoryLawful_appendPurge h notFree
  · obtain ⟨-, -, -, -, due⟩ := id h
    exact directoryLawful_of_samePlace h (SamePlace.set (by exact ⟨.rfl, rfl, rfl⟩)) rfl rfl due

/-- Purge completion takes the entry away with the record that names it (R15). -/
theorem directoryLawful_freeSlot {s : State} {slot : Nat} (h : s.directoryLawful) (owesNothing : s.closeDue = []) :
    (freeSlot slot s).directoryLawful := by
  obtain ⟨free, bound, entry, single, -⟩ := h
  have due : ∀ t : State, t.closeDue = [] → ∀ k, .fadeCompletion k ∈ t.closeDue → (t.feed k).lifecycle ≠ .free :=
    fun t none k owed => by simp [none] at owed
  by_cases isFree : (s.feed slot).lifecycle = .free
  · have nowhere := free slot isFree
    unfold freeSlot; rw [nowhere]
    have feeds : ∀ k, ((s.setFeed slot freeFeed).feed k) = if k = slot then freeFeed else s.feed k := setFeed_feed s slot freeFeed
    refine ⟨fun k => ?_, fun k => ?_, fun pos e at_ => ?_, single, due _ owesNothing⟩
    · rw [feeds]; split
      · exact fun _ => rfl
      · exact free k
    · rw [feeds]; split
      · exact fun notFree => absurd rfl notFree
      · exact bound k
    · obtain ⟨inPart, set, notFree, place⟩ := entry pos e at_
      have other : e.slot ≠ slot := fun same => notFree (same ▸ isFree)
      rw [feeds, if_neg other]; exact ⟨inPart, set, notFree, place⟩
  · obtain ⟨-, pos, id, place, -, named⟩ := bound slot isFree
    unfold freeSlot; rw [place]
    have feeds : ∀ k, (((s.setDirEntry pos none).setFeed slot freeFeed).feed k) = if k = slot then freeFeed else s.feed k :=
      setFeed_feed _ slot freeFeed
    have dirs : ∀ q, ((s.setDirEntry pos none).setFeed slot freeFeed).dirEntry q = if q = pos then none else s.dirEntry q :=
      fun q => setDirEntry_dirEntry s pos none q
    refine ⟨fun k => ?_, fun k => ?_, fun q e => ?_, fun p q e d => ?_, due _ owesNothing⟩
    · rw [feeds]; split
      · exact fun _ => rfl
      · exact free k
    · rw [feeds]; split
      · exact fun notFree => absurd rfl notFree
      · next other =>
        intro notFree
        obtain ⟨inPart, p, i, at_, sid, entryAt⟩ := bound k notFree
        have elsewhere : p ≠ pos := fun same => by
          rw [same, named] at entryAt; cases entryAt; exact other rfl
        exact ⟨inPart, p, i, at_, sid, by rw [dirs, if_neg elsewhere]; exact entryAt⟩
    · rw [dirs]; split
      · exact fun none => by cases none
      · next elsewhere =>
        intro at_
        obtain ⟨inPart, set, notFree, back, sid⟩ := entry q e at_
        have other : e.slot ≠ slot := fun same => by
          rw [same, place] at back; cases back; exact elsewhere rfl
        rw [feeds, if_neg other]; exact ⟨inPart, set, notFree, back, sid⟩
    · rw [dirs, dirs]; split
      · exact fun none => by cases none
      · split
        · exact fun _ none => by cases none
        · exact single p q e d

/-- Every position of the part is in a set, and no entry stands beyond the 128 (R3). -/
theorem setIndex_lt (mask id : Word) : setIndex mask id < 32 := by
  have five : ∀ a b, a < 32 → b < 32 → a ^^^ b < 32 := fun a b => Nat.xor_lt_two_pow (n := 5)
  have word := (id &&& mask).isLt
  exact five _ _ (five _ _ (five _ _ (Nat.mod_lt _ (by decide)) (Nat.mod_lt _ (by decide))) (Nat.mod_lt _ (by decide)))
    (by omega)

/-- BIND places an entry in an invalid way of the id's set, for a FREE slot and an id not held (R8, R9). -/
theorem bindAnswer_done_cases {id slot bank high low : Word} {s t : State} {n : Notes} {w : List Word}
    (h : bindAnswer id slot bank high low s = .done t n w) :
    slot.toNat < 128 ∧ (s.feed slot.toNat).lifecycle = .free ∧ ¬(lookup s id).isSome ∧ ∃ way, freeWay s id = some way ∧
      t = (s.setDirEntry (wayPos s id way) (some { streamId := id, slot := slot.toNat })).setFeed slot.toNat
        (boundFeed id (wayPos s id way) (nominalOf high low) bank.toNat) := by
  unfold bindAnswer at h
  split at h
  · cases h
  next ranged =>
  split at h
  · cases h
  next isFree =>
  split at h
  · cases h
  next miss =>
  split at h
  · cases h
  next way found =>
  injection h with state
  exact ⟨by omega, not_not.1 isFree, miss, way, found, state.symm⟩

theorem directoryLawful_bind {a b c d e : Word} {s t : State} {n : Notes} {w : List Word}
    (done : bindAnswer a b c d e s = .done t n w) (h : s.directoryLawful) : t.directoryLawful := by
  obtain ⟨inPart, isFree, miss, way, found, rfl⟩ := bindAnswer_done_cases done
  obtain ⟨inSet, invalid, -⟩ := (freeWay_eq_some_iff s a way).1 found
  obtain ⟨free, bound, entry, single, owed⟩ := h
  generalize slotOf : b.toNat = slot at *
  generalize posOf : wayPos s a way = pos at *
  have feeds : ∀ k, ((s.setDirEntry pos (some { streamId := a, slot := slot })).setFeed slot
      (boundFeed a pos (nominalOf d e) c.toNat)).feed k = if k = slot then boundFeed a pos (nominalOf d e) c.toNat else s.feed k :=
    setFeed_feed _ slot _
  have dirs : ∀ q, ((s.setDirEntry pos (some { streamId := a, slot := slot })).setFeed slot
      (boundFeed a pos (nominalOf d e) c.toNat)).dirEntry q = if q = pos then some { streamId := a, slot := slot } else s.dirEntry q :=
    fun q => setDirEntry_dirEntry s pos (some { streamId := a, slot := slot }) q
  have set : pos / 4 = setIndex s.mask a := by rw [← posOf, wayPos]; omega
  have notHeld : ∀ q x, s.dirEntry q = some x → x.streamId ≠ a := fun q x at_ same => by
    obtain ⟨-, setOf, -⟩ := entry q x at_
    refine miss ((lookup_isSome_iff s a).2 ⟨q % 4, Nat.mod_lt _ (by decide), ?_⟩)
    have place : wayPos s a (q % 4) = q := by rw [wayPos, ← same]; omega
    rw [place, at_, ← same]; rfl
  refine ⟨fun k => ?_, fun k => ?_, fun q x => ?_, fun p q x y => ?_, fun k due => ?_⟩
  · rw [feeds]; split
    · exact fun live => by cases live
    · exact free k
  · rw [feeds]; split
    · next same => exact fun _ => ⟨same ▸ inPart, pos, a, rfl, rfl, by rw [dirs, if_pos rfl, same]⟩
    · intro notFree
      obtain ⟨lt, p, i, at_, sid, entryAt⟩ := bound k notFree
      have elsewhere : p ≠ pos := fun same => by rw [same, invalid] at entryAt; cases entryAt
      exact ⟨lt, p, i, at_, sid, by rw [dirs, if_neg elsewhere]; exact entryAt⟩
  · rw [dirs]; split
    · next same =>
      intro placed; cases placed
      rw [feeds, if_pos rfl, same]
      exact ⟨inPart, set, by simp [boundFeed], rfl, rfl⟩
    · intro at_
      obtain ⟨lt, setOf, notFree, place⟩ := entry q x at_
      have other : x.slot ≠ slot := fun same => notFree (same ▸ isFree)
      rw [feeds, if_neg other]; exact ⟨lt, setOf, notFree, place⟩
  · rw [dirs, dirs]
    by_cases atP : p = pos <;> by_cases atQ : q = pos
    · exact fun _ _ _ => atP.trans atQ.symm
    · rw [if_pos atP, if_neg atQ]
      rintro placed at_ same; cases placed; exact absurd same.symm (notHeld q y at_)
    · rw [if_neg atP, if_pos atQ]
      rintro at_ placed same; cases placed; exact absurd same (notHeld p x at_)
    · rw [if_neg atP, if_neg atQ]; exact single p q x y
  · have other : k ≠ slot := fun same => owed k due (same ▸ isFree)
    rw [feeds, if_neg other]; exact owed k due

/-- SET MASK happens on an empty directory (R7), where the law says nothing about the mask. -/
theorem directoryLawful_setMask {a : Word} {s t : State} {n : Notes} {w : List Word}
    (done : setMaskAnswer a s = .done t n w) (h : s.directoryLawful) : t.directoryLawful := by
  obtain ⟨free, bound, entry, single, owed⟩ := h
  unfold setMaskAnswer at done
  split at done
  · next empty =>
    injection done with state
    subst state
    refine ⟨free, bound, fun pos e at_ => ?_, single, owed⟩
    obtain ⟨-, set, -⟩ := entry pos e at_
    have low := setIndex_lt s.mask e.streamId
    have none : s.dirEntry pos = .none := by
      have all := List.all_eq_true.1 empty pos (List.mem_range.2 (by omega))
      simpa using all
    have present : s.dirEntry pos = some e := at_
    rw [none] at present; cases present
  · cases done

theorem directoryLawful_empty {s : State} (dir : s.dir = []) (feeds : s.feeds = []) (due : s.closeDue = []) :
    s.directoryLawful := by
  have free : ∀ k, s.feed k = freeFeed := fun k => by unfold State.feed; rw [feeds]; rfl
  have none : ∀ p, s.dirEntry p = .none := fun p => by unfold State.dirEntry; rw [dir]; rfl
  refine ⟨fun k _ => by rw [free]; rfl, fun k notFree => ?_, fun p e at_ => ?_, fun p q e d at_ => ?_, fun k owed => ?_⟩
  · rw [free] at notFree; exact absurd rfl notFree
  · rw [none] at at_; cases at_
  · rw [none] at at_; cases at_
  · rw [due] at owed; cases owed

theorem directoryLawful_placeDid {s t : State} (did : PlaceDid s t) (h : s.directoryLawful) : t.directoryLawful := by
  obtain ⟨free, bound, entry, single, owed⟩ := id h
  cases did with
  | keep kept =>
    exact directoryLawful_of_samePlace h (fun k => (kept.feeds k).samePlace) kept.dir kept.mask (by rw [kept.due]; exact owed)
  | append _ slot fading => exact directoryLawful_appendPurge h (by simp [fading.1])
  | finish _ f due =>
    refine directoryLawful_fadeFinish ?_ (owed f due)
    exact directoryLawful_of_samePlace h (fun k => .refl _) rfl rfl fun k rest => owed k (List.mem_of_mem_erase rest)
  | erase _ w => exact directoryLawful_of_samePlace h (fun k => .refl _) rfl rfl fun k rest => owed k (List.mem_of_mem_erase rest)
  | close _ none =>
    obtain ⟨_, _, _, eq⟩ := closePeriod_shape s
    refine directoryLawful_of_samePlace h (fun k => (closePeriod_keepsPlace s k).samePlace) (by rw [eq]) (by rw [eq])
      fun k due => ?_
    rw [closePeriod_due] at due
    simp [(fading_of_owed due).1]
  | freed _ slot c walker none =>
    have freed := directoryLawful_freeSlot (slot := slot) h none
    exact ⟨freed.1, freed.2.1, freed.2.2.1, freed.2.2.2.1, freed.2.2.2.2⟩
  | bind done => exact directoryLawful_bind done h
  | mask done => exact directoryLawful_setMask done h
  | empty _ dir feeds _ _ due => exact directoryLawful_empty dir feeds due

/-- Settles O57: the directory law is kept by every change that a step makes to the directory, the lifecycles and the
ends owed, hence by the step. -/
theorem directoryLawKept : Obligations.DirectoryLawKept :=
  lift_place State.directoryLawful (fun _ _ did h => directoryLawful_placeDid did h) fun _ _ h => h

end Sys2Proof.Machine
end

section
/-! PROOFS. The purge law (R11 to R13, R39): every change of the lifecycles, the PURGE jobs or the ends owed keeps it. -/
namespace Sys2Proof.Machine

/-- The purge law rests on the number of PURGE jobs of each slot, the feed records and the ends owed. -/
theorem purgesLawful_of_keepsPlace {s t : State} (h : s.purgesLawful)
    (places : ∀ k, KeepsPlace (s.feed k) (t.feed k)) (jobs : ∀ k, t.purgeJobs k = s.purgeJobs k)
    (once : ∀ k, t.closeDue.count (.fadeCompletion k) ≤ 1)
    (due : ∀ k, .fadeCompletion k ∈ t.closeDue → (s.feed k).lifecycle = .fading ∧ (s.feed k).purgePending ≠ some true) :
    t.purgesLawful := by
  obtain ⟨one, past, plain, -, -⟩ := h
  refine ⟨fun k => ?_, fun k d pending fade => ?_, fun k away => ?_, once, fun k owed => ?_⟩
  · rw [jobs, one]; exact if_congr (places k).purging_iff.symm rfl rfl
  · rcases (places k).life with ⟨-, -, cleared⟩ | ⟨-, flag, -, still⟩
    · rw [cleared] at pending; cases pending
    · rw [flag] at pending
      rw [still fun x => past k x pending] at fade
      exact past k d pending fade
  · rcases (places k).life with ⟨-, fading, -⟩ | ⟨life, flag, absent, -⟩
    · exact absurd fading away
    · obtain ⟨noFade, noFlag⟩ := plain k (by rwa [← life])
      exact ⟨absent noFade, flag.trans noFlag⟩
  · obtain ⟨fading, notPending⟩ := due k owed
    rcases (places k).life with ⟨live, -⟩ | ⟨life, flag, -⟩
    · rw [live] at fading; cases fading
    · exact ⟨life.trans fading, by rwa [flag]⟩

theorem purgeJobs_congr {s t : State} (jobs : t.jobs = s.jobs) (walker : t.walker = s.walker) (k : Nat) :
    t.purgeJobs k = s.purgeJobs k := by
  unfold State.purgeJobs; rw [jobs, walker]

/-- A PURGE job more for one slot. -/
theorem appendPurge_purgeJobs (slot : Nat) (s : State) (k : Nat) :
    (appendPurge slot s).purgeJobs k = s.purgeJobs k + if k = slot then 1 else 0 := by
  have queued : (appendPurge slot s).jobs.count (.purge k) = s.jobs.count (.purge k) + if k = slot then 1 else 0 := by
    simp only [appendPurge, List.count_append, List.count_singleton, beq_iff_eq, Job.purge.injEq, eq_comm (a := slot)]
  have walker : (appendPurge slot s).walker = s.walker := rfl
  unfold State.purgeJobs; rw [queued, walker]; omega

/-- A feed whose fade is over becomes PURGING with its one job, and its fade completion is not owed (R11, R12). -/
theorem purgesLawful_appendPurge {s : State} {slot : Nat} (h : s.purgesLawful)
    (fading : (s.feed slot).lifecycle = .fading) (notOwed : .fadeCompletion slot ∉ s.closeDue) :
    (appendPurge slot s).purgesLawful := by
  obtain ⟨one, past, plain, once, due⟩ := h
  have feeds : ∀ k, (appendPurge slot s).feed k = if k = slot then purgingFeed (s.feed slot) else s.feed k :=
    setFeed_feed s slot (purgingFeed (s.feed slot))
  refine ⟨fun k => ?_, fun k d => ?_, fun k => ?_, once, fun k owed => ?_⟩
  · rw [appendPurge_purgeJobs, one, feeds]
    by_cases same : k = slot
    · simp [same, fading, purgingFeed]
    · simp [same]
  · rw [feeds]; split
    · exact fun pending => by cases pending
    · exact past k d
  · rw [feeds]; split
    · exact fun _ => ⟨rfl, rfl⟩
    · exact plain k
  · have other : k ≠ slot := fun same => notOwed (same ▸ owed)
    rw [feeds, if_neg other]; exact due k owed

/-- A fade completion appends the PURGE job, or leaves it pending (R11). -/
theorem purgesLawful_fadeFinish {s : State} {slot : Nat} (h : s.purgesLawful)
    (fading : (s.feed slot).lifecycle = .fading) (notOwed : .fadeCompletion slot ∉ s.closeDue) :
    (fadeFinish slot s).purgesLawful := by
  unfold fadeFinish; split
  · exact purgesLawful_appendPurge h fading notOwed
  · obtain ⟨one, past, plain, once, due⟩ := h
    dsimp only
    generalize pendingFeed : ({ s.feed slot with
        fade := (s.feed slot).fade.map fun d => { d with current := 0, remaining := 0 }
        purgePending := some true } : Feed) = f
    have life : f.lifecycle = .fading := by rw [← pendingFeed]; exact fading
    have fade : ∀ d, f.fade = some d → d.remaining = 0 := by
      rw [← pendingFeed]; intro d ended
      obtain ⟨-, -, rfl⟩ := Option.map_eq_some_iff.1 ended
      rfl
    refine ⟨fun k => ?_, fun k d => ?_, fun k => ?_, once, fun k owed => ?_⟩
    · have jobs : (s.setFeed slot f).purgeJobs k = s.purgeJobs k := rfl
      rw [jobs, one, setFeed_feed]
      by_cases same : k = slot
      · simp [same, fading, life]
      · simp [same]
    · rw [setFeed_feed]; split
      · exact fun _ => fade d
      · exact past k d
    · rw [setFeed_feed]; split
      · exact fun away => absurd life away
      · exact plain k
    · have other : k ≠ slot := fun same => notOwed (same ▸ owed)
      rw [setFeed_feed, if_neg other]; exact due k owed

/-- Taking an end away takes no other with it. -/
theorem purgesLawful_erase {s : State} (w : CloseWork) (h : s.purgesLawful) :
    ({ s with closeDue := s.closeDue.erase w } : State).purgesLawful := by
  obtain ⟨-, -, -, once, due⟩ := id h
  exact purgesLawful_of_keepsPlace h (fun _ => .refl _) (fun _ => rfl)
    (fun k => (List.erase_sublist.count_le _).trans (once k))
    fun k owed => due k (List.mem_of_mem_erase owed)

/-- A close owes a slot one fade completion at most. -/
theorem count_closeOwes_le (s : State) (k : Nat) : (closeOwes s).count (.fadeCompletion k) ≤ 1 := by
  have lists : (List.range 64).flatMap (listEnds s) |>.count (.fadeCompletion k) |> (· = 0) := by
    refine List.count_eq_zero.2 fun mem => ?_
    obtain ⟨c, -, ends⟩ := List.mem_flatMap.1 mem
    exact fadeCompletion_not_mem_listEnds s c k ends
  have dips : (List.range 64).flatMap (dipEnds s) |>.count (.fadeCompletion k) |> (· = 0) := by
    refine List.count_eq_zero.2 fun mem => ?_
    obtain ⟨c, -, ends⟩ := List.mem_flatMap.1 mem
    exact fadeCompletion_not_mem_dipEnds s c k ends
  have servo : (if s.servoCount + 1 < s.servoN then [] else [CloseWork.servoExpiry]).count (.fadeCompletion k) = 0 := by
    split <;> simp
  have distinct : ((closeFades s).map CloseWork.fadeCompletion).Nodup :=
    (List.nodup_range.filter _).map fun _ _ => CloseWork.fadeCompletion.inj
  have fades := List.nodup_iff_count_le_one.1 distinct (.fadeCompletion k)
  simp only [closeOwes, List.count_append, lists, dips, servo]; omega

theorem purgesLawful_closePeriod {s : State} (h : s.purgesLawful) : (closePeriod s).purgesLawful := by
  obtain ⟨-, past, -, -, -⟩ := id h
  have jobs : ∀ k, (closePeriod s).purgeJobs k = s.purgeJobs k := fun k => by
    obtain ⟨_, _, _, eq⟩ := closePeriod_shape s
    exact purgeJobs_congr (by rw [eq]) (by rw [eq]) k
  refine purgesLawful_of_keepsPlace h (closePeriod_keepsPlace s) jobs (fun k => ?_) fun k owed => ?_
  · rw [closePeriod_due]; exact count_closeOwes_le s k
  · rw [closePeriod_due] at owed
    obtain ⟨fading, d, fade, last⟩ := fading_of_owed owed
    refine ⟨fading, fun pending => ?_⟩
    have := past k d pending fade
    omega

/-- What purge completion leaves of the records. -/
theorem freeSlot_feed (slot : Nat) (s : State) (k : Nat) :
    (freeSlot slot s).feed k = if k = slot then freeFeed else s.feed k := by
  unfold freeSlot; split <;> exact setFeed_feed _ slot freeFeed k

theorem freeSlot_jobs (slot : Nat) (s : State) : (freeSlot slot s).jobs = s.jobs := by
  unfold freeSlot; split <;> rfl

theorem freeSlot_closeDue (slot : Nat) (s : State) : (freeSlot slot s).closeDue = s.closeDue := by
  unfold freeSlot; split <;> rfl

/-- Purge completion ends the slot's only PURGE job with its record (R13, R15). -/
theorem purgesLawful_freed {s : State} {slot c : Nat} (walker : s.walker = .running (.purge slot c))
    (owesNothing : s.closeDue = []) (h : s.purgesLawful) :
    ({ freeSlot slot s with walker := .idle } : State).purgesLawful := by
  obtain ⟨one, past, plain, once, due⟩ := h
  have feeds : ∀ k, ({ freeSlot slot s with walker := .idle } : State).feed k = if k = slot then freeFeed else s.feed k :=
    freeSlot_feed slot s
  have jobs : ∀ k, ({ freeSlot slot s with walker := .idle } : State).purgeJobs k = s.jobs.count (.purge k) := fun k => by
    simp only [State.purgeJobs, freeSlot_jobs, Nat.add_zero]
  have running : ∀ k, s.purgeJobs k = s.jobs.count (.purge k) + if slot = k then 1 else 0 := fun k => by
    simp only [State.purgeJobs, walker]
  refine ⟨fun k => ?_, fun k d => ?_, fun k => ?_, fun k => by simp [freeSlot_closeDue, owesNothing], fun k owed => by simp [freeSlot_closeDue, owesNothing] at owed⟩
  · have before := (running k).symm.trans (one k)
    rw [jobs, feeds]
    by_cases same : k = slot
    · rw [if_pos same]
      rw [if_pos same.symm] at before
      have : (freeFeed.lifecycle = .purging) = False := by simp [freeFeed]
      simp only [this, if_false]
      split at before <;> omega
    · rw [if_neg same]; rwa [if_neg (Ne.symm same), Nat.add_zero] at before
  · rw [feeds]; split
    · exact fun pending => by cases pending
    · exact past k d
  · rw [feeds]; split
    · exact fun _ => ⟨rfl, rfl⟩
    · exact plain k

/-- BIND makes a FREE slot LIVE (R9), which has no PURGE job before or after. -/
theorem purgesLawful_bind {a b c d e : Word} {s t : State} {n : Notes} {w : List Word}
    (done : bindAnswer a b c d e s = .done t n w) (h : s.purgesLawful) : t.purgesLawful := by
  obtain ⟨-, isFree, -, way, -, rfl⟩ := bindAnswer_done_cases done
  obtain ⟨one, past, plain, once, due⟩ := h
  generalize b.toNat = slot at *
  generalize wayPos s a way = pos
  have feeds : ∀ k, ((s.setDirEntry pos (some { streamId := a, slot := slot })).setFeed slot
      (boundFeed a pos (nominalOf d e) c.toNat)).feed k = if k = slot then boundFeed a pos (nominalOf d e) c.toNat else s.feed k :=
    setFeed_feed _ slot _
  refine ⟨fun k => ?_, fun k x => ?_, fun k => ?_, once, fun k owed => ?_⟩
  · refine (one k).trans ?_
    rw [feeds]
    by_cases same : k = slot
    · simp [same, isFree, boundFeed]
    · simp [same]
  · rw [feeds]; split
    · exact fun pending => by cases pending
    · exact past k x
  · rw [feeds]; split
    · exact fun _ => ⟨rfl, rfl⟩
    · exact plain k
  · obtain ⟨fading, notPending⟩ := due k owed
    have other : k ≠ slot := fun same => by rw [same, isFree] at fading; cases fading
    rw [feeds, if_neg other]; exact ⟨fading, notPending⟩

theorem purgesLawful_empty {s : State} (feeds : s.feeds = []) (jobs : s.jobs = []) (walker : s.walker = .idle)
    (due : s.closeDue = []) : s.purgesLawful := by
  have free : ∀ k, s.feed k = freeFeed := fun k => by unfold State.feed; rw [feeds]; rfl
  refine ⟨fun k => ?_, fun k d => ?_, fun k _ => ?_, fun k => by simp [due], fun k owed => by simp [due] at owed⟩
  · simp only [State.purgeJobs, jobs, walker, free]; rfl
  · rw [free]; exact fun pending => by cases pending
  · rw [free]; exact ⟨rfl, rfl⟩

theorem purgesLawful_placeDid {s t : State} (did : PlaceDid s t) (h : s.purgesLawful) : t.purgesLawful := by
  obtain ⟨one, past, plain, once, due⟩ := id h
  cases did with
  | keep kept =>
    exact purgesLawful_of_keepsPlace h kept.feeds kept.jobs (by rw [kept.due]; exact once) (by rw [kept.due]; exact due)
  | append _ slot fading => exact purgesLawful_appendPurge h fading.1 fun owed => (due slot owed).2 fading.2
  | finish _ f owed =>
    refine purgesLawful_fadeFinish (purgesLawful_erase _ h) (due f owed).1 fun again => ?_
    have two := List.count_pos_iff.2 again
    rw [List.count_erase_self] at two
    have := once f
    omega
  | erase _ w => exact purgesLawful_erase w h
  | close => exact purgesLawful_closePeriod h
  | freed _ slot c walker none => exact purgesLawful_freed walker none h
  | bind done => exact purgesLawful_bind done h
  | mask done =>
    rw [setMaskAnswer_shape done]
    exact purgesLawful_of_keepsPlace h (fun _ => .refl _) (fun _ => rfl) once due
  | empty _ _ feeds jobs walker none => exact purgesLawful_empty feeds jobs walker none

/-- Settles O58: the purge law is kept by every change that a step makes to the lifecycles, the PURGE jobs and the ends
owed, hence by the step. -/
theorem purgeLawKept : Obligations.PurgeLawKept :=
  lift_place State.purgesLawful (fun _ _ did h => purgesLawful_placeDid did h) fun _ _ h => h

end Sys2Proof.Machine
end

section
/-! PROOFS. The state after power-on (SPEC's power-on columns), the laws that hold there, and the step itself. -/
namespace Sys2Proof.Machine

/-- Settles O1: a step is, by its definition, the front command executed with the queue's rest. -/
theorem stepRunsFrontCommand : Obligations.StepRunsFrontCommand := fun _ _ _ => rfl

/-- Where a bank entry stands among its row's taps and the bank's rows (R159). -/
theorem coefPos_div_mod {bank row tap : Nat} (rowLt : row < 65) (tapLt : tap < 16) :
    coefPos bank row tap / 16 % 65 = row ∧ coefPos bank row tap % 16 = tap := by
  unfold coefPos; omega

/-- The first tap of a bank row after power-on (R42). -/
theorem coefInit_zero {bank row : Nat} (rowLt : row < 65) :
    coefInit (coefPos bank row 0) = if row = 64 then natWord 32767 else natWord (512 * row) := by
  obtain ⟨rowOf, tapOf⟩ := coefPos_div_mod (bank := bank) rowLt (by decide : 0 < 16)
  simp only [coefInit, rowOf, tapOf]

/-- The second tap of a bank row after power-on (R42). -/
theorem coefInit_one {bank row : Nat} (rowLt : row < 65) :
    coefInit (coefPos bank row 1) = if row = 0 then natWord 32767 else natWord (32768 - 512 * row) := by
  obtain ⟨rowOf, tapOf⟩ := coefPos_div_mod (bank := bank) rowLt (by decide : 1 < 16)
  simp only [coefInit, rowOf, tapOf]

/-- The other taps of a bank row after power-on (R42). -/
theorem coefInit_of_two_le {bank row tap : Nat} (rowLt : row < 65) (beyond : 2 ≤ tap) (tapLt : tap < 16) :
    coefInit (coefPos bank row tap) = 0#16 := by
  obtain ⟨-, tapOf⟩ := coefPos_div_mod (bank := bank) rowLt tapLt
  unfold coefInit; rw [tapOf]
  obtain ⟨n, rfl⟩ : ∃ n, tap = n + 2 := ⟨tap - 2, by omega⟩
  rfl

/-- Settles O5: every field of the state after power-on read against its column, the coefficient banks by tap. -/
theorem powerOnReset : Obligations.PowerOnReset := by
  unfold Obligations.PowerOnReset
  refine ⟨rfl, fun straps s => ⟨_, rfl, ⟨rfl, rfl, rfl, rfl, rfl, rfl, rfl, rfl⟩,
    ⟨fun _ => rfl, rfl, fun _ => ⟨rfl, fun _ => rfl⟩⟩, fun bank row _ rowLt => ?banks,
    ⟨rfl, rfl, fun _ => rfl, rfl, rfl⟩, ⟨fun _ _ => rfl, rfl, fun _ => rfl, fun _ => rfl, rfl, rfl⟩,
    ⟨rfl, rfl, rfl, rfl, fun table code => ?recode⟩, rfl,
    ⟨rfl, rfl, fun _ => rfl, fun _ => rfl, fun _ => rfl, fun _ => rfl, fun _ _ => rfl, rfl, rfl⟩,
    ⟨rfl, rfl, rfl, rfl, rfl⟩, ⟨rfl, rfl, rfl, rfl, rfl, rfl, rfl, rfl⟩, fun _ => rfl⟩⟩
  case banks =>
    exact ⟨coefInit_zero rowLt, coefInit_one rowLt, fun tap beyond tapLt => coefInit_of_two_le rowLt beyond tapLt⟩
  case recode => cases table <;> rfl

/-- The gain law after power-on: full scale at code 255 (R74). -/
theorem gainsLawful_reset : State.reset.gainsLawful := by
  refine ⟨fun code codeLt => ?_, rfl, fun table code codeLt => ?_, fun c e entry => by cases entry⟩
  · have law : State.reset.law code = code * 16384 / 255 := rfl
    rw [law]; omega
  · cases table <;> exact codeLt

/-- Settles O60: each law read on the empty tables and queues of the reset state. -/
theorem lawsHoldAtReset : Obligations.LawsHoldAtReset :=
  ⟨fun _ => feedLaw_freeFeed,
    samplesLawful_noWork (fun _ _ => isSample_zero) rfl fun _ => trivial,
    mixLawful_empty rfl rfl,
    gainsLawful_reset,
    ⟨by decide, .nil⟩,
    ⟨by decide, by decide, by decide, by decide, by decide⟩,
    pointerLawful_reset rfl rfl,
    directoryLawful_empty rfl rfl rfl,
    purgesLawful_empty rfl rfl rfl rfl,
    portLawful_reset rfl rfl,
    (canonical_iff _).2 ⟨Canonical.powerOn 0#4 State.reset, fun _ => rfl⟩⟩

end Sys2Proof.Machine
end

section
/-! PROOFS. What the shared terms of the commands say: clamps with their note, bound feeds, units of read words. -/
namespace Sys2Proof.Machine

/-- The note CLAMPED under a condition said otherwise. -/
theorem clampedIf_eq {b : Bool} {p : Prop} [Decidable p] (h : b = true ↔ p) :
    clampedIf b = { noNotes with clamped := decide p } := by
  have : b = decide p := by rw [Bool.eq_iff_iff, h, decide_eq_true_iff]
  rw [clampedIf, this]

@[simp] theorem clamps_iff (low high n : Nat) : clamps low high n = true ↔ n < low ∨ high < n := by simp [clamps]

/-- A ramp or fade code has the least value 0, so only its upper clamp acts (R10, R63). -/
theorem rampCode_eq (w : Word) : rampCode w = min 12 w.toNat := by simp [rampCode, clampNat]

theorem rampClamps_iff (w : Word) : rampClamps w = true ↔ 12 < w.toNat := by simp [rampClamps]

theorem rampNotes (w : Word) : clampedIf (rampClamps w) = { noNotes with clamped := decide (12 < w.toNat) } :=
  clampedIf_eq (rampClamps_iff w)

/-- A bound feed is LIVE or FADING (R2). -/
theorem bound_iff (f : Feed) : f.bound = true ↔ f.lifecycle = .live ∨ f.lifecycle = .fading := by simp [Feed.bound]

theorem not_bound_iff (f : Feed) : (!f.bound) = true ↔ ¬(f.lifecycle = .live ∨ f.lifecycle = .fading) := by
  rw [← bound_iff]; simp

/-- A unit of read words is placed whole when it fits (R157). -/
theorem placeUnit_of_le {room : Nat} {words : List Word} (fits : words.length ≤ room) : placeUnit room words = words :=
  if_pos fits

theorem placeUnit_of_lt {room : Nat} {words : List Word} (short : room < words.length) : placeUnit room words = [] :=
  if_neg (by omega)

theorem overflowIf_of_le {room : Nat} {words : List Word} (fits : words.length ≤ room) : overflowIf room words = noNotes := by
  simp [overflowIf, noNotes, fits]

theorem overflowIf_of_lt {room : Nat} {words : List Word} (short : room < words.length) :
    overflowIf room words = { noNotes with readOverflow := true } := by
  simp [overflowIf, short]

end Sys2Proof.Machine
end

section
/-! PROOFS. The commands on one feed record: UNBIND (R10, R37), SET MASK (R7), SET RATE (R40, R41), SET SERVO (R52 to
R54) and READ FEED (R167). Each answer is given test by test, then read against its statement. -/
namespace Sys2Proof.Machine

section
variable {slot code : Word} {s : State}

theorem unbindAnswer_range (above : 127 < slot.toNat) : unbindAnswer slot code s = .refuse .range := if_pos above

theorem unbindAnswer_noFeed (inPart : slot.toNat ≤ 127) (notLive : (s.feed slot.toNat).lifecycle ≠ .live) :
    unbindAnswer slot code s = .refuse .noFeed := by
  simp only [unbindAnswer, if_neg (Nat.not_lt.2 inPart), if_pos notLive]

theorem unbindAnswer_done (inPart : slot.toNat ≤ 127) (live : (s.feed slot.toNat).lifecycle = .live) :
    unbindAnswer slot code s =
      .done (s.setFeed slot.toNat
          { s.feed slot.toNat with
            lifecycle := .fading, purgePending := some false, fade := some (fadeStart (min 12 code.toNat)) })
        { noNotes with clamped := decide (12 < code.toNat) } [] := by
  simp only [unbindAnswer, if_neg (Nat.not_lt.2 inPart), if_neg (not_not.2 live), rampCode_eq, rampNotes]

end

/-- Settles O8: each case of the statement is one answer of UNBIND. -/
theorem unbindStartsFade : Obligations.UnbindStartsFade := by
  intro slot code s x hand u f
  refine ⟨fun above => ?_, fun inPart notLive => ?_, fun inPart live => ?_⟩
  · exact refuses_of_carryOut hand rfl rfl (unbindAnswer_range above)
  · exact refuses_of_carryOut hand rfl rfl (unbindAnswer_noFeed inPart notLive)
  · exact completes_of_carryOut hand rfl rfl (unbindAnswer_done inPart live)

/-- The directory is empty when none of its 128 entries is valid (R7). -/
theorem directoryEmpty_iff (s : State) : directoryEmpty s = true ↔ ∀ p < 128, s.dirEntry p = none := by
  simp [directoryEmpty]

/-- Settles O9: the one test of SET MASK, said entry by entry. -/
theorem setMaskNeedsEmptyDirectory : Obligations.SetMaskNeedsEmptyDirectory := by
  intro mask s x hand u
  refine ⟨fun valid => ?_, fun empty => ?_⟩
  · have notEmpty : ¬directoryEmpty u = true := by rw [directoryEmpty_iff]; simpa using valid
    exact refuses_of_carryOut hand rfl rfl (if_neg notEmpty)
  · exact completes_of_carryOut hand rfl rfl (if_pos ((directoryEmpty_iff u).2 empty))

section
variable {slot high low bank threshold : Word} {s : State}

theorem setRateAnswer_range (outside : 127 < slot.toNat ∨ 3 < bank.toNat) :
    setRateAnswer slot high low bank threshold s = .refuse .range := if_pos outside

variable (within : ¬(127 < slot.toNat ∨ 3 < bank.toNat))
include within

theorem setRateAnswer_noFeed (unbound : (!(s.feed slot.toNat).bound) = true) :
    setRateAnswer slot high low bank threshold s = .refuse .noFeed := by
  simp only [setRateAnswer, if_neg within, if_pos unbound]

theorem setRateAnswer_done (bound : ¬(!(s.feed slot.toNat).bound) = true) :
    setRateAnswer slot high low bank threshold s =
      .done (s.setFeed slot.toNat (flowTest
          { s.feed slot.toNat with
            nominal := nominalOf high low, bank := bank.toNat, threshold := clampNat 1 48 threshold.toNat }))
        (clampedIf (nominalClamps high low || clamps 1 48 threshold.toNat)) [] := by
  simp only [setRateAnswer, if_neg within, if_neg bound]

end

/-- The clamps of SET RATE: its step and its threshold (R40). -/
theorem rateClamps_iff (high low threshold : Word) : (nominalClamps high low || clamps 1 48 threshold.toNat) = true ↔
    (high ++ low).toNat < 2 ^ 22 ∨ 2 ^ 25 < (high ++ low).toNat ∨ threshold.toNat < 1 ∨ 48 < threshold.toNat := by
  simp only [Bool.or_eq_true, nominalClamps, clamps_iff, wide, or_assoc]

/-- Settles O10: each case of the statement is one answer of SET RATE; its flow test changes the flow alone. -/
theorem setRateReplacesRate : Obligations.SetRateReplacesRate := by
  intro slot high low bank threshold s x hand u f bound t
  refine ⟨fun outside => ?_, fun inPart bankLe unbound => ?_, fun inPart bankLe isBound => ?_⟩
  · exact refuses_of_carryOut hand rfl rfl (setRateAnswer_range outside)
  · exact refuses_of_carryOut hand rfl rfl (setRateAnswer_noFeed (by omega) ((not_bound_iff f).2 unbound))
  · have done := setRateAnswer_done (high := high) (low := low) (threshold := threshold)
      (by omega : ¬(127 < slot.toNat ∨ 3 < bank.toNat)) (mt (not_bound_iff f).1 (not_not.2 isBound))
    rw [clampedIf_eq (rateClamps_iff high low threshold), flowTest_eq] at done
    exact completes_of_carryOut hand rfl rfl done

/-- The interval word keeps the interval when it is 0, and else sets it with the counter at 0 when it differs (R54). -/
theorem applyInterval_eq (interval : Word) (s : State) : applyInterval interval s =
    let n := if interval.toNat = 0 then s.servoN else max 16 (min 4096 interval.toNat)
    { s with servoN := n, servoCount := if n = s.servoN then s.servoCount else 0 } := by
  unfold applyInterval clampNat
  by_cases keep : interval.toNat = 0
  · simp only [if_pos keep, if_true]
  · simp only [if_neg keep]
    split
    · next same => rw [same]
    · rfl

theorem intervalClamps_iff (interval : Word) :
    intervalClamps interval = true ↔ interval.toNat ≠ 0 ∧ (interval.toNat < 16 ∨ 4096 < interval.toNat) := by
  simp [intervalClamps]

/-- The answer of SET SERVO past its tests: the state, and the two words when the reply has room (R54). -/
theorem servoDone_eq {room : Nat} {b : Bool} {p : Prop} [Decidable p] (t : State) (h : b = true ↔ p) :
    servoDone room b t = .done t { noNotes with clamped := decide p, readOverflow := decide (room < 2) }
      (if 2 ≤ room then [natWord t.servoN, natWord t.servoCount] else []) := by
  unfold servoDone
  rw [clampedIf_eq h]
  simp [servoWords, overflowIf, placeUnit, Notes.merge, noNotes]

section
variable {room : Nat} {mode slot target gain limit interval : Word} {s : State}

theorem setServoAnswer_mode (above : 2 < mode.toNat) :
    setServoAnswer room mode slot target gain limit interval s = .refuse .range := if_pos above

theorem setServoAnswer_interval (two : mode.toNat = 2) : setServoAnswer room mode slot target gain limit interval s =
    servoDone room (intervalClamps interval) (applyInterval interval s) := by
  have notAbove : ¬2 < mode.toNat := by omega
  simp only [setServoAnswer, if_neg notAbove, if_pos two]

variable (feedMode : mode.toNat < 2)
include feedMode

theorem setServoAnswer_range (above : 127 < slot.toNat) :
    setServoAnswer room mode slot target gain limit interval s = .refuse .range := by
  have notAbove : ¬2 < mode.toNat := by omega
  have notTwo : mode.toNat ≠ 2 := by omega
  simp only [setServoAnswer, if_neg notAbove, if_neg notTwo, if_pos above]

variable (inPart : ¬127 < slot.toNat)
include inPart

theorem setServoAnswer_noFeed (unbound : (!(s.feed slot.toNat).bound) = true) :
    setServoAnswer room mode slot target gain limit interval s = .refuse .noFeed := by
  have notAbove : ¬2 < mode.toNat := by omega
  have notTwo : mode.toNat ≠ 2 := by omega
  simp only [setServoAnswer, if_neg notAbove, if_neg notTwo, if_neg inPart, if_pos unbound]

theorem setServoAnswer_feed (bound : ¬(!(s.feed slot.toNat).bound) = true) :
    setServoAnswer room mode slot target gain limit interval s =
      servoDone room (clamps 2 44 target.toNat || clamps 0 255 gain.toNat || intervalClamps interval)
        (applyInterval interval
          (s.setFeed slot.toNat (servoSettings (decide (mode.toNat = 1)) target gain limit (s.feed slot.toNat)))) := by
  have notAbove : ¬2 < mode.toNat := by omega
  have notTwo : mode.toNat ≠ 2 := by omega
  simp only [setServoAnswer, if_neg notAbove, if_neg notTwo, if_neg inPart, if_neg bound]

end

/-- The clamps of SET SERVO on a feed (R53). -/
theorem servoClamps_iff (target gain interval : Word) :
    (clamps 2 44 target.toNat || clamps 0 255 gain.toNat || intervalClamps interval) = true ↔
      target.toNat < 2 ∨ 44 < target.toNat ∨ 255 < gain.toNat ∨
        interval.toNat ≠ 0 ∧ (interval.toNat < 16 ∨ 4096 < interval.toNat) := by
  simp only [Bool.or_eq_true, clamps_iff, intervalClamps_iff, Nat.not_lt_zero, false_or, or_assoc]

/-- Settles O11: each case of the statement is one answer of SET SERVO. -/
theorem setServoSetsFeedAndInterval : Obligations.SetServoSetsFeedAndInterval := by
  intro mode slot target gain limit interval s x hand i u room f bound n count intervalClamped words
  refine ⟨fun above => ?_, fun feedMode above => ?_, fun feedMode inPart unbound => ?_, fun two => ?_,
    fun feedMode inPart isBound => ?_⟩
  · exact refuses_of_carryOut hand rfl rfl (setServoAnswer_mode above)
  · exact refuses_of_carryOut hand rfl rfl (setServoAnswer_range feedMode above)
  · exact refuses_of_carryOut hand rfl rfl
      (setServoAnswer_noFeed feedMode (Nat.not_lt.2 inPart) ((not_bound_iff f).2 unbound))
  · have done := setServoAnswer_interval (room := room) (slot := slot) (target := target) (gain := gain) (limit := limit)
      (interval := interval) (s := u) two
    rw [servoDone_eq _ (intervalClamps_iff interval), applyInterval_eq] at done
    exact completes_of_carryOut hand rfl rfl done
  · have done := setServoAnswer_feed (room := room) (target := target) (gain := gain) (limit := limit)
      (interval := interval) feedMode (Nat.not_lt.2 inPart) (mt (not_bound_iff f).1 (not_not.2 isBound))
    rw [servoDone_eq _ (servoClamps_iff target gain interval), applyInterval_eq] at done
    have settings : servoSettings (decide (mode.toNat = 1)) target gain limit f =
        { f with
          servoOn := decide (mode.toNat = 1), target := max 2 (min 44 target.toNat), gain := min 255 gain.toNat,
          limit := limit.toNat, trim := max (-(limit.toNat : Int)) (min limit.toNat f.trim) } := by
      simp [servoSettings, clampNat, satInt]
    rw [settings] at done
    exact completes_of_carryOut hand rfl rfl done

section
variable {room : Nat} {slot : Word} {s : State}

theorem readFeedAnswer_range (above : 127 < slot.toNat) : readFeedAnswer room slot s = .refuse .range := if_pos above

theorem readFeedAnswer_placed (inPart : slot.toNat ≤ 127) (fits : 28 ≤ room) :
    readFeedAnswer room slot s = .done s noNotes (feedWords (s.feed slot.toNat)) := by
  simp only [readFeedAnswer, if_neg (Nat.not_lt.2 inPart)]
  rw [overflowIf_of_le (by exact fits), placeUnit_of_le (by exact fits)]

theorem readFeedAnswer_short (inPart : slot.toNat ≤ 127) (short : room < 28) :
    readFeedAnswer room slot s = .done s { noNotes with readOverflow := true } [] := by
  simp only [readFeedAnswer, if_neg (Nat.not_lt.2 inPart)]
  rw [overflowIf_of_lt (by exact short), placeUnit_of_lt (by exact short)]

end

/-- Settles O12: each case of the statement is one answer of READ FEED, and its words are those of the record. -/
theorem readFeedPlacesRecord : Obligations.ReadFeedPlacesRecord := by
  intro slot s x hand u room f n16 wide words
  have record : feedWords f = words := by
    have fade : ∀ (g : Fade → Word), (f.fade.map g).getD 0#16 = match f.fade with | none => 0#16 | some d => g d :=
      fun g => by cases f.fade <;> rfl
    have seq : (f.lastSeq.map natWord).getD 0xFFFF#16 = match f.lastSeq with | none => 0xFFFF#16 | some q => n16 q := by
      cases f.lastSeq <;> rfl
    have life : lifecycleWord f.lifecycle =
        match f.lifecycle with | .free => 0#16 | .live => 1#16 | .fading => 2#16 | .purging => 3#16 := by
      cases f.lifecycle <;> rfl
    have flow : flowWord f.flow = match f.flow with
        | none => 0#16 | some .priming => 1#16 | some .running => 2#16 | some .starved => 3#16 := by
      rcases f.flow with _ | ⟨_ | _ | _⟩ <;> rfl
    have pending : flagWord (f.purgePending == some true) = if f.purgePending = some true then 1#16 else 0#16 := by
      simp [flagWord]
    simp only [feedWords, fade, seq, life, flow, pending]
    rfl
  refine ⟨fun above => ?_, fun inPart fits => ?_, fun inPart short => ?_⟩
  · exact refuses_of_carryOut hand rfl rfl (readFeedAnswer_range above)
  · exact completes_of_carryOut hand rfl rfl (record ▸ readFeedAnswer_placed inPart fits)
  · exact completes_of_carryOut hand rfl rfl (readFeedAnswer_short inPart short)

end Sys2Proof.Machine
end

section
/-! PROOFS. The edits of the mix map and their commands: SET GAIN (R63 to R66) and CLEAR OUTPUT (R67) at their edit
steps. -/
namespace Sys2Proof.Machine

/-- A ramp started with a ramp code, in numbers (R76). -/
theorem rampStart_eq (s : State) (code : Nat) (ramp : Word) (e : MixEntry) : rampStart s code (rampCode ramp) e =
    { e with
      code := code, target := s.law code, remaining := 2 ^ min 12 ramp.toNat,
      increment := ((s.law code : Int) * 256 - e.current).tdiv ((2 ^ min 12 ramp.toNat : Nat) : Int),
      readSince := false } := by
  rw [rampStart, rampCode_eq, Nat.cast_pow, Nat.cast_ofNat]

theorem editNotes_eq (ramp : Word) (filtered : Bool) :
    editNotes ramp filtered = { noNotes with clamped := decide (12 < ramp.toNat), filtered := filtered } := by
  rw [editNotes, rampNotes]

/-- An entry goes behind those of lower or equal slots and before the first of a higher one (R58). -/
theorem insertEntry_between {e : MixEntry} {front back : List MixEntry} (low : ∀ d ∈ front, d.feed ≤ e.feed)
    (high : ∀ d ∈ back.head?, e.feed < d.feed) : insertEntry e (front ++ back) = front ++ e :: back := by
  induction front with
  | nil =>
    cases back with
    | nil => rfl
    | cons d rest => exact if_pos (high d rfl)
  | cons d rest ih =>
    have notAbove : ¬e.feed < d.feed := Nat.not_lt.2 (low d (by simp))
    have tail := ih fun x mem => low x (by simp [mem])
    simp only [List.cons_append, insertEntry, if_neg notAbove, tail]

section
variable {output slot code ramp : Word} {s : State}

theorem setGainAnswer_range (outside : 63 < output.toNat ∨ 127 < slot.toNat ∨ 255 < code.toNat) :
    setGainAnswer output slot code ramp s = .refuse .range := if_pos outside

variable (within : ¬(63 < output.toNat ∨ 127 < slot.toNat ∨ 255 < code.toNat))
include within

theorem setGainAnswer_noFeed (notLive : (s.feed slot.toNat).lifecycle ≠ .live) :
    setGainAnswer output slot code ramp s = .refuse .noFeed := by
  simp only [setGainAnswer, if_neg within, if_pos notLive]

variable (live : (s.feed slot.toNat).lifecycle = .live)
include live

theorem setGainAnswer_held {e : MixEntry} (found : entryFor slot.toNat (s.list output.toNat) = some e) :
    setGainAnswer output slot code ramp s =
      if e.code = code.toNat ∧ s.filter then .done (countEvent .filtered s) (editNotes ramp true) []
      else .done (retarget output.toNat slot.toNat code.toNat (rampCode ramp) s) (editNotes ramp false) [] := by
  simp only [setGainAnswer, if_neg within, if_neg (not_not.2 live), found]

theorem setGainAnswer_fresh (absent : entryFor slot.toNat (s.list output.toNat) = none) :
    setGainAnswer output slot code ramp s =
      if code.toNat = 0 then .done (countEvent .filtered s) (editNotes ramp true) []
      else if s.pool = 0 then .refuse .poolFull
      else .done (insertRoute output.toNat slot.toNat code.toNat (rampCode ramp) s) (editNotes ramp false) [] := by
  simp only [setGainAnswer, if_neg within, if_neg (not_not.2 live), absent]

end

/-- Settles O19: each case of the statement is one answer of SET GAIN at its edit step. -/
theorem setGainEditsRoute : Obligations.SetGainEditsRoute := by
  intro output slot code ramp s x hand i g c k r law l found ranged live notes
  have refused {w : Code} (h : setGainAnswer output slot code ramp g = .refuse w) : editRefuses i s x g w :=
    editRefuses_of_carryEdit hand rfl rfl h
  have done {t : State} {n : Notes} (h : setGainAnswer output slot code ramp g = .done t n []) :
      editCompletes i s x t n [] := editCompletes_of_carryEdit hand rfl rfl h
  have outside_iff : (63 < output.toNat ∨ 127 < slot.toNat ∨ 255 < code.toNat) ↔ ¬ranged := by
    simp only [ranged, c, k]; omega
  have within (p : ranged) : ¬(63 < output.toNat ∨ 127 < slot.toNat ∨ 255 < code.toNat) := fun q => outside_iff.1 q p
  refine ⟨fun outside => ?range, fun p notLive => ?noFeed, fun p isLive absent notZero empty => ?poolFull,
    fun p isLive absent zero => ?nothing, fun e p isLive held same on => ?filtered,
    fun e p isLive held changed => ?retarget,
    fun front back p isLive absent notZero room split low high => ?insert⟩
  case range => exact refused (setGainAnswer_range (outside_iff.2 outside))
  case noFeed => exact refused (setGainAnswer_noFeed (within p) notLive)
  case poolFull =>
    exact refused ((setGainAnswer_fresh (within p) isLive absent).trans ((if_neg notZero).trans (if_pos empty)))
  case nothing =>
    have answer := (setGainAnswer_fresh (ramp := ramp) (within p) isLive absent).trans (if_pos zero)
    rw [editNotes_eq] at answer
    exact done answer
  case filtered =>
    have answer := (setGainAnswer_held (ramp := ramp) (within p) isLive held).trans (if_pos ⟨same, on⟩)
    rw [editNotes_eq] at answer
    exact done answer
  case retarget =>
    have moves : ¬(e.code = code.toNat ∧ g.filter = true) := by
      rintro ⟨same, on⟩
      rcases changed with other | off
      · exact other same
      · rw [on] at off; cases off
    have answer := (setGainAnswer_held (ramp := ramp) (within p) isLive held).trans (if_neg moves)
    simp only [editNotes_eq, retarget, changeEntry, rampStart_eq] at answer
    exact done answer
  case insert =>
    have answer := (setGainAnswer_fresh (ramp := ramp) (within p) isLive absent).trans ((if_neg notZero).trans (if_neg room))
    have between : insertEntry (rampStart g code.toNat (rampCode ramp) (freshEntry k)) l =
        front ++ rampStart g code.toNat (rampCode ramp) (freshEntry k) :: back := by
      rw [split]; exact insertEntry_between low high
    have fresh : rampStart g code.toNat (rampCode ramp) (freshEntry k) =
        { feed := k, code := code.toNat, target := g.law code.toNat, current := 0, remaining := r,
          increment := (law * 256).tdiv r, readSince := false } := by
      rw [rampStart_eq]; simp [freshEntry, law, r]
    rw [editNotes_eq, insertRoute, between, fresh] at answer
    exact done answer

section
variable {output ramp : Word} {s : State}

theorem clearOutputAnswer_range (above : 63 < output.toNat) : clearOutputAnswer output ramp s = .refuse .range :=
  if_pos above

theorem clearFilters_iff (s : State) (e : MixEntry) : clearFilters s e = true ↔ e.code = 0 ∧ s.filter = true := by
  simp [clearFilters]

/-- The entries that CLEAR OUTPUT leaves are counted one by one (R67). -/
theorem clearOutputAnswer_done (inPart : output.toNat ≤ 63) :
    let n := (s.list output.toNat).countP fun e => decide (e.code = 0 ∧ s.filter = true)
    clearOutputAnswer output ramp s =
      .done (countEvents (List.replicate n .filtered)
          (s.setList output.toNat ((s.list output.toNat).map fun e =>
            if e.code = 0 ∧ s.filter = true then e else rampStart s 0 (rampCode ramp) e)))
        { noNotes with clamped := decide (12 < ramp.toNat), filtered := decide (0 < n) } [] := by
  have test : clearFilters s = fun e => decide (e.code = 0 ∧ s.filter = true) := by
    funext e; rw [Bool.eq_iff_iff, clearFilters_iff, decide_eq_true_iff]
  have some_iff (l : List MixEntry) : (!l.isEmpty) = decide (0 < l.length) := by cases l <;> rfl
  simp only [clearOutputAnswer, if_neg (Nat.not_lt.2 inPart), List.map_const', editNotes_eq, some_iff,
    List.countP_eq_length_filter, test, decide_eq_true_eq]

end

/-- Settles O20: each case of the statement is one answer of CLEAR OUTPUT at its edit step. -/
theorem clearOutputRetargets : Obligations.ClearOutputRetargets := by
  intro output ramp s x hand i g c r kept n
  refine ⟨fun above => ?_, fun inPart => ?_⟩
  · exact editRefuses_of_carryEdit hand rfl rfl (clearOutputAnswer_range above)
  · have done := clearOutputAnswer_done (ramp := ramp) (s := g) inPart
    simp only [rampStart_eq] at done
    exact editCompletes_of_carryEdit hand rfl rfl done

end Sys2Proof.Machine
end

section
/-! PROOFS. The commands that write one setting (R68, R85, R86, R137, R175), SET DELAY (R143, R146) and READ OUTPUT (R72,
R73). -/
namespace Sys2Proof.Machine

/-- Settles O21: each of the five commands has one test or none, and writes its one setting. -/
theorem settingCommands : Obligations.SettingCommands := by
  intro a b s x u
  refine ⟨fun hand => ⟨fun above => ?filterRange, fun within => ?filter⟩, fun hand => ?master,
    fun hand => ⟨fun outside => ?invertRange, fun inPart within => ?invert⟩, fun hand => ?active,
    fun hand => ⟨fun above => ?relayRange, fun zero => ?robin, fun one => ?first⟩⟩
  case filterRange => exact refuses_of_carryOut hand rfl rfl (if_pos above)
  case filter => exact completes_of_carryOut hand rfl rfl (if_neg (Nat.not_lt.2 within))
  case master =>
    have done : setMasterAnswer a u =
        .done { u with master := min 255 a.toNat } { noNotes with clamped := decide (255 < a.toNat) } [] := by
      rw [setMasterAnswer, clampedIf_eq (p := 255 < a.toNat) (by simp)]
      simp [clampNat]
    exact completes_of_carryOut hand rfl rfl done
  case invertRange => exact refuses_of_carryOut hand rfl rfl (if_pos outside)
  case invert => exact completes_of_carryOut hand rfl rfl (if_neg (by omega : ¬(63 < a.toNat ∨ 1 < b.toNat)))
  case active =>
    have done : setActiveAnswer a u = .done { u with active := max 1 (min 64 a.toNat) }
        { noNotes with clamped := decide (a.toNat < 1 ∨ 64 < a.toNat) } [] := by
      rw [setActiveAnswer, clampedIf_eq (clamps_iff 1 64 a.toNat)]; rfl
    exact completes_of_carryOut hand rfl rfl done
  case relayRange => exact refuses_of_carryOut hand rfl rfl (if_pos above)
  case robin =>
    have done : setRelayAnswer a u = .done { u with relayMode := .roundRobin } noNotes [] := by
      simp [setRelayAnswer, zero]
    exact completes_of_carryOut hand rfl rfl done
  case first =>
    have done : setRelayAnswer a u = .done { u with relayMode := .ownFirst } noNotes [] := by
      simp [setRelayAnswer, one]
    exact completes_of_carryOut hand rfl rfl done

/-- Settles O27: SET DELAY has the one test, and its dip is that of the delay change (R143). -/
theorem setDelayStartsDip : Obligations.SetDelayStartsDip := by
  intro output delay s x hand i u c v dip
  refine ⟨fun above => refuses_of_carryOut hand rfl rfl (if_pos above), fun inPart => ?_⟩
  have change : dipChange (u.readDelay c) v (u.dip c) = dip := rfl
  have value : clampNat 0 1023 delay.toNat = v := by simp [clampNat, v]
  have done : setDelayAnswer output delay u =
      .done { u.setDip c dip with delays := Tab.put zeroInit u.delays c v }
        { noNotes with clamped := decide (1023 < delay.toNat) } [] := by
    rw [setDelayAnswer, if_neg (Nat.not_lt.2 inPart), value, delayChange, change,
      clampedIf_eq (p := 1023 < delay.toNat) (by simp)]
  exact completes_of_carryOut hand rfl rfl done

section
variable {room : Nat} {output first : Word} {s : State}

theorem readOutputAnswer_range (outside : 63 < output.toNat ∨ 127 < first.toNat) :
    readOutputAnswer room output first s = .refuse .range := if_pos outside

variable (within : ¬(63 < output.toNat ∨ 127 < first.toNat))
include within

theorem readOutputAnswer_short (short : room < 5) :
    readOutputAnswer room output first s = .done s { noNotes with readOverflow := true } [] := by
  simp only [readOutputAnswer, if_neg within, if_pos short]

theorem readOutputAnswer_placed (fits : 5 ≤ room) :
    let wanted := wantedEntries s output.toNat first.toNat
    let placed := wanted.take ((room - 5) / 4)
    readOutputAnswer room output first s = .done s { noNotes with readOverflow := decide (placed.length < wanted.length) }
      (outputHeader s output.toNat placed.length ++ placed.flatMap entryGroup) := by
  simp only [readOutputAnswer, if_neg within, if_neg (Nat.not_lt.2 fits)]

end

/-- Settles O23: each case of the statement is one answer of READ OUTPUT, and its flags word is the statement's. -/
theorem readOutputPlacesUnits : Obligations.ReadOutputPlacesUnits := by
  intro output firstFeed s x hand i u room c n16 bit wanted placed conflict
  refine ⟨fun outside => ?_, fun inPart isFeed short => ?_, fun inPart isFeed fits => ?_⟩
  · exact refuses_of_carryOut hand rfl rfl (readOutputAnswer_range outside)
  · exact completes_of_carryOut hand rfl rfl (readOutputAnswer_short (by omega) short)
  · have same : slotConflict u c = conflict := by
      rw [Bool.eq_iff_iff]
      simp only [slotConflict, conflict, Bool.and_eq_true, decide_eq_true_eq, List.any_eq_true,
        List.mem_range, and_assoc]
    have flags : channelFlags u output.toNat = n16 (bit (u.inverted c) + 2 * bit (u.ovCurrent.mask.getLsbD c) +
        4 * bit (decide (c < u.active)) + 8 * bit conflict) := by
      have number : ∀ b : Bool, b.toNat = bit b := fun b => by cases b <;> rfl
      rw [channelFlags, same]; simp only [number]; rfl
    have done := readOutputAnswer_placed (room := room) (output := output) (first := firstFeed) (s := u) (by omega) fits
    simp only [outputHeader, flags] at done
    exact completes_of_carryOut hand rfl rfl done

end Sys2Proof.Machine
end

section
/-! PROOFS. The commands of the cue list: the command that a cue defers (R96, R105), AT (R101, R102), CANCEL BATCH (R111)
and FLUSH CUES (R112). -/
namespace Sys2Proof.Machine

/-- The immediate command that a deferred one names. -/
def immediateOf : Deferred → Instr
  | .setGain output slot code ramp => .setGain output slot code ramp
  | .clearOutput output ramp => .clearOutput output ramp
  | .setMaster level => .setMaster level
  | .setInvert output mode => .setInvert output mode
  | .setDelay output delay => .setDelay output delay
  | .unbind slot code => .unbind slot code

theorem spelled_immediate (d : Deferred) : (immediateOf d).spelled = some (d.op, d.args) := by cases d <;> rfl

/-- No other command is spelled as the immediate one (R96). -/
theorem eq_immediate_of_spelled {i : Instr} {d : Deferred} (h : i.spelled = some (d.op, d.args)) : i = immediateOf d := by
  cases d <;> cases i <;> cases h <;> rfl

/-- A deferred command that needs no port answers as the immediate one. -/
theorem exec_immediate_of_not_usesPort {d : Deferred} (free : d.op.usesPort = false) (s : State) :
    exec (immediateOf d) s = carryOut (.command d.op d.args) (fun _ u => applyDeferred d u) s := by
  cases d with
  | setGain | clearOutput => cases free
  | setMaster | setInvert | setDelay | unbind => rfl

/-- A deferred edit answers as the immediate one. -/
theorem exec_immediate_of_usesPort {d : Deferred} (edit : d.op.usesPort = true) (s : State) :
    exec (immediateOf d) s = carryEdit (.command d.op d.args) (fun u => applyDeferred d u) s := by
  cases d with
  | setGain | clearOutput => rfl
  | setMaster | setInvert | setDelay | unbind => cases edit

theorem ready_immediate (d : Deferred) : Instr.ready (immediateOf d) = some (.command d.op d.args) := by cases d <;> rfl

/-- Settles O31: the immediate command and the application of the cued one are the same answer. -/
theorem cuedCommandIsTheImmediateOne : Obligations.CuedCommandIsTheImmediateOne := by
  intro i d s x spelled
  obtain rfl := eq_immediate_of_spelled spelled
  refine ⟨fun free hand => ⟨fun t notes words done => ?_, fun code refused => ?_⟩,
    fun edit hand => ⟨fun t notes words done => ?_, fun code refused => ?_⟩⟩
  · exact completes_of_carryOut hand (ready_immediate d) (exec_immediate_of_not_usesPort free s) done
  · exact refuses_of_carryOut hand (ready_immediate d) (exec_immediate_of_not_usesPort free s) refused
  · exact editCompletes_of_carryEdit hand (ready_immediate d) (exec_immediate_of_usesPort edit s) done
  · exact editRefuses_of_carryEdit hand (ready_immediate d) (exec_immediate_of_usesPort edit s) refused

/-- One time is not after another when it lies 0..2^31 − 1 before it in serial order. -/
theorem notAfter_iff (a b : Count) : notAfter a b = true ↔ (b - a).toNat < 2 ^ 31 := by
  have equal : a = b ↔ (b - a).toNat = 0 := by bv_omega
  simp only [notAfter, before, Bool.or_eq_true, decide_eq_true_eq, equal]; omega

theorem notAfter_eq (a b : Count) : notAfter a b = decide ((b - a).toNat < 2 ^ 31) := by
  rw [Bool.eq_iff_iff, notAfter_iff, decide_eq_true_iff]

/-- The ORDER test of AT (R101). -/
theorem outOfOrder_iff (cues : List Cue) (due : Count) : outOfOrder cues due = true ↔
    (∃ t ∈ cues.getLast?, 1 ≤ (t.due - due).toNat ∧ (t.due - due).toNat < 2 ^ 31) ∨
      ∃ h ∈ cues.head?, 2 ^ 31 ≤ (due - h.due).toNat := by
  cases cues with
  | nil => simp [outOfOrder]
  | cons c rest =>
    obtain ⟨last, tail⟩ : ∃ last, (c :: rest).getLast? = some last := ⟨_, List.getLast?_eq_getLast_of_ne_nil (by simp)⟩
    simp only [outOfOrder, tail, List.head?_cons, before, Bool.or_eq_true, decide_eq_true_eq, Option.mem_def,
      Option.some.injEq, exists_eq_left']

section
variable {room : Nat} {high low batch : Word} {d : Deferred} {s : State}

theorem atAnswer_range (above : 255 < batch.toNat) : atAnswer room high low batch d s = .refuse .range := if_pos above

variable (isBatch : batch.toNat ≤ 255)
include isBatch

theorem atAnswer_cueFull (full : 64 ≤ s.cues.length) : atAnswer room high low batch d s = .refuse .cueFull := by
  have noPlace : Config.cuePlaces ≤ s.cues.length := full
  simp only [atAnswer, if_neg (Nat.not_lt.2 isBatch), if_pos noPlace]

variable (place : s.cues.length < 64)
include place

theorem atAnswer_order (disordered : outOfOrder s.cues (wide high low) = true) :
    atAnswer room high low batch d s = .refuse .order := by
  have hasPlace : ¬Config.cuePlaces ≤ s.cues.length := Nat.not_le.2 place
  simp only [atAnswer, if_neg (Nat.not_lt.2 isBatch), if_neg hasPlace, if_pos disordered]

theorem atAnswer_done (ordered : ¬outOfOrder s.cues (wide high low) = true) :
    let c := cueEntry (wide high low) batch d s
    atAnswer room high low batch d s =
      .done (acceptCue c s) { overflowIf room [c.number] with late := c.late } (placeUnit room [c.number]) := by
  have hasPlace : ¬Config.cuePlaces ≤ s.cues.length := Nat.not_le.2 place
  simp only [atAnswer, if_neg (Nat.not_lt.2 isBatch), if_neg hasPlace, if_neg ordered]

end

/-- A late entry counts CUE_LATE (R102). -/
theorem acceptCue_eq (c : Cue) (s : State) : acceptCue c s = countEvents (if c.late then [.cueLate] else [])
    { s with cues := s.cues ++ [c], cueNumber := s.cueNumber + 1#16 } := by
  cases late : c.late <;> simp [acceptCue, late, countEvents]

/-- Settles O32: each case of the statement is one answer of AT. -/
theorem atAcceptsCue : Obligations.AtAcceptsCue := by
  intro high low batch d s x hand i u room due late disordered
  have order : outOfOrder u.cues (wide high low) = true ↔ disordered := outOfOrder_iff u.cues due
  refine ⟨fun above => ?_, fun isBatch full => ?_, fun isBatch place wrong => ?_, fun isBatch place right => ?_⟩
  · exact refuses_of_carryOut hand rfl rfl (atAnswer_range above)
  · exact refuses_of_carryOut hand rfl rfl (atAnswer_cueFull isBatch full)
  · exact refuses_of_carryOut hand rfl rfl (atAnswer_order isBatch place (order.2 wrong))
  · have done := atAnswer_done (room := room) (d := d) isBatch place (mt order.1 right)
    have entry : cueEntry (wide high low) batch d u =
        { number := u.cueNumber, batch := batch.toNat, due := due, late := late, command := d } := by
      rw [cueEntry, notAfter_eq]; rfl
    simp only [entry, acceptCue_eq] at done
    exact completes_of_carryOut hand rfl rfl done

/-- Settles O33: CANCEL BATCH keeps the other batches, FLUSH CUES none; either places its one word. -/
theorem cancelAndFlushCues : Obligations.CancelAndFlushCues := by
  intro batch s x u room cancelled word notes
  have placed (n : Nat) : overflowIf room [natWord n] = notes ∧ placeUnit room [natWord n] = word n := ⟨rfl, rfl⟩
  refine ⟨fun hand => ⟨fun above => refuses_of_carryOut hand rfl rfl (if_pos above), fun isBatch => ?_⟩,
    fun hand => completes_of_carryOut hand rfl rfl rfl⟩
  have done : cancelBatchAnswer room batch u =
      .done { u with cues := u.cues.filter fun c => decide (c.batch ≠ batch.toNat) } notes (word cancelled) := by
    simp only [cancelBatchAnswer, if_neg (Nat.not_lt.2 isBatch), (placed _).1, (placed _).2, inBatch, otherBatches,
      cancelled, List.countP_eq_length_filter]
  exact completes_of_carryOut hand rfl rfl done

end Sys2Proof.Machine
end

section
/-! PROOFS. JOB RECODE and JOB SCAN (R125), SET ARB (R132) and the edit port's arbiter (R129 to R131). -/
namespace Sys2Proof.Machine

/-- The RANGE tests of the two job commands (R125). -/
theorem jobRange_iff (output first count table : Word) : jobRange output first count table = true ↔
    ¬(output.toNat ≤ 63 ∧ first.toNat ≤ 127 ∧ 1 ≤ count.toNat ∧ count.toNat ≤ 128 ∧ table.toNat ≤ 1) := by
  simp only [jobRange, decide_eq_true_eq]; omega

theorem appendJob_full {j : Job} {b : Bool} {s : State} (full : 8 ≤ s.jobs.length) : appendJob j b s = .refuse .jobFull :=
  if_pos full

theorem appendJob_done {j : Job} {b : Bool} {s : State} (room : s.jobs.length < 8) :
    appendJob j b s = .done (startIfDue { s with jobs := s.jobs ++ [j] }) (clampedIf b) [] :=
  if_neg (Nat.not_le.2 room)

/-- Settles O37: each case of the statement is one answer of the two job commands; the job start that follows at once is
that of the event JOB_START. -/
theorem jobCommandsQueueJobs : Obligations.JobCommandsQueueJobs := by
  intro output first count table ramp notify s x u recode scan ranged t queued
  have range := jobRange_iff output first count table
  refine ⟨fun hand => ⟨fun outside => ?recodeRange, fun inside known full => ?recodeFull,
    fun inside known room => ?recodeQueued⟩,
    fun hand => ⟨fun outside => ?scanRange, fun inside full => ?scanFull, fun inside room => ?scanQueued⟩⟩
  case recodeRange =>
    have refused : jobRange output first count table = true ∨ 1 < notify.toNat := by
      rw [range]; by_contra neither; exact outside (by simp only [ranged]; omega)
    exact refuses_of_carryOut hand rfl rfl (if_pos refused)
  case recodeFull =>
    have passes : ¬(jobRange output first count table = true ∨ 1 < notify.toNat) := by
      rw [range]; simp only [ranged] at inside; omega
    exact refuses_of_carryOut hand rfl rfl ((if_neg passes).trans (appendJob_full full))
  case recodeQueued =>
    have passes : ¬(jobRange output first count table = true ∨ 1 < notify.toNat) := by
      rw [range]; simp only [ranged] at inside; omega
    have done : jobRecodeAnswer x.tag output first count table ramp notify u = _ := if_neg passes
    rw [appendJob_done room, rampNotes, rampCode_eq] at done
    exact ⟨_, rfl, completes_of_carryOut hand rfl rfl done⟩
  case scanRange => exact refuses_of_carryOut hand rfl rfl (if_pos (range.2 outside))
  case scanFull =>
    exact refuses_of_carryOut hand rfl rfl ((if_neg (mt range.1 (not_not.2 inside))).trans (appendJob_full full))
  case scanQueued =>
    exact ⟨_, rfl, completes_of_carryOut hand rfl rfl ((if_neg (mt range.1 (not_not.2 inside))).trans (appendJob_done room))⟩

/-- The table of R130 for two requests: the command's turn. -/
theorem weigh_eq_command_iff (a : Arbiter) : weigh a = .command ↔
    a.limiting = false ∨ (a.owner = .command ∧ a.run < a.cmdBurst) ∨ (a.owner = .walker ∧ a.walkBurst ≤ a.run) := by
  unfold weigh
  cases a.limiting with
  | false => simp
  | true =>
    cases a.owner with
    | command => simp
    | walker => simp

/-- A grant to the command processor (R129, R131). -/
theorem grantTo_command (a : Arbiter) : grantTo .command a =
    { a with port := .busy, owner := .command, run := if a.owner = .command then min 255 (a.run + 1) else 1,
             cmdRequest := false } := by
  unfold grantTo recordGrant; split <;> simp_all

/-- A grant to the walker (R119, R129). -/
theorem grantTo_walker (a : Arbiter) : grantTo .walker a =
    { a with port := .busy, owner := .walker, run := if a.owner = .walker then min 255 (a.run + 1) else 1 } := by
  unfold grantTo recordGrant; split <;> simp_all

theorem grantIfFree_busy {a : Arbiter} (busy : a.port = .busy) : grantIfFree a = a := by
  unfold grantIfFree; rw [busy]

theorem grantIfFree_none {a : Arbiter} (nobody : chosen a = none) : grantIfFree a = a := by
  unfold grantIfFree; rw [nobody]; split <;> simp_all

theorem grantIfFree_chosen {a : Arbiter} {p : Party} (free : a.port = .free) (party : chosen a = some p) :
    grantIfFree a = grantTo p a := by
  unfold grantIfFree; rw [free, party]

/-- The command is chosen when it asks, and the walker does not or has no turn (R130). -/
theorem chosen_command {a : Arbiter} (asks : a.cmdRequest = true) (turn : a.walkRequest = false ∨ weigh a = .command) :
    chosen a = some .command := by
  unfold chosen; rw [asks]
  cases walk : a.walkRequest with
  | false => rfl
  | true => simpa [walk] using turn

/-- The walker is chosen when it asks, and the command does not or has no turn (R130). -/
theorem chosen_walker {a : Arbiter} (asks : a.walkRequest = true) (turn : a.cmdRequest = false ∨ weigh a ≠ .command) :
    chosen a = some .walker := by
  unfold chosen; rw [asks]
  cases command : a.cmdRequest with
  | false => rfl
  | true =>
    have other : weigh a ≠ .command := by simpa [command] using turn
    cases party : weigh a with
    | command => exact absurd party other
    | walker => simp

/-- A decision for the command processor (R130). -/
theorem grantIfFree_command {a : Arbiter} (free : a.port = .free) (asks : a.cmdRequest = true)
    (turn : a.walkRequest = false ∨ weigh a = .command) : grantIfFree a =
      { a with port := .busy, owner := .command, run := if a.owner = .command then min 255 (a.run + 1) else 1,
               cmdRequest := false } :=
  (grantIfFree_chosen free (chosen_command asks turn)).trans (grantTo_command a)

/-- A decision for the walker (R130). -/
theorem grantIfFree_walker {a : Arbiter} (free : a.port = .free) (asks : a.walkRequest = true)
    (turn : a.cmdRequest = false ∨ weigh a ≠ .command) : grantIfFree a =
      { a with port := .busy, owner := .walker, run := if a.owner = .walker then min 255 (a.run + 1) else 1 } :=
  (grantIfFree_chosen free (chosen_walker asks turn)).trans (grantTo_walker a)

/-- The clamps of SET ARB (R132). -/
theorem arbClamps_iff (cmd walk : Word) : (clamps 1 255 cmd.toNat || clamps 1 255 walk.toNat) = true ↔
    cmd.toNat < 1 ∨ 255 < cmd.toNat ∨ walk.toNat < 1 ∨ 255 < walk.toNat := by
  simp only [Bool.or_eq_true, clamps_iff, or_assoc]

/-- Settles O43: SET ARB from its answer; the arbiter from the party chosen in each case. -/
theorem arbiterGrantsByRuns : Obligations.ArbiterGrantsByRuns := by
  refine ⟨fun limiting cmd walk s x hand => ⟨fun above => ?_, fun within => ?_⟩, fun s => ?_⟩
  · exact refuses_of_carryOut hand rfl rfl (if_pos above)
  · have done : setArbAnswer limiting cmd walk (settle s) = _ := if_neg (Nat.not_lt.2 within)
    rw [clampedIf_eq (arbClamps_iff cmd walk)] at done
    exact completes_of_carryOut hand rfl rfl done
  intro a command run toCommand toWalker
  have lift {b c : Arbiter} (h : b = c) : ({ s with arbiter := b } : State) = { s with arbiter := c } := by rw [h]
  refine ⟨fun busy => ⟨?_, ?_⟩, fun free alone => ?_, fun free alone => ?_, fun noCommand noWalk => ?_,
    fun asks mayGo => ?_, fun asks mayGo => ?_⟩
  · exact lift (grantIfFree_busy busy)
  · exact lift (grantIfFree_busy busy)
  · exact lift (grantIfFree_command (a := { a with cmdRequest := true }) free rfl (.inl alone))
  · exact lift (grantIfFree_walker (a := { a with walkRequest := true }) free rfl (.inl alone))
  · exact lift (grantIfFree_none (chosen_eq_none_iff.2 ⟨noCommand, noWalk⟩))
  · have turn := mayGo.imp id (weigh_eq_command_iff { a with port := .free }).2
    exact lift (grantIfFree_command (a := { a with port := .free }) rfl asks turn)
  · have turn := mayGo.imp id (mt (weigh_eq_command_iff { a with port := .free }).1)
    have stands : toWalker = { a with port := .busy, owner := .walker, run := run .walker } := by simp only [toWalker, ← asks]
    rw [stands]
    exact lift (grantIfFree_walker (a := { a with port := .free }) rfl asks turn)

end Sys2Proof.Machine
end

section
/-! PROOFS. The load pointer (R159 to R164): the pointer commands, READ and the DATA word. -/
namespace Sys2Proof.Machine

/-- Settles O44: each command has one test or none, and sets the pointer and the patch state. -/
theorem pointerCommands : Obligations.PointerCommands := by
  intro w s x u p rows
  refine ⟨fun hand => ⟨fun above => ?_, fun within => ?_⟩, fun hand => ⟨fun above => ?_, fun within => ?_⟩,
    fun hand => ⟨fun above => ?_, fun within => ?_⟩, fun hand => ?_, fun hand => ⟨fun off => ?_, fun c on => ?_⟩⟩
  · exact refuses_of_carryOut hand rfl rfl (if_pos above)
  · exact completes_of_carryOut hand rfl rfl (if_neg (Nat.not_lt.2 within))
  · exact refuses_of_carryOut hand rfl rfl (if_pos above)
  · exact completes_of_carryOut hand rfl rfl (if_neg (Nat.not_le.2 within))
  · exact refuses_of_carryOut hand rfl rfl (if_pos above)
  · exact completes_of_carryOut hand rfl rfl (if_neg (Nat.not_lt.2 within))
  · exact completes_of_carryOut hand rfl rfl rfl
  · have done : patchEndAnswer u = .done u noNotes [] := by unfold patchEndAnswer; rw [off]
    exact completes_of_carryOut hand rfl rfl done
  · have done : patchEndAnswer u = .done { setColumnTo c u with patch := none } noNotes [] := by
      unfold patchEndAnswer; rw [on]
    exact completes_of_carryOut hand rfl rfl done

/-- The entry that a read finds at a column of a table's row: 0 at the row end (R162, R164). -/
def entryWord (s : State) (table row column : Nat) : Word :=
  let pos := 16 * row + column
  if column = 16 then 0#16
  else if table < 4 then Tab.get coefInit s.coef ((table * 65 + row) * 16 + column)
  else BitVec.ofNat 16 (
    if table = 4 then Tab.get gainLawInit s.gainLaw pos
    else if table = 5 then Tab.get identityInit s.recodeA pos
    else if table = 6 then Tab.get identityInit s.recodeB pos
    else if table = 7 then Tab.get identityInit s.slotMap pos
    else Tab.get zeroInit s.delays pos)

theorem tableEntry_eq {s : State} {table row column : Nat} (inRow : column ≠ 16) :
    tableEntry s table row column = entryWord s table row column := by
  unfold tableEntry entryWord
  simp only [if_neg inRow]
  split
  · rfl
  · split
    · rfl
    · rfl
    · rfl
    · rfl
    · next n4 n5 n6 n7 => simp only [if_neg n4, if_neg n5, if_neg n6, if_neg n7]; rfl

theorem underPointer_eq (s : State) :
    underPointer s = entryWord s s.pointer.table s.pointer.row s.pointer.column := by
  unfold underPointer; split
  · next atEnd => simp [entryWord, atEnd]
  · next inRow => exact tableEntry_eq inRow

/-- The column after k read steps: it rises to the row end, and stays in patch mode (R162, R164). -/
def columnAfter (s : State) (k : Nat) : Nat :=
  if s.patch.isSome then s.pointer.column else min 16 (s.pointer.column + k)

/-- A read step from a column of a row or its end. -/
theorem readStep_eq {s : State} (range : s.pointer.column ≤ 16) : readStep s =
    { s with latch := entryWord s s.pointer.table s.pointer.row s.pointer.column,
             pointer := { s.pointer with column := columnAfter s 1 } } := by
  unfold readStep columnAfter refillLatch setColumnTo
  rw [underPointer_eq]
  by_cases patch : s.patch.isSome = true
  · simp [patch]
  · by_cases atEnd : s.pointer.column = 16
    · have stays : min 16 (s.pointer.column + 1) = s.pointer.column := by omega
      rw [if_pos (.inr atEnd)]; simp [patch, stays]
    · have rises : min 16 (s.pointer.column + 1) = s.pointer.column + 1 := by omega
      simp [patch, atEnd, rises]

theorem readSteps_succ (n : Nat) : ∀ s, readSteps (n + 1) s = readStep (readSteps n s) := by
  induction n with
  | zero => exact fun _ => rfl
  | succ n ih => exact fun s => ih (readStep s)

/-- The words that n read steps offer are the latches before them. -/
theorem readWordsOf_eq (n : Nat) (s : State) : readWordsOf n s = (List.range n).map fun k => (readSteps k s).latch := by
  induction n generalizing s with
  | zero => rfl
  | succ n ih => rw [List.range_succ_eq_map, List.map_cons, List.map_map, readWordsOf, ih]; rfl

/-- The state after n read steps (R162, R164). -/
theorem readSteps_eq {s : State} (range : s.pointer.column ≤ 16) (n : Nat) : readSteps n s =
    { s with latch := if n = 0 then s.latch else entryWord s s.pointer.table s.pointer.row (columnAfter s (n - 1)),
             pointer := { s.pointer with column := columnAfter s n } } := by
  have start : columnAfter s 0 = s.pointer.column := by unfold columnAfter; split <;> omega
  induction n with
  | zero => rw [start]; rfl
  | succ n ih =>
    have low : columnAfter s n ≤ 16 := by unfold columnAfter; split <;> omega
    have next : (if s.patch.isSome = true then columnAfter s n else min 16 (columnAfter s n + 1)) = columnAfter s (n + 1) := by
      unfold columnAfter; split <;> omega
    rw [readSteps_succ, ih, readStep_eq (by exact low)]
    simp only [columnAfter] at next ⊢
    simp only [next]
    rfl

/-- Settles O45: the read steps one by one, their words the latches before them. -/
theorem readStepsPlaceLatches : Obligations.ReadSteps := by
  intro steps s x hand range u room p n entry column words
  refine ⟨fun outside => refuses_of_carryOut hand rfl rfl (if_pos outside), fun some most => ?_⟩
  have done : readAnswer room steps u = _ := if_neg (by omega : ¬(steps.toNat = 0 ∨ 64 < steps.toNat))
  have latch : (readWordsOf n u) = words := by
    rw [readWordsOf_eq]; simp only [readSteps_eq (s := u) range]; rfl
  rw [latch, readSteps_eq range, if_neg (by omega)] at done
  exact completes_of_carryOut hand rfl rfl done

end Sys2Proof.Machine
end

section
/-! PROOFS. The DATA word (R159, R161, R164), RESET PART (R168) and the counter commands (R179 to R181). -/
namespace Sys2Proof.Machine

/-- A DATA word at the row end is discarded (R161). -/
theorem dataWrite_rowEnd {w : Word} {s : State} (atEnd : s.pointer.column = 16) :
    dataWrite w s = if s.patch.isSome then refillLatch s else s := by
  simp only [dataWrite, if_pos atEnd]

/-- A DATA word before the row end is written, and the column rises (R161). -/
theorem dataWrite_inRow {w : Word} {s : State} (inRow : s.pointer.column < 16) :
    let t := setColumnTo (s.pointer.column + 1) (writeEntry s.pointer.table s.pointer.row s.pointer.column w s)
    dataWrite w s = if s.patch.isSome then refillLatch t else t := by
  simp only [dataWrite, if_neg (Nat.ne_of_lt inRow)]

theorem dataNotes_inRow {w : Word} {s : State} (inRow : s.pointer.column < 16) :
    dataNotes w s = clampedIf (writeClamps s.pointer.table s.pointer.row s.pointer.column w) :=
  if_neg (Nat.ne_of_lt inRow)

/-- A table other than a bank clamps what it stores, but at GAINLAW's code 0 (R75, R159). -/
theorem writeClamps_of_le {table row column : Nat} {w : Word} (noBank : 4 ≤ table)
    (stores : ¬(table = 4 ∧ cellPos row column = 0)) :
    clampedIf (writeClamps table row column w) = { noNotes with clamped := decide (tableMax table < w.toNat) } := by
  simp only [writeClamps, if_neg (Nat.not_lt.2 noBank), if_neg stores]; rfl

section
variable {table row column : Nat} {w : Word} {s : State}

/-- GAINLAW stores nothing at code 0 (R75). -/
theorem writeEntry_gainZero (h : table = 4) (zero : 16 * row + column = 0) : writeEntry table row column w s = s := by
  rw [h]; exact if_pos zero

theorem writeClamps_gainZero (h : table = 4) (zero : 16 * row + column = 0) :
    clampedIf (writeClamps table row column w) = noNotes := by
  simp only [writeClamps, h, cellPos, zero]; rfl

theorem writeEntry_gainLaw (h : table = 4) (notZero : 16 * row + column ≠ 0) : writeEntry table row column w s =
    { s with gainLaw := Tab.put gainLawInit s.gainLaw (16 * row + column) (min 32767 w.toNat) } := by
  rw [h, Nat.min_comm]; exact if_neg notZero

theorem writeEntry_recodeA (h : table = 5) : writeEntry table row column w s =
    { s with recodeA := Tab.put identityInit s.recodeA (16 * row + column) (min 255 w.toNat) } := by
  rw [h, Nat.min_comm]; rfl

theorem writeEntry_recodeB (h : table = 6) : writeEntry table row column w s =
    { s with recodeB := Tab.put identityInit s.recodeB (16 * row + column) (min 255 w.toNat) } := by
  rw [h, Nat.min_comm]; rfl

theorem writeEntry_slotMap (h : table = 7) : writeEntry table row column w s =
    { s with slotMap := Tab.put identityInit s.slotMap (16 * row + column) (min 63 w.toNat) } := by
  rw [h, Nat.min_comm]; rfl

/-- A write of DELAY is a delay change (R143). -/
theorem writeEntry_delay (h : table = 8) :
    writeEntry table row column w s = delayChange (16 * row + column) (min 1023 w.toNat) s := by
  rw [h, Nat.min_comm]; rfl

end

/-- A DATA word at hand is taken into the burst with its notes and its write (R161). -/
theorem exec_tableWrite {w : Word} {s : State} {x : Exec} (hand : atHand (.tableWrite w) s x) :
    exec (.tableWrite w) s =
      .next (proceed { x with notes := x.notes.merge (dataNotes w (settle s)) } (dataWrite w (settle s))) := by
  have ready : atReady (.data w) (settle s) = some x := hand
  simp only [exec, execTableWrite, ready]

/-- The latch refilled in a row of a table. -/
theorem refillLatch_eq (s : State) :
    refillLatch s = { s with latch := entryWord s s.pointer.table s.pointer.row s.pointer.column } := by
  rw [refillLatch, underPointer_eq]

/-- Settles O46: each case of the statement is one table's write, after which the latch is refilled in patch mode. -/
theorem tableWrite : Obligations.TableWrite := by
  intro w s x hand range u p pos moved entry latched v dip writes clamped
  have rowEnds (atEnd : p.column = 16) : dataWrite w u = latched u := by
    rw [dataWrite_rowEnd atEnd, refillLatch_eq]; rfl
  have inRow (before : p.column < 16) {t : State} (written : writeEntry p.table p.row p.column w u = t)
      (patch : t.patch = u.patch) (pointer : t.pointer = p) :
      dataWrite w u = latched (setColumnTo (p.column + 1) t) := by
    rw [dataWrite_inRow before, written, refillLatch_eq]
    simp only [latched, entry, setColumnTo, pointer]
    rfl
  have taken {t : State} {n : Notes} (write : dataWrite w u = latched t) (notes : dataNotes w u = n) : writes t n :=
    ⟨_, exec_tableWrite hand, by rw [write, notes]; exact proceed_goes _ _⟩
  have wrote (before : p.column < 16) {n : Notes} {t : State} (written : writeEntry p.table p.row p.column w u = t)
      (patch : t.patch = u.patch) (pointer : t.pointer = p)
      (notes : clampedIf (writeClamps p.table p.row p.column w) = n) : writes (setColumnTo (p.column + 1) t) n :=
    taken (inRow before written patch pointer) ((dataNotes_inRow before).trans notes)
  have stores (noBank : 5 ≤ p.table) {top : Nat} (most : tableMax p.table = top) :
      clampedIf (writeClamps p.table p.row p.column w) = clamped top := by
    rw [writeClamps_of_le (by omega) (by omega), most]
  refine ⟨fun atEnd => ?rowEnd, fun before bank => ?bank, fun before gain zero => ?gainZero,
    fun before gain notZero => ?gain, fun before recode => ?recodeA, fun before recode => ?recodeB,
    fun before slots => ?slotMap, fun before delays => ?delay⟩
  case rowEnd => exact taken (rowEnds atEnd) (if_pos atEnd)
  case bank =>
    exact wrote before (if_pos bank) rfl rfl (by simp only [writeClamps, if_pos bank]; rfl)
  case gainZero => exact wrote before (writeEntry_gainZero gain zero) rfl rfl (writeClamps_gainZero gain zero)
  case gain =>
    have notes : clampedIf (writeClamps p.table p.row p.column w) = clamped 32767 := by
      rw [writeClamps_of_le (by omega) (fun q => notZero q.2), gain]; rfl
    exact wrote before (writeEntry_gainLaw gain notZero) rfl rfl notes
  case recodeA => exact wrote before (writeEntry_recodeA recode) rfl rfl (stores (by omega) (by rw [recode]; rfl))
  case recodeB => exact wrote before (writeEntry_recodeB recode) rfl rfl (stores (by omega) (by rw [recode]; rfl))
  case slotMap => exact wrote before (writeEntry_slotMap slots) rfl rfl (stores (by omega) (by rw [slots]; rfl))
  case delay =>
    have change : dipChange (u.readDelay pos) v (u.dip pos) = dip := rfl
    have written : writeEntry p.table p.row p.column w u =
        { u.setDip pos dip with delays := Tab.put zeroInit u.delays pos v } := by
      rw [← change]; exact writeEntry_delay delays
    exact wrote before written rfl rfl (stores (by omega) (by rw [delays]; rfl))

/-- Settles O47: the soft reset of the settled state, and the burst's end with RESET PART counted. -/
theorem resetPart : Obligations.ResetPart := by
  intro s x hand u
  have ready : atReady (.command .resetPart []) u = some x := hand
  have ended : exec .resetPart s = .next (endBurst (x.did noNotes []) none (softReset u)) := by
    simp only [exec, execResetPart]; rw [ready]
  have did : x.did noNotes [] = { x with executed := x.executed + 1 } := by simp [Exec.did]
  rw [ended, endBurst_eq, did]
  rfl

/-- The index of an event is its place in the list of R179. -/
theorem index_eq_iff (e : Event) (n : Nat) : e.index = n ↔ eventNames[n]? = some e := by
  constructor
  · rintro rfl; cases e <;> rfl
  · intro found
    have inList : n < 16 := (List.getElem?_eq_some_iff.1 found).1
    have indices : ∀ k < 16, (eventNames[k]?).map Event.index = some k := by decide
    have index := indices n inList
    rw [found] at index
    exact Option.some.inj index

theorem eventOf_index {e : Event} {n : Nat} (h : e.index = n) : eventOf n = e := by
  rw [eventOf, List.getD_eq_getElem?_getD, (index_eq_iff e n).1 h]; rfl

section
variable {room : Nat} {k : Word} {s : State}

theorem counterReadAnswer_placed (inPart : k.toNat ≤ 3) (fits : 3 ≤ room) :
    counterReadAnswer room k s = .done s noNotes (counterWords (s.counter k.toNat)) := by
  simp only [counterReadAnswer, if_neg (Nat.not_lt.2 inPart)]
  rw [overflowIf_of_le (by exact fits), placeUnit_of_le (by exact fits)]

theorem counterReadAnswer_short (inPart : k.toNat ≤ 3) (short : room < 3) :
    counterReadAnswer room k s = .done s { noNotes with readOverflow := true } [] := by
  simp only [counterReadAnswer, if_neg (Nat.not_lt.2 inPart)]
  rw [overflowIf_of_lt (by exact short), placeUnit_of_lt (by exact short)]

end

/-- Settles O48: each case of the statement is one answer of the three commands. -/
theorem counterCommands : Obligations.CounterCommands := by
  refine ⟨index_eq_iff, fun k a b s x => ?_⟩
  intro u room c
  refine ⟨fun hand => ⟨fun outside => ?_, fun inPart e index => ?_⟩, fun hand => ⟨fun above => ?_, fun inPart => ?_⟩,
    fun hand => ⟨fun above => ?_, fun inPart fits => ?_, fun inPart short => ?_⟩⟩
  · exact refuses_of_carryOut hand rfl rfl (if_pos outside)
  · have known : a.toNat < 16 := by
      rw [← index]; exact (List.getElem?_eq_some_iff.1 ((index_eq_iff e _).1 rfl)).1
    have done : counterSelectAnswer k a u = _ := if_neg (by omega : ¬(3 < k.toNat ∨ 15 < a.toNat))
    rw [eventOf_index index] at done
    exact completes_of_carryOut hand rfl rfl done
  · exact refuses_of_carryOut hand rfl rfl (if_pos above)
  · exact completes_of_carryOut hand rfl rfl (if_neg (Nat.not_lt.2 inPart))
  · exact refuses_of_carryOut hand rfl rfl (if_pos above)
  · exact completes_of_carryOut hand rfl rfl (counterReadAnswer_placed inPart fits)
  · exact completes_of_carryOut hand rfl rfl (counterReadAnswer_short inPart short)

end Sys2Proof.Machine
end

section
/-! PROOFS. The events at the end of a period: the ends that a close owes, each taken by its event (R11, R49, R69, R77,
R144). -/
namespace Sys2Proof.Machine

/-- An end that is owed is taken off and carried out. -/
theorem takeEnd_owed {w : CloseWork} {s : State} (owed : w ∈ (startIfDue s).closeDue) :
    takeEnd w s = doEnd w { startIfDue s with closeDue := (startIfDue s).closeDue.erase w } := if_pos owed

/-- An end that is not owed is not taken (log entry 1). -/
theorem takeEnd_of_not_mem {w : CloseWork} {s : State} (notOwed : w ∉ (startIfDue s).closeDue) :
    takeEnd w s = startIfDue s := if_neg notOwed

/-- Settles O28: the fall's end and the rise's end from the dip that they find. -/
theorem dipEndsTakeTheirEvents : Obligations.DipEnds := by
  intro c s u
  refine ⟨fun owed level pending falling => ?_, fun owed level rising => ?_, fun notOwed => ?_, fun notOwed => ?_⟩
  · have moved (due : List CloseWork) : dipMove c { u with closeDue := due } =
        { u.setDip c (.rising 0) with readDelays := Tab.put zeroInit u.readDelays c pending, closeDue := due } := by
      have dip : ({ u with closeDue := due } : State).dip c = .falling level pending := falling
      unfold dipMove; rw [dip]; rfl
    exact congrArg Host.Outcome.next ((takeEnd_owed owed).trans (moved _))
  · have ended (due : List CloseWork) : dipEnd c { u with closeDue := due } = { u.setDip c .still with closeDue := due } := by
      have dip : ({ u with closeDue := due } : State).dip c = .rising level := rising
      unfold dipEnd; rw [dip]; rfl
    exact congrArg Host.Outcome.next ((takeEnd_owed owed).trans (ended _))
  · exact congrArg Host.Outcome.next (takeEnd_of_not_mem notOwed)
  · exact congrArg Host.Outcome.next (takeEnd_of_not_mem notOwed)

/-- A list holds an entry for a feed. -/
theorem entryFor_isSome_iff_exists {feed : Nat} {l : List MixEntry} : (entryFor feed l).isSome = true ↔ ∃ e ∈ l, e.feed = feed := by
  simp [entryFor]

theorem removeEntry_eq (feed : Nat) (l : List MixEntry) : removeEntry feed l = l.filter fun e => decide (e.feed ≠ feed) := by
  simp only [removeEntry, bne, ne_eq, decide_not]; rfl

/-- A route that a list holds is returned to the pool (R69, R120). -/
theorem releaseRoute_held {c feed : Nat} {s : State} (held : ∃ e ∈ s.list c, e.feed = feed) : releaseRoute c feed s =
    { s.setList c ((s.list c).filter fun e => decide (e.feed ≠ feed)) with pool := s.pool + 1 } := by
  rw [← removeEntry_eq]; exact if_pos (entryFor_isSome_iff_exists.2 held)

theorem releaseRoute_absent {c feed : Nat} {s : State} (absent : ∀ e ∈ s.list c, e.feed ≠ feed) :
    releaseRoute c feed s = s :=
  if_neg (mt entryFor_isSome_iff_exists.1 (by simpa using absent))

/-- Settles O35: the final ramp step sets the entry's gain, and a release takes the entry away. -/
theorem rampEndAndAutoRelease : Obligations.RampEndAndAutoRelease := by
  intro c f s u
  refine ⟨fun owed => ?_, fun owed held => ?_, fun owed absent => ?_, fun notOwed => ?_, fun notOwed => ?_⟩
  · exact congrArg Host.Outcome.next (takeEnd_owed owed)
  · exact congrArg Host.Outcome.next ((takeEnd_owed owed).trans
      (releaseRoute_held (s := { u with closeDue := u.closeDue.erase (.autoRelease c f) }) held))
  · exact congrArg Host.Outcome.next ((takeEnd_owed owed).trans
      (releaseRoute_absent (s := { u with closeDue := u.closeDue.erase (.autoRelease c f) }) absent))
  · exact congrArg Host.Outcome.next (takeEnd_of_not_mem notOwed)
  · exact congrArg Host.Outcome.next (takeEnd_of_not_mem notOwed)

theorem fadeFinish_room {k : Nat} {s : State} (room : s.jobs.length < 8) : fadeFinish k s =
    { s.setFeed k { s.feed k with lifecycle := .purging, flow := none, fade := none, purgePending := none } with
      jobs := s.jobs ++ [.purge k] } := if_pos room

theorem fadeFinish_full {k : Nat} {s : State} {d : Fade} (full : 8 ≤ s.jobs.length) (fade : (s.feed k).fade = some d) :
    fadeFinish k s = s.setFeed k
      { s.feed k with fade := some { d with current := 0, remaining := 0 }, purgePending := some true } := by
  have noRoom : ¬s.jobs.length < Config.jobPlaces := Nat.not_lt.2 full
  simp only [fadeFinish, if_neg noRoom, fade, Option.map_some]

/-- A feed record through a servo expiry, in numbers (R48, R49). -/
theorem servoFeed_eq (k : Nat) (f : Feed) : servoFeed k f =
    if (f.lifecycle = .live ∨ f.lifecycle = .fading) ∧ f.flow = some .running ∧ f.servoOn = true then
      { f with trim := max (-(f.limit : Int)) (min f.limit (f.trim + (f.fill - f.target) * f.gain)) }
    else f := by
  simp only [servoFeed, bound_iff]; rfl

/-- A servo expiry goes through the 128 records and leaves the rest of the state but the interval counter (R47). -/
theorem servoExpire_eq (s : State) : ∃ feeds, servoExpire s = { s with servoCount := 0, feeds := feeds } ∧
    ∀ k, Tab.get feedInit feeds k = if k < 128 then servoFeed k (s.feed k) else s.feed k :=
  ⟨_, by rw [servoExpire], fun k => by rw [Tab.get_update]; rfl⟩

/-- Settles O36: a fade completion queues the purge or leaves it pending; a servo expiry goes through the records. -/
theorem fadeCompletionAndServoExpiry : Obligations.FadeCompletionAndServoExpiry := by
  intro k s u f due
  refine ⟨fun owed room => ?_, fun owed full d fade => ?_, fun notOwed => ?_, fun notOwed => ?_, fun owed => ?_⟩
  · exact congrArg Host.Outcome.next ((takeEnd_owed owed).trans (fadeFinish_room (s := { u with closeDue := due }) room))
  · exact congrArg Host.Outcome.next
      ((takeEnd_owed owed).trans (fadeFinish_full (s := { u with closeDue := due }) full fade))
  · exact congrArg Host.Outcome.next (takeEnd_of_not_mem notOwed)
  · exact congrArg Host.Outcome.next (takeEnd_of_not_mem notOwed)
  · obtain ⟨feeds, expired, records⟩ := servoExpire_eq { u with closeDue := u.closeDue.erase .servoExpiry }
    refine ⟨_, congrArg Host.Outcome.next ((takeEnd_owed owed).trans expired), fun m => (records m).trans ?_, rfl⟩
    by_cases inPart : m < 128
    · simp only [servoFeed_eq, inPart, true_and]; rfl
    · simp only [inPart, false_and]; rfl

end Sys2Proof.Machine
end

section
/-! PROOFS. The start of a period (R104, R135) and the due pass (R104, R105, R108). -/
namespace Sys2Proof.Machine

theorem countEvent_ovPending (e : Event) (s : State) : (countEvent e s).ovPending = s.ovPending := by
  obtain ⟨_, _, _, eq⟩ := countEvent_shape e s
  rw [eq]

theorem duePass_ovPending (n : Nat) (s : State) : (duePass n s).ovPending = s.ovPending := by
  obtain ⟨_, _, _, _, _, _, _, _, _, _, _, eq⟩ := duePass_shape n s
  rw [eq]

/-- The due pass and the count of OUTPUT_PERIOD leave the pending override copy, which becomes current (R91, R135). -/
theorem startPeriod_eq (s : State) :
    let v := countEvent .outputPeriod { s with count := s.count + 1#32, phase := .computing, work := [] }
    startPeriod s = { duePass v.cues.length v with ovCurrent := s.ovPending } := by
  simp only [startPeriod, duePass_ovPending, countEvent_ovPending]

/-- Settles O29: a period starts on a link that is UP with none in progress. -/
theorem periodStartCountsAndApplies : Obligations.PeriodStart := by
  intro s u v
  have exec_eq : exec .periodStart s = .next (if u.speakerUp = .up ∧ u.phase = .between then startPeriod u else u) := rfl
  refine ⟨fun up between => ?_, fun not => ?_⟩
  · rw [exec_eq, if_pos ⟨up, between⟩, startPeriod_eq]
  · have stays : ¬(u.speakerUp = .up ∧ u.phase = .between) := by
      rintro ⟨up, between⟩
      rcases not with down | other
      · rw [up] at down; cases down
      · exact other between
    rw [exec_eq, if_neg stays]

/-- No command that can be deferred touches the cue list. -/
theorem applyDeferred_cues {d : Deferred} {s t : State} {n : Notes} {w : List Word}
    (done : applyDeferred d s = .done t n w) : t.cues = s.cues := by
  obtain ⟨_, _, _, _, _, _, _, _, _, _, rfl⟩ := applyDeferred_shape done
  rfl

/-- The due pass at a head that is due applies it (R104). -/
theorem duePass_due {n : Nat} {s : State} {c : Cue} {rest : List Cue} (head : s.cues = c :: rest)
    (due : notAfter c.due s.count = true) : duePass (n + 1) s = duePass n (applyCue c { s with cues := rest }) := by
  rw [duePass, head]; exact if_pos due

/-- The due pass ends at a head that is not due (R104). -/
theorem duePass_notDue {n : Nat} {s : State} {c : Cue} {rest : List Cue} (head : s.cues = c :: rest)
    (notDue : ¬notAfter c.due s.count = true) : duePass n s = s := by
  cases n with
  | zero => rfl
  | succ n => rw [duePass, head]; exact if_neg notDue

theorem duePass_empty {n : Nat} {s : State} (empty : s.cues = []) : duePass n s = s := by
  cases n with
  | zero => rfl
  | succ n => rw [duePass, empty]

/-- An application leaves at most the entries behind the head. -/
theorem applyCue_cues_length (c : Cue) (s : State) : (applyCue c s).cues.length ≤ s.cues.length := by
  unfold applyCue; split
  · rw [cueFault_cues]; exact List.length_filter_le ..
  · next done => rw [applyDeferred_cues done]

/-- As many applications as entries are enough: the pass with more is the same. -/
theorem duePass_of_le (n : Nat) : ∀ (m : Nat) (s : State), s.cues.length ≤ n → s.cues.length ≤ m → duePass n s = duePass m s := by
  induction n with
  | zero =>
    intro m s low _
    have empty : s.cues = [] := List.length_eq_zero_iff.1 (by omega)
    rw [duePass_empty empty, duePass_empty empty]
  | succ n ih =>
    intro m s low high
    cases head : s.cues with
    | nil => rw [duePass_empty head, duePass_empty head]
    | cons c rest =>
      by_cases due : notAfter c.due s.count = true
      · rw [head, List.length_cons] at low high
        obtain ⟨k, rfl⟩ : ∃ k, m = k + 1 := ⟨m - 1, by omega⟩
        have left : (applyCue c { s with cues := rest }).cues.length ≤ rest.length := applyCue_cues_length ..
        rw [duePass_due head due, duePass_due head due]
        exact ih k _ (by omega) (by omega)
      · rw [duePass_notDue head due, duePass_notDue head due]

/-- Settles O30: the pass by its head, an entry at a time. -/
theorem duePassAppliesCues : Obligations.DuePassAppliesCues := by
  unfold Obligations.DuePassAppliesCues
  intro pass
  have goesOn {s t : State} {c : Cue} {rest : List Cue} (head : s.cues = c :: rest)
      (due : (s.count - c.due).toNat < 2 ^ 31) (applied : applyCue c { s with cues := rest } = t)
      (left : t.cues.length ≤ rest.length) : pass s = pass t := by
    have length : s.cues.length = rest.length + 1 := by rw [head]; rfl
    simp only [pass, length]
    rw [duePass_due head ((notAfter_iff _ _).2 due), applied]
    exact duePass_of_le _ _ t left le_rfl
  refine ⟨fun s empty => duePass_empty empty, fun s c rest head late => ?_,
    fun s t c rest notes words head due done => ?_, fun s c rest code head due refused => ?_⟩
  · exact duePass_notDue head (mt (notAfter_iff _ _).1 (Nat.not_lt.2 late))
  · have cues : t.cues = rest := applyDeferred_cues done
    exact ⟨cues, goesOn head due (by rw [applyCue, done]) (by rw [cues])⟩
  · refine goesOn head due ?_ ?_
    · rw [applyCue, refused]
      simp only [cueFault, inBatch, otherBatches, List.countP_eq_length_filter]
    · rw [countEvent_cues, offerUrgent_cues]; exact List.length_filter_le ..

end Sys2Proof.Machine
end

section
/-! PROOFS. The walker's events: JOB_START (R12, R117, R118), its steps (R119 to R123), HELD_REPORT_POST (R124) and
BURST_TAKE (R150). -/
namespace Sys2Proof.Machine

/-- A job start is due when the walker is IDLE and a job is queued (R118). -/
theorem startDue_iff (s : State) : startDue s = true ↔ s.walker = .idle ∧ s.jobs ≠ [] := by
  cases jobs : s.jobs <;> simp [startDue, jobs]

/-- Nothing is started when the walker is busy or no job is queued (R118). -/
theorem startIfDue_stays {s : State} (h : s.walker ≠ .idle ∨ s.jobs = []) : startIfDue s = s := by
  refine if_neg fun due => ?_
  obtain ⟨idle, queued⟩ := (startDue_iff s).1 due
  rcases h with busy | empty
  · exact busy idle
  · exact queued empty

/-- A FADING slot with purge pending. -/
def isPending (s : State) (k : Nat) : Prop :=
  k < 128 ∧ (s.feed k).lifecycle = .fading ∧ (s.feed k).purgePending = some true

theorem pendingPurge_eq_none_iff (s : State) : pendingPurge s = none ↔ ∀ k, ¬isPending s k := by
  simp [pendingPurge, isPending]

/-- The pending purge found is the lowest-numbered (R12). -/
theorem pendingPurge_eq_some {s : State} {k : Nat} (pending : isPending s k) (lower : ∀ m < k, ¬isPending s m) :
    pendingPurge s = some k := by
  obtain ⟨inPart, fading, flag⟩ := pending
  refine List.find?_range_eq_some.2 ⟨by simp [fading, flag], List.mem_range.2 inPart, fun m before => ?_⟩
  simp only [Bool.not_eq_true', decide_eq_false_iff_not]
  exact fun h => lower m before ⟨by omega, h⟩

/-- Settles O38: the job start, and the purge that takes the place it leaves. -/
theorem jobStartRunsHeadJob : Obligations.JobStart := by
  intro s pending
  refine ⟨fun h => congrArg Host.Outcome.next (startIfDue_stays h), fun j rest idle queue => ?_⟩
  intro fresh started
  have due : startDue s = true := (startDue_iff s).2 ⟨idle, by simp [queue]⟩
  have run : freshJob j = fresh := by cases j <;> rfl
  have starts : exec .jobStart s = .next (placePurge started) := by
    refine congrArg Host.Outcome.next ?_
    rw [startIfDue, if_pos due, startJob_cons s j rest queue, run]
  have same (k : Nat) : isPending started k ↔ pending k := .rfl
  refine ⟨fun nobody => ?_, fun k isK lower => ?_⟩
  · rw [starts, placePurge, (pendingPurge_eq_none_iff started).2 fun k => mt (same k).1 (nobody k)]
  · rw [starts, placePurge, pendingPurge_eq_some ((same k).2 isK) fun m before => mt (same m).1 (lower m before)]
    rfl

section
variable {s : State}

theorem exec_purgeStep {slot c : Nat} (walker : (settle s).walker = .running (.purge slot c)) : exec .purgeStep s =
    .next (if granted (settle s).arbiter .walker then releasePort (purgeOn slot c (settle s)) else settle s) := by
  simp only [exec, execPurgeStep, walker]

theorem exec_recodeStep {j : RecodeJob} {f remaining changed filtered : Nat}
    (walker : (settle s).walker = .running (.recode j f remaining changed filtered)) : exec .recodeStep s =
      .next (if granted (settle s).arbiter .walker then
        releasePort (recodeOn j f remaining changed filtered (settle s)) else settle s) := by
  simp only [exec, execRecodeStep, walker]

theorem exec_scanStep {j : ScanJob} {f remaining : Nat}
    (walker : (settle s).walker = .running (.scan j f remaining)) : exec .scanStep s =
      .next (if granted (settle s).arbiter .walker then releasePort (scanOn j f remaining (settle s)) else settle s) := by
  simp only [exec, execScanStep, walker]

end

/-- The release of a route leaves every feed record. -/
theorem releaseRoute_feed (c k : Nat) (s : State) (m : Nat) : (releaseRoute c k s).feed m = s.feed m := by
  unfold releaseRoute; split <;> rfl

theorem freeSlot_of_dirPos {slot pos : Nat} {s : State} (place : (s.feed slot).dirPos = some pos) :
    freeSlot slot s = (s.setDirEntry pos none).setFeed slot freeFeed := by
  unfold freeSlot; rw [place]

/-- Settles O39: the purge step on its list, and the purge completion on list 63. -/
theorem purgeStepReleasesRoute : Obligations.PurgeStep := by
  intro s slot c walker u held removed
  have released : releaseRoute c slot u = removed := by
    by_cases has : held = true
    · have entry : ∃ e ∈ u.list c, e.feed = slot := by simpa [held] using has
      rw [releaseRoute_held entry]; exact (if_pos has).symm
    · have none : ∀ e ∈ u.list c, e.feed ≠ slot := by simpa [held] using has
      rw [releaseRoute_absent none]; exact (if_neg has).symm
  have stepped (grant : granted u.arbiter .walker = true) {t : State} (on : purgeOn slot c u = t) :
      exec .purgeStep s = .next (releasePort t) := by
    rw [exec_purgeStep walker, if_pos grant, on]
  refine ⟨fun ungranted => ?_, fun grant more => stepped grant ?_, fun grant last pos place => ⟨_, rfl, stepped grant ?_⟩⟩
  · rw [exec_purgeStep walker, if_neg (by simpa using ungranted)]
  · exact released ▸ if_neg (Nat.not_le.2 more)
  · have named : ((releaseRoute c slot u).feed slot).dirPos = some pos := by rw [releaseRoute_feed]; exact place
    have completes : purgeOn slot c u = endJob (freeSlot slot (releaseRoute c slot u)) := if_pos last
    rw [completes, freeSlot_of_dirPos named, released, endJob_eq]

/-- The end of a job with a report: posted into a free place, else held (R124). -/
theorem endWithReport_free {r : JobReport} {s : State} (free : s.placeFree = true) :
    endWithReport r s = startIfDue (jobEnded { s with replies := s.replies ++ [.report r] }) := by
  rw [endWithReport_eq, if_pos free]

theorem endWithReport_held {r : JobReport} {s : State} (full : ¬s.placeFree = true) :
    endWithReport r s = { jobEnded s with walker := .holding r } := by
  rw [endWithReport_eq, if_neg full]

/-- A retarget through a recode table, in numbers (R76, R121). -/
theorem retarget_eq (c k code ramp : Nat) (s : State) : retarget c k code ramp s =
    s.setList c ((s.list c).map fun d => if d.feed = k then
      { d with code := code, target := s.law code, remaining := 2 ^ ramp,
               increment := ((s.law code : Int) * 256 - d.current).tdiv (2 ^ ramp), readSince := false } else d) := rfl

theorem countEvent_placeFree (e : Event) (s : State) : (countEvent e s).placeFree = s.placeFree := by
  obtain ⟨_, _, _, eq⟩ := countEvent_shape e s
  rw [eq]; rfl

theorem countEvent_replies (e : Event) (s : State) : (countEvent e s).replies = s.replies := by
  obtain ⟨_, _, _, eq⟩ := countEvent_shape e s
  rw [eq]

/-- Settles O40: the recode step by the entry found, the notify flag and the place for the report. -/
theorem recodeStepChangesEntry : Obligations.RecodeStep := by
  intro s j f remaining changed filtered walker grant u found ends goesOn
  have stepped {t : State} (on : recodeOn j f remaining changed filtered u = t) :
      exec .recodeStep s = .next (releasePort t) := by
    rw [exec_recodeStep walker, if_pos grant, on]
  have ended {left ch fi : Nat} {exhausted : Bool} {t : State} (place : t.placeFree = u.placeFree) (posted : t.replies = u.replies)
      (on : recodeOn j f remaining changed filtered u = endRecode j left ch fi exhausted t) :
      ends left ch fi exhausted t := by
    simp only [ends]
    cases notify : j.notify with
    | false =>
      rw [if_pos rfl]
      refine ⟨_, rfl, stepped (on.trans ?_)⟩
      rw [endRecode, notify]; exact endJob_eq t
    | true =>
      rw [if_neg (by decide)]
      have report : endRecode j left ch fi exhausted t =
          endWithReport (.recode j.tag j.output j.first left exhausted ch fi) t := by rw [endRecode, notify]; rfl
      split
      · next free =>
        rw [← posted]
        exact ⟨_, rfl, stepped ((on.trans report).trans (endWithReport_free (place.trans free)))⟩
      · next full => exact stepped ((on.trans report).trans (endWithReport_held (place ▸ full)))
  have wentOn {next ch fi : Nat} {t : State} (place : t.placeFree = u.placeFree) (posted : t.replies = u.replies)
      (on : recodeOn j f remaining changed filtered u = recodeNext j next (remaining - 1) ch fi t) :
      goesOn next ch fi t := by
    simp only [goesOn]
    split
    · next last => exact ended place posted (on.trans (if_pos last))
    · next more => exact stepped (on.trans (if_neg more))
  refine ⟨fun none => ended rfl rfl ?_, fun e isFound => ?_⟩
  · have absent : entryFrom f (u.list j.output) = .none := none
    rw [recodeOn, absent]
  · have entry : entryFrom f (u.list j.output) = some e := isFound
    intro n
    refine ⟨fun same on => wentOn (countEvent_placeFree _ _) (countEvent_replies _ _) ?_, fun other => wentOn rfl rfl ?_⟩
    · rw [recodeOn, entry]; exact if_pos ⟨same, on⟩
    · have moves : ¬(n = e.code ∧ u.filter = true) := by
        rintro ⟨same, on⟩
        rcases other with changed | off
        · exact changed same
        · rw [on] at off; cases off
      rw [recodeOn, entry]; exact if_neg moves

/-- Settles O41: no step of the walker is taken out of turn; the scan step by the entry found and the place for the
report. -/
theorem scanStepPassesEntry : Obligations.ScanStep := by
  refine ⟨fun s => ?_, fun s j f remaining walker grant => ?_⟩
  · intro w ungranted
    refine ⟨fun out => ?_, fun out => ?_, fun out => ?_⟩
    · by_cases runs : ∃ slot c, w = .running (.purge slot c)
      · obtain ⟨slot, c, walker⟩ := runs
        have no : granted (settle s).arbiter .walker = false := out.resolve_right fun not => not slot c walker
        rw [exec_purgeStep walker, no]; rfl
      · simp only [exec, execPurgeStep]
        split
        · next slot c walker => exact absurd ⟨slot, c, walker⟩ runs
        all_goals rfl
    · by_cases runs : ∃ j f remaining changed filtered, w = .running (.recode j f remaining changed filtered)
      · obtain ⟨j, f, remaining, changed, filtered, walker⟩ := runs
        have no : granted (settle s).arbiter .walker = false := out.resolve_right fun not => not j f remaining changed filtered walker
        rw [exec_recodeStep walker, no]; rfl
      · simp only [exec, execRecodeStep]
        split
        · next j f remaining changed filtered walker => exact absurd ⟨j, f, remaining, changed, filtered, walker⟩ runs
        all_goals rfl
    · by_cases runs : ∃ j f remaining, w = .running (.scan j f remaining)
      · obtain ⟨j, f, remaining, walker⟩ := runs
        have no : granted (settle s).arbiter .walker = false := out.resolve_right fun not => not j f remaining walker
        rw [exec_scanStep walker, no]; rfl
      · simp only [exec, execScanStep]
        split
        · next j f remaining walker => exact absurd ⟨j, f, remaining, walker⟩ runs
        all_goals rfl
  · intro u found ends
    have stepped {t : State} (on : scanOn j f remaining u = t) : exec .scanStep s = .next (releasePort t) := by
      rw [exec_scanStep walker, if_pos grant, on]
    have ended {left : Nat} {exhausted : Bool} {hit : Option (Nat × Nat)}
        (on : scanOn j f remaining u = endWithReport (.scan j.tag j.output j.first left exhausted hit) u) :
        ends left exhausted hit := by
      simp only [ends]
      split
      · next free => exact ⟨_, rfl, stepped (on.trans (endWithReport_free free))⟩
      · next full => exact stepped (on.trans (endWithReport_held full))
    refine ⟨fun none => ended ?_, fun e isFound => ?_⟩
    · have absent : entryFrom f (u.list j.output) = .none := none
      rw [scanOn, absent]
    · have entry : entryFrom f (u.list j.output) = some e := isFound
      intro v
      refine ⟨fun hit => ended ?_, fun passed last => ended ?_, fun passed more => stepped ?_⟩
      · rw [scanOn, entry]; exact if_pos hit
      · rw [scanOn, entry]; exact (if_neg (not_not.2 passed)).trans (if_pos last)
      · rw [scanOn, entry]; exact (if_neg (not_not.2 passed)).trans (if_neg more)

/-- A take is due: IDLE, a burst waits, and one of the 8 places is free (R150). -/
theorem takeDue_iff (s : State) : takeDue s = true ↔ s.proc = none ∧ s.inbound ≠ [] ∧ s.replies.length < 8 := by
  cases proc : s.proc <;> cases inbound : s.inbound <;>
    simp [takeDue, proc, inbound, State.placeFree, State.reserved, Config.replyPlaces]

/-- Settles O42: the posting of a held report, and the take of the head burst. -/
theorem heldReportAndBurstTake : Obligations.HeldReportAndBurstTake := by
  intro s u
  refine ⟨fun r holds free => ?_, fun not => ?_, fun b rest idle queue room => ?_, fun not => ?_⟩
  · intro posted
    have post : exec .heldReportPost s = .next (startIfDue posted) :=
      congrArg Host.Outcome.next (postIfDue_of_holding holds free)
    refine ⟨post, fun none => post.trans (congrArg Host.Outcome.next (startIfDue_stays (.inr none))), _, post, rfl, ?_⟩
    obtain ⟨_, _, _, _, eq⟩ := startIfDue_shape posted
    rw [eq]
  · have notDue : postDue u = false := by
      rcases not with other | full
      · unfold postDue; split
        · next r holds => exact absurd holds (other r)
        all_goals rfl
      · unfold postDue; split
        · exact full
        all_goals rfl
    exact congrArg Host.Outcome.next (postIfDue_of_not u notDue)
  · have due : takeDue u = true := (takeDue_iff u).2 ⟨idle, by simp [queue], room⟩
    have take : exec .burstTake s = .next (proceed (burstStart b) { u with inbound := rest }) := by
      refine congrArg Host.Outcome.next ((if_pos due).trans ?_)
      rw [takeBurst, queue]
    exact ⟨_, take, proceed_goes _ _⟩
  · have notDue : ¬takeDue u = true := by
      rw [takeDue_iff]
      rintro ⟨idle, queued, room⟩
      rcases not with busy | empty | full
      · exact busy idle
      · exact queued empty
      · omega
    exact congrArg Host.Outcome.next (if_neg notDue)

end Sys2Proof.Machine
end

section
/-! PROOFS. Event counting (R173, R178): the four counters, and the reports that they offer to the urgent slot. -/
namespace Sys2Proof.Machine

/-- The alert of a counter that comes to 2^31. -/
def alertOf (e : Event) (k : Nat) : Urgent := .alert k e 0x80000000#32

/-- The counters of a list that one more occurrence takes to 2^31. -/
def alerting (e : Event) (s : State) (l : List Nat) : List Nat :=
  l.filter fun k => decide ((s.counter k).select = e ∧ (s.counter k).value = 0x7FFFFFFF#32)

/-- Reports offered to the urgent slot one after the other. -/
def offers (us : List Urgent) (s : State) : State := us.foldl (fun t u => offerUrgent u t) s

theorem offerUrgent_counters (u : Urgent) (s : State) (cs : Tab Counter) :
    offerUrgent u { s with counters := cs } = { offerUrgent u s with counters := cs } := by
  cases urgent : s.urgent <;> simp only [offerUrgent, urgent]

theorem offers_counters (us : List Urgent) (cs : Tab Counter) : ∀ s : State,
    offers us { s with counters := cs } = { offers us s with counters := cs } := by
  induction us with
  | nil => exact fun _ => rfl
  | cons u us ih => intro s; simp only [offers, List.foldl_cons, offerUrgent_counters]; exact ih _

/-- A slot that holds a report keeps it, and each offer adds 1 to the further count up to 255 (R173). -/
theorem offers_occupied {r : Urgent} (us : List Urgent) : ∀ s : State, s.urgent = some r → s.further ≤ 255 →
    (offers us s).urgent = some r ∧ (offers us s).further = min 255 (s.further + us.length) := by
  induction us with
  | nil => intro s holds most; exact ⟨holds, by simp only [offers, List.foldl_nil, List.length_nil]; omega⟩
  | cons u us ih =>
    intro s holds most
    have offered : offerUrgent u s = { s with further := min 255 (s.further + 1) } := by unfold offerUrgent; rw [holds]
    obtain ⟨kept, counted⟩ := ih { s with further := min 255 (s.further + 1) } holds (Nat.min_le_left ..)
    simp only [offers, List.foldl_cons, offered]
    refine ⟨kept, counted.trans ?_⟩
    simp only [List.length_cons]; omega

/-- One counter: 1 more when it selects the event, with an alert at 2^31 (R178). -/
theorem bumpCounter_eq (e : Event) (s : State) (k : Nat) : ∃ cs,
    bumpCounter e s k = { offers ((alerting e s [k]).map (alertOf e)) s with counters := cs } ∧
    ∀ j, Tab.get counterInit cs j =
      if j = k ∧ (s.counter k).select = e then { s.counter k with value := (s.counter k).value + 1#32 } else s.counter j := by
  by_cases selects : (s.counter k).select = e
  · have comes : (s.counter k).value + 1#32 = 0x80000000#32 ↔ (s.counter k).value = 0x7FFFFFFF#32 := by bv_omega
    refine ⟨(s.setCounter k { s.counter k with value := (s.counter k).value + 1#32 }).counters, ?_, fun j => ?_⟩
    · simp only [bumpCounter, comes, alerting, List.filter_cons, List.filter_nil, selects, true_and]
      by_cases last : (s.counter k).value = 0x7FFFFFFF#32
      · have value : (s.counter k).value + 1#32 = 0x80000000#32 := comes.2 last
        simp only [if_pos last, decide_eq_true_eq, value]
        exact offerUrgent_counters _ s _
      · simp only [if_neg last, decide_eq_true_eq]; rfl
    · simp only [State.setCounter, Tab.get_put, selects, and_true]; rfl
  · refine ⟨s.counters, ?_, fun j => ?_⟩
    · simp only [bumpCounter, alerting, List.filter_cons, selects, false_and]; rfl
    · rw [if_neg fun h => selects h.2]; rfl

/-- One occurrence at the counters of a list. -/
theorem foldl_bumpCounter_eq (e : Event) (l : List Nat) : ∀ s : State, l.Nodup → ∃ cs,
    l.foldl (bumpCounter e) s = { offers ((alerting e s l).map (alertOf e)) s with counters := cs } ∧
    ∀ j, Tab.get counterInit cs j =
      if j ∈ l ∧ (s.counter j).select = e then { s.counter j with value := (s.counter j).value + 1#32 } else s.counter j := by
  induction l with
  | nil => exact fun s _ => ⟨s.counters, rfl, fun j => by simp; rfl⟩
  | cons k l ih =>
    intro s distinct
    obtain ⟨notIn, distinct⟩ := List.nodup_cons.1 distinct
    obtain ⟨cs, bumped, counters⟩ := bumpCounter_eq e s k
    have other (j : Nat) (ne : j ≠ k) : (bumpCounter e s k).counter j = s.counter j := by
      rw [bumped]; exact (counters j).trans (if_neg fun h => ne h.1)
    have same (j : Nat) (mem : j ∈ l) : (bumpCounter e s k).counter j = s.counter j :=
      other j fun eq => notIn (eq ▸ mem)
    obtain ⟨ds, folded, rest⟩ := ih (bumpCounter e s k) distinct
    have alerts : alerting e (bumpCounter e s k) l = alerting e s l :=
      List.filter_congr fun j mem => by rw [same j mem]
    refine ⟨ds, ?_, fun j => (rest j).trans ?_⟩
    · rw [List.foldl_cons, folded, alerts, bumped, offers_counters]
      have split : alerting e s (k :: l) = alerting e s [k] ++ alerting e s l := List.filter_append (l₁ := [k]) l
      rw [split, List.map_append]
      simp only [offers, List.foldl_append]
    · by_cases atK : j = k
      · subst atK
        have value : (bumpCounter e s j).counter j = Tab.get counterInit cs j := by rw [bumped]; rfl
        rw [if_neg fun h => notIn h.1, value, counters]
        simp
      · rw [other j atK]; simp [atK]

/-- Settles O49: an occurrence of an event at the four counters, and the alerts that they offer. -/
theorem eventsCountAndAlert : Obligations.EventsCountAndAlert := by
  intro e s some t alerts
  obtain ⟨cs, folded, counters⟩ := foldl_bumpCounter_eq e counterNumbers s (by decide)
  have counted : t = { offers ((alerting e s counterNumbers).map (alertOf e)) s with counters := cs } :=
    (if_neg some).trans folded
  have four : alerting e s counterNumbers = alerts := rfl
  rw [four] at counted
  refine ⟨if_pos rfl, fun k => ?_, fun none => ?_, fun r holds most => ?_, fun k rest empty first => ?_, ?_⟩
  · have member : k ∈ counterNumbers ↔ k < 4 := by simp [counterNumbers]; omega
    rw [counted]; simp only [← member]; exact counters k
  · rw [counted, none]; exact ⟨rfl, rfl⟩
  · rw [counted]
    obtain ⟨kept, further⟩ := offers_occupied (alerts.map (alertOf e)) s holds most
    exact ⟨kept, by rw [further, List.length_map]⟩
  · have short : rest.length ≤ 255 := by
      have all : alerts.length ≤ 4 := List.length_filter_le ..
      rw [first, List.length_cons] at all; omega
    have placed : offerUrgent (alertOf e k) s = { s with urgent := .some (alertOf e k), further := 0 } := by
      unfold offerUrgent; rw [empty]
    obtain ⟨kept, further⟩ := offers_occupied (r := alertOf e k) (rest.map (alertOf e))
      { s with urgent := .some (alertOf e k), further := 0 } rfl (Nat.zero_le _)
    rw [counted, first, List.map_cons]
    simp only [offers, List.foldl_cons, placed]
    refine ⟨kept, further.trans ?_⟩
    simp only [List.length_map]; omega
  · obtain ⟨_, _, _, eq⟩ := countEvent_shape e s
    simp only [t, eq]

end Sys2Proof.Machine
end

section
/-! PROOFS. What the part sends: the envelope (R183) and the layouts (R186), the return lane's choice (R174), the frame
event and the gap (R139, R140, R177). -/
namespace Sys2Proof.Machine

/-- A number as a word's two bytes. -/
theorem wordBytes_natWord (n : Nat) : wordBytes (natWord n) = [BitVec.ofNat 8 (n / 256), BitVec.ofNat 8 n] := by
  have high : (BitVec.ofNat 16 n).extractLsb' 8 8 = BitVec.ofNat 8 (n / 256) := by
    apply BitVec.eq_of_toNat_eq
    simp only [BitVec.extractLsb'_toNat, BitVec.toNat_ofNat, Nat.shiftRight_eq_div_pow]; omega
  have low : (BitVec.ofNat 16 n).extractLsb' 0 8 = BitVec.ofNat 8 n := by
    apply BitVec.eq_of_toNat_eq
    simp only [BitVec.extractLsb'_toNat, BitVec.toNat_ofNat, Nat.shiftRight_zero]; omega
  rw [wordBytes, natWord, high, low]

/-- The envelope, byte by byte (R183). -/
theorem envelope_eq (type : Nat) (body : List Byte) : envelope type body = framedBytes type body := by
  simp only [envelope, wordBytes_natWord]; rfl

/-- A byte of one of a count's words is a byte of the count. -/
theorem extract_extract (v : Count) {start offset : Nat} (inside : offset ≤ 8) :
    (v.extractLsb' start 16).extractLsb' offset 8 = v.extractLsb' (start + offset) 8 := by
  ext i inByte
  simp only [BitVec.getElem_extractLsb', BitVec.getLsbD_extractLsb', Nat.add_assoc]
  simp; omega

/-- A count's four bytes, high byte first (R183). -/
theorem countBytes_eq (v : Count) :
    countBytes v = [v.extractLsb' 24 8, v.extractLsb' 16 8, v.extractLsb' 8 8, v.extractLsb' 0 8] := by
  simp only [countBytes, wordBytes, highWord, lowWord, extract_extract v (Nat.le_refl 8), extract_extract v (Nat.zero_le 8)]
  rfl

theorem toNat_eq_ite (b : Bool) : b.toNat = if b = true then 1 else 0 := by cases b <;> rfl

/-- A flag at its bit of a byte. -/
theorem mul_toNat_eq_ite (n : Nat) (b : Bool) : n * b.toNat = if b = true then n else 0 := by cases b <;> simp

/-- The return lane in a state whose lane is free, by what waits (R174). -/
theorem exec_returnLaneChoice {s : State} (up : (settle s).feedUp = .up) (free : (settle s).lane = none) :
    exec .returnLaneChoice s = .next (chooseItem (settle s)) :=
  congrArg Host.Outcome.next (if_pos ⟨up, free⟩)

/-- Settles O50: the return lane's choice by what waits, and each kind's layout. -/
theorem returnLaneChoosesItem : Obligations.ReturnLaneChoosesItem := by
  intro s u i b two four flag code layout urgently own amplifier
  have codes (c : Option Code) : natByte (codeNumber c) = b (code c) := by
    rcases c with _ | c
    · rfl
    · cases c <;> rfl
  have notes (n : Notes) : natByte (notesNumber n) = b (flag n.clamped 1 + flag n.filtered 2 + flag n.rowEnd 4 +
      flag n.readOverflow 8 + flag n.late 16) := by
    simp only [notesNumber, toNat_eq_ite n.clamped, mul_toNat_eq_ite]; rfl
  have laidOut (item : ReturnItem) : itemBytes u.address item = layout item := by
    rcases item with r | ⟨tag, output, first, remaining, exhausted, changed, filtered⟩ |
      ⟨tag, output, first, remaining, exhausted, _ | ⟨slot, value⟩⟩
    · simp only [itemBytes, replyBytes, envelope_eq, codes, notes, countBytes_eq]; rfl
    · simp only [itemBytes, reportBytes, envelope_eq, toNat_eq_ite exhausted]; rfl
    · simp only [itemBytes, reportBytes, envelope_eq, toNat_eq_ite exhausted]; rfl
    · simp only [itemBytes, reportBytes, envelope_eq, toNat_eq_ite exhausted]; rfl
  have urgent (r : Urgent) : urgentBytes u.address u.further r = urgently r := by
    cases r with
    | cueFault number batch kind cancelled command late =>
      simp only [urgentBytes, envelope_eq, codes, toNat_eq_ite late]; rfl
    | alert counter select value => simp only [urgentBytes, envelope_eq, countBytes_eq]; rfl
  have sent (up : u.feedUp = .up) (free : u.lane = none) {t : State} (chosen : chooseItem u = t) : exec i s = .next t :=
    (exec_returnLaneChoice up free).trans (congrArg Host.Outcome.next chosen)
  have ownSent (up : u.feedUp = .up) (free : u.lane = none) {item : ReturnItem} {rest : List ReturnItem}
      (chosen : chooseItem u = sendReply item rest u) : own item rest :=
    sent up free (chosen.trans (by rw [sendReply, laidOut]))
  have exec_eq : exec i s = .next (if u.feedUp = .up ∧ u.lane = none then chooseItem u else u) := rfl
  refine ⟨fun not => ?_, fun noUrgent noReply noRelay => ?_, fun up free r waits => sent up free ?_,
    fun up free noUrgent item rest waits noRelay => ownSent up free ?_,
    fun up free noUrgent item rest noReply waits => sent up free ?_,
    fun up free noUrgent a as c cs replies relay => ⟨fun first => ownSent up free ?_, fun mode turn => sent up free ?_⟩, rfl⟩
  · have stays : ¬(u.feedUp = .up ∧ u.lane = none) := by
      rintro ⟨up, free⟩
      rcases not with down | busy
      · rw [up] at down; cases down
      · exact busy free
    rw [exec_eq, if_neg stays]
  · have nothing : chooseItem u = u := by unfold chooseItem; rw [noUrgent, noReply, noRelay]
    rw [exec_eq, nothing, ite_self]
  · unfold chooseItem; rw [waits]; simp only [sendUrgent, urgent]
  · unfold chooseItem; rw [noUrgent, waits, noRelay]
  · have relayed : chooseItem u = sendRelay item rest u := by unfold chooseItem; rw [noUrgent, noReply, waits]
    exact relayed
  · have replyFirst : replyFirst u = true := by simpa [Machine.replyFirst] using first
    unfold chooseItem; rw [noUrgent, replies, relay]; exact if_pos replyFirst
  · have relayFirst : ¬replyFirst u = true := by simp [replyFirst, mode, turn]
    have relayed : chooseItem u = sendRelay c cs u := by
      unfold chooseItem; rw [noUrgent, replies, relay]; exact if_neg relayFirst
    exact relayed

/-- The slot's owner is the lowest channel that the map sends there (R139). -/
theorem slotOwner_eq_some {s : State} {k c : Nat} (below : c < s.active) (mapped : s.slotOf c = k)
    (lower : ∀ d < c, s.slotOf d ≠ k) : slotOwner s k = some c :=
  List.find?_range_eq_some.2 ⟨by simp [mapped], List.mem_range.2 below, fun d before => by simpa using lower d before⟩

theorem slotOwner_eq_none {s : State} {k : Nat} (nobody : ∀ c < s.active, s.slotOf c ≠ k) : slotOwner s k = none := by
  simpa [slotOwner] using nobody

/-- The frame carries slot k's sample at its place (R139). -/
theorem frameSamples_getD {s : State} {k : Nat} (below : k < s.active) : (frameSamples s).getD k 0 = slotSample s k := by
  simp [frameSamples, below]

theorem channelsHandled_iff (s : State) : channelsHandled s = true ↔ ∀ c < s.active, s.workOf c ≠ .waiting := by
  simp [channelsHandled]

/-- The frame's bytes (R186). -/
theorem frameBytes_eq (count : Count) (samples : List Int) : frameBytes count samples = framedBytes 6
    ([count.extractLsb' 24 8, count.extractLsb' 16 8, count.extractLsb' 8 8, count.extractLsb' 0 8,
      BitVec.ofNat 8 samples.length] ++ samples.flatMap sampleBytes) := by
  rw [frameBytes, envelope_eq, countBytes_eq]; rfl

/-- The frame event, its table of channels by entry (R139, R140). -/
theorem frameSend_eq (s : State) : ∃ work, frameSend s =
      { s with phase := .framed, gapOpen := true, forwardLane := .frame (frameBytes s.count (frameSamples s)), work := work } ∧
    ∀ c, Tab.get workInit work c = if c < 64 then if s.workOf c = .waiting then .passed else s.workOf c else s.workOf c :=
  ⟨_, by rw [frameSend], fun c => by rw [Tab.get_update]; rfl⟩

/-- Settles O26: the frame by slot, and the one foreign burst in the gap behind it. -/
theorem frameAndForeignBurst : Obligations.FrameAndForeignBurst := by
  intro s u handled byte sample
  have frame : exec .frameEvent s = .next (if u.phase = .computing ∧ channelsHandled u then frameSend u else u) := rfl
  refine ⟨fun not => ?_, fun computing all => ?_, fun c rest up open_ queue => ?_, fun not => ?_⟩
  · rw [frame, if_neg (mt (And.imp_right (channelsHandled_iff u).1) not)]
  · obtain ⟨work, sends, entries⟩ := frameSend_eq u
    have length : (frameSamples u).length = u.active := by simp [frameSamples]
    rw [frameBytes_eq, length] at sends
    have goes := frame.trans (congrArg Host.Outcome.next ((if_pos ⟨computing, (channelsHandled_iff u).2 all⟩).trans sends))
    refine ⟨_, frameSamples u, goes, length, fun k below nobody => ?_, fun k below c active mapped lower => ?_,
      fun c inPart => ?_, fun c outside => ?_, rfl⟩
    · rw [frameSamples_getD below, slotSample, slotOwner_eq_none nobody]
    · rw [frameSamples_getD below, slotSample, slotOwner_eq_some active mapped lower]
      dsimp only; cases u.workOf c <;> rfl
    · refine (entries c).trans ?_
      rw [if_pos inPart]
      cases work : u.workOf c <;> rfl
    · exact (entries c).trans (if_neg (Nat.not_lt.2 outside))
  · simp only [exec, execForeignBurstSend]
    rw [queue]
    exact congrArg Host.Outcome.next (if_pos ⟨up, open_⟩)
  · simp only [exec, execForeignBurstSend]
    split
    · rfl
    · next c rest queue =>
      have stays : ¬(u.speakerUp = .up ∧ u.gapOpen = true) := by
        rintro ⟨up, open_⟩
        rcases not with down | closed | empty
        · rw [up] at down; cases down
        · rw [open_] at closed; cases closed
        · rw [empty] at queue; cases queue
      exact congrArg Host.Outcome.next (if_neg stays)

end Sys2Proof.Machine
end

section
/-! PROOFS. The links (R169, R170, R187) and the close of the period (R29, R39, R60, R77, R142, R144). -/
namespace Sys2Proof.Machine

/-- What the processor stands before. -/
theorem atReady_eq_some_iff {r : Ready} {s : State} {x : Exec} :
    atReady r s = some x ↔ ∃ y, s.proc = some y ∧ look y = .ready r x := by
  unfold atReady
  cases proc : s.proc with
  | none => simp
  | some y =>
    cases looked : look y with
    | ready q z =>
      by_cases same : q = r
      · simp [looked, same]
      · simp [looked, same]
    | quiet | refuse | finished => simp [looked]

/-- An edit granted at a feed-link reset is made, as its answer says (R170). -/
theorem editMade_eq {d : Deferred} {s : State} {x : Exec} (edit : d.op.usesPort = true)
    (ready : atReady (.command d.op d.args) s = some x) : editMade s = (applyDeferred d s).stateOr s := by
  obtain ⟨y, proc, looked⟩ := atReady_eq_some_iff.1 ready
  unfold editMade; rw [proc, Option.map_some, looked]
  cases d with
  | setGain | clearOutput => rfl
  | setMaster | setInvert | setDelay | unbind => cases edit

/-- Settles O6: each link event from the state that it finds. -/
theorem linkEvents : Obligations.LinkEvents := by
  intro s u cleared
  have reset : exec .feedLinkReset s = .next (if u.feedUp = .down then feedLinkReset u else u) := rfl
  have lost : exec .speakerLinkDown s = .next
      { (if u.phase = .between then u else closePeriod u) with
        speakerUp := .down, speakerPartial := [], forwardLane := .idle, gapOpen := false } := rfl
  refine ⟨fun down free => ?_, fun down grant d x edit ready => ⟨fun t notes words done => ?_, fun code refused => ?_⟩,
    fun up => ?_, rfl, rfl, fun between => ?_, fun inPeriod => ?_⟩
  · rw [reset, if_pos down, feedLinkReset, if_neg (by rw [free]; decide)]; rfl
  · rw [reset, if_pos down, feedLinkReset, if_pos grant, editMade_eq edit ready, done]; rfl
  · rw [reset, if_pos down, feedLinkReset, if_pos grant, editMade_eq edit ready, refused]; rfl
  · rw [reset, if_neg]
    intro down
    rw [show u.feedUp = .up from up] at down; cases down
  · rw [lost, if_pos between]
  · rw [lost, if_neg inPeriod]

/-- An entry through the close: a ramp step when it was read and is not at its last (R60, R61, R77). -/
theorem closePeriod_entries (u : State) {c : Nat} (inPart : c < 64) : (closePeriod u).list c = (u.list c).map fun e =>
    if (e.readSince = true ∨ u.isSummed c = false) ∧ 1 < e.remaining then
      { e with remaining := e.remaining - 1, current := e.current + e.increment, readSince := false }
    else { e with readSince := false } := by
  rw [closePeriod_list u c inPart, listAtClose]
  cases summed : u.isSummed c with
  | true =>
    rw [if_pos rfl]
    refine List.map_congr_left fun e _ => ?_
    have steps : (rampSteps e && decide (1 < e.remaining)) = true ↔ (e.readSince = true ∨ true = false) ∧ 1 < e.remaining := by
      simp [rampSteps]; omega
    simp only [rampStep, steps]
  | false =>
    rw [if_neg (by decide), readEntries, List.map_map]
    refine List.map_congr_left fun e _ => ?_
    have steps : (rampSteps { e with readSince := true } && decide (1 < e.remaining)) = true ↔
        (e.readSince = true ∨ false = false) ∧ 1 < e.remaining := by
      simp [rampSteps]; omega
    simp only [Function.comp_apply, rampStep, steps]

/-- The feeds that step at the close are the bound ones that were not asked (R29). -/
theorem stepsAtClose_iff (f : Feed) : stepsAtClose f = true ↔ f.bound = true ∧ f.step = none := by
  simp [stepsAtClose]

theorem plays_iff (f : Feed) : plays f = true ↔ f.flow = some .running ∧ 1 ≤ f.fill := by simp [plays]

theorem starves_iff (f : Feed) : starves f = true ↔ f.flow = some .running ∧ f.fill ≤ 0 := by simp [starves]

section
variable {f : Feed}

theorem closeStep_not (asked : ¬stepsAtClose f = true) : closeStep f = f := if_pos (by simpa using asked)

variable (early : stepsAtClose f = true)
include early

theorem closeStep_plays (plays : plays f = true) : closeStep f = stepped (advance f) 0 := by
  rw [closeStep, if_neg (by simp [early]), if_pos plays]

theorem closeStep_starves (starves : starves f = true) : closeStep f = stepped (starvedFeed f) 0 := by
  have idle : ¬plays f = true := by rw [plays_iff]; rw [starves_iff] at starves; omega
  rw [closeStep, if_neg (by simp [early]), if_neg idle, if_pos starves]

theorem closeStep_holds (still : f.flow ≠ some .running) : closeStep f = stepped f 0 := by
  have idle : ¬plays f = true := fun h => still ((plays_iff f).1 h).1
  have fed : ¬starves f = true := fun h => still ((starves_iff f).1 h).1
  rw [closeStep, if_neg (by simp [early]), if_neg idle, if_neg fed]

end

/-- The step taken says whether the feed was FADING (R39). -/
theorem stepped_eq (f : Feed) (x : Int) :
    stepped f x = { f with step := some { sample := x, fading := decide (f.lifecycle = .fading) } } := by
  unfold stepped; cases f.lifecycle <;> rfl

/-- The fade takes a step when the feed was FADING at its period step and periods remain (R39). -/
theorem fadeSteps_iff (f : Feed) : fadeSteps f = true ↔
    ∃ d p, f.fade = some d ∧ f.step = some p ∧ p.fading = true ∧ f.lifecycle = .fading ∧ 0 < d.remaining := by
  unfold fadeSteps
  cases fade : f.fade <;> cases step : f.step <;> simp

theorem fadeStep_moves {f : Feed} {d : Fade} (fade : f.fade = some d) (steps : fadeSteps f = true) (more : 1 < d.remaining) :
    fadeStep f = { f with fade := some { d with remaining := d.remaining - 1, current := d.current + d.increment } } := by
  unfold fadeStep; rw [fade]; exact if_pos (by simp [steps, more])

theorem fadeStep_stays {f : Feed} (last : ∀ d, f.fade = some d → fadeSteps f = true → d.remaining ≤ 1) : fadeStep f = f := by
  unfold fadeStep
  cases fade : f.fade with
  | none => rfl
  | some d =>
    refine if_neg fun h => ?_
    simp only [Bool.and_eq_true, decide_eq_true_eq] at h
    have := last d fade h.1
    omega

theorem fadeEnds_iff (f : Feed) : fadeEnds f = true ↔ ∃ d, f.fade = some d ∧ fadeSteps f = true ∧ d.remaining = 1 := by
  unfold fadeEnds; cases fade : f.fade <;> simp

/-- A fade completion that the close owes (R11, R39). -/
theorem fadeCompletion_mem_close_iff (u : State) (k : Nat) : .fadeCompletion k ∈ (closePeriod u).closeDue ↔
    k < 128 ∧ ∃ d p, (u.feed k).lifecycle = .fading ∧ (u.feed k).fade = some d ∧ d.remaining = 1 ∧
      (closeStep (u.feed k)).step = some p ∧ p.fading = true := by
  obtain ⟨life, fade, -⟩ := closeStep_keeps (u.feed k)
  rw [closePeriod_due, fadeCompletion_mem_closeOwes, fadeEnds_iff]
  simp only [fadeSteps_iff, life, fade]
  constructor
  · rintro ⟨inPart, d, isFade, ⟨e, p, same, step, fading, isFading, -⟩, last⟩
    exact ⟨inPart, d, p, isFading, isFade, last, step, fading⟩
  · rintro ⟨inPart, d, p, isFading, isFade, last, step, fading⟩
    exact ⟨inPart, d, isFade, ⟨d, p, isFade, step, fading, isFading, by omega⟩, last⟩

/-- The end of a ramp that a close owes is one of a list. -/
theorem listEnd_mem_close_iff (u : State) {w : CloseWork} {c f : Nat} (ramp : w = .rampEnd c f ∨ w = .autoRelease c f) :
    w ∈ (closePeriod u).closeDue ↔ ∃ d < 64, w ∈ listEnds u d := by
  rw [closePeriod_due, mem_closeOwes]
  refine ⟨fun owed => ?_, .inl⟩
  rcases owed with ends | ⟨k, -, fade⟩ | ⟨d, -, dip⟩ | ⟨-, servo⟩
  · exact ends
  · rcases ramp with rfl | rfl <;> cases fade
  · rcases (mem_dipEnds u d w).1 dip with ⟨_, _, -, -, move⟩ | ⟨_, -, -, rise⟩
    · rcases ramp with rfl | rfl <;> cases move
    · rcases ramp with rfl | rfl <;> cases rise
  · rcases ramp with rfl | rfl <;> cases servo

/-- The final ramp steps that the close owes (R77). -/
theorem rampEnd_mem_close_iff (u : State) (c f : Nat) : .rampEnd c f ∈ (closePeriod u).closeDue ↔
    c < 64 ∧ ∃ e ∈ u.list c, e.feed = f ∧ (e.readSince = true ∨ u.isSummed c = false) ∧ e.remaining = 1 ∧ e.code ≠ 0 := by
  rw [listEnd_mem_close_iff u (.inl rfl)]
  constructor
  · rintro ⟨d, inPart, ends⟩
    obtain ⟨e, mem, read, last, eq⟩ := (mem_listEnds u d _).1 ends
    split at eq
    · cases eq
    · next code => cases eq; exact ⟨inPart, e, mem, rfl, read, last, code⟩
  · rintro ⟨inPart, e, mem, rfl, read, last, code⟩
    exact ⟨c, inPart, (mem_listEnds u c _).2 ⟨e, mem, read, last, (if_neg code).symm⟩⟩

/-- The releases that the close owes (R69). -/
theorem autoRelease_mem_close_iff (u : State) (c f : Nat) : .autoRelease c f ∈ (closePeriod u).closeDue ↔
    c < 64 ∧ ∃ e ∈ u.list c, e.feed = f ∧ (e.readSince = true ∨ u.isSummed c = false) ∧ e.remaining = 1 ∧ e.code = 0 := by
  rw [listEnd_mem_close_iff u (.inr rfl)]
  constructor
  · rintro ⟨d, inPart, ends⟩
    obtain ⟨e, mem, read, last, eq⟩ := (mem_listEnds u d _).1 ends
    split at eq
    · next code => cases eq; exact ⟨inPart, e, mem, rfl, read, last, code⟩
    · cases eq
  · rintro ⟨inPart, e, mem, rfl, read, last, code⟩
    exact ⟨c, inPart, (mem_listEnds u c _).2 ⟨e, mem, read, last, (if_pos code).symm⟩⟩

/-- No list owes the end of a dip. -/
theorem dipEnd_mem_close_iff (u : State) {w : CloseWork} {c : Nat} (dip : w = .dipDelayMove c ∨ w = .dipRiseEnd c) :
    w ∈ (closePeriod u).closeDue ↔ ∃ d < 64, w ∈ dipEnds u d := by
  rw [closePeriod_due, mem_closeOwes]
  refine ⟨fun owed => ?_, fun ends => .inr (.inr (.inl ends))⟩
  rcases owed with ⟨d, -, list⟩ | ⟨k, -, fade⟩ | ends | ⟨-, servo⟩
  · obtain ⟨e, -, -, -, eq⟩ := (mem_listEnds u d w).1 list
    rcases dip with rfl | rfl <;> split at eq <;> cases eq
  · rcases dip with rfl | rfl <;> cases fade
  · exact ends
  · rcases dip with rfl | rfl <;> cases servo

/-- The falls that end at the close (R144). -/
theorem dipDelayMove_mem_close_iff (u : State) (c : Nat) : .dipDelayMove c ∈ (closePeriod u).closeDue ↔
    c < 64 ∧ ∃ level pending, u.dip c = .falling level pending ∧ level ≤ 1 := by
  rw [dipEnd_mem_close_iff u (.inl rfl)]
  constructor
  · rintro ⟨d, inPart, ends⟩
    rcases (mem_dipEnds u d _).1 ends with ⟨level, pending, falling, low, eq⟩ | ⟨_, -, -, eq⟩
    · cases eq; exact ⟨inPart, level, pending, falling, low⟩
    · cases eq
  · rintro ⟨inPart, level, pending, falling, low⟩
    exact ⟨c, inPart, (mem_dipEnds u c _).2 (.inl ⟨level, pending, falling, low, rfl⟩)⟩

/-- The rises that end at the close (R144). -/
theorem dipRiseEnd_mem_close_iff (u : State) (c : Nat) : .dipRiseEnd c ∈ (closePeriod u).closeDue ↔
    c < 64 ∧ ∃ level, u.dip c = .rising level ∧ 31 ≤ level := by
  rw [dipEnd_mem_close_iff u (.inr rfl)]
  constructor
  · rintro ⟨d, inPart, ends⟩
    rcases (mem_dipEnds u d _).1 ends with ⟨_, _, -, -, eq⟩ | ⟨level, rising, high, eq⟩
    · cases eq
    · cases eq; exact ⟨inPart, level, rising, high⟩
  · rintro ⟨inPart, level, rising, high⟩
    exact ⟨c, inPart, (mem_dipEnds u c _).2 (.inr ⟨level, rising, high, rfl⟩)⟩

theorem servoExpiry_mem_close_iff (u : State) : .servoExpiry ∈ (closePeriod u).closeDue ↔ ¬(u.servoCount + 1 < u.servoN) := by
  rw [closePeriod_due, mem_closeOwes]
  refine ⟨fun owed => ?_, fun expires => .inr (.inr (.inr ⟨expires, rfl⟩))⟩
  rcases owed with ⟨d, -, list⟩ | ⟨k, -, fade⟩ | ⟨d, -, dip⟩ | ⟨expires, -⟩
  · obtain ⟨e, -, -, -, eq⟩ := (mem_listEnds u d _).1 list
    split at eq <;> cases eq
  · cases fade
  · rcases (mem_dipEnds u d _).1 dip with ⟨_, _, -, -, eq⟩ | ⟨_, -, -, eq⟩ <;> cases eq
  · exact expires

theorem wasComputed_iff (u : State) (c : Nat) : wasComputed u c = true ↔ ∃ v, u.workOf c = .computed v := by
  unfold wasComputed; cases u.workOf c <;> simp

/-- The close leaves everything but the lists, feeds, lines, dips and the fields of the period. -/
theorem closePeriod_frame (u : State) : ∃ lists feeds lines dips, closePeriod u =
    countEvents ((closeUnderruns u).map fun _ => Event.feedUnderrun)
      { u with phase := .between, work := [], summed := [], closeDue := (closePeriod u).closeDue,
               servoCount := (closePeriod u).servoCount, lists := lists, feeds := feeds, lines := lines, dips := dips } :=
  ⟨_, _, _, _, by rw [closePeriod_due, closePeriod_servo, closePeriod]⟩

/-- Settles O34: the close by list, feed, line, dip and interval counter, and what it owes. -/
theorem periodCloseStepsAll : Obligations.PeriodClose := by
  refine ⟨fun s framed => congrArg Host.Outcome.next (if_pos framed), fun s other => congrArg Host.Outcome.next (if_neg other),
    fun u => ?_⟩
  intro t read early waiting
  have early_iff (f : Feed) : stepsAtClose f = true ↔ early f := stepsAtClose_iff f
  refine ⟨fun c inPart => closePeriod_entries u inPart, fun k inPart => ?feed,
    fun f late => closeStep_not (mt (early_iff f).1 late), fun f isEarly => ?step, fun f d p fading fade step was more => ?fade,
    fun f last => ?noFade, fun c inPart => ⟨fun v computed => ?computed, fun passed p => ?silence⟩, fun c inPart => ?dip,
    closePeriod_servo u, rampEnd_mem_close_iff u, autoRelease_mem_close_iff u, fadeCompletion_mem_close_iff u,
    dipDelayMove_mem_close_iff u, dipRiseEnd_mem_close_iff u, servoExpiry_mem_close_iff u, ?frame⟩
  case feed => exact (closePeriod_feed u k).trans (if_pos inPart)
  case step =>
    have steps := (early_iff f).2 isEarly
    intro held position
    refine ⟨fun running some => ?_, fun running none => ?_, fun still => ?_⟩
    · rw [closeStep_plays steps ((plays_iff f).2 ⟨running, some⟩), stepped_eq]; rfl
    · rw [closeStep_starves steps ((starves_iff f).2 ⟨running, none⟩), stepped_eq]; rfl
    · rw [closeStep_holds steps still, stepped_eq]
  case fade => exact fadeStep_moves fade ((fadeSteps_iff f).2 ⟨d, p, fade, step, was, fading, by omega⟩) more
  case noFade =>
    refine fadeStep_stays fun d fade steps => ?_
    obtain ⟨e, p, same, step, was, fading, -⟩ := (fadeSteps_iff f).1 steps
    exact last d p fading fade step was
  case computed =>
    rw [show t.line c = _ from closePeriod_line u c inPart, if_pos ((wasComputed_iff u c).2 ⟨v, computed⟩)]
  case silence =>
    have silent : ¬wasComputed u c = true := fun h => by
      obtain ⟨v, computed⟩ := (wasComputed_iff u c).1 h
      exact passed v computed
    rw [show t.line c = _ from closePeriod_line u c inPart, if_neg silent, writeLine, Tab.get_put]; rfl
  case dip =>
    rw [show t.dip c = _ from closePeriod_dip u c inPart]
    cases u.dip c <;> rfl
  case frame =>
    have starving (k : Nat) : (stepsAtClose (u.feed k) && starves (u.feed k)) =
        decide (early (u.feed k) ∧ (u.feed k).flow = some .running ∧ (u.feed k).fill ≤ 0) := by
      rw [Bool.eq_iff_iff, Bool.and_eq_true, early_iff, starves_iff, decide_eq_true_iff]
    have under : closeUnderruns u = (List.range 128).filter fun k => decide (early (u.feed k) ∧
        (u.feed k).flow = some .running ∧ (u.feed k).fill ≤ 0) := List.filter_congr fun k _ => starving k
    rw [← under]
    exact closePeriod_frame u

end Sys2Proof.Machine
end

section
/-! PROOFS. Feeds in the period: accepted bursts (R16 to R19, R26) and sample requests (R27 to R38). -/
namespace Sys2Proof.Machine

/-- An accepted burst writes what the ring has room for, and counts its gap and its overrun (R17 to R19, R26). -/
theorem acceptBurst_eq {f : Feed} {seq : Nat} {samples : List Int} (low : -2 ≤ f.fill) (high : f.fill ≤ 48)
    (short : samples.length ≤ 32) :
    let n := min samples.length (48 - f.fill).toNat
    ∃ ring, acceptBurst f seq samples = { f with
        ring := ring, written := f.written + BitVec.ofNat 32 n, lastSeq := some seq,
        overruns := if n < samples.length then bump16 f.overruns else f.overruns,
        gaps := if seqDistance f seq = 0 then f.gaps else bump16 f.gaps,
        flow := if (f.flow = some .priming ∨ f.flow = some .starved) ∧ (f.threshold : Int) ≤ f.fill + n then
          some .running else f.flow } ∧
      (f.written + BitVec.ofNat 32 n - f.index).toInt = f.fill + n ∧
      (∀ k < n, Tab.get silence ring ((f.written + BitVec.ofNat 32 k).toNat % 64) = samples.getD k 0) ∧
      ∀ place, (∀ k < n, place ≠ (f.written + BitVec.ofNat 32 k).toNat % 64) → Tab.get silence ring place = f.ringAt place := by
  intro n
  obtain ⟨ring, wrote, discards, fill, written, kept⟩ := writeSamples_spec samples
    { f with gaps := if seqDistance f seq = 0 then f.gaps else bump16 f.gaps, lastSeq := some seq } low high short
  rw [wrote] at fill
  have filled : (f.written + BitVec.ofNat 32 n - f.index).toInt = f.fill + n := fill
  refine ⟨ring, ?_, filled, written, kept⟩
  rw [acceptBurst, flowTest_eq]
  simp only [wrote, discards, decide_eq_true_eq]
  rw [← filled]
  rfl

/-- Settles O16: the record after an accepted burst, field by field. -/
theorem acceptedBurstFillsRing : Obligations.AcceptedBurstFillsRing := by
  intro f seq samples short low high n d g
  obtain ⟨ring, accepted, filled, written, kept⟩ := acceptBurst_eq (seq := seq) low high short
  have record : g = _ := accepted
  rw [record]
  exact ⟨rfl, filled, rfl, written, kept, rfl, rfl, rfl, rfl⟩

/-- The lookup finds the lowest way that holds the id (R5). -/
theorem lookup_eq_some {s : State} {id : Word} {w slot : Nat} (isWay : w < 4)
    (held : s.dirEntry (wayPos s id w) = some { streamId := id, slot := slot })
    (lower : ∀ q < w, (s.dirEntry (wayPos s id q)).map DirEntry.streamId ≠ some id) : lookup s id = some slot := by
  have ways : [0, 1, 2, 3] = List.range w ++ w :: List.range' (w + 1) (3 - w) := by interval_cases w <;> rfl
  refine List.findSome?_eq_some_iff.2 ⟨_, w, _, ways, by simp [held], fun q before => ?_⟩
  have other := lower q (List.mem_range.1 before)
  cases entry : s.dirEntry (wayPos s id q) with
  | none => simp
  | some e => simpa [entry] using other

theorem lookup_eq_none {s : State} {id : Word}
    (nobody : ∀ w < 4, (s.dirEntry (wayPos s id w)).map DirEntry.streamId ≠ some id) : lookup s id = none := by
  have miss : ¬(lookup s id).isSome = true := by rw [lookup_isSome_iff]; simpa using nobody
  simpa using miss

/-- Settles O15: an audio burst by its lookup, the feed's life and its sequence number. -/
theorem audioArrivalByLookup : Obligations.AudioArrival := by
  intro bytes s id seq samples up received u v i m first holds
  have arrives : exec i s = .next (audioArrival id seq samples v) := by
    have taken : exec i s = .next (if u.feedUp = .up then handOn bytes v else u) := rfl
    rw [taken, if_pos up, handOn, received]
  refine ⟨fun nobody => ?_, fun w slot isWay held lower => ?_⟩
  · have miss : lookup v id = none := lookup_eq_none (s := v) nobody
    rw [arrives, audioArrival, miss]
  · have hit : lookup v id = some slot := lookup_eq_some (s := v) isWay held lower
    intro f bound d
    have same : v.feed slot = f := rfl
    have arrived : audioArrival id seq samples v =
        if !f.bound then v
        else if d < 128 then countEvents (acceptEvents f seq samples) (v.setFeed slot (acceptBurst f seq samples))
        else countEvent .staleBurst (v.setFeed slot { f with stales := bump16 f.stales }) := by
      rw [audioArrival, hit]; rfl
    refine ⟨fun unbound => ?_, fun isBound near short low high => ?_, fun isBound far => ?_⟩
    · rw [arrives, arrived, if_pos ((not_bound_iff f).2 unbound)]
    · obtain ⟨_, -, discards, -⟩ := writeSamples_spec samples f low high short
      have overrun : (writeSamples samples f).2 = decide (48 < f.fill + samples.length) := by
        rw [discards, Bool.eq_iff_iff, decide_eq_true_iff, decide_eq_true_iff]; omega
      have events : acceptEvents f seq samples =
          (if d = 0 then [] else [.seqGap]) ++ (if 48 < f.fill + samples.length then [.feedOverrun] else []) := by
        simp only [acceptEvents, overrun, decide_eq_true_eq]; rfl
      rw [arrives, arrived, if_neg (mt (not_bound_iff f).1 (not_not.2 isBound)), if_pos near, events]
    · rw [arrives, arrived, if_neg (mt (not_bound_iff f).1 (not_not.2 isBound)), if_neg (Nat.not_lt.2 far)]
      simp only [bump16]

/-- The accumulated sum is the sum of the products (R33). -/
theorem filterSum_eq (s : State) (f : Feed) :
    filterSum s f = ((List.range 16).map fun k => tapCoef s f k * tapSample f k).sum := by
  rw [filterSum, List.sum_eq_foldl, List.foldl_map]

section
variable {k : Nat} {s : State}

theorem requestSample_unbound (unbound : ¬(s.feed k).bound = true) : requestSample k s = (s, 0) := by
  simp only [requestSample, Bool.not_eq_true] at *
  simp [unbound]

/-- A bound feed that has not stepped takes its step at the request (R27). -/
theorem requestSample_steps (bound : (s.feed k).bound = true) (first : (s.feed k).step = none) :
    requestSample k s = (countEvents (requestEvents s (s.feed k)) (s.setFeed k (requestStep s (s.feed k))),
      ((requestStep s (s.feed k)).step.map StepTaken.sample).getD 0) := by
  simp [requestSample, bound, first]

/-- A feed that has stepped gives its sample again (R27). -/
theorem requestSample_again {t : StepTaken} (bound : (s.feed k).bound = true) (again : (s.feed k).step = some t) :
    requestSample k s = (s, t.sample) := by
  simp [requestSample, bound, again]

end

section
variable {s : State} {f : Feed}

/-- The period step of a feed that has input (R28, R32 to R36). -/
theorem requestStep_plays (plays : plays f = true) : requestStep s f =
    stepped (advance { f with clips := if saturates (filterScaled s f) then bump16 f.clips else f.clips })
      (fadedSample f (satSample (filterScaled s f))) := if_pos plays

theorem requestEvents_plays (plays : plays f = true) :
    requestEvents s f = if saturates (filterScaled s f) then [.feedClip] else [] := if_pos plays

/-- The period step of a feed that starves (R28). -/
theorem requestStep_starves (starves : starves f = true) : requestStep s f = stepped (starvedFeed f) 0 := by
  have idle : ¬plays f = true := by rw [plays_iff]; rw [starves_iff] at starves; omega
  rw [requestStep, if_neg idle, if_pos starves]

theorem requestEvents_starves (starves : starves f = true) : requestEvents s f = [.feedUnderrun] := by
  have idle : ¬plays f = true := by rw [plays_iff]; rw [starves_iff] at starves; omega
  rw [requestEvents, if_neg idle, if_pos starves]

variable (still : f.flow ≠ some .running)
include still

/-- The period step of a feed that is not RUNNING (R28). -/
theorem requestStep_holds : requestStep s f = stepped f 0 := by
  have idle : ¬plays f = true := fun h => still ((plays_iff f).1 h).1
  have fed : ¬starves f = true := fun h => still ((starves_iff f).1 h).1
  rw [requestStep, if_neg idle, if_neg fed]

theorem requestEvents_holds : requestEvents s f = [] := by
  have idle : ¬plays f = true := fun h => still ((plays_iff f).1 h).1
  have fed : ¬starves f = true := fun h => still ((starves_iff f).1 h).1
  rw [requestEvents, if_neg idle, if_neg fed]

end

/-- Settles O17: the arithmetic of a request by the feed's flow and fill. -/
theorem sampleArithmetic : Obligations.SampleArithmetic := by
  intro k s f bound fading p w h c x acc raw r clipped sample g
  have isBound (b : bound) : (s.feed k).bound = true := (bound_iff f).2 b
  have sum : filterScaled s f = raw := by rw [filterScaled, filterSum_eq]; rfl
  have clips : saturates raw = true ↔ clipped := by rw [saturates, decide_eq_true_iff]; rfl
  refine ⟨fun unbound => requestSample_unbound (mt (bound_iff f).1 unbound), fun b first running some => ?_,
    fun b first running none => ?_, fun b first still => ?_⟩
  · have playing : plays f = true := (plays_iff f).2 ⟨running, some⟩
    rw [requestSample_steps (isBound b) first, show s.feed k = f from rfl, requestStep_plays playing,
      requestEvents_plays playing, sum, stepped_eq]
    simp only [clips]
    have faded : fadedSample f (satSample raw) = sample := by
      simp only [fadedSample, sample]; cases f.fade <;> rfl
    rw [faded]; rfl
  · have starving : starves f = true := (starves_iff f).2 ⟨running, none⟩
    rw [requestSample_steps (isBound b) first, show s.feed k = f from rfl, requestStep_starves starving,
      requestEvents_starves starving, stepped_eq]
    simp only [countEvents, List.foldl_cons, List.foldl_nil, starvedFeed, bump16]
    rfl
  · rw [requestSample_steps (isBound b) first, show s.feed k = f from rfl, requestStep_holds still,
      requestEvents_holds still, stepped_eq]
    simp only [countEvents, List.foldl_nil]
    rfl

/-- Settles O18: after the first request the step stands, and no other record is touched. -/
theorem oneStepPerPeriod : Obligations.OneStepPerPeriod := by
  intro k s
  refine ⟨?_, fun j other => (requestSample_feed k s j).trans (if_neg other)⟩
  by_cases bound : (s.feed k).bound = true
  · cases step : (s.feed k).step with
    | some t => rw [requestSample_again bound step]; exact requestSample_again bound step
    | none =>
      have feed := requestSample_feed k s k
      rw [if_pos rfl, if_pos ⟨bound, step⟩] at feed
      obtain ⟨life, taken⟩ := requestStep_keeps s (s.feed k)
      obtain ⟨t, isTaken⟩ := Option.isSome_iff_exists.1 taken
      have stillBound : ((requestSample k s).1.feed k).bound = true := by
        rw [feed, Feed.bound, life]; exact bound
      have value : (requestSample k s).2 = t.sample := by rw [requestSample_steps bound step, isTaken]; rfl
      rw [requestSample_again stillBound (feed ▸ isTaken), value]
  · rw [requestSample_unbound bound]; exact requestSample_unbound bound

end Sys2Proof.Machine
end

section
/-! PROOFS. The summing engine (R79 to R84, R93): what the requests of a channel do to the feeds and the event counters,
what the output stage does with the channel's value (R142, R145), and the statements about a channel. -/
namespace Sys2Proof.Machine

/-- A request leaves the coefficient banks. -/
theorem requestSample_coef (k : Nat) (s : State) : (requestSample k s).1.coef = s.coef := by
  obtain ⟨_, _, _, _, eq⟩ := requestSample_shape k s
  rw [eq]

/-- A request reads the feed's record and the coefficient banks. -/
theorem requestSample_congr {k : Nat} {s t : State} (feed : t.feed k = s.feed k) (coef : t.coef = s.coef) :
    (requestSample k t).2 = (requestSample k s).2 ∧ (requestSample k t).1.feed k = (requestSample k s).1.feed k := by
  have step := (requestStep_coef s t (s.feed k) coef).1
  rw [requestSample_val, requestSample_val, requestSample_feed, requestSample_feed, feed, step]
  exact ⟨rfl, rfl⟩

/-- A request after another to any feed gives what it would have given before (R27). -/
theorem requestSample_after (j k : Nat) (s : State) :
    (requestSample j (requestSample k s).1).2 = (requestSample j s).2 ∧
      (requestSample j (requestSample k s).1).1.feed j = (requestSample j s).1.feed j := by
  obtain ⟨twice, others⟩ := oneStepPerPeriod k s
  by_cases same : j = k
  · rw [same, twice]; exact ⟨rfl, rfl⟩
  · exact requestSample_congr (others j same) (requestSample_coef k s)

/-- The state after requests to feeds, one after the other. -/
def asked (ks : List Nat) (s : State) : State := ks.foldl (fun t k => (requestSample k t).1) s

/-- The feed records after requests: those asked have their step, the others are as they were. -/
theorem asked_feed (ks : List Nat) : ∀ (s : State) (j : Nat),
    (asked ks s).feed j = if j ∈ ks then (requestSample j s).1.feed j else s.feed j := by
  induction ks with
  | nil => exact fun s j => (if_neg List.not_mem_nil).symm
  | cons k ks ih =>
    intro s j
    refine (ih (requestSample k s).1 j).trans ?_
    by_cases later : j ∈ ks
    · rw [if_pos later, if_pos (List.mem_cons_of_mem k later)]; exact (requestSample_after j k s).2
    · rw [if_neg later]
      by_cases same : j = k
      · rw [same, if_pos List.mem_cons_self]
      · rw [if_neg (by simp [same, later])]; exact (oneStepPerPeriod k s).2 j same

theorem asked_shape (ks : List Nat) : ∀ s : State, ∃ f x y z,
    asked ks s = { s with feeds := f, counters := x, urgent := y, further := z } := by
  induction ks with
  | nil => exact fun s => ⟨_, _, _, _, rfl⟩
  | cons k ks ih =>
    intro s
    obtain ⟨_, _, _, _, one⟩ := requestSample_shape k s
    obtain ⟨_, _, _, _, rest⟩ := ih (requestSample k s).1
    exact ⟨_, _, _, _, rest.trans (by rw [one])⟩

/-- The walk of a list asks its feeds and sums their samples, each as a lone request would give it (R79, R80). -/
theorem sumEntries_eq (l : List MixEntry) : ∀ (s : State) (acc : Int), sumEntries l s acc =
    (asked (l.map MixEntry.feed) s, acc + (l.map fun e => (requestSample e.feed s).2 * e.applied).sum) := by
  induction l with
  | nil => intro s acc; simp [sumEntries, asked]
  | cons e es ih =>
    intro s acc
    have later : (es.map fun d => (requestSample d.feed (requestSample e.feed s).1).2 * d.applied) =
        es.map fun d => (requestSample d.feed s).2 * d.applied :=
      List.map_congr_left fun d _ => by rw [(requestSample_after d.feed e.feed s).1]
    simp only [sumEntries, ih, later, List.map_cons, List.sum_cons, add_assoc]
    rfl

/-- Two states with the same event counters and urgent slot. -/
structure SameCounts (s t : State) : Prop where
  counters : t.counters = s.counters
  urgent : t.urgent = s.urgent
  further : t.further = s.further

theorem SameCounts.trans {s t u : State} (a : SameCounts s t) (b : SameCounts t u) : SameCounts s u :=
  ⟨b.counters.trans a.counters, b.urgent.trans a.urgent, b.further.trans a.further⟩

/-- Counting rests on the counters and the urgent slot alone. -/
theorem SameCounts.countEvents {s t : State} (h : SameCounts s t) (es : List Event) :
    SameCounts (countEvents es s) (countEvents es t) := by
  have eq := countEvents_local es s t h.counters h.urgent h.further
  exact ⟨by rw [eq], by rw [eq], by rw [eq]⟩

/-- The events of a request (R28, R35). -/
def eventsAsked (s : State) (k : Nat) : List Event :=
  if (s.feed k).bound ∧ (s.feed k).step = none then requestEvents s (s.feed k) else []

theorem requestSample_counts (k : Nat) (s : State) :
    SameCounts (countEvents (eventsAsked s k) s) (requestSample k s).1 := by
  by_cases bound : (s.feed k).bound = true
  · cases step : (s.feed k).step with
    | some t =>
      rw [requestSample_again bound step, eventsAsked, if_neg (by simp [step])]
      exact ⟨rfl, rfl, rfl⟩
    | none =>
      rw [requestSample_steps bound step, eventsAsked, if_pos ⟨bound, step⟩]
      exact SameCounts.countEvents (s := s) (t := s.setFeed k (requestStep s (s.feed k))) ⟨rfl, rfl, rfl⟩ _
  · rw [requestSample_unbound bound, eventsAsked, if_neg fun h => bound h.1]
    exact ⟨rfl, rfl, rfl⟩

/-- Requests to distinct feeds count the events of each. -/
theorem asked_counts (ks : List Nat) : ∀ s : State, ks.Nodup →
    SameCounts (countEvents (ks.flatMap (eventsAsked s)) s) (asked ks s) := by
  induction ks with
  | nil => exact fun s _ => ⟨rfl, rfl, rfl⟩
  | cons k ks ih =>
    intro s distinct
    obtain ⟨notIn, distinct⟩ := List.nodup_cons.1 distinct
    have same : ks.flatMap (eventsAsked (requestSample k s).1) = ks.flatMap (eventsAsked s) := by
      refine List.flatMap_congr fun j mem => ?_
      have other : (requestSample k s).1.feed j = s.feed j := (oneStepPerPeriod k s).2 j fun eq => notIn (eq ▸ mem)
      have events := (requestStep_coef s (requestSample k s).1 (s.feed j) (requestSample_coef k s)).2
      simp only [eventsAsked, other, events]
    have rest := ih (requestSample k s).1 distinct
    rw [same] at rest
    rw [List.flatMap_cons, countEvents_append]
    exact ((requestSample_counts k s).countEvents _).trans rest

/-- A clipped channel has one more on its counter, and the event is counted (R84). -/
theorem markClip_eq (c : Nat) (clipped : Bool) (s : State) : markClip c clipped s =
    { (if clipped then countEvent .outputClip s else s) with
      outClips := if clipped then Tab.put zeroInit s.outClips c (bump16 (s.clipCount c)) else s.outClips } := by
  cases clipped with
  | false => rfl
  | true =>
    obtain ⟨_, _, _, eq⟩ := countEvent_shape .outputClip s
    have moved := countEvent_local .outputClip s
      { s with outClips := Tab.put zeroInit s.outClips c (bump16 (s.clipCount c)) } rfl rfl rfl
    refine moved.trans ?_
    simp only [if_true, eq]

section
variable (c : Nat) (v : Int) (clipped : Bool) (s : State)

/-- Channel c with its value written to its line and its frame sample formed, and its clip marked (R84, R142, R145). -/
def channelOut : State := lineEvent c v (markClip c clipped s)

theorem lineEvent_workOf (d : Nat) : (lineEvent c v s).workOf d =
    if d = c then .computed (dipScale (s.dip c) (delayedSample s.count (s.readDelay c) (writeLine s.count v (s.line c))))
    else s.workOf d := by
  simp only [State.workOf, lineEvent, State.setWork, Tab.get_put]

theorem lineEvent_line (d : Nat) :
    (lineEvent c v s).line d = if d = c then writeLine s.count v (s.line c) else s.line d :=
  Tab.get_put ..

theorem channelOut_workOf (d : Nat) : (channelOut c v clipped s).workOf d =
    if d = c then .computed (dipScale (s.dip c) (delayedSample s.count (s.readDelay c) (writeLine s.count v (s.line c))))
    else s.workOf d := by
  obtain ⟨_, _, _, _, eq⟩ := markClip_shape c clipped s
  rw [channelOut, lineEvent_workOf, eq]; rfl

theorem channelOut_line (d : Nat) :
    (channelOut c v clipped s).line d = if d = c then writeLine s.count v (s.line c) else s.line d := by
  obtain ⟨_, _, _, _, eq⟩ := markClip_shape c clipped s
  rw [channelOut, lineEvent_line, eq]; rfl

theorem channelOut_clipCount (d : Nat) : (channelOut c v clipped s).clipCount d =
    if d = c ∧ clipped = true then bump16 (s.clipCount c) else s.clipCount d := by
  have clips : (channelOut c v clipped s).outClips =
      if clipped then Tab.put zeroInit s.outClips c (bump16 (s.clipCount c)) else s.outClips := by
    rw [channelOut, markClip_eq]; rfl
  unfold State.clipCount; rw [clips]
  cases clipped with
  | false => rw [if_neg (by decide), if_neg (by simp)]
  | true => rw [if_pos rfl, Tab.get_put]; simp only [and_true]; rfl

theorem channelOut_feed (k : Nat) : (channelOut c v clipped s).feed k = s.feed k := by
  obtain ⟨_, _, _, _, eq⟩ := markClip_shape c clipped s
  rw [channelOut, eq, lineEvent]; rfl

theorem channelOut_list (d : Nat) : (channelOut c v clipped s).list d = s.list d := by
  obtain ⟨_, _, _, _, eq⟩ := markClip_shape c clipped s
  rw [channelOut, eq, lineEvent]; rfl

theorem channelOut_isSummed (d : Nat) : (channelOut c v clipped s).isSummed d = s.isSummed d := by
  obtain ⟨_, _, _, _, eq⟩ := markClip_shape c clipped s
  rw [channelOut, eq, lineEvent]; rfl

theorem channelOut_eq : channelOut c v clipped s = { (if clipped then countEvent .outputClip s else s) with
    work := (channelOut c v clipped s).work, lines := (channelOut c v clipped s).lines,
    outClips := (channelOut c v clipped s).outClips } := by
  rw [channelOut, markClip_eq, lineEvent]; rfl

theorem channelOut_counts :
    SameCounts (countEvents (if clipped then [.outputClip] else []) s) (channelOut c v clipped s) := by
  have counted : countEvents (if clipped then [.outputClip] else []) s = if clipped then countEvent .outputClip s else s := by
    cases clipped <;> simp [countEvents]
  rw [counted, channelOut_eq]
  exact ⟨rfl, rfl, rfl⟩

end

theorem writeLine_get (count : Count) (v : Int) (line : Tab Int) (p : Nat) :
    Tab.get silence (writeLine count v line) p = if p = count.toNat % 1024 then v else Tab.get silence line p :=
  Tab.get_put ..

/-- A channel of the period in progress that has not been come to (R79, R137). -/
theorem exec_channelCompute {c : Nat} {s : State} (inPart : c < 64) (computing : (settle s).phase = .computing)
    (waiting : (settle s).workOf c = .waiting) : exec (.channelCompute c) s =
      .next (if c < (settle s).active then computeChannel c (settle s) else (settle s).setWork c .passed) := by
  simp only [exec, execChannelCompute]
  rw [if_neg (by omega), if_pos ⟨computing, waiting⟩]

/-- What a channel's value leaves at the output stage, place by place (R142, R145). -/
theorem frame_eq (s : State) (c : Nat) (v : Int) :
    let written := fun p : Nat => if p = s.count.toNat % 1024 then v else Tab.get silence (s.line c) p
    let delayed := written ((s.count - BitVec.ofNat 32 (s.readDelay c)).toNat % 1024)
    dipScale (s.dip c) (delayedSample s.count (s.readDelay c) (writeLine s.count v (s.line c))) =
      match s.dip c with
      | .still => delayed
      | .falling level _ => (delayed * level).tdiv 32
      | .rising level => (delayed * level).tdiv 32 := by
  intro written delayed
  have read : delayedSample s.count (s.readDelay c) (writeLine s.count v (s.line c)) = delayed := writeLine_get ..
  rw [read]
  cases s.dip c <;> rfl

/-- A channel computed under the override: its value is written out over the state that the monitor's request leaves. -/
theorem overrideChannel_eq (c : Nat) (s : State) :
    let masked := s.ovCurrent.mask.getLsbD c
    let z := leveled (requestSample s.ovCurrent.monitor s).2 s.master
    overrideChannel c s = channelOut c (if masked then satSample z else 0) (masked && saturates z)
      (if masked then (requestSample s.ovCurrent.monitor s).1 else s) := by
  intro masked z
  unfold overrideChannel channelOut
  split
  · next on => simp only [masked, on, Bool.true_and]; rfl
  · next off =>
    have no : masked = false := by simpa using off
    simp only [no, Bool.false_and]; rfl

/-- Settles O25: the override's value, written out over the state that the monitor's request leaves. -/
theorem channelUnderOverride : Obligations.ChannelUnderOverride := by
  intro c s inPart computing waiting u masked z v clipped written delayed frame asked
  refine ⟨fun above => ?_, fun below on => ?_⟩
  · rw [exec_channelCompute inPart computing waiting, if_neg (Nat.not_lt.2 above)]
  have clip_iff : (masked && saturates z) = true ↔ clipped := by
    rw [Bool.and_eq_true, saturates, decide_eq_true_iff]; rfl
  have out : computeChannel c u = channelOut c v (masked && saturates z) asked := by
    rw [computeChannel, if_pos on]; exact overrideChannel_eq c u
  obtain ⟨_, _, _, _, keeps⟩ : ∃ f x y z, asked = { u with feeds := f, counters := x, urgent := y, further := z } := by
    simp only [asked]; split
    · exact requestSample_shape u.ovCurrent.monitor u
    · exact ⟨u.feeds, u.counters, u.urgent, u.further, rfl⟩
  have counted : (if (masked && saturates z) = true then countEvent .outputClip asked else asked) =
      if clipped then countEvent .outputClip asked else asked := if_congr clip_iff rfl rfl
  refine ⟨channelOut c v (masked && saturates z) asked, ?_, ?_, fun p => ?_, ?_, fun d other => ⟨?_, ?_, ?_⟩, ?_⟩
  · rw [exec_channelCompute inPart computing waiting, if_pos below]; exact congrArg Host.Outcome.next out
  · rw [channelOut_workOf, if_pos rfl, frame_eq, keeps]; rfl
  · rw [channelOut_line, if_pos rfl, writeLine_get, keeps]; rfl
  · rw [channelOut_clipCount, keeps]
    simp only [true_and]
    exact if_congr clip_iff rfl rfl
  · rw [channelOut_workOf, if_neg other, keeps]; rfl
  · rw [channelOut_line, if_neg other, keeps]; rfl
  · rw [channelOut_clipCount, if_neg fun h => other h.1, keeps]; rfl
  · exact (channelOut_eq ..).trans (by rw [counted])

/-- The state that the requests of a list leave, with the list read (R60, R79). -/
def listAsked (c : Nat) (s : State) : State := readList c (asked ((s.list c).map MixEntry.feed) s)

theorem listAsked_shape (c : Nat) (s : State) : ∃ f x y z l m,
    listAsked c s = { s with feeds := f, counters := x, urgent := y, further := z, lists := l, summed := m } := by
  obtain ⟨_, _, _, _, eq⟩ := asked_shape ((s.list c).map MixEntry.feed) s
  rw [listAsked, eq, readList]; exact ⟨_, _, _, _, _, _, rfl⟩

theorem listAsked_feed (c : Nat) (s : State) (k : Nat) : (listAsked c s).feed k =
    if (s.list c).any (fun e => e.feed == k) then (requestSample k s).1.feed k else s.feed k := by
  refine (asked_feed _ s k).trans (if_congr ?_ rfl rfl)
  simp

theorem listAsked_list (c : Nat) (s : State) (d : Nat) :
    (listAsked c s).list d = if d = c then (s.list c).map (fun e => { e with readSince := true }) else s.list d := by
  obtain ⟨_, _, _, _, eq⟩ := asked_shape ((s.list c).map MixEntry.feed) s
  rw [listAsked, eq]
  exact Tab.get_put ..

theorem listAsked_isSummed (c : Nat) (s : State) (d : Nat) :
    (listAsked c s).isSummed d = if d = c then true else s.isSummed d := by
  obtain ⟨_, _, _, _, eq⟩ := asked_shape ((s.list c).map MixEntry.feed) s
  rw [listAsked, eq]
  simp only [State.isSummed, readList, Tab.get_put]

/-- The requests of an ascending list count the events of each feed once (R57, R79). -/
theorem listAsked_counts {c : Nat} {s : State} (ascending : (s.list c).Pairwise fun a b => a.feed < b.feed) :
    SameCounts (countEvents ((s.list c).flatMap fun e => eventsAsked s e.feed) s) (listAsked c s) := by
  have distinct : ((s.list c).map MixEntry.feed).Nodup :=
    List.pairwise_map.2 (ascending.imp fun below => Nat.ne_of_lt below)
  have counts := asked_counts _ s distinct
  rw [List.flatMap_map] at counts
  exact counts.trans ⟨rfl, rfl, rfl⟩

/-- A channel computed from its list: its value is written out over the state that its requests leave. -/
theorem sumChannel_eq (c : Nat) (s : State) :
    let acc := ((s.list c).map fun e => (requestSample e.feed s).2 * e.applied).sum
    sumChannel c s = channelOut c (listValue acc s.master (s.inverted c)) (listClips acc s.master) (listAsked c s) := by
  intro acc
  have sum := sumEntries_eq (s.list c) s 0
  rw [zero_add] at sum
  simp only [sumChannel, sum]
  rfl

/-- Settles O24: the value of the channel's sum, written out over the state that its requests leave. -/
theorem channelFromList : Obligations.ChannelFromList := by
  intro c s inPart computing waiting below off u sat wide acc y z v clipped written delayed frame
  have clip_iff : listClips acc u.master = true ↔ clipped := by
    rw [listClips, Bool.or_eq_true, saturates, saturates, decide_eq_true_iff, decide_eq_true_iff]; rfl
  have value : listValue acc u.master (u.inverted c) = v := rfl
  have out : computeChannel c u = channelOut c v (listClips acc u.master) (listAsked c u) := by
    rw [computeChannel, if_neg (by simp [u, off]), ← value]; exact sumChannel_eq c u
  obtain ⟨_, _, _, _, _, _, keeps⟩ := listAsked_shape c u
  refine ⟨channelOut c v (listClips acc u.master) (listAsked c u), ?_, ?_, fun p => ?_, ?_, ?_, ?_,
    fun d other => ⟨?_, ?_, ?_, ?_, ?_⟩, fun k => ?_, fun ascending => ?_, ?_⟩
  · rw [exec_channelCompute inPart computing waiting, if_pos below]; exact congrArg Host.Outcome.next out
  · rw [channelOut_workOf, if_pos rfl, frame_eq, keeps]; rfl
  · rw [channelOut_line, if_pos rfl, writeLine_get, keeps]; rfl
  · rw [channelOut_list, listAsked_list, if_pos rfl]
  · rw [channelOut_isSummed, listAsked_isSummed, if_pos rfl]
  · rw [channelOut_clipCount, keeps]
    simp only [true_and]
    exact if_congr clip_iff rfl rfl
  · rw [channelOut_workOf, if_neg other, keeps]; rfl
  · rw [channelOut_line, if_neg other, keeps]; rfl
  · rw [channelOut_list, listAsked_list, if_neg other]
  · rw [channelOut_isSummed, listAsked_isSummed, if_neg other]
  · rw [channelOut_clipCount, if_neg fun h => other h.1, keeps]; rfl
  · rw [channelOut_feed, listAsked_feed]
  · intro counted
    have counts := ((listAsked_counts ascending).countEvents _).trans
      (channelOut_counts c v (listClips acc u.master) (listAsked c u))
    rw [← countEvents_append, if_congr clip_iff rfl rfl] at counts
    exact ⟨counts.counters, counts.urgent, counts.further⟩
  · obtain ⟨_, _, _, _, _, _, _, _, _, eq⟩ := computeChannel_shape c u
    rw [← out, eq]

end Sys2Proof.Machine
end

section
/-! PROOFS. Commands in turn: what every event leaves of the queue of commands, which states have a next state, and when
a command of a burst is carried out (R131, R155). -/
namespace Sys2Proof.Machine

/-- No move touches the queue of commands (log entry 20). -/
theorem did_pending {s t : State} (did : Did s t) : t.pending = s.pending := by
  cases did with
  | goOn _ x => obtain ⟨_, _, eq⟩ := proceed_shape x s; rw [eq]
  | stop _ x c => rfl
  | take => obtain ⟨_, _, _, eq⟩ := takeBurst_shape s; rw [eq]
  | start => obtain ⟨_, _, _, _, eq⟩ := startIfDue_shape s; rw [eq]
  | post => obtain ⟨_, _, _, _, _, eq⟩ := postIfDue_shape s; rw [eq]
  | ended _ w => obtain ⟨_, _, _, _, _, _, _, eq⟩ := doEnd_shape w { s with closeDue := s.closeDue.erase w }; rw [eq]
  | request _ p => exact requestPort_pending s p
  | data _ w => obtain ⟨_, _, _, _, _, _, _, _, _, eq⟩ := dataWrite_shape w s; rw [eq]
  | arrival _ bytes => obtain ⟨_, _, _, _, _, _, eq⟩ := handOn_shape bytes { s with feedPartial := [] }; rw [eq]
  | reply _ bytes => obtain ⟨_, _, _, _, eq⟩ := relayArrival_shape bytes { s with speakerPartial := [] }; rw [eq]
  | periodStart => obtain ⟨_, _, _, _, _, _, _, _, _, _, _, eq⟩ := startPeriod_shape s; rw [eq]
  | compute _ c => obtain ⟨_, _, _, _, _, _, _, _, _, eq⟩ := computeChannel_shape c s; rw [eq]
  | frame => rw [frameSend]
  | close => obtain ⟨_, _, _, eq⟩ := closePeriod_shape s; rw [eq]
  | purge _ slot c => obtain ⟨_, _, _, _, _, _, _, _, _, _, _, eq⟩ := purgeOn_touches slot c s; rw [eq]
  | recode _ j f r c k => obtain ⟨_, _, _, _, _, _, _, _, _, _, _, eq⟩ := recodeOn_touches j f r c k s; rw [eq]
  | scan _ j f r => obtain ⟨_, _, _, _, _, _, _, _, _, _, _, eq⟩ := scanOn_touches j f r s; rw [eq]
  | choose => obtain ⟨_, _, _, _, _, _, eq⟩ := chooseItem_shape s; rw [eq]
  | release | softReset | clearFeedLink | feedLinkDown | speakerLinkUp | speakerLinkDown | powerOn | replyFailed
  | passOver | foreign | laneFree | jobRecode | jobScan => rfl
  | bind k => obtain ⟨_, _, eq⟩ := bindAnswer_shape k; rw [eq]
  | unbind k => obtain ⟨_, eq⟩ := unbindAnswer_shape k; rw [eq]
  | setMask k => rw [setMaskAnswer_shape k]
  | setRate k => obtain ⟨_, eq⟩ := setRateAnswer_shape k; rw [eq]
  | setServo k => obtain ⟨_, _, _, eq⟩ := setServoAnswer_shape k; rw [eq]
  | setGain k => obtain ⟨_, _, _, _, _, eq⟩ := setGainAnswer_shape k; rw [eq]
  | clearOutput k => obtain ⟨_, _, _, _, eq⟩ := clearOutputAnswer_shape k; rw [eq]
  | setFilter k => obtain ⟨_, eq⟩ := setFilterAnswer_shape k; rw [eq]
  | setMaster k => obtain ⟨_, eq⟩ := setMasterAnswer_shape k; rw [eq]
  | setInvert k => obtain ⟨_, eq⟩ := setInvertAnswer_shape k; rw [eq]
  | setOverride k => obtain ⟨_, eq⟩ := setOverrideAnswer_shape k; rw [eq]
  | cue k => obtain ⟨_, _, _, _, _, _, _, eq⟩ := atAnswer_shape k; rw [eq]
  | cancelBatch k => rw [cancelBatchAnswer_shape k]
  | flushCues k => rw [flushCuesAnswer_shape k]
  | setArb k => obtain ⟨_, _, _, eq⟩ := setArbAnswer_shape k; rw [eq]
  | setActive k => obtain ⟨_, eq⟩ := setActiveAnswer_shape k; rw [eq]
  | setDelay k => obtain ⟨_, _, eq⟩ := setDelayAnswer_shape k; rw [eq]
  | setTable k => obtain ⟨_, _, eq⟩ := setTableAnswer_shape k; rw [eq]
  | setRow k => obtain ⟨_, eq⟩ := setRowAnswer_shape k; rw [eq]
  | setColumn k => obtain ⟨_, eq⟩ := setColumnAnswer_shape k; rw [eq]
  | read k => obtain ⟨_, _, eq⟩ := readAnswer_shape k; rw [eq]
  | patchBegin k => obtain ⟨_, eq⟩ := patchBeginAnswer_shape k; rw [eq]
  | patchEnd k => obtain ⟨_, _, eq⟩ := patchEndAnswer_shape k; rw [eq]
  | setRelay k => obtain ⟨_, eq⟩ := setRelayAnswer_shape k; rw [eq]
  | counterSelect k => obtain ⟨_, eq⟩ := counterSelectAnswer_shape k; rw [eq]; rfl
  | counterLoad k => obtain ⟨_, eq⟩ := counterLoadAnswer_shape k; rw [eq]; rfl

theorem dids_pending {s t : State} (dids : Dids s t) : t.pending = s.pending := by
  induction dids with
  | refl => rfl
  | tail _ did ih => exact (did_pending did).trans ih

/-- A command of a burst that the processor is not at is not carried out (log entry 1). -/
theorem carryOut_away {r : Ready} {body : Exec → State → Answer} {s : State} (away : atReady r (settle s) = none) :
    carryOut r body s = .next (settle s) := by
  simp only [carryOut, away]

theorem carryEdit_away {r : Ready} {body : State → Answer} {s : State} (away : atReady r (settle s) = none) :
    carryEdit r body s = .next (settle s) := by
  simp only [carryEdit, away]

/-- A command of a burst, carried out or not, has a next state. -/
theorem carryOut_next (r : Ready) (body : Exec → State → Answer) (s : State) : ∃ t, carryOut r body s = .next t := by
  unfold carryOut; dsimp only; split <;> exact ⟨_, rfl⟩

/-- An immediate edit, carried out, waiting or not at hand, has a next state. -/
theorem carryEdit_next (r : Ready) (body : State → Answer) (s : State) : ∃ t, carryEdit r body s = .next t := by
  unfold carryEdit; dsimp only; split
  · exact ⟨_, rfl⟩
  · split <;> exact ⟨_, rfl⟩

/-- Every command that names channels and slots of the part has a next state. -/
theorem exec_next {c : Instr} (named : c.wellFormed = true) (s : State) : ∃ t, exec c s = .next t := by
  cases c with
  | channelCompute channel =>
    have inPart : ¬63 < channel := by
      have below : channel < 64 := of_decide_eq_true named
      omega
    simp only [exec, execChannelCompute, if_neg inPart]
    exact ⟨_, rfl⟩
  | setGain | clearOutput => exact carryEdit_next _ _ s
  | tableWrite data =>
    simp only [exec, execTableWrite]; split <;> exact ⟨_, rfl⟩
  | resetPart =>
    simp only [exec, execResetPart]; split <;> exact ⟨_, rfl⟩
  | powerOnReset | feedLinkReset | feedLinkDown | speakerLinkUp | speakerLinkDown | feedBurstReceived
  | amplifierReplyReceived | periodStart | frameEvent | foreignBurstSend | periodClose | rampEnd | autoRelease
  | fadeCompletion | dipDelayMove | dipRiseEnd | servoExpiry | burstTake | jobStart | purgeStep | recodeStep | scanStep
  | heldReportPost | returnLaneChoice | returnSendEnd => exact ⟨_, rfl⟩
  | bind | unbind | setMask | setRate | setServo | setFilter | readOutput | setMaster | setInvert | setOverride | atCue
  | cancelBatch | flushCues | jobRecode | jobScan | setArb | setActive | setDelay | setTable | setRow | setColumn | read
  | patchBegin | patchEnd | readFeed | setRelay | counterSelect | counterLoad | counterRead =>
    exact carryOut_next _ _ s
  | nop => simp only [exec, execNop]; exact carryOut_next _ _ s

/-- Settles O2: no move touches the queue of commands; every event has a next state but at a channel that the part does
not have. -/
theorem eventsCompleteAndKeepQueue : Obligations.EventsCompleteAndKeepQueue :=
  ⟨fun _ _ _ next => dids_pending (exec_dids next), fun _ s named => exec_next named s, fun _ _ outside => if_pos outside⟩

/-- A command of a burst waits for its turn. -/
theorem exec_away {c : Instr} {r : Ready} {s : State} (ready : Instr.ready c = some r)
    (away : atReady r (settle s) = none) : exec c s = .next (settle s) := by
  cases c with
  | setGain | clearOutput => cases ready; exact carryEdit_away away
  | tableWrite | resetPart =>
    cases ready
    simp only [exec, execTableWrite, execResetPart, away]
  | channelCompute | powerOnReset | feedLinkReset | feedLinkDown | speakerLinkUp | speakerLinkDown | feedBurstReceived
  | amplifierReplyReceived | periodStart | frameEvent | foreignBurstSend | periodClose | rampEnd | autoRelease
  | fadeCompletion | dipDelayMove | dipRiseEnd | servoExpiry | burstTake | jobStart | purgeStep | recodeStep | scanStep
  | heldReportPost | returnLaneChoice | returnSendEnd => cases ready
  | bind | unbind | setMask | setRate | setServo | setFilter | readOutput | setMaster | setInvert | setOverride | atCue
  | cancelBatch | flushCues | jobRecode | jobScan | setArb | setActive | setDelay | setTable | setRow | setColumn | read
  | patchBegin | patchEnd | readFeed | setRelay | counterSelect | counterLoad | counterRead =>
    cases ready; exact carryOut_away away
  | nop => cases ready; simp only [exec, execNop]; exact carryOut_away away

/-- A command that uses the port is one of the two deferrable edits. -/
theorem edit_of_spelled {c : Instr} {op : Op} {args : List Word} (spelled : c.spelled = some (op, args))
    (edit : op.usesPort = true) : ∃ d : Deferred, c = immediateOf d ∧ d.op.usesPort = true := by
  cases c with
  | setGain output slot code ramp => exact ⟨.setGain output slot code ramp, rfl, rfl⟩
  | clearOutput output ramp => exact ⟨.clearOutput output ramp, rfl, rfl⟩
  | _ => cases spelled <;> cases edit

/-- An edit at hand without the grant only raises its request (R131). -/
theorem exec_edit_waits {d : Deferred} {s : State} {x : Exec} (edit : d.op.usesPort = true)
    (hand : atHand (immediateOf d) s x) (waits : granted (requestEdit (settle s)).arbiter .command = false) :
    exec (immediateOf d) s = .next (requestEdit (settle s)) := by
  have ready : atReady (.command d.op d.args) (settle s) = some x := by
    unfold atHand at hand; rwa [ready_immediate] at hand
  rw [exec_immediate_of_usesPort edit, carryEdit]
  simp only [ready, waits, Bool.false_eq_true, if_false]

/-- Settles O3: the command out of turn, and the request of an immediate edit by the state of the port. -/
theorem commandWaitsForItsTurn : Obligations.CommandWaitsForItsTurn := by
  refine ⟨fun c r s ready away => exec_away ready away, fun c op args s x spelled edit hand => ?_⟩
  intro u a free own
  obtain ⟨d, rfl, isEdit⟩ := edit_of_spelled spelled edit
  have stands (held : own) : requestEdit u = u :=
    requestEdit_granted u (by simpa [granted] using held)
  have grants (isFree : free) : requestEdit u = { u with arbiter := { a with
      port := .busy, owner := .command, cmdRequest := false,
      run := if a.owner = .command then min 255 (a.run + 1) else 1 } } := by
    obtain ⟨port, alone⟩ := isFree
    have notGranted : granted u.arbiter .command = false := by simp [granted, show u.arbiter.port = .free from port]
    have decision := grantIfFree_command (a := { a with cmdRequest := true }) port rfl (.inl alone)
    rw [requestEdit_raises u notGranted]
    exact congrArg (fun b : Arbiter => ({ u with arbiter := b } : State)) decision
  refine ⟨fun busy other => ?_, stands, grants, fun may => ⟨hand, ?_⟩⟩
  · have notGranted : granted u.arbiter .command = false := by
      simp [granted, show u.arbiter.owner = .walker from other]
    have raised : requestEdit u = { u with arbiter := { a with cmdRequest := true } } := by
      rw [requestEdit_raises u notGranted]
      exact congrArg (fun b : Arbiter => ({ u with arbiter := b } : State))
        (grantIfFree_busy (a := { a with cmdRequest := true }) busy)
    have waits : granted (requestEdit u).arbiter .command = false := by rw [raised]; exact notGranted
    rw [exec_edit_waits isEdit hand waits]
    exact congrArg Host.Outcome.next raised
  · rcases may with isFree | held
    · rw [show requestEdit (settle s) = _ from grants isFree]; rfl
    · rw [show requestEdit (settle s) = _ from stands held]
      simpa [granted] using held

end Sys2Proof.Machine
end

section
/-! PROOFS. What happens at once (log entries 2 and 3): the settled state is at rest, and the events lead to it. -/
namespace Sys2Proof.Machine

/-- After the rest of a close no job start is due. -/
theorem closeRest_rests (s : State) : startDue (closeRest s) = false := by
  unfold closeRest
  have start := startIfDue_rests { s with closeDue := [] }
  generalize startIfDue { s with closeDue := [] } = t at start
  induction s.closeDue generalizing t with
  | nil => exact start
  | cons w l ih => exact ih _ (startIfDue_rests _)

/-- After the rest of a close nothing more is owed. -/
theorem closeRest_closeDue (s : State) : (closeRest s).closeDue = [] :=
  closeRest_keeps (fun t => t.closeDue = []) (fun t none => (startIfDue_keeps_closeDue t).trans none)
    (fun w t none => (doEnd_keeps_closeDue w t).trans none) s rfl

/-- A state that owes nothing and has no job start due is the rest of itself. -/
theorem closeRest_of_rest {s : State} (owesNothing : s.closeDue = []) (noStart : startDue s = false) : closeRest s = s := by
  have same : ({ s with closeDue := [] } : State) = s := by rw [← owesNothing]
  unfold closeRest
  rw [same, owesNothing, startIfDue_of_not s noStart]; rfl

theorem takeIfDue_of_not {s : State} (notDue : takeDue s = false) (n : Nat) : takeIfDue n s = s := by
  cases n with
  | zero => rfl
  | succ n => rw [takeIfDue, notDue]; rfl

/-- Events one after the other, in two parts. -/
theorem afterEvents_append (first second : List Instr) : ∀ {s t : State}, afterEvents first s = some t →
    afterEvents (first ++ second) s = afterEvents second t := by
  induction first with
  | nil => intro s t eq; cases eq; rfl
  | cons c rest ih =>
    intro s t eq
    simp only [List.cons_append, afterEvents] at eq ⊢
    split at eq
    · exact ih eq
    · cases eq
    · cases eq

/-- The events that what a close owes is taken by. -/
def endEvents (l : List CloseWork) : List Instr := l.flatMap fun w => [w.event, .jobStart]

theorem exec_endEvent (w : CloseWork) (s : State) : exec w.event s = .next (takeEnd w s) := by cases w <;> rfl

/-- The ends that a close owes, taken event by event in order. -/
theorem afterEvents_endEvents (l : List CloseWork) : ∀ t : State, startDue t = false →
    afterEvents (endEvents l) { t with closeDue := l } =
      some (l.foldl (fun t w => startIfDue (doEnd w t)) { t with closeDue := [] }) := by
  induction l with
  | nil => exact fun t _ => rfl
  | cons w l ih =>
    intro t noStart
    have rests : startIfDue { t with closeDue := w :: l } = { t with closeDue := w :: l } := startIfDue_of_not _ noStart
    have owed : w ∈ (startIfDue { t with closeDue := w :: l }).closeDue := by rw [rests]; simp
    have taken : takeEnd w { t with closeDue := w :: l } = doEnd w { t with closeDue := l } := by
      rw [takeEnd_owed owed, rests]; simp
    have started : startIfDue (doEnd w { t with closeDue := l }) = { startIfDue (doEnd w t) with closeDue := l } := by
      rw [doEnd_closeDue, startIfDue_closeDue]
    have cleared : startIfDue (doEnd w { t with closeDue := [] }) = { startIfDue (doEnd w t) with closeDue := [] } := by
      rw [doEnd_closeDue, startIfDue_closeDue]
    have next := ih (startIfDue (doEnd w t)) (startIfDue_rests _)
    rw [List.foldl_cons, cleared, ← next]
    have startEvent (v : State) : exec .jobStart v = .next (startIfDue v) := rfl
    simp only [endEvents, List.flatMap_cons, List.cons_append, List.nil_append, afterEvents, exec_endEvent, taken,
      startEvent, started]

/-- A take leaves what the close owes and the walker's jobs. -/
theorem takeBurst_rest {s : State} (due : takeDue s = true) (owesNothing : s.closeDue = []) (noStart : startDue s = false) :
    (takeBurst s).closeDue = [] ∧ startDue (takeBurst s) = false := by
  obtain ⟨-, -, jobs, walker⟩ := takeBurst_more s due
  obtain ⟨_, _, _, eq⟩ := takeBurst_shape s
  refine ⟨by rw [eq]; exact owesNothing, ?_⟩
  rw [startDue, walker, jobs]; exact noStart

/-- Takes, event by event: one that is not due changes nothing. -/
theorem afterEvents_takes (n : Nat) : ∀ t : State, t.closeDue = [] → startDue t = false →
    afterEvents (List.replicate n .burstTake) t = some (takeIfDue n t) := by
  induction n with
  | zero => exact fun t _ _ => rfl
  | succ n ih =>
    intro t owesNothing noStart
    have take : exec .burstTake t = .next (if takeDue t then takeBurst t else t) := by
      have rest := closeRest_of_rest owesNothing noStart
      simp only [exec, execBurstTake, rest]
    simp only [List.replicate_succ, afterEvents, take]
    cases due : takeDue t with
    | true =>
      obtain ⟨owes, starts⟩ := takeBurst_rest due owesNothing noStart
      rw [if_pos rfl, ih _ owes starts, takeIfDue, due]; rfl
    | false =>
      rw [if_neg (by decide), ih t owesNothing noStart, takeIfDue_of_not due, takeIfDue_of_not due]

theorem postIfDue_closeDue (s : State) : (postIfDue s).closeDue = s.closeDue := by
  obtain ⟨_, _, _, _, _, eq⟩ := postIfDue_shape s
  rw [eq]

/-- What happens at once leaves the inbound queue to the takes. -/
theorem postIfDue_closeRest_inbound (s : State) : (postIfDue (closeRest s)).inbound = s.inbound := by
  have rest : (closeRest s).inbound = s.inbound := by
    refine closeRest_keeps (fun t => t.inbound = s.inbound) (fun t same => ?_) (fun w t same => ?_) s rfl
    · obtain ⟨_, _, _, _, eq⟩ := startIfDue_shape t
      rw [eq]; exact same
    · obtain ⟨_, _, _, _, _, _, _, eq⟩ := doEnd_shape w t
      rw [eq]; exact same
  obtain ⟨_, _, _, _, _, eq⟩ := postIfDue_shape (closeRest s)
  rw [eq]; exact rest

/-- The settled state is at rest. -/
theorem settle_quiet (s : State) : (settle s).quiet = true := by
  obtain ⟨starts, posts⟩ := postIfDue_rests (closeRest s) (closeRest_rests s)
  obtain ⟨noStart, noPost, noTake, -⟩ := takeIfDue_rests _ (postIfDue (closeRest s)) le_rfl starts posts
  exact (quiet_iff _).2 ⟨settle_closeDue s, noStart, noPost, noTake⟩

/-- A state at rest is settled. -/
theorem settle_of_quiet {s : State} (quiet : s.quiet = true) : settle s = s := by
  obtain ⟨owesNothing, noStart, noPost, noTake⟩ := (quiet_iff s).1 quiet
  simp only [settle, closeRest_of_rest owesNothing noStart, postIfDue_of_not s noPost, takeIfDue_of_not noTake]

/-- Settles O4: the settled state is at rest, and the events named lead to it. -/
theorem settledStateIsAtRest : Obligations.SettledStateIsAtRest := by
  refine ⟨settle_quiet, fun s quiet => settle_of_quiet quiet, fun s => ?_⟩
  intro ends
  have started : startIfDue s = { startIfDue s with closeDue := s.closeDue } := by
    rw [← startIfDue_closeDue]
  have toRest : afterEvents ends s = some (closeRest s) := by
    have first : afterEvents ends s = afterEvents (endEvents s.closeDue) (startIfDue s) := rfl
    rw [first, started, afterEvents_endEvents _ _ (startIfDue_rests s), ← startIfDue_closeDue]; rfl
  refine ⟨toRest, ?_⟩
  have post : exec .heldReportPost (closeRest s) = .next (postIfDue (closeRest s)) := by
    have rest := closeRest_of_rest (closeRest_closeDue s) (closeRest_rests s)
    simp only [exec, execHeldReportPost, rest]
  have owesNothing := (postIfDue_closeDue (closeRest s)).trans (closeRest_closeDue s)
  have noStart := (postIfDue_rests (closeRest s) (closeRest_rests s)).1
  rw [afterEvents_append _ _ toRest]
  simp only [afterEvents, post]
  rw [afterEvents_takes _ _ owesNothing noStart, settle, postIfDue_closeRest_inbound]

end Sys2Proof.Machine
end

section
/-! PROOFS. What the ports make of a received burst: the check word bit by bit (R183), the tests as propositions, and the
words and samples that the bytes spell (R184, R185). -/
namespace Sys2Proof.Machine

theorem crcBit_eq (r : Word) (bit : Bool) :
    crcBit r bit = if r.getLsbD 15 = bit then r <<< 1 else (r <<< 1) ^^^ 0b0001000000100001#16 := by
  unfold crcBit
  by_cases same : r.getLsbD 15 = bit
  · rw [if_pos same, same, bne_self_eq_false]; rfl
  · rw [if_neg same, if_pos (bne_iff_ne.mpr same)]

/-- The check word goes on byte by byte, the most significant bit first. -/
theorem checkWord_append (l : List Byte) (b : Byte) : checkWord (l ++ [b]) =
    [7, 6, 5, 4, 3, 2, 1, 0].foldl (fun (r : Word) k =>
      if r.getLsbD 15 = b.getLsbD k then r <<< 1 else (r <<< 1) ^^^ 0b0001000000100001#16) (checkWord l) := by
  simp only [checkWord, List.foldl_append, List.foldl_cons, List.foldl_nil, crcByte, crcBit_eq]

theorem append_toNat (high low : Byte) : (high ++ low : Word).toNat = high.toNat * 256 + low.toNat := by
  have below : low.toNat < 2 ^ 8 := low.isLt
  rw [BitVec.toNat_append, ← Nat.shiftLeft_add_eq_or_of_lt below, Nat.shiftLeft_eq]

/-- The length field is the word after the type. -/
theorem bodyLength_eq (bytes : List Byte) : bodyLength bytes = (wordAt bytes 1).toNat := (append_toNat ..).symm

/-- Tests 1 and 2: the bytes are as many as the length field says, and the check word agrees. -/
def Framed (bytes : List Byte) : Prop :=
  bytes.length = (wordAt bytes 1).toNat + 5 ∧
    checkWord (bytes.take ((wordAt bytes 1).toNat + 3)) = wordAt bytes ((wordAt bytes 1).toNat + 3)

/-- Test 4 with the type. -/
def AudioBody (bytes : List Byte) : Prop :=
  byteAt bytes 0 = 1 ∧ 1 ≤ byteAt bytes 6 ∧ byteAt bytes 6 ≤ 32 ∧ (wordAt bytes 1).toNat = 4 + 3 * byteAt bytes 6

/-- Test 5 with the type. -/
def CommandBody (bytes : List Byte) : Prop :=
  byteAt bytes 0 = 2 ∧ (wordAt bytes 1).toNat % 2 = 1 ∧ 3 ≤ (wordAt bytes 1).toNat ∧
    ((wordAt bytes 1).toNat - 3) / 2 ≤ 512 ∧ byteAt bytes 3 ≤ 15

theorem framed_iff (bytes : List Byte) : Framed bytes ↔ lengthAgrees bytes = true ∧ checkAgrees bytes = true := by
  simp only [Framed, lengthAgrees, checkAgrees, bodyLength_eq, decide_eq_true_eq, beq_iff_eq]
  exact and_congr_left fun _ => ⟨fun long => ⟨by omega, long⟩, And.right⟩

theorem audioBodyAgrees_iff (bytes : List Byte) :
    AudioBody bytes ↔ byteAt bytes 0 = 1 ∧ audioBodyAgrees bytes = true := by
  simp only [AudioBody, audioBodyAgrees, bodyLength_eq, decide_eq_true_eq]
  exact and_congr_right fun _ => ⟨fun ⟨least, most, long⟩ => ⟨by omega, least, most, long⟩, And.right⟩

theorem commandBodyAgrees_iff (bytes : List Byte) :
    CommandBody bytes ↔ byteAt bytes 0 = 2 ∧ commandBodyAgrees bytes = true := by
  simp only [CommandBody, commandBodyAgrees, bodyLength_eq, decide_eq_true_eq]

theorem receive_of_audio {bytes : List Byte} (framed : Framed bytes) (audio : AudioBody bytes) :
    receive bytes = .audio (wordAt bytes 3) (byteAt bytes 5) (samplesOf ((bodyOf bytes).drop 4)) := by
  obtain ⟨long, checked⟩ := (framed_iff bytes).mp framed
  obtain ⟨type, agrees⟩ := (audioBodyAgrees_iff bytes).mp audio
  simp [receive, long, checked, type, agrees]

theorem receive_of_command {bytes : List Byte} (framed : Framed bytes) (command : CommandBody bytes) :
    receive bytes = .command (byteAt bytes 3) (wordAt bytes 4) (wordsOf ((bodyOf bytes).drop 3)) := by
  obtain ⟨long, checked⟩ := (framed_iff bytes).mp framed
  obtain ⟨type, agrees⟩ := (commandBodyAgrees_iff bytes).mp command
  simp [receive, long, checked, type, agrees]

theorem receive_of_failed {bytes : List Byte} (fails : ¬(Framed bytes ∧ (AudioBody bytes ∨ CommandBody bytes))) :
    receive bytes = .failed := by
  rw [framed_iff, audioBodyAgrees_iff, commandBodyAgrees_iff] at fails
  unfold receive
  split
  · rfl
  next long =>
    split
    · rfl
    next checked =>
      have framed : lengthAgrees bytes = true ∧ checkAgrees bytes = true := by simpa using And.intro long checked
      split
      next type => exact if_neg fun agrees => fails ⟨framed, .inl ⟨type, agrees⟩⟩
      next =>
        split
        next type => exact if_neg fun agrees => fails ⟨framed, .inr ⟨type, agrees⟩⟩
        next => rfl

theorem amplifierAccepted_iff (bytes : List Byte) :
    amplifierAccepted bytes = true ↔ Framed bytes ∧ byteAt bytes 0 = 3 ∧ 1 ≤ (wordAt bytes 1).toNat := by
  simp only [amplifierAccepted, framed_iff, Bool.and_eq_true, decide_eq_true_eq, bodyLength_eq]

/-- The words of a run of bytes, pair by pair. -/
theorem wordsOf_eq : ∀ l : List Byte, wordsOf l =
    (List.range (l.length / 2)).map fun k => l.getD (2 * k) 0#8 ++ l.getD (2 * k + 1) 0#8
  | [] => rfl
  | [_] => by simp [wordsOf]
  | a :: b :: rest => by
    have pairs : (a :: b :: rest).length / 2 = rest.length / 2 + 1 := by simp only [List.length_cons]; omega
    rw [wordsOf, wordsOf_eq rest, pairs, List.range_succ_eq_map, List.map_cons, List.map_map]
    rfl

/-- The samples of a run of bytes, three by three. -/
theorem samplesOf_eq : ∀ l : List Byte, samplesOf l =
    (List.range (l.length / 3)).map fun k =>
      (l.getD (3 * k) 0#8 ++ l.getD (3 * k + 1) 0#8 ++ l.getD (3 * k + 2) 0#8 : BitVec 24).toInt
  | [] => rfl
  | [_] => by simp [samplesOf]
  | [_, _] => by simp [samplesOf]
  | a :: b :: c :: rest => by
    have threes : (a :: b :: c :: rest).length / 3 = rest.length / 3 + 1 := by simp only [List.length_cons]; omega
    rw [samplesOf, samplesOf_eq rest, threes, List.range_succ_eq_map, List.map_cons, List.map_map]
    rfl

/-- A byte of the body stands behind the type and the length. -/
theorem getD_body {bytes : List Byte} {n k : Nat} (inBody : n + k < bodyLength bytes) :
    ((bodyOf bytes).drop n).getD k 0#8 = bytes.getD (3 + n + k) 0#8 := by
  simp only [bodyOf, List.getD_eq_getElem?_getD, List.getElem?_drop, List.getElem?_take, if_pos inBody, Nat.add_assoc]

theorem length_body {bytes : List Byte} (framed : Framed bytes) : (bodyOf bytes).length = bodyLength bytes := by
  obtain ⟨long, _⟩ := framed
  rw [bodyOf, List.length_take, List.length_drop, bodyLength_eq, long]; omega

theorem words_of_body {bytes : List Byte} (framed : Framed bytes) (command : CommandBody bytes) :
    wordsOf ((bodyOf bytes).drop 3) =
      (List.range (((wordAt bytes 1).toNat - 3) / 2)).map fun k => wordAt bytes (6 + 2 * k) := by
  obtain ⟨_, odd, _, _⟩ := command
  rw [← bodyLength_eq] at odd ⊢
  rw [wordsOf_eq, List.length_drop, length_body framed]
  refine List.map_congr_left fun k inside => ?_
  have below := List.mem_range.mp inside
  rw [getD_body (by omega), getD_body (by omega)]
  rfl

theorem samples_of_body {bytes : List Byte} (framed : Framed bytes) (audio : AudioBody bytes) :
    samplesOf ((bodyOf bytes).drop 4) = (List.range (byteAt bytes 6)).map fun k =>
      (bytes.getD (7 + 3 * k) 0#8 ++ bytes.getD (8 + 3 * k) 0#8 ++ bytes.getD (9 + 3 * k) 0#8 : BitVec 24).toInt := by
  obtain ⟨_, _, _, long⟩ := audio
  rw [← bodyLength_eq] at long
  have count : (bodyLength bytes - 4) / 3 = byteAt bytes 6 := by omega
  rw [samplesOf_eq, List.length_drop, length_body framed, count]
  refine List.map_congr_left fun k inside => ?_
  have below := List.mem_range.mp inside
  rw [getD_body (by omega), getD_body (by omega), getD_body (by omega),
    show 3 + 4 + (3 * k + 1) = 8 + 3 * k by omega, show 3 + 4 + (3 * k + 2) = 9 + 3 * k by omega]

/-- Settles O14: the tests of the two ports, one by one, and the queues behind them. -/
theorem burstArrivals : Obligations.BurstArrivals := by
  refine ⟨⟨rfl, checkWord_append⟩, fun bytes s => ?_⟩
  intro u v w i r byte word length type framed count audio command samples words own
  have down (isDown : u.feedUp = .down) : exec i s = .next u := by
    have notUp : ¬u.feedUp = .up := by rw [isDown]; exact nofun
    exact congrArg Host.Outcome.next (if_neg notUp)
  have up (isUp : u.feedUp = .up) : exec i s = .next (handOn bytes v) := congrArg Host.Outcome.next (if_pos isUp)
  have speakerDown (isDown : u.speakerUp = .down) : exec r s = .next u := by
    have notUp : ¬u.speakerUp = .up := by rw [isDown]; exact nofun
    exact congrArg Host.Outcome.next (if_neg notUp)
  have speakerUp (isUp : u.speakerUp = .up) :
      exec r s = .next (if amplifierAccepted bytes then relayArrival bytes w else w) :=
    congrArg Host.Outcome.next (if_pos isUp)
  refine ⟨down, fun isUp fails => ?_, fun isUp isFramed isAudio => ?_, fun isUp isFramed isCommand => ?_, speakerDown,
    fun isUp fails => ?_, fun isUp isFramed isReply least => ?_⟩
  · rw [up isUp, handOn, receive_of_failed fails]
  · rw [up isUp, handOn, receive_of_audio isFramed isAudio, samples_of_body isFramed isAudio]; rfl
  · have handed : exec i s = .next
        (if own then inboundArrival { tag := word 4, words := words } v else throughArrival bytes v) := by
      rw [up isUp, handOn, receive_of_command isFramed isCommand, words_of_body isFramed isCommand]; rfl
    refine ⟨fun isOwn room => ?_, fun isOwn full => ?_, fun foreign room => ?_, fun foreign full => ?_⟩
    · rw [handed, if_pos isOwn]; exact congrArg Host.Outcome.next (if_pos room)
    · rw [handed, if_pos isOwn]; exact congrArg Host.Outcome.next (if_neg (Nat.not_lt.mpr full))
    · rw [handed, if_neg foreign]; exact congrArg Host.Outcome.next (if_pos room)
    · rw [handed, if_neg foreign]; exact congrArg Host.Outcome.next (if_neg (Nat.not_lt.mpr full))
  · rw [speakerUp isUp, if_neg fun accepted => fails ((amplifierAccepted_iff bytes).mp accepted)]
  · have accepted := (amplifierAccepted_iff bytes).mpr ⟨isFramed, isReply, least⟩
    refine ⟨fun room => ?_, fun full => ?_⟩
    · rw [speakerUp isUp, if_pos accepted]; exact congrArg Host.Outcome.next (if_pos room)
    · rw [speakerUp isUp, if_pos accepted]; exact congrArg Host.Outcome.next (if_neg (Nat.not_lt.mpr full))

/-- A word is put together from its two bytes. -/
theorem byte_append_extract (w : Word) : (w.extractLsb' 8 8 ++ w.extractLsb' 0 8 : Word) = w := by
  apply BitVec.eq_of_toNat_eq
  have below := w.isLt
  rw [append_toNat, BitVec.extractLsb'_toNat, BitVec.extractLsb'_toNat, Nat.shiftRight_eq_div_pow, Nat.shiftRight_zero]
  omega

theorem wordsOf_flatMap : ∀ words : List Word, wordsOf (words.flatMap wordBytes) = words
  | [] => rfl
  | w :: words => congrArg₂ List.cons (byte_append_extract w) (wordsOf_flatMap words)

/-- A sample is put together from its three bytes (R183). -/
theorem sampleBytes_toInt {x : Int} (isX : isSample x) : ((BitVec.ofInt 24 x).extractLsb' 16 8 ++
    (BitVec.ofInt 24 x).extractLsb' 8 8 ++ (BitVec.ofInt 24 x).extractLsb' 0 8 : BitVec 24).toInt = x := by
  have joined (v : BitVec 24) : (v.extractLsb' 16 8 ++ v.extractLsb' 8 8 ++ v.extractLsb' 0 8 : BitVec 24) = v := by
    apply BitVec.eq_of_toNat_eq
    have below := v.isLt
    have low : (v.extractLsb' 0 8).toNat < 2 ^ 8 := (v.extractLsb' 0 8).isLt
    rw [BitVec.toNat_append, ← Nat.shiftLeft_add_eq_or_of_lt low, append_toNat, Nat.shiftLeft_eq]
    simp only [BitVec.extractLsb'_toNat, Nat.shiftRight_eq_div_pow]
    omega
  obtain ⟨least, most⟩ := isX
  rw [joined, BitVec.toInt_ofInt]
  exact Int.bmod_eq_of_le (by omega) (by omega)

theorem samplesOf_flatMap : ∀ {l : List Int}, (∀ v ∈ l, isSample v) → samplesOf (l.flatMap sampleBytes) = l
  | [], _ => rfl
  | x :: _, all =>
    congrArg₂ List.cons (sampleBytes_toInt (all x (List.mem_cons_self ..)))
      (samplesOf_flatMap fun v inRest => all v (List.mem_cons_of_mem _ inRest))

theorem length_flatMap_const {α : Type} {f : α → List Byte} {n : Nat} (each : ∀ a, (f a).length = n) (l : List α) :
    (l.flatMap f).length = n * l.length := by
  induction l with
  | nil => rfl
  | cons a l ih => rw [List.flatMap_cons, List.length_append, ih, each, List.length_cons]; ring

/-- A number below 256 is read back from its byte. -/
theorem natByte_toNat {n : Nat} (below : n < 256) : (natByte n).toNat = n := by
  rw [natByte, BitVec.toNat_ofNat, Nat.mod_eq_of_lt below]

section Envelope
variable {type : Nat} {body : List Byte} (short : body.length < 65536)
include short

theorem wordAt_envelope_one : (wordAt (envelope type body) 1).toNat = body.length := by
  have word : wordAt (envelope type body) 1 = natWord body.length := byte_append_extract _
  rw [word, natWord, BitVec.toNat_ofNat, Nat.mod_eq_of_lt short]

/-- A built burst passes the tests of its length and its check word. -/
theorem framed_envelope : Framed (envelope type body) := by
  let head := natByte type :: (wordBytes (natWord body.length) ++ body)
  have built : envelope type body = head ++ wordBytes (checkWord head) := rfl
  have length : head.length = body.length + 3 := by simp [head, wordBytes]
  have last (k : Nat) : (envelope type body).getD (body.length + 3 + k) 0#8 = (wordBytes (checkWord head)).getD k 0#8 := by
    rw [built, List.getD_append_right _ _ _ _ (by omega), length, Nat.add_sub_cancel_left]
  rw [Framed, wordAt_envelope_one short]
  refine ⟨by rw [built, List.length_append, length]; rfl, ?_⟩
  have check : wordAt (envelope type body) (body.length + 3) = checkWord head := by
    rw [wordAt, last 1]
    exact (congrArg (· ++ _) (last 0)).trans (byte_append_extract _)
  rw [check, built, List.take_left' length]

theorem bodyOf_envelope : bodyOf (envelope type body) = body := by
  rw [bodyOf, bodyLength_eq, wordAt_envelope_one short]
  exact List.take_left' rfl

end Envelope

theorem byteAt_envelope_zero {type : Nat} (below : type < 256) (body : List Byte) : byteAt (envelope type body) 0 = type :=
  natByte_toNat below

/-- A built command burst is read back (R184). -/
theorem receive_command_envelope {address : Nat} (tag : Word) {words : List Word} (isAddress : address ≤ 15)
    (most : words.length ≤ 512) :
    receive (envelope 2 (natByte address :: (wordBytes tag ++ words.flatMap wordBytes))) =
      .command address tag words := by
  generalize isBody : natByte address :: (wordBytes tag ++ words.flatMap wordBytes) = body
  have length : body.length = 3 + 2 * words.length := by
    have flat : (words.flatMap wordBytes).length = 2 * words.length :=
      length_flatMap_const (f := wordBytes) (fun _ => rfl) words
    rw [← isBody, List.length_cons, List.length_append, flat, wordBytes, List.length_cons, List.length_cons, List.length_nil]
    omega
  have short : body.length < 65536 := by omega
  have first : byteAt (envelope 2 body) 3 = address := by
    rw [← isBody]; exact natByte_toNat (by omega)
  have second : wordAt (envelope 2 body) 4 = tag := by rw [← isBody]; exact byte_append_extract tag
  have command : CommandBody (envelope 2 body) := by
    rw [CommandBody, wordAt_envelope_one short, first]
    exact ⟨byteAt_envelope_zero (by omega) body, by omega, by omega, by omega, isAddress⟩
  rw [receive_of_command (framed_envelope short) command, bodyOf_envelope short, first, second, ← isBody]
  exact congrArg _ (wordsOf_flatMap words)

/-- A built audio burst is read back (R184). -/
theorem receive_audio_envelope (id : Word) {seq : Nat} {samples : List Int} (isByte : seq < 256)
    (least : 1 ≤ samples.length) (most : samples.length ≤ 32) (all : ∀ v ∈ samples, isSample v) :
    receive (envelope 1 (wordBytes id ++ [natByte seq, natByte samples.length] ++ samples.flatMap sampleBytes)) =
      .audio id seq samples := by
  generalize isBody : wordBytes id ++ [natByte seq, natByte samples.length] ++ samples.flatMap sampleBytes = body
  have length : body.length = 4 + 3 * samples.length := by
    have flat : (samples.flatMap sampleBytes).length = 3 * samples.length :=
      length_flatMap_const (f := sampleBytes) (fun _ => rfl) samples
    rw [← isBody, List.length_append, flat]; rfl
  have short : body.length < 65536 := by omega
  have first : wordAt (envelope 1 body) 3 = id := by rw [← isBody]; exact byte_append_extract id
  have second : byteAt (envelope 1 body) 5 = seq := by rw [← isBody]; exact natByte_toNat isByte
  have third : byteAt (envelope 1 body) 6 = samples.length := by rw [← isBody]; exact natByte_toNat (by omega)
  have audio : AudioBody (envelope 1 body) := by
    rw [AudioBody, wordAt_envelope_one short, third]
    exact ⟨byteAt_envelope_zero (by omega) body, least, most, length⟩
  rw [receive_of_audio (framed_envelope short) audio, bodyOf_envelope short, first, second, ← isBody]
  exact congrArg _ (samplesOf_flatMap all)

/-- Settles O13: the three envelopes, one lemma each for the two that the feed link port reads. -/
theorem builtBurstsAreReceived : Obligations.BuiltBurstsAreReceived :=
  ⟨fun _ tag _ isAddress most => receive_command_envelope tag isAddress most,
    fun id _ _ isByte least most all => receive_audio_envelope id isByte least most all,
    fun body least short => (amplifierAccepted_iff _).mpr
      ⟨framed_envelope short, byteAt_envelope_zero (by omega) body, by rwa [wordAt_envelope_one short]⟩⟩

end Sys2Proof.Machine
end

section
/-! PROOFS. The burst parser: where the words of a burst lead (R151 to R156), first for the OP words alone, whatever
markers carry them, then for the burst. -/
namespace Sys2Proof.Machine

/-- A burst that reads on comes to what it came to from there. -/
theorem burstGoes_of_readsOn {x y : Exec} {s t : State} (reads : ReadsOn x y) (goes : burstGoes x s t) :
    burstGoes y s t := by
  induction reads with
  | here => exact goes
  | word x y z quiet _ ih =>
    obtain ⟨w, toW, comes⟩ := goes
    cases toW with
    | here => rw [quiet] at comes; exact comes.elim
    | word _ y' _ quiet' reads' =>
      cases quiet.symm.trans quiet'
      exact ih ⟨w, reads', comes⟩

theorem readsOn_trans {x y z : Exec} (first : ReadsOn x y) (second : ReadsOn y z) : ReadsOn x z := by
  induction first with
  | here => exact second
  | word x y _ quiet _ ih => exact .word x y z quiet (ih second)

/-- Reading on changes nothing that the burst's reply says. -/
theorem burstEnded_of_readsOn {x y : Exec} (reads : ReadsOn x y) (stop : Option Code) (s : State) :
    burstEnded y stop s = burstEnded x stop s := by
  induction reads with
  | here => rfl
  | word x y z quiet _ ih =>
    obtain ⟨tag, executed, notes, words⟩ := look_keeps x y quiet
    rw [ih]; simp only [burstEnded, tag, executed, notes, words]

section Goes
variable {x y : Exec} {s t : State} (reads : ReadsOn x y) (goes : burstGoes x s t)
include reads goes

/-- The burst stands before what its next word carries out. -/
theorem goes_ready {r : Ready} {z : Exec} (looked : look y = .ready r z) :
    atReady r t = some z ∧ t = { s with proc := t.proc } ∧ t.atEdit = r.isEdit := by
  obtain ⟨w, toW, comes⟩ := burstGoes_of_readsOn reads goes
  cases toW with
  | here =>
    rw [looked] at comes
    cases comes
    have stands : atReady r { s with proc := some y } = some z := atReady_eq_some_iff.mpr ⟨y, rfl, looked⟩
    exact ⟨stands, rfl, atEdit_of_atReady stands⟩
  | word _ _ _ quiet _ => cases looked.symm.trans quiet

/-- The parser's refusal stops the burst. -/
theorem goes_refused {code : Code} (looked : look y = .refuse code) : t = burstEnded x (some code) s := by
  obtain ⟨w, toW, comes⟩ := burstGoes_of_readsOn reads goes
  cases toW with
  | here => rw [looked] at comes; exact comes.trans (burstEnded_of_readsOn reads ..)
  | word _ _ _ quiet _ => cases looked.symm.trans quiet

/-- The burst's last word ends it. -/
theorem goes_finished {missing : Bool} (looked : look y = .finished missing) :
    t = burstEnded x (if missing then some .argMissing else none) s := by
  obtain ⟨w, toW, comes⟩ := burstGoes_of_readsOn reads goes
  cases toW with
  | here => rw [looked] at comes; exact comes.trans (burstEnded_of_readsOn reads ..)
  | word _ _ _ quiet _ => cases looked.symm.trans quiet

end Goes

/-- Burst `x` before the words `words`, under a framing, with a parser state. -/
def Exec.before (x : Exec) (words : List Word) (f : Framing) (p : Parser) : Exec :=
  { x with rest := words, framing := f, parser := p }

/-- With no command under way the parser state does not matter to an OP word. -/
theorem takeOp_idle {p : Parser} (idle : p.underWay = false) (w : Word) (x : Exec) (words : List Word) (f : Framing) :
    takeOp w (x.before words f p) = takeName w (x.before words f .wordWait) := by
  cases p with
  | argWait | cueWait => cases idle
  | wordWait | bulkOp | bulkData => rfl

theorem parserAtRest_idle (f : Framing) : (parserAtRest f).underWay = false := by cases f <;> rfl

/-- A marker in front does not matter to the OP word behind it. -/
theorem takeOp_behind_marker (m w : Word) (x : Exec) (words : List Word) (f : Framing) (p : Parser) :
    takeOp w (x.before words f (if p.underWay then p else parserAtRest (framingOf m))) = takeOp w (x.before words f p) := by
  cases underWay : p.underWay with
  | true => rfl
  | false =>
    exact (takeOp_idle (parserAtRest_idle _) ..).trans (takeOp_idle underWay ..).symm

theorem framingOf_singleOp {m : Word} (more : m.getLsbD 15 = true) (op : m.getLsbD 14 = false) :
    framingOf m = .singleOp := by
  simp only [framingOf, markerMore, markerIsData, more, op]

theorem framingOf_bulkOp {m : Word} (last : m.getLsbD 15 = false) (op : m.getLsbD 14 = false) :
    framingOf m = .bulkOp := by
  simp only [framingOf, markerMore, markerIsData, last, op]

theorem framingOf_data {m : Word} (isData : m.getLsbD 14 = true) :
    framingOf m = if m.getLsbD 15 then .singleData else .bulkData := by
  cases isMore : m.getLsbD 15 <;> simp only [framingOf, markerMore, markerIsData, isMore, isData] <;> rfl

/-- A marker word is taken. -/
theorem look_marker (x : Exec) (m : Word) (words : List Word) (p : Parser) :
    look (x.before (m :: words) .marker p) =
      .quiet (x.before words (framingOf m) (if p.underWay then p else parserAtRest (framingOf m))) := rfl

/-- The next OP word of a burst is taken behind its marker, if it has one. -/
theorem reads_opWord (x : Exec) (p : Parser) (more : List Word) {f g : Framing} {b ws : List Word} {w : Word}
    (carried : OpWords f b (w :: ws) g) : ∃ b' f' y, OpWords f' b' ws g ∧ ReadsOn (x.before (b ++ more) f p) y ∧
      look y = takeOp w (x.before (b' ++ more) f' p) := by
  cases carried with
  | single m _ b _ _ isMore isOp rest =>
    refine ⟨b, .marker, _, rest, .word _ _ _ (look_marker x m _ p) (.here _), ?_⟩
    rw [← takeOp_behind_marker m, framingOf_singleOp isMore isOp]; rfl
  | bulk m _ b _ _ isLast isOp rest =>
    refine ⟨b, .bulkOp, _, rest, .word _ _ _ (look_marker x m _ p) (.here _), ?_⟩
    rw [← takeOp_behind_marker m, framingOf_bulkOp isLast isOp]; rfl
  | word _ b _ _ rest => exact ⟨b, .bulkOp, _, rest, .here _, rfl⟩

/-- OP words `ws` take the parser from one state to the next and carry nothing out. -/
inductive Takes : Parser → List Word → Parser → Prop where
  | nil (p : Parser) : Takes p [] p
  | cons {p q r : Parser} {w : Word} {ws : List Word} :
      (∀ (x : Exec) (words : List Word) (f : Framing), takeOp w (x.before words f p) = .quiet (x.before words f q)) →
      Takes q ws r → Takes p (w :: ws) r

/-- A burst reads on over OP words that carry nothing out. -/
theorem reads_takes {p q : Parser} {ws : List Word} (takes : Takes p ws q) (x : Exec) (more : List Word) :
    ∀ {f g : Framing} {b : List Word}, OpWords f b ws g → ReadsOn (x.before (b ++ more) f p) (x.before more g q) := by
  induction takes with
  | nil => intro f g b carried; cases carried; exact .here _
  | cons quiet _ ih =>
    intro f g b carried
    obtain ⟨b', f', y, rest, reads, looked⟩ := reads_opWord x _ more carried
    exact readsOn_trans reads (.word _ _ _ (looked.trans (quiet ..)) (ih rest))

/-- A burst reads on over OP words that carry nothing out, and one more OP word is taken. -/
theorem reads_takes_then {p q : Parser} {ws : List Word} (takes : Takes p ws q) (w : Word) (x : Exec) (more : List Word) :
    ∀ {f g : Framing} {b : List Word}, OpWords f b (ws ++ [w]) g →
      ∃ y, ReadsOn (x.before (b ++ more) f p) y ∧ look y = takeOp w (x.before more g q) := by
  induction takes with
  | nil =>
    intro f g b carried
    obtain ⟨b', f', y, rest, reads, looked⟩ := reads_opWord x _ more carried
    cases rest
    exact ⟨y, reads, looked⟩
  | cons quiet _ ih =>
    intro f g b carried
    obtain ⟨b', f', y, rest, reads, looked⟩ := reads_opWord x _ more carried
    obtain ⟨z, onward, last⟩ := ih rest
    exact ⟨z, readsOn_trans reads (.word _ _ _ (looked.trans (quiet ..)) onward), last⟩

theorem Takes.append {p q r : Parser} {ws ws' : List Word} (first : Takes p ws q) (second : Takes q ws' r) :
    Takes p (ws ++ ws') r := by
  induction first with
  | nil => exact second
  | cons quiet _ ih => exact .cons quiet (ih second)

/-- Each word of the catalogue names its command (R153). -/
theorem opOfWord_word (op : Op) : opOfWord op.word = some op := by cases op <;> decide

theorem opOfWord_unknown {w : Word} (unknown : ∀ op : Op, w ≠ op.word) : opOfWord w = none :=
  List.find?_eq_none.mpr fun op _ same => unknown op (eq_of_beq same).symm

theorem word_of_opOfWord {w : Word} {op : Op} (named : opOfWord w = some op) : w = op.word :=
  (eq_of_beq (List.find?_some (p := fun o : Op => o.word == w) named)).symm

section Idle
variable {p : Parser} (idle : p.underWay = false) (x : Exec) (words : List Word) (f : Framing)
include idle

/-- A name with arguments to come (R153). -/
theorem takeOp_name {op : Op} (some : op.arity ≠ 0) :
    takeOp op.word (x.before words f p) = .quiet (x.before words f (.argWait op [])) := by
  rw [takeOp_idle idle, takeName, opOfWord_word]
  exact if_neg some

/-- A name with no arguments (R153). -/
theorem takeOp_name_alone {op : Op} (none : op.arity = 0) :
    takeOp op.word (x.before words f p) = .ready (.command op []) (x.before words f (parserAtRest f)) := by
  rw [takeOp_idle idle, takeName, opOfWord_word]
  exact if_pos none

/-- A word that names nothing (R153). -/
theorem takeOp_unknown {w : Word} (unknown : ∀ op : Op, w ≠ op.word) :
    takeOp w (x.before words f p) = .refuse .unknownOp := by
  rw [takeOp_idle idle, takeName, opOfWord_unknown unknown]

end Idle

section Arguments
variable (x : Exec) (words : List Word) (f : Framing)

/-- An argument that is not the last (R154). -/
theorem takeOp_argument {op : Op} {args : List Word} (w : Word) (short : args.length + 1 < op.arity) :
    takeOp w (x.before words f (.argWait op args)) = .quiet (x.before words f (.argWait op (args ++ [w]))) :=
  if_pos (by rwa [List.length_append])

/-- The last argument (R154). -/
theorem takeOp_last {op : Op} {args : List Word} (w : Word) (notCue : op ≠ .atCue) (all : args.length + 1 = op.arity) :
    takeOp w (x.before words f (.argWait op args)) =
      .ready (.command op (args ++ [w])) (x.before words f (parserAtRest f)) := by
  have full : ¬(args ++ [w]).length < op.arity := by rw [List.length_append]; exact (Nat.lt_irrefl _ <| all ▸ ·)
  simp only [takeOp, Exec.before, takeArgument, if_neg full]
  cases op with
  | atCue => exact absurd rfl notCue
  | _ => rfl

/-- The last of AT's own arguments (R99). -/
theorem takeOp_cue (high low batch : Word) :
    takeOp batch (x.before words f (.argWait .atCue [high, low])) =
      .quiet (x.before words f (.cueWait high low batch none)) := rfl

/-- The name of the deferred command (R99, R100). -/
theorem takeOp_deferred (high low batch : Word) {op : Op} (deferrable : op.deferrable = true) :
    takeOp op.word (x.before words f (.cueWait high low batch none)) =
      .quiet (x.before words f (.cueWait high low batch (some (op, [])))) := by
  simp only [takeOp, Exec.before, takeCueWord, opOfWord_word, if_pos deferrable]

/-- A word that names no deferrable command (R100). -/
theorem takeOp_not_deferrable (high low batch : Word) {w : Word} (no : ∀ op : Op, op.deferrable = true → w ≠ op.word) :
    takeOp w (x.before words f (.cueWait high low batch none)) = .refuse .argMissing := by
  simp only [takeOp, Exec.before, takeCueWord]
  split
  · rfl
  next op named => exact if_neg fun deferrable => no op deferrable (word_of_opOfWord named)

/-- An argument of the deferred command that is not the last (R99). -/
theorem takeOp_deferred_argument (high low batch : Word) {op : Op} {args : List Word} (w : Word)
    (short : args.length + 1 < op.arity) :
    takeOp w (x.before words f (.cueWait high low batch (some (op, args)))) =
      .quiet (x.before words f (.cueWait high low batch (some (op, args ++ [w])))) :=
  if_pos (by rwa [List.length_append])

/-- The last argument of the deferred command (R99). -/
theorem takeOp_deferred_last (high low batch : Word) {op : Op} {args : List Word} {w : Word} {d : Deferred}
    (all : args.length + 1 = op.arity) (made : deferredOf op (args ++ [w]) = some d) :
    takeOp w (x.before words f (.cueWait high low batch (some (op, args)))) =
      .ready (.cued high low batch d) (x.before words f (parserAtRest f)) := by
  have full : ¬(args ++ [w]).length < op.arity := by rw [List.length_append]; exact (Nat.lt_irrefl _ <| all ▸ ·)
  simp only [takeOp, Exec.before, takeCueWord, if_neg full, made]

end Arguments

/-- Arguments short of a command's number are taken one by one. -/
theorem takes_arguments {op : Op} : ∀ (more args : List Word), args.length + more.length < op.arity →
    Takes (.argWait op args) more (.argWait op (args ++ more))
  | [], args, _ => by rw [List.append_nil]; exact .nil _
  | w :: more, args, short => by
    simp only [List.length_cons] at short
    have rest := takes_arguments (op := op) more (args ++ [w]) (by simp only [List.length_append, List.length_singleton]; omega)
    rw [List.append_assoc] at rest
    exact .cons (fun x words f => takeOp_argument x words f w (by omega)) rest

/-- Arguments short of the deferred command's number are taken one by one. -/
theorem takes_deferred_arguments (high low batch : Word) {op : Op} : ∀ (more args : List Word),
    args.length + more.length < op.arity →
      Takes (.cueWait high low batch (some (op, args))) more (.cueWait high low batch (some (op, args ++ more)))
  | [], args, _ => by rw [List.append_nil]; exact .nil _
  | w :: more, args, short => by
    simp only [List.length_cons] at short
    have rest := takes_deferred_arguments high low batch (op := op) more (args ++ [w])
      (by simp only [List.length_append, List.length_singleton]; omega)
    rw [List.append_assoc] at rest
    exact .cons (fun x words f => takeOp_deferred_argument x words f high low batch w (by omega)) rest

section FromIdle
variable {p : Parser} (idle : p.underWay = false)
include idle

/-- A name and arguments short of its number. -/
theorem takes_name {op : Op} {args : List Word} (short : args.length < op.arity) :
    Takes p (op.word :: args) (.argWait op args) :=
  .cons (fun x words f => takeOp_name idle x words f (by omega)) (takes_arguments args [] (by simpa using short))

/-- AT with its three arguments. -/
theorem takes_cue (high low batch : Word) :
    Takes p [Op.atCue.word, high, low, batch] (.cueWait high low batch none) :=
  (takes_name (op := .atCue) (args := [high, low]) idle (Nat.lt_succ_self 2)).append
    (.cons (fun x words f => takeOp_cue x words f high low batch) (.nil _))

/-- AT with its three arguments, the name of a deferrable command and arguments short of that command's number. -/
theorem takes_deferred (high low batch : Word) {op : Op} {args : List Word} (deferrable : op.deferrable = true)
    (short : args.length < op.arity) :
    Takes p (Op.atCue.word :: high :: low :: batch :: op.word :: args) (.cueWait high low batch (some (op, args))) :=
  (takes_cue idle high low batch).append
    (.cons (fun x words f => takeOp_deferred x words f high low batch deferrable)
      (takes_deferred_arguments high low batch args [] (by simpa using short)))

/-- Words that begin a command and do not complete it leave it under way. -/
theorem takes_cutShort {ops : List Word} (short : cutShort ops) : ∃ q, Takes p ops q ∧ q.underWay = true := by
  obtain ⟨op, args, _, rfl, few⟩ | ⟨args, rfl, few⟩ | ⟨high, low, batch, op, args, deferrable, few, rfl⟩ := short
  · exact ⟨_, takes_name idle few, rfl⟩
  · rcases Nat.lt_or_eq_of_le few with few | three
    · exact ⟨_, takes_name (op := .atCue) idle few, rfl⟩
    · obtain ⟨high, low, batch, rfl⟩ := List.length_eq_three.mp three
      exact ⟨_, takes_cue idle high low batch, rfl⟩
  · exact ⟨_, takes_deferred idle high low batch deferrable few, rfl⟩

/-- A name with all its arguments brings its command to hand. -/
theorem reads_command {op : Op} {args : List Word} (notCue : op ≠ .atCue) (all : args.length = op.arity) (x : Exec)
    (more : List Word) {f g : Framing} {b : List Word} (carried : OpWords f b (op.word :: args) g) :
    ∃ y, ReadsOn (x.before (b ++ more) f p) y ∧
      look y = .ready (.command op args) (x.before more g (parserAtRest g)) := by
  rcases List.eq_nil_or_concat args with rfl | ⟨init, last, rfl⟩
  · obtain ⟨y, reads, looked⟩ := reads_takes_then (.nil p) op.word x more carried
    exact ⟨y, reads, looked.trans (takeOp_name_alone idle _ _ _ all.symm)⟩
  · rw [List.concat_eq_append, List.length_append] at all
    rw [List.concat_eq_append] at carried ⊢
    obtain ⟨y, reads, looked⟩ := reads_takes_then (takes_name (args := init) idle (by rw [← all]; exact Nat.lt_succ_self _))
      last x more carried
    exact ⟨y, reads, looked.trans (takeOp_last _ _ _ last notCue all)⟩

end FromIdle

/-- The commands that AT can defer have their arguments. -/
theorem deferredOf_eq_some {op : Op} {args : List Word} {d : Deferred} (made : deferredOf op args = some d) :
    op.deferrable = true ∧ args.length = op.arity ∧ args ≠ [] := by
  unfold deferredOf at made
  split at made
  case h_7 => cases made
  all_goals exact ⟨rfl, rfl, nofun⟩

/-- AT with its deferred command comes to hand. -/
theorem reads_cued {p : Parser} (idle : p.underWay = false) (high low batch : Word) {op : Op} {d : Deferred}
    {args : List Word} (made : deferredOf op args = some d) (x : Exec) (more : List Word) {f g : Framing}
    {b : List Word} (carried : OpWords f b (Op.atCue.word :: high :: low :: batch :: op.word :: args) g) :
    ∃ y, ReadsOn (x.before (b ++ more) f p) y ∧
      look y = .ready (.cued high low batch d) (x.before more g (parserAtRest g)) := by
  obtain ⟨deferrable, all, some⟩ := deferredOf_eq_some made
  obtain ⟨init, last, rfl⟩ := (List.eq_nil_or_concat args).resolve_left some
  rw [List.concat_eq_append, List.length_append] at all
  rw [List.concat_eq_append] at carried made
  obtain ⟨y, reads, looked⟩ := reads_takes_then
    (takes_deferred (args := init) idle high low batch deferrable (by rw [← all]; exact Nat.lt_succ_self _)) last x more
    carried
  exact ⟨y, reads, looked.trans (takeOp_deferred_last _ _ _ high low batch all made)⟩

/-- OP words end under a marker's framing or in bulk. -/
theorem opWords_framing {f g : Framing} {b ws : List Word} (carried : OpWords f b ws g) (start : f = .marker ∨ f = .bulkOp) :
    g = .marker ∨ g = .bulkOp := by
  induction carried with
  | none => exact start
  | single _ _ _ _ _ _ _ _ ih => exact ih (.inl rfl)
  | bulk _ _ _ _ _ _ _ _ ih => exact ih (.inr rfl)
  | word _ _ _ _ _ ih => exact ih (.inr rfl)

theorem parserAtRest_opWords {g : Framing} (ends : g = .marker ∨ g = .bulkOp) :
    parserAtRest g = if g = .marker then .wordWait else .bulkOp := by
  rcases ends with rfl | rfl <;> rfl

/-- A DATA word behind its marker, with no command under way, comes to hand (R152). -/
theorem reads_data (x : Exec) {p : Parser} (idle : p.underWay = false) (m w : Word) (more : List Word)
    (isData : m.getLsbD 14 = true) : ∃ y, ReadsOn (x.before (m :: w :: more) .marker p) y ∧
      look y = .ready (.data w) (if m.getLsbD 15 then x.before more .marker .wordWait else x.before more .bulkData .bulkData) := by
  refine ⟨_, .word _ _ _ (look_marker x m _ p) (.here _), ?_⟩
  rw [if_neg (by rw [idle]; exact Bool.false_ne_true), framingOf_data isData]
  cases m.getLsbD 15 with
  | true | false => rfl

/-- A DATA word while a command is under way is refused (R154). -/
theorem reads_data_underWay (x : Exec) {p : Parser} (underWay : p.underWay = true) (m w : Word) (more : List Word)
    (isData : m.getLsbD 14 = true) :
    ∃ y, ReadsOn (x.before (m :: w :: more) .marker p) y ∧ look y = .refuse .argMissing := by
  refine ⟨_, .word _ _ _ (look_marker x m _ p) (.here _), ?_⟩
  have refused (z : Exec) (still : z.parser.underWay = true) : takeData w z = .refuse .argMissing := if_pos still
  rw [if_pos underWay, framingOf_data isData]
  cases m.getLsbD 15 with
  | true | false => exact refused _ underWay

/-- Settles O51: what the words lead to, by the lemmas of `ReadsOn` above. -/
theorem parserReachesCommands : Obligations.ParserReachesCommands := by
  unfold Obligations.ParserReachesCommands
  intro first second third fourth catalogue
  refine ⟨fun op => by cases op <;> decide, fun x s t inBulk parser => ?_, fun x s start => ?_⟩
  · obtain ⟨tag, rest, _, _, executed, notes, reads⟩ := x
    cases inBulk; cases parser
    refine ⟨fun w more goes => ?_, fun goes => goes_finished (.here _) goes rfl⟩
    obtain ⟨atHand, same, edit⟩ := goes_ready (r := .data w) (.here _) goes rfl
    exact ⟨same, edit, atHand⟩
  intro goes left stopped
  have idle : x.parser.underWay = false := by
    obtain ⟨_, parser⟩ | ⟨_, parser⟩ := start <;> rw [parser] <;> rfl
  have framing : x.framing = .marker ∨ x.framing = .bulkOp := start.imp And.left And.left
  have ready {b ws more : List Word} {g : Framing} {r : Ready} {t : State} (carried : OpWords x.framing b ws g)
      (comes : ∃ y, ReadsOn (x.before (b ++ more) x.framing x.parser) y ∧
        look y = .ready r (x.before more g (parserAtRest g))) (onward : goes (b ++ more) t) :
      atReady r t = left more g ∧ t = { s with proc := t.proc } ∧ t.atEdit = r.isEdit := by
    obtain ⟨y, toY, looked⟩ := comes
    rw [parserAtRest_opWords (opWords_framing carried framing)] at looked
    exact goes_ready toY onward looked
  have refused {words : List Word} {code : Code}
      (comes : ∃ y, ReadsOn (x.before words x.framing x.parser) y ∧ look y = .refuse code) :
      stopped words (some code) := by
    obtain ⟨y, toY, looked⟩ := comes
    exact fun t onward => goes_refused toY onward looked
  refine ⟨fun words => ⟨_, proceed_goes _ s⟩, ?command, ?cued, ?data, ?unknown, ?short, ?shortThenMarker, ?notDeferrable,
    fun t onward => ?_, fun marked m t onward => ?_⟩
  case command =>
    intro op args b more f t notCue all carried onward
    exact ready carried (reads_command idle notCue all x more carried) onward
  case cued =>
    intro high low batch op d args b more f t made carried onward
    exact ready carried (reads_cued idle high low batch made x more carried) onward
  case data =>
    intro m w more t marked isData onward
    have parser : x.parser = .wordWait :=
      start.elim And.right fun ⟨inBulk, _⟩ => absurd (marked.symm.trans inBulk) nofun
    have before : x.before more .marker .wordWait = { x with rest := more } := by rw [← marked, ← parser]; rfl
    obtain ⟨y, toY, looked⟩ := reads_data x idle m w more isData
    rw [← marked] at toY
    rw [before] at looked
    obtain ⟨atHand, same, edit⟩ := goes_ready toY onward looked
    exact ⟨same, edit, atHand⟩
  case unknown =>
    intro w b more f unknown carried
    obtain ⟨y, toY, looked⟩ := reads_takes_then (.nil x.parser) w x more carried
    exact refused ⟨y, toY, looked.trans (takeOp_unknown idle _ _ _ unknown)⟩
  case short =>
    intro ops b f short carried t onward
    obtain ⟨q, takes, underWay⟩ := takes_cutShort idle short
    have reads := reads_takes takes x [] carried
    rw [List.append_nil] at reads
    exact (goes_finished reads onward (missing := true) (congrArg Look.finished underWay))
  case shortThenMarker =>
    intro ops b more m short carried
    obtain ⟨q, takes, underWay⟩ := takes_cutShort idle short
    refine ⟨fun t onward => ?_, fun d isData => ?_⟩
    · have reads := readsOn_trans (reads_takes takes x [m] carried) (.word _ _ _ (look_marker x m [] q) (.here _))
      rw [if_pos underWay] at reads
      exact goes_finished reads onward (missing := true) (congrArg Look.finished underWay)
    · obtain ⟨y, toY, looked⟩ := reads_data_underWay x underWay m d more isData
      exact refused ⟨y, readsOn_trans (reads_takes takes x (m :: d :: more) carried) toY, looked⟩
  case notDeferrable =>
    intro high low batch w b more f no carried
    obtain ⟨y, toY, looked⟩ := reads_takes_then (takes_cue idle high low batch) w x more carried
    exact refused ⟨y, toY, looked.trans (takeOp_not_deferrable _ _ _ high low batch no)⟩
  · exact goes_finished (.here _) onward (missing := false) (look_finished rfl idle)
  · have reads := ReadsOn.word _ _ _ (look_marker x m [] x.parser) (.here _)
    rw [← marked] at reads
    have atRest : (if x.parser.underWay then x.parser else parserAtRest (framingOf m)).underWay = false := by
      rw [if_neg (by rw [idle]; exact Bool.false_ne_true)]; exact parserAtRest_idle _
    exact goes_finished reads onward (missing := false) (look_finished rfl atRest)

end Sys2Proof.Machine
end
